-- ==== Sys2Proof/Word.lean ====
section
/-!
DEFINITION. The word types of the K9 and their plainest arithmetic: a general register is 64 bits
(07_instruction_lines.md R117), a vector register 512 bits, a byte 8 bits.
-/

namespace Sys2Proof

/-- A byte of memory or of a vault. -/
abbrev Byte := BitVec 8

/-- A 64-bit word: a general register, a predicate, a handle, a payload word (07_instruction_lines.md R117). -/
abbrev Word := BitVec 64

/-- A 512-bit vector register of 64 byte lanes, lane 0 lowest (07_instruction_lines.md R117). -/
abbrev Vec := BitVec 512

/-- The value of a word read as two's complement: SInt of 08_scalar_instructions.md R136. -/
def sInt (w : Word) : Int := w.toInt

/-- e modulo 2^64: wrap64 of 00_scope.md R8. -/
def wrap64 (e : Int) : Word := BitVec.ofInt 64 e

end Sys2Proof
end

