-- ==== Sys2Proof/Config.lean ====
section
/-!
DEFINITION. What the rules leave open, as constants without a body: nothing can be proved of their values. Each takes
the number of free values taken before it (State.clk.draws), or the number of the step (State.clk.ticks), or the
operands it depends on, as its argument. The log
entries that name them are notes/assumptions/4.md and those cited at each.
-/

namespace Sys2Proof

/-- Cycles that pass at a step beside the one every step takes (00_scope.md R5; log entry 4). -/
opaque Config.elapsed : Nat → Nat

/-- The delay field of a response before it saturates at 65,535 (03_crossbar.md R58; log entry 7). -/
opaque Config.delay : Nat → Nat

/-- Whether an instruction cache still holds a line it was not made to withdraw (07_instruction_lines.md R134; log
entry 8). -/
opaque Config.keepsLine : Nat → Bool

/-- Whether a hit of a shard cache meets a parity error (04_vaults.md R66; log entry 5). -/
opaque Config.parityError : Nat → Bool

/-- An element the rules leave unpredictable: of the accumulator a faulted matrix command named
(11_matrix_unit.md R229, R237; log entry 9). The arguments are the step and the element's index. -/
opaque Config.freeElement : Nat → Nat → BitVec 32

/-- A byte of an operand buffer that a matrix command reads before the copy that writes it is observed complete: an
unpredictable mix of old and new bytes (06_copy_and_galleys.md R107; log entry 9). The arguments are the step and the
byte's place. -/
opaque Config.mixedByte : Nat → Nat → Byte

/-- A word the rules leave open: TVAL of a trap for which no rule states it (log entry 14). -/
opaque Config.freeWord : Nat → Word

/-- A byte the rules leave unpredictable: of the overlapping part of a copy's destination, or read at another package
or a device (06_copy_and_galleys.md R102, 03_crossbar.md R51; log entries 10, 11). The arguments are the step and the
index of the byte. -/
opaque Config.freeByte : Nat → Nat → Byte

/-- Whether a row of a copy transfer that fails at another row was performed before it stopped: rows are performed in no
defined order (06_copy_and_galleys.md R102, R105; log entry 10). The arguments are the draw and the row. -/
opaque Config.copied : Nat → Nat → Bool

/-- Which of the rows of a copy transfer whose destinations share a byte is performed last there: the bytes of a
transfer are performed in no defined order (06_copy_and_galleys.md R102; log entry 10). The arguments are the draw and
the byte. The value is taken modulo the number of those rows. -/
opaque Config.performedLast : Nat → Nat → Nat

/-- The set of a shard cache a line falls in, before it is reduced to 8,192 sets (04_vaults.md R65; log entry 47). -/
opaque Config.cacheSet : Nat → Nat

/-- The set of a sharer directory a line falls in, before it is reduced to 16,384 sets (04_vaults.md R65; log entry
47). -/
opaque Config.dirSet : Nat → Nat

/-- An Ed25519 signature of 64 bytes by the attestation key over the bytes given (19_tenants_and_metering.md R366; log
entry 12). -/
opaque Config.sign : List Byte → Vector Byte 64

/-- The SHA-512 digest, of 64 bytes, of the bytes given (18_faults_and_preemption.md R360; log entry 12). -/
opaque Config.sha512 : List Byte → Vector Byte 64

/-- The coefficient of a shared block, in picojoules for a flit or an operation: calibrated, and written into the
security element when the part is made (19_tenants_and_metering.md R365; log entry 54). -/
opaque Config.coefficient : Nat → Nat

/-- The device identity that an attestation record holds (21_host_firmware_security.md R394; log entry 12). -/
opaque Config.deviceId : Word

/-- The hash of the image of a kind and version (21_host_firmware_security.md R394; log entry 12). -/
opaque Config.imageHash : Nat → Nat → Word

/-- Whether the monitor's event capability map holds an event of 0x8000 to 0xFFFF (20_debug.md R381; log entry 13). -/
opaque Config.hasEvent : Nat → Bool

end Sys2Proof
end

