-- ==== Sys2Proof/Syntax.lean ====
section
/-!
DEFINITION. The instruction set: one inductive Instr with one constructor for each row of spec/opcode_table.json,
and the operand types its constructors use.
-/

namespace Sys2Proof

/-- A general register x0 to x15 (07_instruction_lines.md R117). -/
abbrev XReg := Fin 16
/-- A vector register v0 to v7 (07_instruction_lines.md R117). -/
abbrev VReg := Fin 8
/-- A predicate p0 to p3 (07_instruction_lines.md R117). -/
abbrev PReg := Fin 4
/-- A forme handle h0 to h3 (07_instruction_lines.md R117). -/
abbrev HReg := Fin 4
/-- A token tk0 to tk7 (06_copy_and_galleys.md R109). -/
abbrev Tok := Fin 8
/-- A lookahead of 0 to 15 heads (07_instruction_lines.md R130). -/
abbrev Look := Fin 16

/-- Integer element types of the vector majors: i signed, n unsigned (07_instruction_lines.md R129). -/
inductive ITy where
  | i8 | i16 | i32 | i64 | n8 | n16 | n32 | n64
deriving DecidableEq, Repr

/-- Floating-point element types of the vector majors (07_instruction_lines.md R129). -/
inductive FTy where
  | f32 | f16 | bf16
deriving DecidableEq, Repr

/-- Element types of the vector majors (07_instruction_lines.md R129). -/
inductive VTy where
  | int (t : ITy)
  | flt (t : FTy)
deriving DecidableEq, Repr

/-- Predicate control of a vector form (10_vector_instructions.md R196): all lanes, or the lanes of a predicate with
inactive lanes kept (merge) or set to zero (zero). -/
inductive PCtl where
  | all
  | merge (p : PReg)
  | zero (p : PReg)
deriving DecidableEq, Repr

/-- Rounding modes (01_formats.md R23). -/
inductive RMode where
  | rne | rtz | rdn | rup | rna
deriving DecidableEq, Repr

/-- Scopes (00_scope.md R3). -/
inductive Scope where
  | handler | core | cluster | shard | die | package | system
deriving DecidableEq, Repr

/-- Sizes of a scalar load (07_instruction_lines.md R127): b h w d zero-extended, bs hs ws sign-extended. -/
inductive LoadSize where
  | b | h | w | d | bs | hs | ws
deriving DecidableEq, Repr

/-- Sizes of a scalar store (07_instruction_lines.md R127). -/
inductive StoreSize where
  | b | h | w | d
deriving DecidableEq, Repr

/-- Orderings of an AMO, and of a successful CAS (09_memory_instructions.md R180). -/
inductive AmoOrd where
  | relaxed | acquire | release | acqRel
deriving DecidableEq, Repr

/-- Operations of AMO (09_memory_instructions.md R181). -/
inductive AmoOp where
  | swap | add | and | or | xor | min | max | minN | maxN | incw | bfadd
deriving DecidableEq, Repr

/-- Operations of RED (09_memory_instructions.md R185). -/
inductive RedOp where
  | add | and | or | xor | min | max | minN | maxN | fadd32 | fmax32 | fmin32
deriving DecidableEq, Repr

/-- What a request that enters the crossbar asks of its target (03_crossbar.md R54, R60). -/
inductive PortOp where
  | load (bytes : Nat)
  | store (data : List Byte)
  | amo (op : AmoOp) (d8 : Bool) (c : Word)
  | cas (d8 : Bool) (exp new : Word)
  | red (op : RedOp) (d8 : Bool) (c : Word)
deriving DecidableEq, Repr

/-- A request at a requester port (03_crossbar.md R50, R54, R61): its connection row, request tag, requester's place
(0xFFFF when it is no unit of the package), device physical address, operation, whether the host posted it, the
replay bit and the number of reissues so far; of a slot, the virtual address its trap reports, its activation, context
and kernel slot. -/
structure PortReq where
  row : Nat
  tag : Nat
  src : Nat
  pa : Nat
  op : PortOp
  posted : Bool
  replay : Bool
  reissues : Nat
  va : Option Word := none
  act : Nat := 0
  ctx : Nat := 0
  kslot : Nat := 0
deriving DecidableEq, Repr

/-- What a vault access does at the owning core (04_vaults.md R74). -/
inductive VaultOp where
  | load (bytes : Nat)
  | store (data : List Byte)
  | tagRead
  | tagWrite (data : Option Word) (full : Bool)
  | atomic (op : AmoOp) (d8 : Bool) (c : Word)
deriving DecidableEq, Repr

/-- A message without its payload words is its header and span word (13_handlers_and_messages.md R263, R265); the
payload is eight words. The time of arrival at its core serves the age of R267. -/
structure Msg where
  wt : Nat
  eline : Nat
  cls : Nat
  kslot : Nat
  ctx : Nat
  src : Nat
  dest : Nat
  spkg : Nat
  hpkg : Nat
  dpkg : Nat
  payload : List Word
  arrived : Nat
deriving DecidableEq, Repr

/-- A statistics counter of a kernel slot and identifier (11_matrix_unit.md R252). -/
structure StatCnt where
  sid : Nat
  sat : Nat
  flush : Nat
  nan : Nat
deriving DecidableEq, Repr

/-- A migration descriptor (18_faults_and_preemption.md R355). -/
structure MigDesc where
  ctx : Nat
  pkg : Nat
  placement : List Nat
  postCopy : Bool
deriving DecidableEq, Repr

/-- The pointers of a core's spill ring, the arrival times of its messages, and those ahead of them, as MOVE carries them
(18_faults_and_preemption.md R351). -/
structure RingImage where
  core : Nat
  head : Nat
  tail : Nat
  times : List Nat
  ahead : List Msg
deriving DecidableEq, Repr

/-- A queued copy transfer, as MOVE carries it (18_faults_and_preemption.md R351): the places count in its cluster. -/
structure CopyImage where
  id : Nat
  place : Nat
  act : Nat
  regs : Vector Word 8
  tsid : Nat
  ctx : Nat
  kslot : Nat
  seq : Nat
deriving DecidableEq, Repr

/-- An entry of the fault-wait list, as MOVE carries it (18_faults_and_preemption.md R351). -/
structure WaitImage where
  core : Nat
  msg : Msg
  tsid : Nat
  addr : Nat
  act : Nat
  covered : Bool
deriving DecidableEq, Repr

/-- A withheld return, as MOVE carries it (18_faults_and_preemption.md R351). -/
structure ReturnImage where
  act : Nat
  ctx : Nat
  kslot : Nat
  hpkg : Nat
  wt : Nat
deriving DecidableEq, Repr

/-- What a context leaves on a cluster, as MOVE carries it (18_faults_and_preemption.md R351, R355): its vault bytes,
empty words and words with a double-bit error by offset, from lo up to hi; the windows of its cores; of each core's matrix
unit the buffers and the accumulators; the spill rings, queued copies, fault-wait list and withheld returns. -/
structure ClusImage where
  lo : Nat
  hi : Nat
  bytes : List (Nat × Byte)
  empty : List Nat
  poison : List Nat
  rings : List RingImage
  copies : List CopyImage
  waits : List WaitImage
  returns : List ReturnImage
  notices : Nat
  wins : List (Nat × Vector Word 8)
  bufs : List (Nat × List (Nat × Byte))
  accs : List (Nat × List (Nat × BitVec 32))
  events : List (Word × Word)
  galleys : List Nat
deriving DecidableEq, Repr

/-- The registers of a command queue, as MOVE carries them (18_faults_and_preemption.md R355). -/
structure QueueImage where
  q : Nat
  base : Nat
  cbase : Nat
  szlg : Nat
  prio : Nat
  err : Bool
  en : Bool
  prod : BitVec 32
  cons : BitVec 32
deriving DecidableEq, Repr

/-- A counter of a profiling session, as MOVE carries it (19_tenants_and_metering.md R369). -/
structure CounterImage where
  cix : Nat
  evt : Option Nat
  count : Nat
  armed : Bool
  per : Nat
  left : Nat
deriving DecidableEq, Repr

/-- What MOVE sends of a context (18_faults_and_preemption.md R355; 19_tenants_and_metering.md R369): its descriptor,
its function, its record, its owner map, the queues' registers, what it left on its clusters in placement order, the
host-read latch, the profiling session with its ring, and under pre-copy its pages. -/
structure CtxImage where
  desc : MigDesc
  vf : Nat
  words : Vector Word 8
  owners : List (Nat × Nat)
  queues : List QueueImage
  clusters : List ClusImage
  latch : Option (Nat × BitVec 32)
  isOpen : Bool
  st : Nat
  ring : Word
  prod : BitVec 32
  absents : List Nat
  counters : List CounterImage
  pages : List (Nat × Byte)
deriving DecidableEq, Repr

/-- What an Odnerlink flit carries (21_host_firmware_security.md R386): a message, a memory request of
another package or its response, refusal, poison or address error, a weight return, a borrow or its answer, a loss
notice or statistics counts with their kernel's home package (13_handlers_and_messages.md R265), a moved context
(18_faults_and_preemption.md R355), an acknowledgement, the request to send a flit again, or word that one is retired. -/
inductive FlitBody where
  | msg (m : Msg)
  | memReq (q : PortReq)
  | memResp (tag : Nat) (data : List Byte)
  | memRefuse (tag : Nat)
  | memPoison (tag : Nat)
  | memError (tag : Nat)
  | memHold (tag : Nat)           -- a hold response (03_crossbar.md R63)
  | ret (ctx kslot hpkg amount : Nat)
  | borrow (ctx kslot hpkg amount place spkg act : Nat)
  | grant (pkg ctx kslot hpkg place amount act : Nat)
  | refuse (pkg ctx kslot place amount act : Nat)
  | loss (ctx kslot hpkg amount cause place : Nat)
  | stats (ctx kslot hpkg : Nat) (cnt : List StatCnt)
  | context (c : CtxImage)
  | void                          -- a message killed before its port retired it (18_faults_and_preemption.md R346)
  | ack (seq : Nat)
  | resend (seq : Nat)            -- it arrived with a CRC error
  | leave (pkg ctx kslot hpkg : Nat) -- the members of a kernel leave the formes of a package (15_formes.md R301)
  | retired (seq : Nat)           -- its port has retired it (14_weight_and_quiescence.md R283)
deriving DecidableEq, Repr

/-- A flit: sequence number of 12 bits, source package, whether its CRC is right, and its body
(21_host_firmware_security.md R386, R387). -/
structure Flit where
  seq : Nat
  src : Nat
  crcGood : Bool
  body : FlitBody
deriving DecidableEq, Repr

/-- A firmware image (21_host_firmware_security.md R389): the fields of its 128-byte header, the hash of the public key it
is checked with, and whether Ed25519 verification with that key accepts its signature over the header's first 64 bytes and
the body. -/
structure Image where
  kind : Nat
  length : Nat := 0
  version : Nat
  level : Nat
  lowTable : Nat
  highTable : Nat
  reserved : List Byte := List.replicate 40 0
  signature : List Byte := List.replicate 64 0
  keyHash : BitVec 512 := 0
  signatureGood : Bool
deriving DecidableEq, Repr

/-- What a sensor finds (21_host_firmware_security.md R395): the supply's deviation from nominal in tenths of a percent, a
die's temperature in degrees, a clock glitch, the loss of a die's clock, a break of the package mesh, now or while the
package was without power. -/
inductive Sensed where
  | supply (tenths : Nat)
  | temperature (die celsius : Nat)
  | clockGlitch
  | clockLoss (die : Nat)
  | meshBreak (unpowered : Bool)
deriving DecidableEq, Repr

/-- What a block shared by all partitions drew in a millisecond (19_tenants_and_metering.md R365), microjoules: its
number (0 the crossbar, 1 the host port, 2 to 13 the Odnerlink ports, 14 to 21 the lateral networks, 22 to 29 the forme
engines, 30 and 31 the firmware complexes; log entry 54), the measured energy, and the flits or operations of each
partition. -/
structure BlockUse where
  block : Nat
  measured : Nat
  counts : List (Nat × Nat)
deriving DecidableEq, Repr

/-- What the power monitors measured in a millisecond (R365), microjoules: of each cluster with its vault banks, of
each shard's cache, of each memory port with its feeders and modules, of each shared block, and of the hub for static
power. -/
structure EnergyUse where
  clusters : List (Nat × Nat)
  shards : List (Nat × Nat)
  ports : List (Nat × Nat)
  blocks : List BlockUse
  static : Nat
deriving DecidableEq, Repr

/-- A read of a profiling counter by the host (18_faults_and_preemption.md R357): of one of its 4-byte halves, or of
all 8 bytes at once. -/
inductive CntRead where
  | half (off : Nat)
  | whole (off : Nat)
deriving DecidableEq, Repr

/-- What boot finds (21_host_firmware_security.md R390): the first-stage image of each copy in the boot flash, the
monitor image in storage, the package number of this package and those of the span, and the duration of the reset in
tenths of a second (19_tenants_and_metering.md R368). -/
structure BootSource where
  stageA : Image
  stageB : Image
  monitor : Option Image
  pkg : Nat
  span : List Nat
  resetTenths : Nat
  policies : List Image := []     -- policy images in storage (19_tenants_and_metering.md R363)
deriving DecidableEq, Repr

/-- What a policy image chooses for its function at a slice period (19_tenants_and_metering.md R363): cluster-slots
beyond its minimum, its place in the order of slices, where it chooses one, and priorities of its queues. -/
structure PolicyChoice where
  fn : Nat
  slots : Nat
  turn : Option Nat := none
  prio : List (Nat × Nat) := []
deriving DecidableEq, Repr

/-- Registers of configuration space, and of a function's base address register, that a REGISTER_WRITE reaches: each
with the number of what it belongs to. The rules are named with the fields they have. -/
inductive CReg where
  | pxlate (part : Nat)          -- R41
  | sprt (n : Nat)               -- R265
  | frmquota (die part : Nat)    -- R289
  | frmarea (part : Nat)         -- R289
  | padm (part : Nat)            -- R332
  | pebud (part : Nat)           -- R334
  | perem (part : Nat)           -- R334
  | dpctl (die : Nat)            -- R335
  | plim                         -- R335
  | dpgate (die : Nat)           -- R339
  | precfg (part : Nat)          -- R347
  | valloc (ctx : Nat)           -- R347
  | vfcfg (vf : Nat)             -- R361
  | pslice (part : Nat)          -- R362
  | pscmd (vf : Nat)             -- R381
  | peshare (part : Nat)         -- R365
  | dbgctl (clus : Nat)          -- R371
  | dbp (clus n : Nat)           -- R376
  | dbpctx (clus : Nat)          -- R376
  | trccfg (clus : Nat)          -- R377
  | qbase (vf q : Nat)           -- R325
  | qcbase (vf q : Nat)          -- R325
  | psring (vf : Nat)            -- R381
  | epsel                        -- R367
  | svcEntry (clus : Nat)        -- R263
  | ctxWord (ctx w : Nat)        -- R259
  | placement (ctx clus : Nat)   -- R433: a nonzero value adds the cluster, zero removes it
deriving DecidableEq, Repr


/-- The operations and events of the K9: one constructor for each row of the opcode table, named after its
mnemonic. The first part are the instructions of a handler slot, the second the operations and events of the
engines, the hub, the host, the monitor and the debug module. Places, clusters, cores and list indices are plain
numbers: a number that names nothing makes the event change nothing. -/
inductive Instr where
  /-- MOV (R139): Copies xB into xA. -/
  | mov (a b : XReg)
  /-- ADD (R139): Adds xB into xA, two operands. -/
  | add (a b : XReg)
  /-- SUB (R139): Subtracts xB from xA, two operands. -/
  | sub (a b : XReg)
  /-- AND (R139): Bitwise AND of xA with xB. -/
  | and (a b : XReg)
  /-- OR (R139): Bitwise OR of xA with xB. -/
  | or (a b : XReg)
  /-- XOR (R139): Bitwise XOR of xA with xB. -/
  | xor (a b : XReg)
  /-- ADDQ (R139): Adds a 4-bit signed immediate to xA. -/
  | addq (a : XReg) (imm : BitVec 4)
  /-- SHLQ (R139): Shifts xA left by a 4-bit immediate. -/
  | shlq (a : XReg) (k : Fin 16)
  /-- SHRQ (R139): Shifts xA right logically by a 4-bit immediate. -/
  | shrq (a : XReg) (k : Fin 16)
  /-- ALU3_ADD (R140): xA gets xB + xC. -/
  | alu3Add (a b c : XReg)
  /-- ALU3_SUB (R140): xA gets xB − xC. -/
  | alu3Sub (a b c : XReg)
  /-- ALU3_AND (R140): xA gets xB & xC. -/
  | alu3And (a b c : XReg)
  /-- ALU3_OR (R140): xA gets xB | xC. -/
  | alu3Or (a b c : XReg)
  /-- ALU3_XOR (R140): xA gets xB ^ xC. -/
  | alu3Xor (a b c : XReg)
  /-- ANDN (R140): xA gets xB & ~xC. -/
  | andn (a b c : XReg)
  /-- SHL (R140): Shifts xB left by xC[5:0]. -/
  | shl (a b c : XReg)
  /-- SHR (R140): Shifts xB right logically by xC[5:0]. -/
  | shr (a b c : XReg)
  /-- SAR (R140): Shifts xB right arithmetically by xC[5:0]. -/
  | sar (a b c : XReg)
  /-- ROT (R140): Rotates xB right by xC[5:0]. -/
  | rot (a b c : XReg)
  /-- MIN (R140): Signed minimum of xB and xC. -/
  | min (a b c : XReg)
  /-- MAX (R140): Signed maximum of xB and xC. -/
  | max (a b c : XReg)
  /-- MIN_N (R140): Unsigned minimum of xB and xC. -/
  | minN (a b c : XReg)
  /-- MAX_N (R140): Unsigned maximum of xB and xC. -/
  | maxN (a b c : XReg)
  /-- CMPEQ (R140): xA gets 1 if xB equals xC, else 0. -/
  | cmpeq (a b c : XReg)
  /-- CMPLT (R140): Signed less-than comparison of xB and xC. -/
  | cmplt (a b c : XReg)
  /-- CMPLT_N (R141): Unsigned less-than comparison. -/
  | cmpltN (a b c : XReg)
  /-- CMPLE (R141): Signed less-or-equal comparison. -/
  | cmple (a b c : XReg)
  /-- CMPLE_N (R141): Unsigned less-or-equal comparison. -/
  | cmpleN (a b c : XReg)
  /-- CMPNE (R141): Not-equal comparison. -/
  | cmpne (a b c : XReg)
  /-- MUL (R141): Low 64 bits of xB × xC. -/
  | mul (a b c : XReg)
  /-- MULH (R141): High 64 bits of the signed product. -/
  | mulh (a b c : XReg)
  /-- MULH_N (R141): High 64 bits of the unsigned product. -/
  | mulhN (a b c : XReg)
  /-- DIV (R142): Signed division truncating toward zero, long-latency. -/
  | div (a b c : XReg) (l : Look)
  /-- DIV_N (R142): Unsigned division, long-latency. -/
  | divN (a b c : XReg) (l : Look)
  /-- REM (R142): Signed remainder, long-latency. -/
  | rem (a b c : XReg) (l : Look)
  /-- REM_N (R142): Unsigned remainder, long-latency. -/
  | remN (a b c : XReg) (l : Look)
  /-- CLMUL (R143): Low half of the carry-less product. -/
  | clmul (a b c : XReg)
  /-- CLMULH (R143): High half of the carry-less product. -/
  | clmulh (a b c : XReg)
  /-- BEXT (R143): Gathers the bits of xB under mask xC into the low end. -/
  | bext (a b c : XReg)
  /-- BDEP (R143): Scatters the low bits of xB to the positions of mask xC. -/
  | bdep (a b c : XReg)
  /-- CLZ (R144): Counts the leading zero bits of xB. -/
  | clz (a b : XReg)
  /-- CTZ (R144): Counts the trailing zero bits of xB. -/
  | ctz (a b : XReg)
  /-- POPC (R144): Counts the set bits of xB. -/
  | popc (a b : XReg)
  /-- BREV (R144): Reverses the bits of xB. -/
  | brev (a b : XReg)
  /-- SEXT_B (R144): Sign-extends the low byte. -/
  | sextB (a b : XReg)
  /-- SEXT_H (R144): Sign-extends the low 16 bits. -/
  | sextH (a b : XReg)
  /-- SEXT_W (R144): Sign-extends the low 32 bits. -/
  | sextW (a b : XReg)
  /-- ZEXT_B (R144): Zero-extends the low byte. -/
  | zextB (a b : XReg)
  /-- ZEXT_H (R144): Zero-extends the low 16 bits. -/
  | zextH (a b : XReg)
  /-- ZEXT_W (R144): Zero-extends the low 32 bits. -/
  | zextW (a b : XReg)
  /-- NOT (R144): Bitwise complement of xB. -/
  | not (a b : XReg)
  /-- NEG (R144): Two's-complement negation of xB. -/
  | neg (a b : XReg)
  /-- ABS (R144): Absolute value of xB. -/
  | abs (a b : XReg)
  /-- TAGGET (R144): Reads the tag byte of xB. -/
  | tagget (a b : XReg)
  /-- BSWAP (R144): Reverses the bytes of xB. -/
  | bswap (a b : XReg)
  /-- ADDI (R146): Adds a 20-bit signed immediate. -/
  | addi (a b : XReg) (imm : BitVec 20)
  /-- ANDI (R146): ANDs with an immediate. -/
  | andi (a b : XReg) (imm : BitVec 20)
  /-- ORI (R146): ORs with an immediate. -/
  | ori (a b : XReg) (imm : BitVec 20)
  /-- XORI (R146): XORs with an immediate. -/
  | xori (a b : XReg) (imm : BitVec 20)
  /-- CMPEQI (R146): Compares for equality with an immediate. -/
  | cmpeqi (a b : XReg) (imm : BitVec 20)
  /-- CMPLTI (R146): Signed less-than comparison with an immediate. -/
  | cmplti (a b : XReg) (imm : BitVec 20)
  /-- CMPLTI_N (R146): Unsigned less-than comparison with an immediate. -/
  | cmpltiN (a b : XReg) (imm : BitVec 20)
  /-- MULI (R146): Multiplies by an immediate. -/
  | muli (a b : XReg) (imm : BitVec 20)
  /-- ADDAI (R146): Adds an immediate to a pointer, keeping its tag. -/
  | addai (a b : XReg) (imm : BitVec 20)
  /-- MINI (R146): Signed minimum with an immediate. -/
  | mini (a b : XReg) (imm : BitVec 20)
  /-- MAXI (R146): Signed maximum with an immediate. -/
  | maxi (a b : XReg) (imm : BitVec 20)
  /-- SHLI (R146): Shifts left by an immediate. -/
  | shli (a b : XReg) (k : Fin 64)
  /-- SHRI (R146): Shifts right logically by an immediate. -/
  | shri (a b : XReg) (k : Fin 64)
  /-- SARI (R146): Shifts right arithmetically by an immediate. -/
  | sari (a b : XReg) (k : Fin 64)
  /-- ROTI (R146): Rotates right by an immediate. -/
  | roti (a b : XReg) (k : Fin 64)
  /-- TAGSET (R146): Replaces the tag of a pointer. -/
  | tagset (a b : XReg) (tag : BitVec 8)
  /-- LI_16 (R147): Loads a sign-extended 16-bit immediate. -/
  | li16 (a : XReg) (imm : BitVec 16)
  /-- LI_32 (R147): Loads a sign-extended 32-bit immediate. -/
  | li32 (a : XReg) (imm : BitVec 32)
  /-- LI_64 (R147): Loads a 64-bit immediate. -/
  | li64 (a : XReg) (imm : BitVec 64)
  /-- ADDA (R148): Adds a scaled register to a pointer, keeping its tag. -/
  | adda (a b c : XReg) (sh : Fin 4)
  /-- SEL (R149): Selects xB or xD by condition xC. -/
  | sel (a b c d : XReg)
  /-- BR (R152): Unconditional PC-relative branch. -/
  | br (off : BitVec 20)
  /-- BEQ (R152): Branches if xA equals xB. -/
  | beq (a b : XReg) (off : BitVec 20)
  /-- BNE (R152): Branches if xA differs from xB. -/
  | bne (a b : XReg) (off : BitVec 20)
  /-- BLT (R152): Branches if xA is signed-less than xB. -/
  | blt (a b : XReg) (off : BitVec 20)
  /-- BGE (R152): Branches if xA is signed-greater-or-equal to xB. -/
  | bge (a b : XReg) (off : BitVec 20)
  /-- BLT_N (R152): Branches if xA is unsigned-less than xB. -/
  | bltN (a b : XReg) (off : BitVec 20)
  /-- BGE_N (R152): Branches if xA is unsigned-greater-or-equal to xB. -/
  | bgeN (a b : XReg) (off : BitVec 20)
  /-- BZ (R152): Branches if xA is zero. -/
  | bz (a : XReg) (off : BitVec 20)
  /-- BNZ (R152): Branches if xA is nonzero. -/
  | bnz (a : XReg) (off : BitVec 20)
  /-- CALL (R152): Writes the link register and branches. -/
  | call (a : XReg) (off : BitVec 20)
  /-- LOOP (R152): Decrements a counter and branches while it is nonzero. -/
  | loop (a : XReg) (off : BitVec 20)
  /-- JR (R152): Jumps to the head address in xB. -/
  | jr (b : XReg)
  /-- RDSR (R153): Reads a special register. -/
  | rdsr (a : XReg) (n : Fin 256)
  /-- WRSR (R155): Writes a special register after the checks of R119. -/
  | wrsr (n : Fin 256) (a : XReg)
  /-- RDCNT (R154): Reads a counter in one access. -/
  | rdcnt (a : XReg) (n : Fin 256)
  /-- SWPSR (R155): Swaps a special register with xB. -/
  | swpsr (a : XReg) (n : Fin 256) (b : XReg)
  /-- TRAP (R157): Takes a software trap, cause 0x11, with a code. -/
  | trap (code : Fin 256)
  /-- SVC (R157): Supervisor call trap, cause 0x11. -/
  | svc (code : Fin 256)
  /-- RETT (R158): Returns from a trap, re-executing TPC if REX is set. -/
  | rett
  /-- DBRK (R157): Debug break: traps with cause 0x12, or halts the slot under halt-on-break. -/
  | dbrk
  /-- HALT (R162): Puts the slot into the halted state. -/
  | halt
  /-- WFI (R162): Stalls the slot until an event reaches its core. -/
  | wfi
  /-- TLBW (R159): Writes a translation entry or answers a translation request with an outcome. -/
  | tlbw (a b c : XReg)
  /-- TLBI (R160): Invalidates matching TLB entries in the issuing cluster. -/
  | tlbi (a : XReg)
  /-- SDOWN (R160): Package-wide shoot-down of matching translations; stalls until acknowledged. -/
  | sdown (a : XReg)
  /-- IPREF (R161): Prefetches instruction lines as a hint. -/
  | ipref (a b : XReg) (lvl : Fin 2)
  /-- IPIN (R161): Fetches and pins instruction lines. -/
  | ipin (a b : XReg) (lvl : Fin 2)
  /-- IUNPIN (R161): Releases pinned instruction lines. -/
  | iunpin (a b : XReg) (lvl : Fin 2)
  /-- EVQ (R163): Takes the oldest record from the cluster's event queue. -/
  | evq (a b : XReg)
  /-- LD (R170): Scalar load from main memory, optionally acquire. -/
  | ld (sz : LoadSize) (acq : Bool) (a b : XReg) (l : Look) (disp : BitVec 20)
  /-- LDV (R170): Scalar load from the vault. -/
  | ldv (sz : LoadSize) (acq : Bool) (a b : XReg) (l : Look) (disp : BitVec 20)
  /-- ST (R170): Scalar store to main memory, optionally release. -/
  | st (sz : StoreSize) (rel : Bool) (a b : XReg) (disp : BitVec 20)
  /-- STV (R170): Scalar store to the vault. -/
  | stv (sz : StoreSize) (rel : Bool) (a b : XReg) (disp : BitVec 20)
  /-- LDF (R171): Waits for full, loads the word, and leaves the tag full. -/
  | ldf (a b : XReg) (l : Look) (disp : BitVec 20)
  /-- LDFE (R171): Waits for full, loads the word, and sets the tag empty. -/
  | ldfe (a b : XReg) (l : Look) (disp : BitVec 20)
  /-- TAGRD (R171): Reads the full/empty tag. -/
  | tagrd (a b : XReg) (l : Look) (disp : BitVec 20)
  /-- STE (R171): Waits for empty, stores the word, and sets the tag full. -/
  | ste (a b : XReg) (disp : BitVec 20)
  /-- STF (R171): Stores the word and sets the tag full. -/
  | stf (a b : XReg) (disp : BitVec 20)
  /-- TAGSETF (R171): Sets the tag full. -/
  | tagsetf (b : XReg) (disp : BitVec 20)
  /-- TAGSETE (R171): Sets the tag empty. -/
  | tagsete (b : XReg) (disp : BitVec 20)
  /-- LDFT (R171): Consumes the word if the tag is full, and returns a status. -/
  | ldft (a c b : XReg) (l : Look) (disp : BitVec 20)
  /-- VLD (R175): Loads 64 bytes from memory into a vector register. -/
  | vld (acq : Bool) (a : VReg) (b : XReg) (l : Look) (disp : BitVec 20)
  /-- VLD_BC8 (R175): Broadcasts 8 loaded bytes to every 8-byte lane. -/
  | vldBc8 (acq : Bool) (a : VReg) (b : XReg) (l : Look) (disp : BitVec 20)
  /-- VLD_BC4 (R175): Broadcasts 4 loaded bytes to every 4-byte lane. -/
  | vldBc4 (acq : Bool) (a : VReg) (b : XReg) (l : Look) (disp : BitVec 20)
  /-- VLD_HALF (R175): Loads 32 bytes and zeroes the upper half. -/
  | vldHalf (acq : Bool) (a : VReg) (b : XReg) (l : Look) (disp : BitVec 20)
  /-- VST (R175): Stores 64 bytes of a vector register to memory. -/
  | vst (rel : Bool) (a : VReg) (b : XReg) (disp : BitVec 20)
  /-- VST_HALF (R175): Stores the low 32 bytes of a vector register. -/
  | vstHalf (rel : Bool) (a : VReg) (b : XReg) (disp : BitVec 20)
  /-- VST_PRED (R175): Stores the bytes enabled by a predicate. -/
  | vstPred (rel : Bool) (a : VReg) (b : XReg) (p : PReg) (disp : BitVec 20)
  /-- VLDV (R175): Loads 64 bytes from the vault. -/
  | vldv (a : VReg) (b : XReg) (l : Look) (disp : BitVec 20)
  /-- VLDV_ACQ (R175): Acquire load of 64 bytes from the vault. -/
  | vldvAcq (a : VReg) (b : XReg) (l : Look) (disp : BitVec 20)
  /-- VSTV (R175): Stores 64 bytes to the vault. -/
  | vstv (a : VReg) (b : XReg) (disp : BitVec 20)
  /-- VSTV_REL (R175): Release store of 64 bytes to the vault. -/
  | vstvRel (a : VReg) (b : XReg) (disp : BitVec 20)
  /-- VLDS (R177): Strided vector load. -/
  | vlds (w8 : Bool) (a : VReg) (b c : XReg) (l : Look) (vault : Bool) (p : Option PReg)
  /-- VSTS (R177): Strided vector store. -/
  | vsts (w8 : Bool) (a : VReg) (b c : XReg) (vault : Bool) (p : Option PReg)
  /-- VGATH (R177): Gathers lanes by an index vector. -/
  | vgath (w8 : Bool) (a : VReg) (b : XReg) (c : VReg) (l : Look) (vault : Bool) (p : Option PReg)
  /-- VSCAT (R177): Scatters lanes by an index vector. -/
  | vscat (w8 : Bool) (a : VReg) (b : XReg) (c : VReg) (vault : Bool) (p : Option PReg)
  /-- VLDF (R178): Format-decoding load into 16 FP32 lanes. -/
  | vldf (a : VReg) (b c : XReg) (l : Look) (vault : Bool) (p : Option PReg)
  /-- VLDFH (R178): Format-decoding load into 32 FP16 lanes. -/
  | vldfh (a : VReg) (b c : XReg) (l : Look) (vault : Bool) (p : Option PReg)
  /-- VSTF (R178): Encoding store of FP32 or FP16 lanes in the format of the pointer's tag. -/
  | vstf (half : Bool) (a : VReg) (b c : XReg) (sat : Bool) (vault : Bool) (p : Option PReg)
  /-- AMO_SWAP (R181): Atomic swap. -/
  | amoSwap (a b c : XReg) (l : Look) (ord : AmoOrd) (d8 vault : Bool)
  /-- AMO_ADD (R181): Atomic add. -/
  | amoAdd (a b c : XReg) (l : Look) (ord : AmoOrd) (d8 vault : Bool)
  /-- AMO_AND (R181): Atomic AND. -/
  | amoAnd (a b c : XReg) (l : Look) (ord : AmoOrd) (d8 vault : Bool)
  /-- AMO_OR (R181): Atomic OR. -/
  | amoOr (a b c : XReg) (l : Look) (ord : AmoOrd) (d8 vault : Bool)
  /-- AMO_XOR (R181): Atomic XOR. -/
  | amoXor (a b c : XReg) (l : Look) (ord : AmoOrd) (d8 vault : Bool)
  /-- AMO_MIN (R181): Atomic signed minimum. -/
  | amoMin (a b c : XReg) (l : Look) (ord : AmoOrd) (d8 vault : Bool)
  /-- AMO_MAX (R181): Atomic signed maximum. -/
  | amoMax (a b c : XReg) (l : Look) (ord : AmoOrd) (d8 vault : Bool)
  /-- AMO_MIN_N (R181): Atomic unsigned minimum. -/
  | amoMinN (a b c : XReg) (l : Look) (ord : AmoOrd) (d8 vault : Bool)
  /-- AMO_MAX_N (R181): Atomic unsigned maximum. -/
  | amoMaxN (a b c : XReg) (l : Look) (ord : AmoOrd) (d8 vault : Bool)
  /-- AMO_INCW (R181): Atomic increment that wraps at a bound. -/
  | amoIncw (a b c : XReg) (l : Look) (ord : AmoOrd) (d8 vault : Bool)
  /-- AMO_BFADD (R181): Atomic bounded add. -/
  | amoBfadd (a b c : XReg) (l : Look) (ord : AmoOrd) (d8 vault : Bool)
  /-- CAS (R183): Compare and swap, irrevocable. -/
  | cas (a b c : XReg) (l : Look) (succ : AmoOrd) (facq : Bool) (d8 vault : Bool)
  /-- RED_ADD (R185): Reduction add. -/
  | redAdd (b c : XReg) (rel : Bool) (d8 vault : Bool)
  /-- RED_AND (R185): Reduction AND. -/
  | redAnd (b c : XReg) (rel : Bool) (d8 vault : Bool)
  /-- RED_OR (R185): Reduction OR. -/
  | redOr (b c : XReg) (rel : Bool) (d8 vault : Bool)
  /-- RED_XOR (R185): Reduction XOR. -/
  | redXor (b c : XReg) (rel : Bool) (d8 vault : Bool)
  /-- RED_MIN (R185): Reduction signed minimum. -/
  | redMin (b c : XReg) (rel : Bool) (d8 vault : Bool)
  /-- RED_MAX (R185): Reduction signed maximum. -/
  | redMax (b c : XReg) (rel : Bool) (d8 vault : Bool)
  /-- RED_MIN_N (R185): Reduction unsigned minimum. -/
  | redMinN (b c : XReg) (rel : Bool) (d8 vault : Bool)
  /-- RED_MAX_N (R185): Reduction unsigned maximum. -/
  | redMaxN (b c : XReg) (rel : Bool) (d8 vault : Bool)
  /-- RED_FADD32 (R186): FP32 add reduction under RNE. -/
  | redFadd32 (b c : XReg) (rel : Bool) (vault : Bool)
  /-- RED_FMAX32 (R186): FP32 maximum reduction. -/
  | redFmax32 (b c : XReg) (rel : Bool) (vault : Bool)
  /-- RED_FMIN32 (R186): FP32 minimum reduction. -/
  | redFmin32 (b c : XReg) (rel : Bool) (vault : Bool)
  /-- FENCE_ACQ (R188): Acquire fence at a scope. -/
  | fenceAcq (sc : Scope)
  /-- FENCE_REL (R188): Release fence at a scope. -/
  | fenceRel (sc : Scope)
  /-- FENCE_FULL (R188): Full fence at a scope. -/
  | fenceFull (sc : Scope)
  /-- FENCE_ENG (R188): Waits for the slot's copies and matrix commands, then acts as a full fence. -/
  | fenceEng (sc : Scope)
  /-- CPWR (R190): Writes a shadow copy register. -/
  | cpwr (k : Fin 8) (b : XReg)
  /-- CPGO (R103): Checks the shadow registers, queues a copy transfer and binds a token. -/
  | cpgo (a : XReg) (j : Tok) (l : Look)
  /-- CPRD (R190): Reads a shadow copy register. -/
  | cprd (a : XReg) (k : Fin 8)
  /-- CPST (R190): Reads the status of a transfer. -/
  | cpst (a b : XReg)
  /-- WAIT (R110): Stalls until no masked token is pending, and traps on a faulted one. -/
  | wait (mask : BitVec 8)
  /-- TKREL (R191): Unbinds the masked tokens. -/
  | tkrel (mask : BitVec 8)
  /-- WAITANY (R111): Returns the next complete masked token in rotation. -/
  | waitany (a : XReg) (mask : BitVec 8)
  /-- TKST (R191): Returns the states of the eight tokens. -/
  | tkst (a : XReg)
  /-- TKCLR (R191): Unbinds every token. -/
  | tkclr
  /-- GINIT (R113): Activates a galley from its record image. -/
  | ginit (b : XReg)
  /-- GINIT_OFF (R113): Deactivates a galley and faults its tokens. -/
  | ginitOff (b : XReg)
  /-- GARR (R193): Applies an arrival, with an optional byte count, to a galley slot. -/
  | garr (b c : XReg) (d : Option XReg)
  /-- GEXP (R193): Sets a free slot's expected arrivals and bytes. -/
  | gexp (b c d : XReg)
  /-- GWAIT (R116): Binds a token to a slot reaching a phase with full state. -/
  | gwait (j : Tok) (b c : XReg) (ph : Bool)
  /-- GREL (R193): Releases a galley slot. -/
  | grel (b c : XReg)
  /-- GTEST (R193): Returns FLT, PH and ST of a slot. -/
  | gtest (a b c : XReg)
  /-- STC (R226): Queues a matrix command record and returns its sequence number. -/
  | stc (sid : Bool) (a : XReg) (b : VReg)
  /-- MQST (R227): Reads MQSTAT. -/
  | mqst (a : XReg)
  /-- MBIND (R228): Binds a token to a command's retirement. -/
  | mbind (j : Tok) (b : XReg)
  /-- MACK (R229): Clears a stopped queue, discarding the commands behind the fault. -/
  | mack
  /-- VFA_VADD (R203): Floating-point lane add. -/
  | vfaVadd (a b c : VReg) (ty : FTy) (p : PCtl)
  /-- VFA_VSUB (R203): Floating-point lane subtract. -/
  | vfaVsub (a b c : VReg) (ty : FTy) (p : PCtl)
  /-- VFA_VMUL (R203): Floating-point lane multiply. -/
  | vfaVmul (a b c : VReg) (ty : FTy) (p : PCtl)
  /-- VFA_VMIN (R203): Floating-point lane minimum. -/
  | vfaVmin (a b c : VReg) (ty : FTy) (p : PCtl)
  /-- VFA_VMAX (R203): Floating-point lane maximum. -/
  | vfaVmax (a b c : VReg) (ty : FTy) (p : PCtl)
  /-- VFMA (R203): Fused b × c + a. -/
  | vfma (a b c : VReg) (ty : FTy) (p : PCtl)
  /-- VFMS (R203): Fused b × c − a. -/
  | vfms (a b c : VReg) (ty : FTy) (p : PCtl)
  /-- VFNMA (R203): Fused a − b × c. -/
  | vfnma (a b c : VReg) (ty : FTy) (p : PCtl)
  /-- VDIV (R203): Floating-point lane divide, long-latency. -/
  | vdiv (a b c : VReg) (ty : FTy) (l : Look)
  /-- VIA_VADD (R205): Integer lane add, wrapping. -/
  | viaVadd (a b c : VReg) (ty : ITy) (p : PCtl)
  /-- VIA_VSUB (R205): Integer lane subtract, wrapping. -/
  | viaVsub (a b c : VReg) (ty : ITy) (p : PCtl)
  /-- VIA_VMUL (R205): Integer lane multiply, low half. -/
  | viaVmul (a b c : VReg) (ty : ITy) (p : PCtl)
  /-- VMULH (R205): Integer lane multiply, high half. -/
  | vmulh (a b c : VReg) (ty : ITy) (p : PCtl)
  /-- VIA_VMIN (R205): Integer lane minimum. -/
  | viaVmin (a b c : VReg) (ty : ITy) (p : PCtl)
  /-- VIA_VMAX (R205): Integer lane maximum. -/
  | viaVmax (a b c : VReg) (ty : ITy) (p : PCtl)
  /-- VADDS (R205): Saturating lane add. -/
  | vadds (a b c : VReg) (ty : ITy) (p : PCtl)
  /-- VSUBS (R205): Saturating lane subtract. -/
  | vsubs (a b c : VReg) (ty : ITy) (p : PCtl)
  /-- VAVG (R205): Rounded lane average. -/
  | vavg (a b c : VReg) (ty : ITy) (p : PCtl)
  /-- VABSD (R205): Absolute lane difference. -/
  | vabsd (a b c : VReg) (ty : ITy) (p : PCtl)
  /-- VMAC (R205): Integer lane multiply-accumulate. -/
  | vmac (a b c : VReg) (ty : ITy) (p : PCtl)
  /-- VDOT4 (R205): Four-way sub-element dot product accumulated into each lane. -/
  | vdot4 (a b c : VReg) (ty : ITy) (p : PCtl)
  /-- VSQRT (R207): Lane square root, long-latency. -/
  | vsqrt (a b : VReg) (ty : FTy) (l : Look)
  /-- VEXP2 (R207): Lane power of two, long-latency. -/
  | vexp2 (a b : VReg) (ty : FTy) (l : Look)
  /-- VLOG2 (R207): Lane base-2 logarithm, long-latency. -/
  | vlog2 (a b : VReg) (ty : FTy) (l : Look)
  /-- VRCP8 (R208): Lane reciprocal estimate to 8 fraction bits. -/
  | vrcp8 (a b : VReg) (ty : FTy) (p : PCtl)
  /-- VABS (R207): Clears the float sign bit. -/
  | vabs (a b : VReg) (ty : FTy) (p : PCtl)
  /-- VFLOOR (R207): Lane floor. -/
  | vfloor (a b : VReg) (ty : FTy) (p : PCtl)
  /-- VCEIL (R207): Lane ceiling. -/
  | vceil (a b : VReg) (ty : FTy) (p : PCtl)
  /-- VRINT (R207): Rounds each lane to an integral value by FRMODE. -/
  | vrint (a b : VReg) (ty : FTy) (p : PCtl)
  /-- VNEG (R207): Lane negation. -/
  | vneg (a b : VReg) (ty : VTy) (p : PCtl)
  /-- VCLZ (R207): Counts the leading zeros of each lane. -/
  | vclz (a b : VReg) (ty : ITy) (p : PCtl)
  /-- VPOPC (R207): Counts the set bits of each lane. -/
  | vpopc (a b : VReg) (ty : ITy) (p : PCtl)
  /-- VNOT (R207): Inverts the bits of each lane. -/
  | vnot (a b : VReg) (ty : ITy) (p : PCtl)
  /-- VABSI (R207): Integer absolute value of each lane. -/
  | vabsi (a b : VReg) (ty : ITy) (p : PCtl)
  /-- VCMP_EQ (R209): Equal comparison into a predicate. -/
  | vcmpEq (a : PReg) (b c : VReg) (ty : VTy) (p : PCtl)
  /-- VCMP_NE (R209): Not-equal comparison into a predicate. -/
  | vcmpNe (a : PReg) (b c : VReg) (ty : VTy) (p : PCtl)
  /-- VCMP_LT (R209): Less-than comparison into a predicate. -/
  | vcmpLt (a : PReg) (b c : VReg) (ty : VTy) (p : PCtl)
  /-- VCMP_LE (R209): Less-or-equal comparison into a predicate. -/
  | vcmpLe (a : PReg) (b c : VReg) (ty : VTy) (p : PCtl)
  /-- VCMP_GT (R209): Greater-than comparison into a predicate. -/
  | vcmpGt (a : PReg) (b c : VReg) (ty : VTy) (p : PCtl)
  /-- VCMP_GE (R209): Greater-or-equal comparison into a predicate. -/
  | vcmpGe (a : PReg) (b c : VReg) (ty : VTy) (p : PCtl)
  /-- VCMP_UNORD (R209): Unordered float comparison into a predicate. -/
  | vcmpUnord (a : PReg) (b c : VReg) (ty : FTy) (p : PCtl)
  /-- VCMP_LT_N (R209): Unsigned less-than comparison into a predicate. -/
  | vcmpLtN (a : PReg) (b c : VReg) (ty : ITy) (p : PCtl)
  /-- VCMP_LE_N (R209): Unsigned less-or-equal comparison into a predicate. -/
  | vcmpLeN (a : PReg) (b c : VReg) (ty : ITy) (p : PCtl)
  /-- VAND (R210): Lane AND. -/
  | vand (a b c : VReg) (ty : ITy) (p : PCtl)
  /-- VOR (R210): Lane OR. -/
  | vor (a b c : VReg) (ty : ITy) (p : PCtl)
  /-- VXOR (R210): Lane XOR. -/
  | vxor (a b c : VReg) (ty : ITy) (p : PCtl)
  /-- VANDN (R210): Lane AND-NOT. -/
  | vandn (a b c : VReg) (ty : ITy) (p : PCtl)
  /-- VSHL (R210): Lane shift left. -/
  | vshl (a b c : VReg) (ty : ITy) (p : PCtl)
  /-- VSHR (R210): Lane logical shift right. -/
  | vshr (a b c : VReg) (ty : ITy) (p : PCtl)
  /-- VSAR (R210): Lane arithmetic shift right. -/
  | vsar (a b c : VReg) (ty : ITy) (p : PCtl)
  /-- VROT (R210): Lane rotate right. -/
  | vrot (a b c : VReg) (ty : ITy) (p : PCtl)
  /-- VCLMUL (R210): Lane carry-less product, low half. -/
  | vclmul (a b c : VReg) (ty : ITy) (p : PCtl)
  /-- VCLMULH (R210): Lane carry-less product, high half. -/
  | vclmulh (a b c : VReg) (ty : ITy) (p : PCtl)
  /-- VSEL (R210): Selects b or c per lane by a predicate. -/
  | vsel (a b c : VReg) (ty : ITy) (p : PReg)
  /-- VBCAST (R212): Broadcasts a general register to every lane. -/
  | vbcast (a : VReg) (b : XReg) (ty : VTy) (p : PCtl)
  /-- VEXTR (R212): Extracts a lane into a general register. -/
  | vextr (a : XReg) (b : VReg) (c : XReg) (ty : VTy)
  /-- VINS (R212): Inserts a general register into a lane. -/
  | vins (a : VReg) (b c : XReg) (ty : VTy)
  /-- VPERM (R212): Permutes lanes by an index vector. -/
  | vperm (a b c : VReg) (ty : ITy) (p : PCtl)
  /-- VSLIDEUP (R212): Slides lanes up by a count. -/
  | vslideup (a b : VReg) (c : XReg) (ty : VTy) (p : PCtl)
  /-- VSLIDEDN (R212): Slides lanes down by a count. -/
  | vslidedn (a b : VReg) (c : XReg) (ty : VTy) (p : PCtl)
  /-- VZIP (R212): Interleaves the low halves of two sources. -/
  | vzip (a b c : VReg) (ty : VTy) (p : PCtl)
  /-- VUNZIP (R212): Keeps the even lanes of two sources. -/
  | vunzip (a b c : VReg) (ty : VTy) (p : PCtl)
  /-- VMOVV (R212): Moves a vector register. -/
  | vmovv (a b : VReg) (ty : VTy) (p : PCtl)
  /-- VFROMM (R212): Copies the message payload into a vector register. -/
  | vfromm (a : VReg)
  /-- VRED_FSUM (R214): Pairwise-tree float sum of the active lanes. -/
  | vredFsum (a : XReg) (b : VReg) (ty : FTy) (p : Option PReg)
  /-- VRED_MAX (R213): Largest active lane. -/
  | vredMax (a : XReg) (b : VReg) (ty : VTy) (p : Option PReg)
  /-- VRED_MIN (R213): Smallest active lane. -/
  | vredMin (a : XReg) (b : VReg) (ty : VTy) (p : Option PReg)
  /-- VRED_AND (R213): Bitwise AND of the active lanes. -/
  | vredAnd (a : XReg) (b : VReg) (ty : ITy) (p : Option PReg)
  /-- VRED_OR (R213): Bitwise OR of the active lanes. -/
  | vredOr (a : XReg) (b : VReg) (ty : ITy) (p : Option PReg)
  /-- VRED_XOR (R213): Bitwise XOR of the active lanes. -/
  | vredXor (a : XReg) (b : VReg) (ty : ITy) (p : Option PReg)
  /-- VRED_SUM (R213): Integer sum of the active lanes. -/
  | vredSum (a : XReg) (b : VReg) (ty : ITy) (p : Option PReg)
  /-- VCVT (R216): Converts lane elements between formats, part 0. -/
  | vcvt (a b : VReg) (src dst : Fin 32) (rm : RMode) (sat : Bool) (p : PCtl)
  /-- VCVT_HI (R216): Converts lane elements between formats for part p. -/
  | vcvtHi (a b : VReg) (part : Fin 8) (src dst : Fin 32) (rm : RMode) (sat : Bool) (p : PCtl)
  /-- PSET (R219): Sets a predicate from a general register. -/
  | pset (a : PReg) (b : XReg)
  /-- PGET (R219): Reads a predicate into a general register. -/
  | pget (a : XReg) (b : PReg)
  /-- PAND (R219): Predicate AND. -/
  | pand (a b c : PReg)
  /-- POR (R219): Predicate OR. -/
  | por (a b c : PReg)
  /-- PXOR (R219): Predicate XOR. -/
  | pxor (a b c : PReg)
  /-- PNOT (R219): Predicate complement. -/
  | pnot (a b : PReg)
  /-- PCNT (R219): Counts the active lanes of a predicate. -/
  | pcnt (a : XReg) (b : PReg) (w : Fin 4)
  /-- PFIRST (R219): Finds the first active lane. -/
  | pfirst (a : XReg) (b : PReg) (w : Fin 4)
  /-- PLEN (R219): Builds a predicate of the first k lanes. -/
  | plen (a : PReg) (b : XReg) (w : Fin 4)
  /-- SEND_H (R271): Sends a message with half the slot's weight. -/
  | sendH (a : VReg) (b c : XReg) (cls : Fin 4)
  /-- SEND_A (R271): Sends a message with all the slot's weight and sets the spent mark. -/
  | sendA (a : VReg) (b c : XReg) (cls : Fin 4)
  /-- SENDX_H (R271): Sends half the weight, routed by affinity address. -/
  | sendxH (a : VReg) (b c : XReg) (cls : Fin 4)
  /-- SENDX_A (R271): Sends all the weight, routed by affinity address. -/
  | sendxA (a : VReg) (b c : XReg) (cls : Fin 4)
  /-- SEND_N (R271): Sends a message with a given amount of weight. -/
  | sendN (a : VReg) (b c d : XReg) (cls : Fin 4)
  /-- SENDX_N (R271): Sends a given amount, routed by affinity address. -/
  | sendxN (a : VReg) (b c d : XReg) (cls : Fin 4)
  /-- END (R273): Ends the activation: flushes the commit buffer, frees the slot and returns the weight. -/
  | endAct
  /-- CMIT (R270): Commits the slot's buffered reductions and sends. -/
  | cmit
  /-- WBOR (R272): Commits, then borrows weight from the home and waits for the grant. -/
  | wbor (a : XReg)
  /-- WRET (R272): Commits, then returns weight home early. -/
  | wret (a : XReg)
  /-- FCRE (R294): Creates a forme and returns a status and a forme-only handle. -/
  | fcre (a : XReg) (d : HReg) (b c : XReg)
  /-- FJOIN (R295): Joins a forme and returns a member handle and join phase. -/
  | fjoin (a : HReg) (c b : XReg)
  /-- FLEAVE (R301): Leaves a forme. -/
  | fleave (b : HReg)
  /-- FLEAVE_ABS (R301): Supervisor leave on behalf of a dead member, counted as faulted. -/
  | fleaveAbs (b : HReg)
  /-- FDEL (R302): Deletes a forme's incarnation. -/
  | fdel (b : HReg)
  /-- FCLOSE (R295): Closes a forme to further joins. -/
  | fclose (b : HReg)
  /-- FARR (R296): Blocking plain arrival that parks until the phase completes. -/
  | farr (a : XReg) (b : HReg)
  /-- FARRN (R297): Notify arrival that attaches weight to the forme. -/
  | farrn (b : HReg) (a d : XReg)
  /-- FVOTE (R296): Blocking vote arrival. -/
  | fvote (a : XReg) (b : HReg) (c : XReg) (mode : Fin 3)
  /-- FRED (R296): Blocking reduction arrival. -/
  | fred (a : XReg) (b : HReg) (c : XReg) (op : Fin 8)
  /-- FREDN (R297): Notify reduction arrival with weight. -/
  | fredn (b : HReg) (c a d : XReg) (op : Fin 8)
  /-- FQRY (R298): Queries a forme's state. -/
  | fqry (a : XReg) (b : HReg) (sel : Fin 3)
  /-- FWAIT (R305): Binds a token to completion of a phase. -/
  | fwait (j : Tok) (b : HReg) (c : XReg)
  /-- HTOX (R293): Copies a handle into a general register. -/
  | htox (a : XReg) (b : HReg)
  /-- XTOH (R293): Copies a general register into a handle. -/
  | xtoh (a : HReg) (b : XReg)
  /-- TRANSLATION_REQUEST (R42): A queued translation request binds on the service core at its translation entry as a
  supervisor activation with no weight. -/
  | translationRequest (clus slot : Nat)
  /-- SHOOTDOWN_ACK (R46): A node of the shoot-down tree acknowledges once its children have acknowledged and its
  matching translated accesses have been performed. -/
  | shootdownAck (place node : Nat)
  /-- CROSSBAR_INGRESS (R54): A request entering the crossbar is checked against the connection row of its port or
  sub-port and is either queued or refused. -/
  | crossbarIngress (q : PortReq)
  /-- REFUSAL_RESPONSE (R54): A refusal returns to its requester 12 to 40 cycles later, and a slot traps, an engine
  faults, or the host or link gets its refusal. -/
  | refusalResponse (i : Nat)
  /-- RESPONSE_ARRIVAL (R59): A response reaches its requester, which adds its delay field to a latency accumulator and
  takes its data, poison or error. -/
  | responseArrival (i : Nat)
  /-- MEMORY_PORT_REQUEST (R60): A request reaches a memory port and is applied through the write queue, is snooped as
  a load, is answered from the replay filter, or is held in ingress. -/
  | memoryPortRequest (i : Nat)
  /-- REQUEST_TIMEOUT (R61): A request left unanswered for 4,096 cycles is reissued with the same tag and the replay
  bit. -/
  | requestTimeout (i : Nat)
  /-- SHARD_CACHE_FILL (R65): A shard-cache fill returns, satisfies its waiting loads, and is allocated unless it was
  invalidated in flight. -/
  | shardCacheFill (i : Nat)
  /-- CONNECTION_ROW_WRITE (R53): A monitor write to a connection row is applied for later ingress, or is discarded and
  sets the matrix error status. -/
  | connectionRowWrite (row : Nat) (v : Word)
  /-- MINIMA_WRITE (R56): The monitor writes slice or bandwidth minima and refuses a write whose sum exceeds the
  capacity. -/
  | minimaWrite (vf slices bw : Nat)
  /-- BLOCK_RETIREMENT (R57): Retiring a memory port or cluster rescales the minima that now exceed capacity, writes a
  signed guarantee-reduced event and signals the host. -/
  | blockRetirement (isCluster : Bool) (idx : Nat)
  /-- PORT_OUT_OF_SERVICE (R33): A memory port whose module is absent or untrained leaves service and is removed from
  every connection matrix. -/
  | portOutOfService (port : Nat)
  /-- PORT_RETURN_TO_SERVICE (R33): A memory port whose two modules are present and whose links have trained comes back
  into service. -/
  | portReturnToService (port : Nat)
  /-- WRITE_QUEUE_DRAIN (R63): A write-queue entry drains to the array, and a request waiting in ingress takes the
  freed entry. -/
  | writeQueueDrain (port : Nat)
  /-- REMOTE_VAULT_ACCESS (R72): An access from another cluster is checked at the owning core for partition, context
  and windows, and is admitted or refused. -/
  | remoteVaultAccess (src : Nat) (va : Word) (op : VaultOp)
  /-- TAGGED_REQUEST_REISSUE (R77): A tagged request returned by a full bank holding queue is reissued by its core
  after 64 cycles. -/
  | taggedRequestReissue (clus i : Nat)
  /-- FEEDER_MESSAGE_ARRIVAL (R81): A message reaches a feeder's inbox, is refused from another partition, or stays in
  its sender if the inbox is full. -/
  | feederMessageArrival (i : Nat)
  /-- MESSAGE_REOFFER (R81): A message waiting in a sender's interface is offered again every 256 cycles. -/
  | messageReoffer (i : Nat)
  /-- FEEDER_START_LIST (R82): An idle feeder takes its chosen message and loads LIST, the parameters, HOLD, HOME, CTX
  and KSLOT to start a list. -/
  | feederStartList (f : Nat)
  /-- PUSH (R86): The PUSH record copies rows from memory into galley slots, optionally converting and multicasting,
  and then makes the galley updates. -/
  | push (f : Nat)
  /-- DRAIN (R88): The DRAIN record writes a galley slot or vault range to memory and releases the slot. -/
  | drain (f : Nat)
  /-- LOOP_RECORD (R89): The LOOP record pushes a loop level and repeats the next K records N times. -/
  | loopRecord (f : Nat)
  /-- PADD (R90): The PADD record adds to a parameter word, keeping the tag if TP is set. -/
  | padd (f : Nat)
  /-- WAITG (R91): The WAITG record waits until each chosen cluster's slot has been seen full or free. -/
  | waitg (f : Nat)
  /-- SEND_RECORD (R92): The SEND record sends a message with weight taken from HOLD, or with all of HOLD, which ends
  the list. -/
  | sendRecord (f : Nat)
  /-- FARRN_RECORD (R93): The FARRN record makes a notify arrival on a forme with X units from HOLD and waits for the
  engine's answer. -/
  | farrnRecord (f : Nat)
  /-- STOP (R94): The STOP record returns HOLD home and leaves the feeder idle. -/
  | stop (f : Nat)
  /-- CHAIN (R94): The CHAIN record continues at another list address, with an empty loop stack. -/
  | chain (f : Nat)
  /-- RESERVED_RECORD (R84): A record with a reserved code raises feed fault 0x01. -/
  | reservedRecord (f : Nat)
  /-- FEEDER_WAIT_SATISFIED (R91): A feeder waiting in WAITG, in a PUSH with WF, or in a DRAIN resumes when the slot
  reaches the awaited state. -/
  | feederWaitSatisfied (f : Nat)
  /-- TRANSFER_START (R104): A free copy channel starts the oldest transfer in the inbox that may start. -/
  | transferStart (clus : Nat)
  /-- TRANSFER_COMPLETE (R104): A transfer completes after its bytes, its galley update and its event-queue record, and
  then completes its token and releases its share of weight. -/
  | transferComplete (clus id : Nat)
  /-- GALLEY_UPDATE (R114): The galley unit applies the releases, expectations, byte updates and arrivals that reach a
  slot in one cycle, in that order. -/
  | galleyUpdate (clus ofs k : Nat) (release : Bool) (exp : Option (Nat × Nat)) (bytes : List Nat) (arrivals : Nat)
  /-- RESULT_RETURN (R131): A long-latency result returns and is written, or is discarded if a head in its window wrote
  the destination. -/
  | resultReturn (place i : Nat)
  /-- PREFETCH_FILL (R135): A line requested by IPREF or IPIN arrives and is cached or pinned, or is dropped and
  counted. -/
  | prefetchFill (core i : Nat)
  /-- RED_FAILURE_ANSWER (R187): A refusal or poison for a RED sent at issue makes the slot trap, not resumable, before
  its next head. -/
  | redFailureAnswer (place : Nat)
  /-- MMA (R241): The MMA command multiplies the A and B operands into an accumulator, one rounding per rounding unit,
  with ring-latch passing. -/
  | mma (core : Nat)
  /-- MMAG (R245): The MMAG command runs a ragged grouped multiplication from a group table and stores converted D
  rows. -/
  | mmag (core : Nat)
  /-- MLD (R246): The MLD command loads an accumulator from a vault region. -/
  | mld (core : Nat)
  /-- MST (R246): The MST command converts an accumulator and stores it into a vault region. -/
  | mst (core : Nat)
  /-- MZERO (R246): The MZERO command writes zero to all 256 elements of an accumulator. -/
  | mzero (core : Nat)
  /-- MMARK (R247): The MMARK command does nothing and completes when it reaches the head. -/
  | mmark (core : Nat)
  /-- MPASS (R247): The MPASS command copies the incoming ring latch to the outgoing latch. -/
  | mpass (core : Nat)
  /-- MBLD (R247): The MBLD command copies bytes from the vault into an A-buffer or B-buffer. -/
  | mbld (core : Nat)
  /-- RESERVED_COMMAND_CODE (R237): A command with a reserved code faults with code 0x01 when it starts. -/
  | reservedCommandCode (core : Nat)
  /-- COMMAND_RETIRE (R223): A command retires in queue order, enters the outcome ring and completes its bound token. -/
  | commandRetire (core : Nat)
  /-- MATRIX_FAULT (R249): Once earlier commands have retired, a faulting command retires as faulted, sets MQFLT and
  STOP, faults its token and stops the queue. -/
  | matrixFault (core : Nat)
  /-- LATCH_WAIT_TIMEOUT (R240): A ring-latch wait that passes 2^20 cycles raises matrix fault 0x09. -/
  | latchWaitTimeout (core : Nat)
  /-- MESSAGE_ARRIVAL (R266): A message reaches a core and enters its inbox, is written to the spill ring, is refused,
  or stays in its sender. -/
  | messageArrival (i : Nat)
  /-- SPAN_FORWARD (R265): A package forwards a message addressed to another package by its route table, or drops it
  with a loss notice. -/
  | spanForward (i : Nat)
  /-- INBOX_REFILL (R266): When the inbox has 16 free entries, up to 16 messages move from the head of the spill ring
  into the inbox. -/
  | inboxRefill (core : Nat)
  /-- CLASS_AGEING (R267): A waiting message's class falls by one each time its age reaches a multiple of AGELIM. -/
  | classAgeing (core : Nat)
  /-- MESSAGE_BIND (R268): Each cycle a free slot binds the most urgent eligible message: the descriptor is read, the
  registers are set and the first head issues. -/
  | messageBind (core slot : Nat)
  /-- WEIGHT_RETURN (R278): The home applies a return to H and then tests the record, which may become completing or
  damaged. -/
  | weightReturn (i : Nat)
  /-- LOSS_NOTICE (R283): A loss notice reaches the home and adds its amount to L. -/
  | lossNotice (i : Nat)
  /-- BORROW_REQUEST (R280): A borrow reaches the home, which lowers H and sends a grant, or sends a refusal. -/
  | borrowRequest (i : Nat)
  /-- BORROW_GRANT (R280): A grant reaches the borrowing slot, which adds the amount to wt and proceeds. -/
  | borrowGrant (i : Nat)
  /-- BORROW_REFUSAL (R280): A refusal reaches the borrowing slot, which traps with cause 0x0A. -/
  | borrowRefusal (i : Nat)
  /-- STATISTICS_COUNT_ARRIVAL (R252): A matrix unit's statistics counts reach the home ahead of the activation's
  weight. -/
  | statisticsCountArrival (i : Nat)
  /-- COMBINER_RETURN (R281): A return reaches its shard combiner and merges into its entry, flushing an entry if one
  must make room. -/
  | combinerReturn (i : Nat)
  /-- KERNEL_COMPLETION (R279): Once all statistics counts are in, the completion steps write the statistics block and
  the fence, submit any continuation, free the slot and signal the host. -/
  | kernelCompletion (ctx kslot : Nat)
  /-- WEIGHT_STALL (R286): The home watchdog sets STALL and signals the host when a running record has had no activity
  for WTO × 4,096 hub cycles. -/
  | weightStall (ctx kslot : Nat)
  /-- COMBINER_FLUSH (R281): A combiner entry is flushed to the home as one return 256 cycles after it took its first
  return. -/
  | combinerFlush (shard i : Nat)
  /-- FORME_ENGINE_ANSWER (R293): The forme engine's answer reaches the slot, which completes the FRM form or traps
  with a refusal. -/
  | formeEngineAnswer (place : Nat)
  /-- FORME_WAKE (R296): A phase result reaches a parked blocking arrival, writes xA and resumes the slot, or is
  written into its saved state. -/
  | formeWake (place : Nat)
  /-- QPROD_WRITE (R325): A host write of QPROD makes newly written commands available to the front end. -/
  | qprodWrite (vf q : Nat) (v : Word)
  /-- QCTL_WRITE (R325): A host write of QCTL enables or disables a queue, applies SZLG only while disabled, and clears
  ERR. -/
  | qctlWrite (vf q : Nat) (v : Word)
  /-- LAUNCH (R328): The LAUNCH command is checked at its queue's head, its descriptor is read, and it waits there for
  admission. -/
  | launch (vf q : Nat)
  /-- FENCEW (R326): The FENCEW command waits until a fence word reaches a value, or completes with status 8 on a
  damaged fence. -/
  | fencew (vf q : Nat)
  /-- FENCEW_POLL (R326): A waiting FENCEW reads its word again at least every 4,096 hub cycles and after each fence
  write. -/
  | fencewPoll (vf q : Nat)
  /-- FENCES (R326): The FENCES command writes a fence value, as a release at system scope. -/
  | fences (vf q : Nat)
  /-- SAVE (R285): The SAVE command saves a quiescent context, or is refused with status 4. -/
  | save (vf q : Nat)
  /-- MOVE (R355): The MOVE command stops, saves and transfers a quiescent context to its destination package. -/
  | move (vf q : Nat)
  /-- ACKLOSS (R287): The ACKLOSS command frees a damaged record, or a stalled one after the stall conditions are
  tested again. -/
  | ackloss (vf q : Nat)
  /-- QUERY (R326): The QUERY command copies a kernel record to a device address. -/
  | query (vf q : Nat)
  /-- RESERVED_QUEUE_COMMAND (R326): A command with a reserved code sets ERR and stops the queue, writing no
  completion. -/
  | reservedQueueCommand (vf q : Nat)
  /-- ADMISSION_RUN (R331): Every 64 hub cycles the sequencer runs Admit for each partition and starts at most one
  launch, placing and binding gangs. -/
  | admissionRun (part : Nat)
  /-- ENERGY_INTERVAL_START (R334): At each budget interval start, REM is reset to BUDGET. -/
  | energyIntervalStart (part : Nat)
  /-- DIE_STEP_DECISION (R336): Every 10 µs a die controller lowers or raises its clock step from temperature and
  package power. -/
  | dieStepDecision (die temp watts : Nat)
  /-- STEP_CHANGE_EFFECT (R336): After 32 cycles of stopped issue, a new step takes effect on the whole die. -/
  | stepChangeEffect (die : Nat)
  /-- CORE_GATE (R339): A core idle for COIDLE × 64 cycles is power-gated and loses its L1 TLB and instruction cache. -/
  | coreGate (core : Nat)
  /-- CORE_WAKE (R339): A gated core wakes on a message, a debug request, a save or restore, or a slice-end signal, and
  flushes its L1 TLB. -/
  | coreWake (core : Nat)
  /-- CLUSTER_GATE (R339): A cluster idle for CLIDLE × 1,024 cycles is gated after the galley state is written back. -/
  | clusterGate (clus : Nat)
  /-- CLUSTER_WAKE (R339): A gated cluster wakes on an event for any of its units, flushes its TLBs, and is ready 2,000
  cycles later. -/
  | clusterWake (clus : Nat)
  /-- KILL (R346): A kill ends an activation without END, turning its wt into a loss notice of cause 4. -/
  | kill (place : Nat)
  /-- CLUSTER_RESET (R76): A cluster reset sets every vault tag full and kills the cluster's activations. -/
  | clusterReset (clus : Nat)
  /-- SLICE_END_SIGNAL (R349): At a slice-end signal each cluster computes its estimates and chooses to drain, spill,
  or discard and spill. -/
  | sliceEndSignal (clus : Nat) (incoming : Option Nat)
  /-- DRAIN_DEADLINE (R350): At DEADLINE a draining cluster spills its still-resident activations and sets OVR. -/
  | drainDeadline (clus : Nat)
  /-- CONTEXT_RESTORE (R352): A context is restored onto its clusters and slots in order: vault, matrix unit, windows,
  fault-wait list, slots and event queue. -/
  | contextRestore (ctx clus : Nat)
  /-- PAGE_UNOBTAINABLE (R356): A post-copy page that cannot be pulled is reported; admission stops and the context
  becomes broken. -/
  | pageUnobtainable (ctx va : Nat)
  /-- HOST_RESUME_CONTEXT (R356): The host supplies the missing pages and resumes a broken context. -/
  | hostResumeContext (ctx : Nat)
  /-- HOST_TERMINATE_CONTEXT (R356): The host terminates a broken context; its weight holders are killed and its
  kernels end damaged. -/
  | hostTerminateContext (ctx : Nat)
  /-- COUNTER_LOW_READ (R358): A 4-byte host read of a counter's low half returns it and latches the high half of the
  same instant. -/
  | counterLowRead (vf : Nat) (rd : CntRead)
  /-- COUNTER_HIGH_READ (R358): A 4-byte host read of the high half returns the latched value if valid, and otherwise
  the live value. -/
  | counterHighRead (vf off : Nat)
  /-- FATAL_ERROR (R359): On a fatal error the active firmware stops ingress, writes a signed dump, signals the host
  and freezes the device. -/
  | fatalError (cause place status : Nat)
  /-- SLICE_PERIOD (R362): At each slice period the monitor grants cluster-slots to functions, their minima first. -/
  | slicePeriod (part : Nat) (spare : List PolicyChoice)
  /-- METERING_UPDATE (R364): Every millisecond all 25 energy counters are updated in one step, and REM is lowered by
  metered energy. -/
  | meteringUpdate (use : EnergyUse)
  /-- ENONCE_WRITE (R367): A write to ENONCE requests a signed energy reading and sets BUSY. -/
  | enonceWrite (fn : Nat) (nonce : Word)
  /-- READING_COMPLETE (R367): Within 5 ms the device writes the signed record to ERECORD and sets DONE. -/
  | readingComplete (fn : Nat)
  /-- PERSIST_RECORD (R368): Every 100 ms the metering unit writes the counters, UNC and Epk to alternate
  retained-flash slots. -/
  | persistRecord
  /-- PROFILE_OPEN (R381): PSCMD operation 1 opens the function's profiling session. -/
  | profileOpen (vf : Nat)
  /-- PROFILE_CONFIGURE (R381): PSCMD operation 2 configures a counter for an event, or reports the event as absent or
  unknown. -/
  | profileConfigure (vf cix evt : Nat)
  /-- PROFILE_ARM (R381): PSCMD operation 3 arms sampling on a counter every N occurrences. -/
  | profileArm (vf cix per : Nat)
  /-- PROFILE_DISARM (R381): PSCMD operation 4 disarms sampling. -/
  | profileDisarm (vf cix : Nat)
  /-- PROFILE_CLOSE (R381): PSCMD operation 5 closes the session. -/
  | profileClose (vf : Nat)
  /-- DEBUG_HALT (R372): A DBGCTL HALT write stops issue in every core of the cluster and freezes the copy engine if
  FRZ is set. -/
  | debugHalt (clus : Nat)
  /-- DEBUG_RESUME (R372): A DBGCTL RES write resumes every halted slot and lifts the freeze. -/
  | debugResume (clus : Nat)
  /-- STEP_REPORT (R375): A step reports when the asynchronous work of its head has drained, and the slot halts again.
  -/
  | stepReport (clus : Nat)
  /-- DEBUG_STEP (R375): A DBGCTL STEP write issues exactly one head of a halted slot. -/
  | debugStep (clus core slot : Nat)
  /-- BREAKPOINT_HIT (R376): A slot about to issue a head whose PC matches a breakpoint halts before the head acts. -/
  | breakpointHit (place : Nat)
  /-- INJ_WRITE (R380): A write to INJ arms a fault injection, replacing any armed one. -/
  | injWrite (clus : Nat) (v : Word)
  /-- FUNCTION_LEVEL_RESET (R385): A virtual function reset disables its queues, terminates its contexts and resets its
  BAR registers and latch. -/
  | functionLevelReset (vf : Nat)
  /-- PF_RESET (R385): A physical function reset resets every virtual function and the monitor's host mailbox. -/
  | pfReset
  /-- ODNERLINK_FLIT_RECEIVE (R386): A link flit is received, checked and acknowledged, or its CRC error leads to a
  resend. -/
  | odnerlinkFlitReceive (port : Nat) (flit : Flit)
  /-- ODNERLINK_RESEND_TIMEOUT (R386): An unacknowledged flit is resent after 2,048 cycles; 32 failed resends fail the
  link beyond replay. -/
  | odnerlinkResendTimeout (port : Nat)
  /-- LINK_RETRAIN (R386): A failed link is retrained every second until it trains or the port is retired. -/
  | linkRetrain (port : Nat) (trained : Bool)
  /-- BOOT (R390): Boot verifies and runs the first stage and the monitor, raises the boot count and starts the standby
  complex. -/
  | boot (src : BootSource)
  /-- UPDATE_COMMAND (R391): A live-update command makes the standby load and verify the new image. -/
  | updateCommand (img : Image)
  /-- STANDBY_READY (R391): A verified standby makes the active complex pause command reading. -/
  | standbyReady
  /-- PAUSE_DRAINED (R391): With no command in progress, the standby imports the state table. -/
  | pauseDrained
  /-- UPDATE_PAUSE_TIMEOUT (R391): After 10 ms of pausing, reading resumes and the update is refused. -/
  | updatePauseTimeout
  /-- IMPORT_DONE (R391): After the import the standby becomes active and the old active loads the new image as
  standby. -/
  | importDone
  /-- HEARTBEAT_TIMEOUT (R392): With no heartbeat for 5 ms, the standby takes over as the update state dictates. -/
  | heartbeatTimeout
  /-- ATTESTATION_REQUEST (R394): A nonce request through the PF mailbox returns a signed attestation record. -/
  | attestationRequest (nonce : Word)
  /-- SECURITY_ALARM (R395): A sensor condition raises the alarm at level 1, 2 or 3: log, halt partitions, or erase the
  key. -/
  | securityAlarm (c : Sensed)
  /-- ALARM_RESUME (R395): The physical function resumes the device after a level-2 halt once the sensors have been in
  range for 1 s. -/
  | alarmResume
  /-- REGISTER_WRITE (R52): A write to a configuration register that has no row of its own is applied, or discarded on
  a reserved value. -/
  | registerWrite (r : CReg) (v : Word)
  /-- PROVISIONING_COMMAND (R393): A vendor-signed provisioning command through the physical function's mailbox
  provisions the security element with an attestation key. -/
  | provisioningCommand (vendorSigned : Bool)
  /-- MIGRATION_DESCRIPTOR_PLACEMENT (R355): The operator places a migration descriptor for a context through the
  management interface. -/
  | migrationDescriptorPlacement (d : MigDesc)
  /-- POWER_LOSS (R368): Loss of power ends all activity, leaves the last persisted record in flash, and makes Tr zero
  at the next boot. -/
  | powerLoss
  /-- POLICY_IMAGE_OVERRUN (R363): A policy image that faults or overruns its time on the firmware core is replaced by
  the default policy for the rest of the period, and the host is signalled. -/
  | policyImageOverrun (vf : Nat)
  /-- BUFFER_UNCORRECTABLE_ERROR (R283): An uncorrectable error in a buffer that holds a weight-carrying message drops
  the message and sends a loss notice of cause 2. -/
  | bufferUncorrectableError (i : Nat)
deriving DecidableEq, Repr

end Sys2Proof
end

