-- ==== Sys2Proof/WellFormed.lean ====
section
/-!
DEFINITION. When a term of Instr is one the encodings can say: the restrictions between operands that the types of
the constructors do not carry. Each check names the rule that makes the form illegal.
-/

namespace Sys2Proof

/-- Lane width in bytes of a format held in a register (10_vector_instructions.md R216). -/
def codeLane (f : Nat) : Nat :=
  if f = 23 ∨ f = 24 then 8
  else if f = 1 ∨ f = 21 ∨ f = 22 then 4
  else if f = 2 ∨ f = 3 ∨ f = 13 ∨ f = 25 then 2
  else 1

/-- A format code that a conversion may name: 1 to 13 or 21 to 25 (01_formats.md, preamble of R24). -/
def convFormat (f : Nat) : Bool := (1 ≤ f && f ≤ 13) || (21 ≤ f && f ≤ 25)

/-- Ratio of the lane widths of a conversion (10_vector_instructions.md R216). -/
def convRatio (src dst : Nat) : Nat :=
  max (codeLane src) (codeLane dst) / min (codeLane src) (codeLane dst)

/-- The well-formed instructions: LDFT names two registers (R171), EVQ names two registers (R163), VDOT4 and the
carry-less forms have the types of R205 and R210, VABSI a signed type (R207), VCVT formats and parts of R215, R216.
Every other constructor is well-formed by its types. -/
def Instr.wellFormed : Instr → Bool
  | .ldft a c _ _ _ => a ≠ c
  | .evq a b => a ≠ b
  | .vdot4 _ _ _ ty _ => ty = .i32 || ty = .n32 || ty = .i64 || ty = .n64
  | .vclmul _ _ _ ty _ => ty = .i64 || ty = .n64
  | .vclmulh _ _ _ ty _ => ty = .i64 || ty = .n64
  | .vabsi _ _ ty _ => ty = .i8 || ty = .i16 || ty = .i32 || ty = .i64
  | .vcvt _ _ src dst _ _ _ => convFormat src.val && convFormat dst.val
  | .vcvtHi _ _ part src dst _ _ _ =>
    convFormat src.val && convFormat dst.val && decide (1 ≤ part.val) && decide (part.val < convRatio src.val dst.val)
  | _ => true

end Sys2Proof
end

