-- ==== Sys2Proof/Decode.lean ====
section
/-!
DEFINITION. Instruction lines, heads and tails: the decoder, total on any bits and rejecting what the rules do not
name, and the encoder written from the same encoding tables (07_instruction_lines.md R122 to R129 and the encoding
rule of each major).
-/

namespace Sys2Proof

/-- The fields of a head and its tail (07_instruction_lines.md R125): major opcode o, tail size code t, a and b of the
head; c, f, l, d of an S-tail, or c, f, l and the 20-bit immediate of a W-tail. For LI the tail is one integer, held
in imm (08_scalar_instructions.md R147). -/
structure Fields where
  o : Nat := 0
  t : Nat := 0
  a : Nat := 0
  b : Nat := 0
  c : Nat := 0
  f : Nat := 0
  l : Nat := 0
  d : Nat := 0
  imm : Nat := 0
deriving DecidableEq, Repr

/-- Goes on when the condition holds: a field a form does not use must be zero (R128). -/
def need (p : Prop) [Decidable p] : Option Unit := if p then some () else none

/-- A number below k. -/
def finOf (k n : Nat) : Option (Fin k) := if h : n < k then some ⟨n, h⟩ else none

/-- A number as a field of w bits; a larger number has a nonzero must-be-zero bit (R145). -/
def bvOf (w n : Nat) : Option (BitVec w) := if n < 2 ^ w then some (BitVec.ofNat w n) else none

/-- A one-bit field. -/
def boolOf (n : Nat) : Option Bool := if n = 0 then some false else if n = 1 then some true else none
/-- Its code. -/
def boolCode (b : Bool) : Nat := if b then 1 else 0

/-- Scope codes (00_scope.md R3). -/
def scopeOf (n : Nat) : Option Scope :=
  match n with
  | 0 => some .handler | 1 => some .core | 2 => some .cluster | 3 => some .shard
  | 4 => some .die | 5 => some .package | 6 => some .system | _ => none
/-- Their numbers. -/
def scopeCode (s : Scope) : Nat :=
  match s with
  | .handler => 0 | .core => 1 | .cluster => 2 | .shard => 3 | .die => 4 | .package => 5 | .system => 6

/-- Integer element types in L (07_instruction_lines.md R129). -/
def ityOf (n : Nat) : Option ITy :=
  match n with
  | 0 => some .i8 | 1 => some .i16 | 2 => some .i32 | 3 => some .i64
  | 4 => some .n8 | 5 => some .n16 | 6 => some .n32 | 7 => some .n64 | _ => none
/-- Their codes. -/
def ityCode (t : ITy) : Nat :=
  match t with
  | .i8 => 0 | .i16 => 1 | .i32 => 2 | .i64 => 3 | .n8 => 4 | .n16 => 5 | .n32 => 6 | .n64 => 7

/-- Floating-point element types in L (07_instruction_lines.md R129). -/
def ftyOf (n : Nat) : Option FTy :=
  match n with
  | 8 => some .f32 | 9 => some .f16 | 10 => some .bf16 | _ => none
/-- Their codes. -/
def ftyCode (t : FTy) : Nat :=
  match t with
  | .f32 => 8 | .f16 => 9 | .bf16 => 10

/-- Element types in L (07_instruction_lines.md R129). -/
def vtyOf (n : Nat) : Option VTy :=
  match ityOf n with
  | some t => some (.int t)
  | none => (ftyOf n).map .flt
/-- Their codes. -/
def vtyCode (t : VTy) : Nat :=
  match t with
  | .int t => ityCode t
  | .flt t => ftyCode t

/-- Predicate control in D (10_vector_instructions.md R196). -/
def pctlOf (n : Nat) : Option PCtl :=
  if n = 0 then some .all
  else if n < 8 then none
  else if n < 12 then (finOf 4 (n - 8)).map .merge
  else (finOf 4 (n - 12)).map .zero
/-- Its code. -/
def pctlCode (p : PCtl) : Nat :=
  match p with
  | .all => 0
  | .merge p => 8 + p.val
  | .zero p => 12 + p.val

/-- D of VSEL: predication on, merging (10_vector_instructions.md R210). -/
def selDOf (n : Nat) : Option PReg := if n < 8 then none else finOf 4 (n - 8)
/-- Its code. -/
def selDCode (p : PReg) : Nat := 8 + p.val

/-- D of VRED: D[2] is zero (10_vector_instructions.md R196, R213). -/
def redPredOf (n : Nat) : Option (Option PReg) :=
  if n = 0 then some none else if n < 8 then none else (finOf 4 (n - 8)).map some
/-- Its code. -/
def redPredCode (p : Option PReg) : Nat :=
  match p with
  | none => 0
  | some p => 8 + p.val

/-- F of LD and LDV: size and acquire (07_instruction_lines.md R127). -/
def loadFOf (n : Nat) : Option (LoadSize × Bool) :=
  match n % 8 with
  | 0 => (boolOf (n / 8)).map (LoadSize.b, ·)
  | 1 => (boolOf (n / 8)).map (LoadSize.h, ·)
  | 2 => (boolOf (n / 8)).map (LoadSize.w, ·)
  | 3 => (boolOf (n / 8)).map (LoadSize.d, ·)
  | 4 => (boolOf (n / 8)).map (LoadSize.bs, ·)
  | 5 => (boolOf (n / 8)).map (LoadSize.hs, ·)
  | 6 => (boolOf (n / 8)).map (LoadSize.ws, ·)
  | _ => none
/-- Its code. -/
def loadFCode (x : LoadSize × Bool) : Nat :=
  (match x.1 with | .b => 0 | .h => 1 | .w => 2 | .d => 3 | .bs => 4 | .hs => 5 | .ws => 6) + 8 * boolCode x.2

/-- F of ST and STV: size and release (07_instruction_lines.md R127). -/
def storeFOf (n : Nat) : Option (StoreSize × Bool) :=
  match n % 8 with
  | 0 => (boolOf (n / 8)).map (StoreSize.b, ·)
  | 1 => (boolOf (n / 8)).map (StoreSize.h, ·)
  | 2 => (boolOf (n / 8)).map (StoreSize.w, ·)
  | 3 => (boolOf (n / 8)).map (StoreSize.d, ·)
  | _ => none
/-- Its code. -/
def storeFCode (x : StoreSize × Bool) : Nat :=
  (match x.1 with | .b => 0 | .h => 1 | .w => 2 | .d => 3) + 8 * boolCode x.2

/-- A selector k with bit 3 as acquire or release, of VLD and VST (07_instruction_lines.md R127). -/
def flag8Of (k n : Nat) : Option Bool :=
  if n = k then some false else if n = k + 8 then some true else none
/-- Its code. -/
def flag8Code (k : Nat) (b : Bool) : Nat := k + 8 * boolCode b

/-- D of VMEMX: space and predicate (09_memory_instructions.md R176). -/
def vmemDOf (n : Nat) : Option (Bool × Option PReg) :=
  match boolOf (n / 8) with
  | none => none
  | some v =>
    if n % 8 = 0 then some (v, none)
    else if n % 8 < 4 then none
    else (finOf 4 (n % 8 - 4)).map (fun p => (v, some p))
/-- Its code. -/
def vmemDCode (x : Bool × Option PReg) : Nat :=
  8 * boolCode x.1 + (match x.2 with | none => 0 | some p => 4 + p.val)

/-- A of VMEMX: width bit and vector register (09_memory_instructions.md R176). -/
def wideAOf (n : Nat) : Option (Bool × VReg) :=
  match boolOf (n / 8), finOf 8 (n % 8) with
  | some w, some a => some (w, a)
  | _, _ => none
/-- Its code. -/
def wideACode (x : Bool × VReg) : Nat := 8 * boolCode x.1 + x.2.val

/-- Orderings of AMO (09_memory_instructions.md R180). -/
def amoOrdOf (n : Nat) : Option AmoOrd :=
  match n with
  | 0 => some .relaxed | 1 => some .acquire | 2 => some .release | 3 => some .acqRel | _ => none
/-- Their codes. -/
def amoOrdCode (o : AmoOrd) : Nat :=
  match o with
  | .relaxed => 0 | .acquire => 1 | .release => 2 | .acqRel => 3

/-- D of AMO: ordering, size, space (09_memory_instructions.md R180). -/
def amoDOf (n : Nat) : Option (AmoOrd × Bool × Bool) :=
  match amoOrdOf (n % 4), boolOf (n / 4 % 2), boolOf (n / 8) with
  | some o, some z, some v => some (o, z, v)
  | _, _, _ => none
/-- Its code. -/
def amoDCode (x : AmoOrd × Bool × Bool) : Nat := amoOrdCode x.1 + 4 * boolCode x.2.1 + 8 * boolCode x.2.2

/-- F of CAS: size and space (09_memory_instructions.md R183). -/
def casFOf (n : Nat) : Option (Bool × Bool) :=
  match boolOf (n % 2), boolOf (n / 2) with
  | some z, some v => some (z, v)
  | _, _ => none
/-- Its code. -/
def casFCode (x : Bool × Bool) : Nat := boolCode x.1 + 2 * boolCode x.2

/-- D of CAS: success and failure ordering (09_memory_instructions.md R183). -/
def casDOf (n : Nat) : Option (AmoOrd × Bool) :=
  match amoOrdOf (n % 4), boolOf (n / 4) with
  | some o, some q => some (o, q)
  | _, _ => none
/-- Its code. -/
def casDCode (x : AmoOrd × Bool) : Nat := amoOrdCode x.1 + 4 * boolCode x.2

/-- D of RED: ordering relaxed or release, size, space (09_memory_instructions.md R185). -/
def redDOf (n : Nat) : Option (Bool × Bool × Bool) :=
  match boolOf (n % 4 / 2), n % 2, boolOf (n / 4 % 2), boolOf (n / 8) with
  | some r, 0, some z, some v => some (r, z, v)
  | _, _, _, _ => none
/-- Its code. -/
def redDCode (x : Bool × Bool × Bool) : Nat := 2 * boolCode x.1 + 4 * boolCode x.2.1 + 8 * boolCode x.2.2

/-- D of the FP32 reductions: the size bit is zero (09_memory_instructions.md R185). -/
def redFDOf (n : Nat) : Option (Bool × Bool) :=
  match redDOf n with
  | some (r, false, v) => some (r, v)
  | _ => none
/-- Its code. -/
def redFDCode (x : Bool × Bool) : Nat := redDCode (x.1, false, x.2)

/-- L and D of GARR: the bytes register when L[0] is set (09_memory_instructions.md R192). -/
def optdOf (x : Nat × Nat) : Option (Option XReg) :=
  if x.1 = 0 ∧ x.2 = 0 then some none
  else if x.1 = 1 then (finOf 16 x.2).map some
  else none
/-- Their codes. -/
def optdCode (d : Option XReg) : Nat × Nat :=
  match d with
  | none => (0, 0)
  | some d => (1, d.val)

/-- Rounding modes (01_formats.md R23). -/
def rmodeOf (n : Nat) : Option RMode :=
  match n with
  | 0 => some .rne | 1 => some .rtz | 2 => some .rdn | 3 => some .rup | 4 => some .rna | _ => none
/-- Their codes. -/
def rmodeCode (r : RMode) : Nat :=
  match r with
  | .rne => 0 | .rtz => 1 | .rdn => 2 | .rup => 3 | .rna => 4

/-- I of VCVT: source, destination, rounding, SAT (10_vector_instructions.md R215). -/
def vcvtOf (n : Nat) : Option (Fin 32 × Fin 32 × RMode × Bool) :=
  match finOf 32 (n / 32768), finOf 32 (n / 1024 % 32), rmodeOf (n / 128 % 8), boolOf (n / 64 % 2), n % 64 with
  | some s, some d, some r, some z, 0 => some (s, d, r, z)
  | _, _, _, _, _ => none
/-- Its code. -/
def vcvtCode (x : Fin 32 × Fin 32 × RMode × Bool) : Nat :=
  x.1.val * 32768 + x.2.1.val * 1024 + rmodeCode x.2.2.1 * 128 + boolCode x.2.2.2 * 64

/-- Major opcode 0x01, MOV (R139; selectors R127). -/
def decodeMov (x : Fields) : Option Instr :=
  match x.t with
  | 0 => do let a ← finOf 16 x.a; let b ← finOf 16 x.b; some (.mov a b)
  | _ => none

/-- Major opcode 0x02, ADD (R139; selectors R127). -/
def decodeAdd (x : Fields) : Option Instr :=
  match x.t with
  | 0 => do let a ← finOf 16 x.a; let b ← finOf 16 x.b; some (.add a b)
  | _ => none

/-- Major opcode 0x03, SUB (R139; selectors R127). -/
def decodeSub (x : Fields) : Option Instr :=
  match x.t with
  | 0 => do let a ← finOf 16 x.a; let b ← finOf 16 x.b; some (.sub a b)
  | _ => none

/-- Major opcode 0x04, AND (R139; selectors R127). -/
def decodeAnd (x : Fields) : Option Instr :=
  match x.t with
  | 0 => do let a ← finOf 16 x.a; let b ← finOf 16 x.b; some (.and a b)
  | _ => none

/-- Major opcode 0x05, OR (R139; selectors R127). -/
def decodeOr (x : Fields) : Option Instr :=
  match x.t with
  | 0 => do let a ← finOf 16 x.a; let b ← finOf 16 x.b; some (.or a b)
  | _ => none

/-- Major opcode 0x06, XOR (R139; selectors R127). -/
def decodeXor (x : Fields) : Option Instr :=
  match x.t with
  | 0 => do let a ← finOf 16 x.a; let b ← finOf 16 x.b; some (.xor a b)
  | _ => none

/-- Major opcode 0x07, ADDQ (R139; selectors R127). -/
def decodeAddq (x : Fields) : Option Instr :=
  match x.t with
  | 0 => do let a ← finOf 16 x.a; let imm ← bvOf 4 x.b; some (.addq a imm)
  | _ => none

/-- Major opcode 0x08, SHLQ (R139; selectors R127). -/
def decodeShlq (x : Fields) : Option Instr :=
  match x.t with
  | 0 => do let a ← finOf 16 x.a; let k ← finOf 16 x.b; some (.shlq a k)
  | _ => none

/-- Major opcode 0x09, SHRQ (R139; selectors R127). -/
def decodeShrq (x : Fields) : Option Instr :=
  match x.t with
  | 0 => do let a ← finOf 16 x.a; let k ← finOf 16 x.b; some (.shrq a k)
  | _ => none

/-- Major opcode 0x0a, ALU3 (R140; selectors R127). -/
def decodeAlu3 (x : Fields) : Option Instr :=
  match x.t, x.f with
  | 1, 0 => do need (x.l = 0 ∧ x.d = 0); let a ← finOf 16 x.a; let b ← finOf 16 x.b; let c ← finOf 16 x.c; some (.alu3Add a b c)
  | 1, 1 => do need (x.l = 0 ∧ x.d = 0); let a ← finOf 16 x.a; let b ← finOf 16 x.b; let c ← finOf 16 x.c; some (.alu3Sub a b c)
  | 1, 2 => do need (x.l = 0 ∧ x.d = 0); let a ← finOf 16 x.a; let b ← finOf 16 x.b; let c ← finOf 16 x.c; some (.alu3And a b c)
  | 1, 3 => do need (x.l = 0 ∧ x.d = 0); let a ← finOf 16 x.a; let b ← finOf 16 x.b; let c ← finOf 16 x.c; some (.alu3Or a b c)
  | 1, 4 => do need (x.l = 0 ∧ x.d = 0); let a ← finOf 16 x.a; let b ← finOf 16 x.b; let c ← finOf 16 x.c; some (.alu3Xor a b c)
  | 1, 5 => do need (x.l = 0 ∧ x.d = 0); let a ← finOf 16 x.a; let b ← finOf 16 x.b; let c ← finOf 16 x.c; some (.andn a b c)
  | 1, 6 => do need (x.l = 0 ∧ x.d = 0); let a ← finOf 16 x.a; let b ← finOf 16 x.b; let c ← finOf 16 x.c; some (.shl a b c)
  | 1, 7 => do need (x.l = 0 ∧ x.d = 0); let a ← finOf 16 x.a; let b ← finOf 16 x.b; let c ← finOf 16 x.c; some (.shr a b c)
  | 1, 8 => do need (x.l = 0 ∧ x.d = 0); let a ← finOf 16 x.a; let b ← finOf 16 x.b; let c ← finOf 16 x.c; some (.sar a b c)
  | 1, 9 => do need (x.l = 0 ∧ x.d = 0); let a ← finOf 16 x.a; let b ← finOf 16 x.b; let c ← finOf 16 x.c; some (.rot a b c)
  | 1, 10 => do need (x.l = 0 ∧ x.d = 0); let a ← finOf 16 x.a; let b ← finOf 16 x.b; let c ← finOf 16 x.c; some (.min a b c)
  | 1, 11 => do need (x.l = 0 ∧ x.d = 0); let a ← finOf 16 x.a; let b ← finOf 16 x.b; let c ← finOf 16 x.c; some (.max a b c)
  | 1, 12 => do need (x.l = 0 ∧ x.d = 0); let a ← finOf 16 x.a; let b ← finOf 16 x.b; let c ← finOf 16 x.c; some (.minN a b c)
  | 1, 13 => do need (x.l = 0 ∧ x.d = 0); let a ← finOf 16 x.a; let b ← finOf 16 x.b; let c ← finOf 16 x.c; some (.maxN a b c)
  | 1, 14 => do need (x.l = 0 ∧ x.d = 0); let a ← finOf 16 x.a; let b ← finOf 16 x.b; let c ← finOf 16 x.c; some (.cmpeq a b c)
  | 1, 15 => do need (x.l = 0 ∧ x.d = 0); let a ← finOf 16 x.a; let b ← finOf 16 x.b; let c ← finOf 16 x.c; some (.cmplt a b c)
  | _, _ => none

/-- Major opcode 0x0b, ALU3M (R141; selectors R127). -/
def decodeAlu3m (x : Fields) : Option Instr :=
  match x.t, x.f with
  | 1, 0 => do need (x.l = 0 ∧ x.d = 0); let a ← finOf 16 x.a; let b ← finOf 16 x.b; let c ← finOf 16 x.c; some (.cmpltN a b c)
  | 1, 1 => do need (x.l = 0 ∧ x.d = 0); let a ← finOf 16 x.a; let b ← finOf 16 x.b; let c ← finOf 16 x.c; some (.cmple a b c)
  | 1, 2 => do need (x.l = 0 ∧ x.d = 0); let a ← finOf 16 x.a; let b ← finOf 16 x.b; let c ← finOf 16 x.c; some (.cmpleN a b c)
  | 1, 3 => do need (x.l = 0 ∧ x.d = 0); let a ← finOf 16 x.a; let b ← finOf 16 x.b; let c ← finOf 16 x.c; some (.cmpne a b c)
  | 1, 4 => do need (x.l = 0 ∧ x.d = 0); let a ← finOf 16 x.a; let b ← finOf 16 x.b; let c ← finOf 16 x.c; some (.mul a b c)
  | 1, 5 => do need (x.l = 0 ∧ x.d = 0); let a ← finOf 16 x.a; let b ← finOf 16 x.b; let c ← finOf 16 x.c; some (.mulh a b c)
  | 1, 6 => do need (x.l = 0 ∧ x.d = 0); let a ← finOf 16 x.a; let b ← finOf 16 x.b; let c ← finOf 16 x.c; some (.mulhN a b c)
  | 1, 7 => do need (x.d = 0); let a ← finOf 16 x.a; let b ← finOf 16 x.b; let c ← finOf 16 x.c; let l ← finOf 16 x.l; some (.div a b c l)
  | 1, 8 => do need (x.d = 0); let a ← finOf 16 x.a; let b ← finOf 16 x.b; let c ← finOf 16 x.c; let l ← finOf 16 x.l; some (.divN a b c l)
  | 1, 9 => do need (x.d = 0); let a ← finOf 16 x.a; let b ← finOf 16 x.b; let c ← finOf 16 x.c; let l ← finOf 16 x.l; some (.rem a b c l)
  | 1, 10 => do need (x.d = 0); let a ← finOf 16 x.a; let b ← finOf 16 x.b; let c ← finOf 16 x.c; let l ← finOf 16 x.l; some (.remN a b c l)
  | 1, 11 => do need (x.l = 0 ∧ x.d = 0); let a ← finOf 16 x.a; let b ← finOf 16 x.b; let c ← finOf 16 x.c; some (.clmul a b c)
  | 1, 12 => do need (x.l = 0 ∧ x.d = 0); let a ← finOf 16 x.a; let b ← finOf 16 x.b; let c ← finOf 16 x.c; some (.clmulh a b c)
  | 1, 13 => do need (x.l = 0 ∧ x.d = 0); let a ← finOf 16 x.a; let b ← finOf 16 x.b; let c ← finOf 16 x.c; some (.bext a b c)
  | 1, 14 => do need (x.l = 0 ∧ x.d = 0); let a ← finOf 16 x.a; let b ← finOf 16 x.b; let c ← finOf 16 x.c; some (.bdep a b c)
  | _, _ => none

/-- Major opcode 0x0c, ALU1 (R144; selectors R127). -/
def decodeAlu1 (x : Fields) : Option Instr :=
  match x.t, x.f with
  | 1, 0 => do need (x.c = 0 ∧ x.l = 0 ∧ x.d = 0); let a ← finOf 16 x.a; let b ← finOf 16 x.b; some (.clz a b)
  | 1, 1 => do need (x.c = 0 ∧ x.l = 0 ∧ x.d = 0); let a ← finOf 16 x.a; let b ← finOf 16 x.b; some (.ctz a b)
  | 1, 2 => do need (x.c = 0 ∧ x.l = 0 ∧ x.d = 0); let a ← finOf 16 x.a; let b ← finOf 16 x.b; some (.popc a b)
  | 1, 3 => do need (x.c = 0 ∧ x.l = 0 ∧ x.d = 0); let a ← finOf 16 x.a; let b ← finOf 16 x.b; some (.brev a b)
  | 1, 4 => do need (x.c = 0 ∧ x.l = 0 ∧ x.d = 0); let a ← finOf 16 x.a; let b ← finOf 16 x.b; some (.sextB a b)
  | 1, 5 => do need (x.c = 0 ∧ x.l = 0 ∧ x.d = 0); let a ← finOf 16 x.a; let b ← finOf 16 x.b; some (.sextH a b)
  | 1, 6 => do need (x.c = 0 ∧ x.l = 0 ∧ x.d = 0); let a ← finOf 16 x.a; let b ← finOf 16 x.b; some (.sextW a b)
  | 1, 7 => do need (x.c = 0 ∧ x.l = 0 ∧ x.d = 0); let a ← finOf 16 x.a; let b ← finOf 16 x.b; some (.zextB a b)
  | 1, 8 => do need (x.c = 0 ∧ x.l = 0 ∧ x.d = 0); let a ← finOf 16 x.a; let b ← finOf 16 x.b; some (.zextH a b)
  | 1, 9 => do need (x.c = 0 ∧ x.l = 0 ∧ x.d = 0); let a ← finOf 16 x.a; let b ← finOf 16 x.b; some (.zextW a b)
  | 1, 10 => do need (x.c = 0 ∧ x.l = 0 ∧ x.d = 0); let a ← finOf 16 x.a; let b ← finOf 16 x.b; some (.not a b)
  | 1, 11 => do need (x.c = 0 ∧ x.l = 0 ∧ x.d = 0); let a ← finOf 16 x.a; let b ← finOf 16 x.b; some (.neg a b)
  | 1, 12 => do need (x.c = 0 ∧ x.l = 0 ∧ x.d = 0); let a ← finOf 16 x.a; let b ← finOf 16 x.b; some (.abs a b)
  | 1, 13 => do need (x.c = 0 ∧ x.l = 0 ∧ x.d = 0); let a ← finOf 16 x.a; let b ← finOf 16 x.b; some (.tagget a b)
  | 1, 14 => do need (x.c = 0 ∧ x.l = 0 ∧ x.d = 0); let a ← finOf 16 x.a; let b ← finOf 16 x.b; some (.bswap a b)
  | _, _ => none

/-- Major opcode 0x0d, ALUI (R145, R146; selectors R127). -/
def decodeAlui (x : Fields) : Option Instr :=
  match x.t, x.f with
  | 2, 0 => do need (x.c = 0 ∧ x.l = 0); let a ← finOf 16 x.a; let b ← finOf 16 x.b; let imm ← bvOf 20 x.imm; some (.addi a b imm)
  | 2, 1 => do need (x.c = 0 ∧ x.l = 0); let a ← finOf 16 x.a; let b ← finOf 16 x.b; let imm ← bvOf 20 x.imm; some (.andi a b imm)
  | 2, 2 => do need (x.c = 0 ∧ x.l = 0); let a ← finOf 16 x.a; let b ← finOf 16 x.b; let imm ← bvOf 20 x.imm; some (.ori a b imm)
  | 2, 3 => do need (x.c = 0 ∧ x.l = 0); let a ← finOf 16 x.a; let b ← finOf 16 x.b; let imm ← bvOf 20 x.imm; some (.xori a b imm)
  | 2, 4 => do need (x.c = 0 ∧ x.l = 0); let a ← finOf 16 x.a; let b ← finOf 16 x.b; let k ← finOf 64 x.imm; some (.shli a b k)
  | 2, 5 => do need (x.c = 0 ∧ x.l = 0); let a ← finOf 16 x.a; let b ← finOf 16 x.b; let k ← finOf 64 x.imm; some (.shri a b k)
  | 2, 6 => do need (x.c = 0 ∧ x.l = 0); let a ← finOf 16 x.a; let b ← finOf 16 x.b; let k ← finOf 64 x.imm; some (.sari a b k)
  | 2, 7 => do need (x.c = 0 ∧ x.l = 0); let a ← finOf 16 x.a; let b ← finOf 16 x.b; let k ← finOf 64 x.imm; some (.roti a b k)
  | 2, 8 => do need (x.c = 0 ∧ x.l = 0); let a ← finOf 16 x.a; let b ← finOf 16 x.b; let imm ← bvOf 20 x.imm; some (.cmpeqi a b imm)
  | 2, 9 => do need (x.c = 0 ∧ x.l = 0); let a ← finOf 16 x.a; let b ← finOf 16 x.b; let imm ← bvOf 20 x.imm; some (.cmplti a b imm)
  | 2, 10 => do need (x.c = 0 ∧ x.l = 0); let a ← finOf 16 x.a; let b ← finOf 16 x.b; let imm ← bvOf 20 x.imm; some (.cmpltiN a b imm)
  | 2, 11 => do need (x.c = 0 ∧ x.l = 0); let a ← finOf 16 x.a; let b ← finOf 16 x.b; let imm ← bvOf 20 x.imm; some (.muli a b imm)
  | 2, 12 => do need (x.c = 0 ∧ x.l = 0); let a ← finOf 16 x.a; let b ← finOf 16 x.b; let imm ← bvOf 20 x.imm; some (.addai a b imm)
  | 2, 13 => do need (x.c = 0 ∧ x.l = 0); let a ← finOf 16 x.a; let b ← finOf 16 x.b; let tag ← bvOf 8 x.imm; some (.tagset a b tag)
  | 2, 14 => do need (x.c = 0 ∧ x.l = 0); let a ← finOf 16 x.a; let b ← finOf 16 x.b; let imm ← bvOf 20 x.imm; some (.mini a b imm)
  | 2, 15 => do need (x.c = 0 ∧ x.l = 0); let a ← finOf 16 x.a; let b ← finOf 16 x.b; let imm ← bvOf 20 x.imm; some (.maxi a b imm)
  | _, _ => none

/-- Major opcode 0x0e, LI (R147; selectors R127). -/
def decodeLi (x : Fields) : Option Instr :=
  match x.t with
  | 1 => do need (x.b = 0); let a ← finOf 16 x.a; let imm ← bvOf 16 x.imm; some (.li16 a imm)
  | 2 => do need (x.b = 0); let a ← finOf 16 x.a; let imm ← bvOf 32 x.imm; some (.li32 a imm)
  | 3 => do need (x.b = 0); let a ← finOf 16 x.a; let imm ← bvOf 64 x.imm; some (.li64 a imm)
  | _ => none

/-- Major opcode 0x0f, ADDA (R148; selectors R127). -/
def decodeAdda (x : Fields) : Option Instr :=
  match x.t with
  | 1 => do need (x.l = 0 ∧ x.d = 0); let a ← finOf 16 x.a; let b ← finOf 16 x.b; let c ← finOf 16 x.c; let sh ← finOf 4 x.f; some (.adda a b c sh)
  | _ => none

/-- Major opcode 0x10, SEL (R149; selectors R127). -/
def decodeSel (x : Fields) : Option Instr :=
  match x.t with
  | 1 => do need (x.f = 0 ∧ x.l = 0); let a ← finOf 16 x.a; let b ← finOf 16 x.b; let c ← finOf 16 x.c; let d ← finOf 16 x.d; some (.sel a b c d)
  | _ => none

/-- Major opcode 0x11, BR (R151; selectors R127). -/
def decodeBr (x : Fields) : Option Instr :=
  match x.t with
  | 2 => do need (x.a = 0 ∧ x.b = 0 ∧ x.c = 0 ∧ x.f = 0 ∧ x.l = 0); let off ← bvOf 20 x.imm; some (.br off)
  | _ => none

/-- Major opcode 0x12, BCMP (R151; selectors R127). -/
def decodeBcmp (x : Fields) : Option Instr :=
  match x.t, x.f with
  | 2, 0 => do need (x.c = 0 ∧ x.l = 0); let a ← finOf 16 x.a; let b ← finOf 16 x.b; let off ← bvOf 20 x.imm; some (.beq a b off)
  | 2, 1 => do need (x.c = 0 ∧ x.l = 0); let a ← finOf 16 x.a; let b ← finOf 16 x.b; let off ← bvOf 20 x.imm; some (.bne a b off)
  | 2, 2 => do need (x.c = 0 ∧ x.l = 0); let a ← finOf 16 x.a; let b ← finOf 16 x.b; let off ← bvOf 20 x.imm; some (.blt a b off)
  | 2, 3 => do need (x.c = 0 ∧ x.l = 0); let a ← finOf 16 x.a; let b ← finOf 16 x.b; let off ← bvOf 20 x.imm; some (.bge a b off)
  | 2, 4 => do need (x.c = 0 ∧ x.l = 0); let a ← finOf 16 x.a; let b ← finOf 16 x.b; let off ← bvOf 20 x.imm; some (.bltN a b off)
  | 2, 5 => do need (x.c = 0 ∧ x.l = 0); let a ← finOf 16 x.a; let b ← finOf 16 x.b; let off ← bvOf 20 x.imm; some (.bgeN a b off)
  | _, _ => none

/-- Major opcode 0x13, BZ (R151; selectors R127). -/
def decodeBz (x : Fields) : Option Instr :=
  match x.t, x.f with
  | 2, 0 => do need (x.b = 0 ∧ x.c = 0 ∧ x.l = 0); let a ← finOf 16 x.a; let off ← bvOf 20 x.imm; some (.bz a off)
  | 2, 1 => do need (x.b = 0 ∧ x.c = 0 ∧ x.l = 0); let a ← finOf 16 x.a; let off ← bvOf 20 x.imm; some (.bnz a off)
  | _, _ => none

/-- Major opcode 0x14, CALL (R151; selectors R127). -/
def decodeCall (x : Fields) : Option Instr :=
  match x.t with
  | 2 => do need (x.b = 0 ∧ x.c = 0 ∧ x.f = 0 ∧ x.l = 0); let a ← finOf 16 x.a; let off ← bvOf 20 x.imm; some (.call a off)
  | _ => none

/-- Major opcode 0x15, JR (R151; selectors R127). -/
def decodeJr (x : Fields) : Option Instr :=
  match x.t with
  | 0 => do need (x.a = 0); let b ← finOf 16 x.b; some (.jr b)
  | _ => none

/-- Major opcode 0x16, LOOP (R151; selectors R127). -/
def decodeLoop (x : Fields) : Option Instr :=
  match x.t with
  | 2 => do need (x.b = 0 ∧ x.c = 0 ∧ x.f = 0 ∧ x.l = 0); let a ← finOf 16 x.a; let off ← bvOf 20 x.imm; some (.loop a off)
  | _ => none

/-- Major opcode 0x17, SPR (R153; selectors R127). -/
def decodeSpr (x : Fields) : Option Instr :=
  match x.t, x.f with
  | 1, 0 => do need (x.b = 0 ∧ x.l = 0); let a ← finOf 16 x.a; let n ← finOf 256 (x.c * 16 + x.d); some (.rdsr a n)
  | 1, 1 => do need (x.b = 0 ∧ x.l = 0); let a ← finOf 16 x.a; let n ← finOf 256 (x.c * 16 + x.d); some (.wrsr n a)
  | 1, 2 => do need (x.b = 0 ∧ x.l = 0); let a ← finOf 16 x.a; let n ← finOf 256 (x.c * 16 + x.d); some (.rdcnt a n)
  | 1, 3 => do need (x.l = 0); let a ← finOf 16 x.a; let b ← finOf 16 x.b; let n ← finOf 256 (x.c * 16 + x.d); some (.swpsr a n b)
  | _, _ => none

/-- Major opcode 0x18, LD (R169; selectors R127). -/
def decodeLd (x : Fields) : Option Instr :=
  match x.t with
  | 2 => do need (x.c = 0); let a ← finOf 16 x.a; let b ← finOf 16 x.b; let (sz, acq) ← loadFOf x.f; let l ← finOf 16 x.l; let disp ← bvOf 20 x.imm; some (.ld sz acq a b l disp)
  | _ => none

/-- Major opcode 0x19, ST (R169; selectors R127). -/
def decodeSt (x : Fields) : Option Instr :=
  match x.t with
  | 2 => do need (x.c = 0 ∧ x.l = 0); let a ← finOf 16 x.a; let b ← finOf 16 x.b; let (sz, rel) ← storeFOf x.f; let disp ← bvOf 20 x.imm; some (.st sz rel a b disp)
  | _ => none

/-- Major opcode 0x1a, LDV (R169; selectors R127). -/
def decodeLdv (x : Fields) : Option Instr :=
  match x.t with
  | 2 => do need (x.c = 0); let a ← finOf 16 x.a; let b ← finOf 16 x.b; let (sz, acq) ← loadFOf x.f; let l ← finOf 16 x.l; let disp ← bvOf 20 x.imm; some (.ldv sz acq a b l disp)
  | _ => none

/-- Major opcode 0x1b, STV (R169; selectors R127). -/
def decodeStv (x : Fields) : Option Instr :=
  match x.t with
  | 2 => do need (x.c = 0 ∧ x.l = 0); let a ← finOf 16 x.a; let b ← finOf 16 x.b; let (sz, rel) ← storeFOf x.f; let disp ← bvOf 20 x.imm; some (.stv sz rel a b disp)
  | _ => none

/-- Major opcode 0x1c, TAGW (R171; selectors R127). -/
def decodeTagw (x : Fields) : Option Instr :=
  match x.t, x.f with
  | 2, 0 => do need (x.c = 0); let b ← finOf 16 x.b; let disp ← bvOf 20 x.imm; let a ← finOf 16 x.a; let l ← finOf 16 x.l; some (.ldf a b l disp)
  | 2, 1 => do need (x.c = 0); let b ← finOf 16 x.b; let disp ← bvOf 20 x.imm; let a ← finOf 16 x.a; let l ← finOf 16 x.l; some (.ldfe a b l disp)
  | 2, 2 => do need (x.c = 0 ∧ x.l = 0); let b ← finOf 16 x.b; let disp ← bvOf 20 x.imm; let a ← finOf 16 x.a; some (.ste a b disp)
  | 2, 3 => do need (x.c = 0 ∧ x.l = 0); let b ← finOf 16 x.b; let disp ← bvOf 20 x.imm; let a ← finOf 16 x.a; some (.stf a b disp)
  | 2, 4 => do need (x.c = 0); let b ← finOf 16 x.b; let disp ← bvOf 20 x.imm; let a ← finOf 16 x.a; let l ← finOf 16 x.l; some (.tagrd a b l disp)
  | 2, 5 => do need (x.a = 0 ∧ x.c = 0 ∧ x.l = 0); let b ← finOf 16 x.b; let disp ← bvOf 20 x.imm; some (.tagsetf b disp)
  | 2, 6 => do need (x.a = 0 ∧ x.c = 0 ∧ x.l = 0); let b ← finOf 16 x.b; let disp ← bvOf 20 x.imm; some (.tagsete b disp)
  | 2, 7 => do let b ← finOf 16 x.b; let disp ← bvOf 20 x.imm; let a ← finOf 16 x.a; let l ← finOf 16 x.l; let c ← finOf 16 x.c; some (.ldft a c b l disp)
  | _, _ => none

/-- Major opcode 0x1d, VLD (R174; selectors R127). -/
def decodeVld (x : Fields) : Option Instr :=
  match x.t, x.f % 8 with
  | 2, 0 => do need (x.c = 0); let a ← finOf 8 x.a; let b ← finOf 16 x.b; let acq ← flag8Of 0 x.f; let l ← finOf 16 x.l; let disp ← bvOf 20 x.imm; some (.vld acq a b l disp)
  | 2, 1 => do need (x.c = 0); let a ← finOf 8 x.a; let b ← finOf 16 x.b; let acq ← flag8Of 1 x.f; let l ← finOf 16 x.l; let disp ← bvOf 20 x.imm; some (.vldBc8 acq a b l disp)
  | 2, 2 => do need (x.c = 0); let a ← finOf 8 x.a; let b ← finOf 16 x.b; let acq ← flag8Of 2 x.f; let l ← finOf 16 x.l; let disp ← bvOf 20 x.imm; some (.vldBc4 acq a b l disp)
  | 2, 3 => do need (x.c = 0); let a ← finOf 8 x.a; let b ← finOf 16 x.b; let acq ← flag8Of 3 x.f; let l ← finOf 16 x.l; let disp ← bvOf 20 x.imm; some (.vldHalf acq a b l disp)
  | _, _ => none

/-- Major opcode 0x1e, VST (R174; selectors R127). -/
def decodeVst (x : Fields) : Option Instr :=
  match x.t, x.f % 8 with
  | 2, 0 => do need (x.c = 0 ∧ x.l = 0); let a ← finOf 8 x.a; let b ← finOf 16 x.b; let rel ← flag8Of 0 x.f; let disp ← bvOf 20 x.imm; some (.vst rel a b disp)
  | 2, 1 => do need (x.c = 0 ∧ x.l = 0); let a ← finOf 8 x.a; let b ← finOf 16 x.b; let rel ← flag8Of 1 x.f; let disp ← bvOf 20 x.imm; some (.vstHalf rel a b disp)
  | 2, 2 => do need (x.c = 0); let a ← finOf 8 x.a; let b ← finOf 16 x.b; let rel ← flag8Of 2 x.f; let p ← finOf 4 x.l; let disp ← bvOf 20 x.imm; some (.vstPred rel a b p disp)
  | _, _ => none

/-- Major opcode 0x1f, VMEMX (R176; selectors R127). -/
def decodeVmemx (x : Fields) : Option Instr :=
  match x.t, x.f with
  | 1, 0 => do let (w8, a) ← wideAOf x.a; let b ← finOf 16 x.b; let c ← finOf 16 x.c; let l ← finOf 16 x.l; let (vault, p) ← vmemDOf x.d; some (.vlds w8 a b c l vault p)
  | 1, 1 => do need (x.l = 0); let (w8, a) ← wideAOf x.a; let b ← finOf 16 x.b; let c ← finOf 16 x.c; let (vault, p) ← vmemDOf x.d; some (.vsts w8 a b c vault p)
  | 1, 2 => do let (w8, a) ← wideAOf x.a; let b ← finOf 16 x.b; let c ← finOf 8 x.c; let l ← finOf 16 x.l; let (vault, p) ← vmemDOf x.d; some (.vgath w8 a b c l vault p)
  | 1, 3 => do need (x.l = 0); let (w8, a) ← wideAOf x.a; let b ← finOf 16 x.b; let c ← finOf 8 x.c; let (vault, p) ← vmemDOf x.d; some (.vscat w8 a b c vault p)
  | 1, 4 => do let a ← finOf 8 x.a; let b ← finOf 16 x.b; let c ← finOf 16 x.c; let l ← finOf 16 x.l; let (vault, p) ← vmemDOf x.d; some (.vldf a b c l vault p)
  | 1, 5 => do let a ← finOf 8 x.a; let b ← finOf 16 x.b; let c ← finOf 16 x.c; let l ← finOf 16 x.l; let (vault, p) ← vmemDOf x.d; some (.vldfh a b c l vault p)
  | 1, 6 => do let (half, a) ← wideAOf x.a; let b ← finOf 16 x.b; let c ← finOf 16 x.c; let sat ← boolOf x.l; let (vault, p) ← vmemDOf x.d; some (.vstf half a b c sat vault p)
  | _, _ => none

/-- Major opcode 0x20, VLDV (R174; selectors R127). -/
def decodeVldv (x : Fields) : Option Instr :=
  match x.t, x.f with
  | 2, 0 => do need (x.c = 0); let a ← finOf 8 x.a; let b ← finOf 16 x.b; let l ← finOf 16 x.l; let disp ← bvOf 20 x.imm; some (.vldv a b l disp)
  | 2, 8 => do need (x.c = 0); let a ← finOf 8 x.a; let b ← finOf 16 x.b; let l ← finOf 16 x.l; let disp ← bvOf 20 x.imm; some (.vldvAcq a b l disp)
  | 2, 1 => do need (x.c = 0 ∧ x.l = 0); let a ← finOf 8 x.a; let b ← finOf 16 x.b; let disp ← bvOf 20 x.imm; some (.vstv a b disp)
  | 2, 9 => do need (x.c = 0 ∧ x.l = 0); let a ← finOf 8 x.a; let b ← finOf 16 x.b; let disp ← bvOf 20 x.imm; some (.vstvRel a b disp)
  | _, _ => none

/-- Major opcode 0x21, AMO (R180; selectors R127). -/
def decodeAmo (x : Fields) : Option Instr :=
  match x.t, x.f with
  | 1, 0 => do let a ← finOf 16 x.a; let b ← finOf 16 x.b; let c ← finOf 16 x.c; let l ← finOf 16 x.l; let (ord, d8, vault) ← amoDOf x.d; some (.amoSwap a b c l ord d8 vault)
  | 1, 1 => do let a ← finOf 16 x.a; let b ← finOf 16 x.b; let c ← finOf 16 x.c; let l ← finOf 16 x.l; let (ord, d8, vault) ← amoDOf x.d; some (.amoAdd a b c l ord d8 vault)
  | 1, 2 => do let a ← finOf 16 x.a; let b ← finOf 16 x.b; let c ← finOf 16 x.c; let l ← finOf 16 x.l; let (ord, d8, vault) ← amoDOf x.d; some (.amoAnd a b c l ord d8 vault)
  | 1, 3 => do let a ← finOf 16 x.a; let b ← finOf 16 x.b; let c ← finOf 16 x.c; let l ← finOf 16 x.l; let (ord, d8, vault) ← amoDOf x.d; some (.amoOr a b c l ord d8 vault)
  | 1, 4 => do let a ← finOf 16 x.a; let b ← finOf 16 x.b; let c ← finOf 16 x.c; let l ← finOf 16 x.l; let (ord, d8, vault) ← amoDOf x.d; some (.amoXor a b c l ord d8 vault)
  | 1, 5 => do let a ← finOf 16 x.a; let b ← finOf 16 x.b; let c ← finOf 16 x.c; let l ← finOf 16 x.l; let (ord, d8, vault) ← amoDOf x.d; some (.amoMin a b c l ord d8 vault)
  | 1, 6 => do let a ← finOf 16 x.a; let b ← finOf 16 x.b; let c ← finOf 16 x.c; let l ← finOf 16 x.l; let (ord, d8, vault) ← amoDOf x.d; some (.amoMax a b c l ord d8 vault)
  | 1, 7 => do let a ← finOf 16 x.a; let b ← finOf 16 x.b; let c ← finOf 16 x.c; let l ← finOf 16 x.l; let (ord, d8, vault) ← amoDOf x.d; some (.amoMinN a b c l ord d8 vault)
  | 1, 8 => do let a ← finOf 16 x.a; let b ← finOf 16 x.b; let c ← finOf 16 x.c; let l ← finOf 16 x.l; let (ord, d8, vault) ← amoDOf x.d; some (.amoMaxN a b c l ord d8 vault)
  | 1, 9 => do let a ← finOf 16 x.a; let b ← finOf 16 x.b; let c ← finOf 16 x.c; let l ← finOf 16 x.l; let (ord, d8, vault) ← amoDOf x.d; some (.amoIncw a b c l ord d8 vault)
  | 1, 10 => do let a ← finOf 16 x.a; let b ← finOf 16 x.b; let c ← finOf 16 x.c; let l ← finOf 16 x.l; let (ord, d8, vault) ← amoDOf x.d; some (.amoBfadd a b c l ord d8 vault)
  | _, _ => none

/-- Major opcode 0x22, CAS (R183; selectors R127). -/
def decodeCas (x : Fields) : Option Instr :=
  match x.t with
  | 1 => do let a ← finOf 16 x.a; let b ← finOf 16 x.b; let c ← finOf 16 x.c; let (d8, vault) ← casFOf x.f; let l ← finOf 16 x.l; let (succ, facq) ← casDOf x.d; some (.cas a b c l succ facq d8 vault)
  | _ => none

/-- Major opcode 0x23, RED (R185; selectors R127). -/
def decodeRed (x : Fields) : Option Instr :=
  match x.t, x.f with
  | 1, 0 => do need (x.a = 0 ∧ x.l = 0); let b ← finOf 16 x.b; let c ← finOf 16 x.c; let (rel, d8, vault) ← redDOf x.d; some (.redAdd b c rel d8 vault)
  | 1, 1 => do need (x.a = 0 ∧ x.l = 0); let b ← finOf 16 x.b; let c ← finOf 16 x.c; let (rel, d8, vault) ← redDOf x.d; some (.redAnd b c rel d8 vault)
  | 1, 2 => do need (x.a = 0 ∧ x.l = 0); let b ← finOf 16 x.b; let c ← finOf 16 x.c; let (rel, d8, vault) ← redDOf x.d; some (.redOr b c rel d8 vault)
  | 1, 3 => do need (x.a = 0 ∧ x.l = 0); let b ← finOf 16 x.b; let c ← finOf 16 x.c; let (rel, d8, vault) ← redDOf x.d; some (.redXor b c rel d8 vault)
  | 1, 4 => do need (x.a = 0 ∧ x.l = 0); let b ← finOf 16 x.b; let c ← finOf 16 x.c; let (rel, d8, vault) ← redDOf x.d; some (.redMin b c rel d8 vault)
  | 1, 5 => do need (x.a = 0 ∧ x.l = 0); let b ← finOf 16 x.b; let c ← finOf 16 x.c; let (rel, d8, vault) ← redDOf x.d; some (.redMax b c rel d8 vault)
  | 1, 6 => do need (x.a = 0 ∧ x.l = 0); let b ← finOf 16 x.b; let c ← finOf 16 x.c; let (rel, d8, vault) ← redDOf x.d; some (.redMinN b c rel d8 vault)
  | 1, 7 => do need (x.a = 0 ∧ x.l = 0); let b ← finOf 16 x.b; let c ← finOf 16 x.c; let (rel, d8, vault) ← redDOf x.d; some (.redMaxN b c rel d8 vault)
  | 1, 8 => do need (x.a = 0 ∧ x.l = 0); let b ← finOf 16 x.b; let c ← finOf 16 x.c; let (rel, vault) ← redFDOf x.d; some (.redFadd32 b c rel vault)
  | 1, 9 => do need (x.a = 0 ∧ x.l = 0); let b ← finOf 16 x.b; let c ← finOf 16 x.c; let (rel, vault) ← redFDOf x.d; some (.redFmax32 b c rel vault)
  | 1, 10 => do need (x.a = 0 ∧ x.l = 0); let b ← finOf 16 x.b; let c ← finOf 16 x.c; let (rel, vault) ← redFDOf x.d; some (.redFmin32 b c rel vault)
  | _, _ => none

/-- Major opcode 0x24, FENCE (R188; selectors R127). -/
def decodeFence (x : Fields) : Option Instr :=
  match x.t, x.b with
  | 0, 0 => do let sc ← scopeOf x.a; some (.fenceAcq sc)
  | 0, 1 => do let sc ← scopeOf x.a; some (.fenceRel sc)
  | 0, 2 => do let sc ← scopeOf x.a; some (.fenceFull sc)
  | 0, 3 => do let sc ← scopeOf x.a; some (.fenceEng sc)
  | _, _ => none

/-- Major opcode 0x25, CPY (R189; selectors R127). -/
def decodeCpy (x : Fields) : Option Instr :=
  match x.t, x.f with
  | 1, 0 => do need (x.a = 0 ∧ x.l = 0 ∧ x.d = 0); let b ← finOf 16 x.b; let k ← finOf 8 x.c; some (.cpwr k b)
  | 1, 1 => do need (x.b = 0 ∧ x.c = 0); let a ← finOf 16 x.a; let l ← finOf 16 x.l; let j ← finOf 8 x.d; some (.cpgo a j l)
  | 1, 2 => do need (x.b = 0 ∧ x.l = 0 ∧ x.d = 0); let a ← finOf 16 x.a; let k ← finOf 8 x.c; some (.cprd a k)
  | 1, 3 => do need (x.c = 0 ∧ x.l = 0 ∧ x.d = 0); let a ← finOf 16 x.a; let b ← finOf 16 x.b; some (.cpst a b)
  | _, _ => none

/-- Major opcode 0x26, TOK (R191; selectors R127). -/
def decodeTok (x : Fields) : Option Instr :=
  match x.t, x.f with
  | 1, 0 => do need (x.a = 0 ∧ x.b = 0 ∧ x.l = 0); let mask ← bvOf 8 (x.c * 16 + x.d); some (.wait mask)
  | 1, 1 => do need (x.b = 0 ∧ x.l = 0); let a ← finOf 16 x.a; let mask ← bvOf 8 (x.c * 16 + x.d); some (.waitany a mask)
  | 1, 2 => do need (x.b = 0 ∧ x.c = 0 ∧ x.l = 0 ∧ x.d = 0); let a ← finOf 16 x.a; some (.tkst a)
  | 1, 3 => do need (x.a = 0 ∧ x.b = 0 ∧ x.l = 0); let mask ← bvOf 8 (x.c * 16 + x.d); some (.tkrel mask)
  | 1, 4 => do need (x.a = 0 ∧ x.b = 0 ∧ x.c = 0 ∧ x.l = 0 ∧ x.d = 0); some (.tkclr)
  | _, _ => none

/-- Major opcode 0x27, GAL (R192; selectors R127). -/
def decodeGal (x : Fields) : Option Instr :=
  match x.t, x.f with
  | 1, 0 =>
    if x.l = 1 then do need (x.a = 0 ∧ x.c = 0 ∧ x.d = 0 ∧ x.l = 1); let b ← finOf 16 x.b; some (.ginitOff b)
    else do need (x.a = 0 ∧ x.c = 0 ∧ x.d = 0 ∧ x.l = 0); let b ← finOf 16 x.b; some (.ginit b)
  | 1, 1 => do need (x.a = 0); let b ← finOf 16 x.b; let c ← finOf 16 x.c; let d ← optdOf (x.l, x.d); some (.garr b c d)
  | 1, 2 => do need (x.a = 0 ∧ x.l = 0); let b ← finOf 16 x.b; let c ← finOf 16 x.c; let d ← finOf 16 x.d; some (.gexp b c d)
  | 1, 3 => do need (x.d = 0); let j ← finOf 8 x.a; let b ← finOf 16 x.b; let c ← finOf 16 x.c; let ph ← boolOf x.l; some (.gwait j b c ph)
  | 1, 4 => do need (x.a = 0 ∧ x.l = 0 ∧ x.d = 0); let b ← finOf 16 x.b; let c ← finOf 16 x.c; some (.grel b c)
  | 1, 5 => do need (x.l = 0 ∧ x.d = 0); let a ← finOf 16 x.a; let b ← finOf 16 x.b; let c ← finOf 16 x.c; some (.gtest a b c)
  | _, _ => none

/-- Major opcode 0x28, MQ (R224; selectors R127). -/
def decodeMq (x : Fields) : Option Instr :=
  match x.t, x.f with
  | 1, 0 => do need (x.c = 0 ∧ x.d = 0); let a ← finOf 16 x.a; let b ← finOf 8 x.b; let sid ← boolOf x.l; some (.stc sid a b)
  | 1, 1 => do need (x.b = 0 ∧ x.c = 0 ∧ x.l = 0 ∧ x.d = 0); let a ← finOf 16 x.a; some (.mqst a)
  | 1, 2 => do need (x.c = 0 ∧ x.l = 0 ∧ x.d = 0); let j ← finOf 8 x.a; let b ← finOf 16 x.b; some (.mbind j b)
  | 1, 3 => do need (x.a = 0 ∧ x.b = 0 ∧ x.c = 0 ∧ x.l = 0 ∧ x.d = 0); some (.mack)
  | _, _ => none

/-- Major opcode 0x29, VFA (R202; selectors R127). -/
def decodeVfa (x : Fields) : Option Instr :=
  match x.t, x.f with
  | 1, 0 => do let a ← finOf 8 x.a; let b ← finOf 8 x.b; let c ← finOf 8 x.c; let ty ← ftyOf x.l; let p ← pctlOf x.d; some (.vfaVadd a b c ty p)
  | 1, 1 => do let a ← finOf 8 x.a; let b ← finOf 8 x.b; let c ← finOf 8 x.c; let ty ← ftyOf x.l; let p ← pctlOf x.d; some (.vfaVsub a b c ty p)
  | 1, 2 => do let a ← finOf 8 x.a; let b ← finOf 8 x.b; let c ← finOf 8 x.c; let ty ← ftyOf x.l; let p ← pctlOf x.d; some (.vfaVmul a b c ty p)
  | 1, 3 => do let a ← finOf 8 x.a; let b ← finOf 8 x.b; let c ← finOf 8 x.c; let ty ← ftyOf x.l; let l ← finOf 16 x.d; some (.vdiv a b c ty l)
  | 1, 4 => do let a ← finOf 8 x.a; let b ← finOf 8 x.b; let c ← finOf 8 x.c; let ty ← ftyOf x.l; let p ← pctlOf x.d; some (.vfaVmin a b c ty p)
  | 1, 5 => do let a ← finOf 8 x.a; let b ← finOf 8 x.b; let c ← finOf 8 x.c; let ty ← ftyOf x.l; let p ← pctlOf x.d; some (.vfaVmax a b c ty p)
  | 1, 6 => do let a ← finOf 8 x.a; let b ← finOf 8 x.b; let c ← finOf 8 x.c; let ty ← ftyOf x.l; let p ← pctlOf x.d; some (.vfma a b c ty p)
  | 1, 7 => do let a ← finOf 8 x.a; let b ← finOf 8 x.b; let c ← finOf 8 x.c; let ty ← ftyOf x.l; let p ← pctlOf x.d; some (.vfms a b c ty p)
  | 1, 8 => do let a ← finOf 8 x.a; let b ← finOf 8 x.b; let c ← finOf 8 x.c; let ty ← ftyOf x.l; let p ← pctlOf x.d; some (.vfnma a b c ty p)
  | _, _ => none

/-- Major opcode 0x2a, VIA (R204; selectors R127). -/
def decodeVia (x : Fields) : Option Instr :=
  match x.t, x.f with
  | 1, 0 => do let a ← finOf 8 x.a; let b ← finOf 8 x.b; let c ← finOf 8 x.c; let ty ← ityOf x.l; let p ← pctlOf x.d; some (.viaVadd a b c ty p)
  | 1, 1 => do let a ← finOf 8 x.a; let b ← finOf 8 x.b; let c ← finOf 8 x.c; let ty ← ityOf x.l; let p ← pctlOf x.d; some (.viaVsub a b c ty p)
  | 1, 2 => do let a ← finOf 8 x.a; let b ← finOf 8 x.b; let c ← finOf 8 x.c; let ty ← ityOf x.l; let p ← pctlOf x.d; some (.viaVmul a b c ty p)
  | 1, 3 => do let a ← finOf 8 x.a; let b ← finOf 8 x.b; let c ← finOf 8 x.c; let ty ← ityOf x.l; let p ← pctlOf x.d; some (.vmulh a b c ty p)
  | 1, 4 => do let a ← finOf 8 x.a; let b ← finOf 8 x.b; let c ← finOf 8 x.c; let ty ← ityOf x.l; let p ← pctlOf x.d; some (.viaVmin a b c ty p)
  | 1, 5 => do let a ← finOf 8 x.a; let b ← finOf 8 x.b; let c ← finOf 8 x.c; let ty ← ityOf x.l; let p ← pctlOf x.d; some (.viaVmax a b c ty p)
  | 1, 6 => do let a ← finOf 8 x.a; let b ← finOf 8 x.b; let c ← finOf 8 x.c; let ty ← ityOf x.l; let p ← pctlOf x.d; some (.vadds a b c ty p)
  | 1, 7 => do let a ← finOf 8 x.a; let b ← finOf 8 x.b; let c ← finOf 8 x.c; let ty ← ityOf x.l; let p ← pctlOf x.d; some (.vsubs a b c ty p)
  | 1, 8 => do let a ← finOf 8 x.a; let b ← finOf 8 x.b; let c ← finOf 8 x.c; let ty ← ityOf x.l; let p ← pctlOf x.d; some (.vavg a b c ty p)
  | 1, 9 => do let a ← finOf 8 x.a; let b ← finOf 8 x.b; let c ← finOf 8 x.c; let ty ← ityOf x.l; let p ← pctlOf x.d; some (.vabsd a b c ty p)
  | 1, 10 => do let a ← finOf 8 x.a; let b ← finOf 8 x.b; let c ← finOf 8 x.c; let ty ← ityOf x.l; let p ← pctlOf x.d; some (.vmac a b c ty p)
  | 1, 11 => do let a ← finOf 8 x.a; let b ← finOf 8 x.b; let c ← finOf 8 x.c; let ty ← ityOf x.l; let p ← pctlOf x.d; some (.vdot4 a b c ty p)
  | _, _ => none

/-- Major opcode 0x2b, VUN (R206; selectors R127). -/
def decodeVun (x : Fields) : Option Instr :=
  match x.t, x.f with
  | 1, 0 => do need (x.c = 0); let a ← finOf 8 x.a; let b ← finOf 8 x.b; let ty ← ftyOf x.l; let l ← finOf 16 x.d; some (.vsqrt a b ty l)
  | 1, 1 => do need (x.c = 0); let a ← finOf 8 x.a; let b ← finOf 8 x.b; let ty ← ftyOf x.l; let p ← pctlOf x.d; some (.vrcp8 a b ty p)
  | 1, 2 => do need (x.c = 0); let a ← finOf 8 x.a; let b ← finOf 8 x.b; let ty ← ftyOf x.l; let l ← finOf 16 x.d; some (.vexp2 a b ty l)
  | 1, 3 => do need (x.c = 0); let a ← finOf 8 x.a; let b ← finOf 8 x.b; let ty ← ftyOf x.l; let l ← finOf 16 x.d; some (.vlog2 a b ty l)
  | 1, 4 => do need (x.c = 0); let a ← finOf 8 x.a; let b ← finOf 8 x.b; let ty ← vtyOf x.l; let p ← pctlOf x.d; some (.vneg a b ty p)
  | 1, 5 => do need (x.c = 0); let a ← finOf 8 x.a; let b ← finOf 8 x.b; let ty ← ftyOf x.l; let p ← pctlOf x.d; some (.vabs a b ty p)
  | 1, 6 => do need (x.c = 0); let a ← finOf 8 x.a; let b ← finOf 8 x.b; let ty ← ftyOf x.l; let p ← pctlOf x.d; some (.vfloor a b ty p)
  | 1, 7 => do need (x.c = 0); let a ← finOf 8 x.a; let b ← finOf 8 x.b; let ty ← ftyOf x.l; let p ← pctlOf x.d; some (.vceil a b ty p)
  | 1, 8 => do need (x.c = 0); let a ← finOf 8 x.a; let b ← finOf 8 x.b; let ty ← ftyOf x.l; let p ← pctlOf x.d; some (.vrint a b ty p)
  | 1, 9 => do need (x.c = 0); let a ← finOf 8 x.a; let b ← finOf 8 x.b; let ty ← ityOf x.l; let p ← pctlOf x.d; some (.vclz a b ty p)
  | 1, 10 => do need (x.c = 0); let a ← finOf 8 x.a; let b ← finOf 8 x.b; let ty ← ityOf x.l; let p ← pctlOf x.d; some (.vpopc a b ty p)
  | 1, 11 => do need (x.c = 0); let a ← finOf 8 x.a; let b ← finOf 8 x.b; let ty ← ityOf x.l; let p ← pctlOf x.d; some (.vnot a b ty p)
  | 1, 12 => do need (x.c = 0); let a ← finOf 8 x.a; let b ← finOf 8 x.b; let ty ← ityOf x.l; let p ← pctlOf x.d; some (.vabsi a b ty p)
  | _, _ => none

/-- Major opcode 0x2c, VCMP (R209; selectors R127). -/
def decodeVcmp (x : Fields) : Option Instr :=
  match x.t, x.f with
  | 1, 0 => do let a ← finOf 4 x.a; let b ← finOf 8 x.b; let c ← finOf 8 x.c; let ty ← vtyOf x.l; let p ← pctlOf x.d; some (.vcmpEq a b c ty p)
  | 1, 1 => do let a ← finOf 4 x.a; let b ← finOf 8 x.b; let c ← finOf 8 x.c; let ty ← vtyOf x.l; let p ← pctlOf x.d; some (.vcmpNe a b c ty p)
  | 1, 2 => do let a ← finOf 4 x.a; let b ← finOf 8 x.b; let c ← finOf 8 x.c; let ty ← vtyOf x.l; let p ← pctlOf x.d; some (.vcmpLt a b c ty p)
  | 1, 3 => do let a ← finOf 4 x.a; let b ← finOf 8 x.b; let c ← finOf 8 x.c; let ty ← vtyOf x.l; let p ← pctlOf x.d; some (.vcmpLe a b c ty p)
  | 1, 4 => do let a ← finOf 4 x.a; let b ← finOf 8 x.b; let c ← finOf 8 x.c; let ty ← vtyOf x.l; let p ← pctlOf x.d; some (.vcmpGt a b c ty p)
  | 1, 5 => do let a ← finOf 4 x.a; let b ← finOf 8 x.b; let c ← finOf 8 x.c; let ty ← vtyOf x.l; let p ← pctlOf x.d; some (.vcmpGe a b c ty p)
  | 1, 6 => do let a ← finOf 4 x.a; let b ← finOf 8 x.b; let c ← finOf 8 x.c; let ty ← ftyOf x.l; let p ← pctlOf x.d; some (.vcmpUnord a b c ty p)
  | 1, 7 => do let a ← finOf 4 x.a; let b ← finOf 8 x.b; let c ← finOf 8 x.c; let ty ← ityOf x.l; let p ← pctlOf x.d; some (.vcmpLtN a b c ty p)
  | 1, 8 => do let a ← finOf 4 x.a; let b ← finOf 8 x.b; let c ← finOf 8 x.c; let ty ← ityOf x.l; let p ← pctlOf x.d; some (.vcmpLeN a b c ty p)
  | _, _ => none

/-- Major opcode 0x2d, VBIT (R210; selectors R127). -/
def decodeVbit (x : Fields) : Option Instr :=
  match x.t, x.f with
  | 1, 0 => do let a ← finOf 8 x.a; let b ← finOf 8 x.b; let c ← finOf 8 x.c; let ty ← ityOf x.l; let p ← pctlOf x.d; some (.vand a b c ty p)
  | 1, 1 => do let a ← finOf 8 x.a; let b ← finOf 8 x.b; let c ← finOf 8 x.c; let ty ← ityOf x.l; let p ← pctlOf x.d; some (.vor a b c ty p)
  | 1, 2 => do let a ← finOf 8 x.a; let b ← finOf 8 x.b; let c ← finOf 8 x.c; let ty ← ityOf x.l; let p ← pctlOf x.d; some (.vxor a b c ty p)
  | 1, 3 => do let a ← finOf 8 x.a; let b ← finOf 8 x.b; let c ← finOf 8 x.c; let ty ← ityOf x.l; let p ← pctlOf x.d; some (.vandn a b c ty p)
  | 1, 4 => do let a ← finOf 8 x.a; let b ← finOf 8 x.b; let c ← finOf 8 x.c; let ty ← ityOf x.l; let p ← pctlOf x.d; some (.vshl a b c ty p)
  | 1, 5 => do let a ← finOf 8 x.a; let b ← finOf 8 x.b; let c ← finOf 8 x.c; let ty ← ityOf x.l; let p ← pctlOf x.d; some (.vshr a b c ty p)
  | 1, 6 => do let a ← finOf 8 x.a; let b ← finOf 8 x.b; let c ← finOf 8 x.c; let ty ← ityOf x.l; let p ← pctlOf x.d; some (.vsar a b c ty p)
  | 1, 7 => do let a ← finOf 8 x.a; let b ← finOf 8 x.b; let c ← finOf 8 x.c; let ty ← ityOf x.l; let p ← pctlOf x.d; some (.vrot a b c ty p)
  | 1, 8 => do let a ← finOf 8 x.a; let b ← finOf 8 x.b; let c ← finOf 8 x.c; let ty ← ityOf x.l; let p ← pctlOf x.d; some (.vclmul a b c ty p)
  | 1, 9 => do let a ← finOf 8 x.a; let b ← finOf 8 x.b; let c ← finOf 8 x.c; let ty ← ityOf x.l; let p ← pctlOf x.d; some (.vclmulh a b c ty p)
  | 1, 10 => do let a ← finOf 8 x.a; let b ← finOf 8 x.b; let c ← finOf 8 x.c; let ty ← ityOf x.l; let p ← selDOf x.d; some (.vsel a b c ty p)
  | _, _ => none

/-- Major opcode 0x2e, VMOV (R211; selectors R127). -/
noncomputable def decodeVmov (x : Fields) : Option Instr :=
  match x.t, x.f with
  | 1, 0 => do need (x.c = 0); let a ← finOf 8 x.a; let b ← finOf 16 x.b; let ty ← vtyOf x.l; let p ← pctlOf x.d; some (.vbcast a b ty p)
  | 1, 1 => do need (x.d = 0); let a ← finOf 16 x.a; let b ← finOf 8 x.b; let c ← finOf 16 x.c; let ty ← vtyOf x.l; some (.vextr a b c ty)
  | 1, 2 => do need (x.d = 0); let a ← finOf 8 x.a; let b ← finOf 16 x.b; let c ← finOf 16 x.c; let ty ← vtyOf x.l; some (.vins a b c ty)
  | 1, 3 => do let a ← finOf 8 x.a; let b ← finOf 8 x.b; let c ← finOf 8 x.c; let ty ← ityOf x.l; let p ← pctlOf x.d; some (.vperm a b c ty p)
  | 1, 4 => do let a ← finOf 8 x.a; let b ← finOf 8 x.b; let c ← finOf 16 x.c; let ty ← vtyOf x.l; let p ← pctlOf x.d; some (.vslideup a b c ty p)
  | 1, 5 => do let a ← finOf 8 x.a; let b ← finOf 8 x.b; let c ← finOf 16 x.c; let ty ← vtyOf x.l; let p ← pctlOf x.d; some (.vslidedn a b c ty p)
  | 1, 6 => do let a ← finOf 8 x.a; let b ← finOf 8 x.b; let c ← finOf 8 x.c; let ty ← vtyOf x.l; let p ← pctlOf x.d; some (.vzip a b c ty p)
  | 1, 7 => do let a ← finOf 8 x.a; let b ← finOf 8 x.b; let c ← finOf 8 x.c; let ty ← vtyOf x.l; let p ← pctlOf x.d; some (.vunzip a b c ty p)
  | 1, 8 => do need (x.c = 0); let a ← finOf 8 x.a; let b ← finOf 8 x.b; let ty ← vtyOf x.l; let p ← pctlOf x.d; some (.vmovv a b ty p)
  | 1, 9 => do need (x.b = 0 ∧ x.c = 0 ∧ x.l = 0 ∧ x.d = 0); let a ← finOf 8 x.a; some (.vfromm a)
  | _, _ => none

/-- Major opcode 0x2f, VRED (R213; selectors R127). -/
noncomputable def decodeVred (x : Fields) : Option Instr :=
  match x.t, x.f with
  | 1, 0 => do need (x.c = 0); let a ← finOf 16 x.a; let b ← finOf 8 x.b; let ty ← ftyOf x.l; let p ← redPredOf x.d; some (.vredFsum a b ty p)
  | 1, 1 => do need (x.c = 0); let a ← finOf 16 x.a; let b ← finOf 8 x.b; let ty ← vtyOf x.l; let p ← redPredOf x.d; some (.vredMax a b ty p)
  | 1, 2 => do need (x.c = 0); let a ← finOf 16 x.a; let b ← finOf 8 x.b; let ty ← vtyOf x.l; let p ← redPredOf x.d; some (.vredMin a b ty p)
  | 1, 3 => do need (x.c = 0); let a ← finOf 16 x.a; let b ← finOf 8 x.b; let ty ← ityOf x.l; let p ← redPredOf x.d; some (.vredAnd a b ty p)
  | 1, 4 => do need (x.c = 0); let a ← finOf 16 x.a; let b ← finOf 8 x.b; let ty ← ityOf x.l; let p ← redPredOf x.d; some (.vredOr a b ty p)
  | 1, 5 => do need (x.c = 0); let a ← finOf 16 x.a; let b ← finOf 8 x.b; let ty ← ityOf x.l; let p ← redPredOf x.d; some (.vredXor a b ty p)
  | 1, 6 => do need (x.c = 0); let a ← finOf 16 x.a; let b ← finOf 8 x.b; let ty ← ityOf x.l; let p ← redPredOf x.d; some (.vredSum a b ty p)
  | _, _ => none

/-- Major opcode 0x30, VCVT (R215; selectors R127). -/
noncomputable def decodeVcvt (x : Fields) : Option Instr :=
  match x.t, x.f with
  | 2, 0 => do need (x.c = 0); let a ← finOf 8 x.a; let b ← finOf 8 x.b; let p ← pctlOf x.l; let (src, dst, rm, sat) ← vcvtOf x.imm; some (.vcvt a b src dst rm sat p)
  | 2, 1 => do let a ← finOf 8 x.a; let b ← finOf 8 x.b; let part ← finOf 8 x.c; let p ← pctlOf x.l; let (src, dst, rm, sat) ← vcvtOf x.imm; some (.vcvtHi a b part src dst rm sat p)
  | _, _ => none

/-- Major opcode 0x32, PRD (R218; selectors R127). -/
noncomputable def decodePrd (x : Fields) : Option Instr :=
  match x.t, x.f with
  | 1, 0 => do need (x.c = 0 ∧ x.l = 0 ∧ x.d = 0); let a ← finOf 4 x.a; let b ← finOf 16 x.b; some (.pset a b)
  | 1, 1 => do need (x.c = 0 ∧ x.l = 0 ∧ x.d = 0); let a ← finOf 16 x.a; let b ← finOf 4 x.b; some (.pget a b)
  | 1, 2 => do need (x.l = 0 ∧ x.d = 0); let a ← finOf 4 x.a; let b ← finOf 4 x.b; let c ← finOf 4 x.c; some (.pand a b c)
  | 1, 3 => do need (x.l = 0 ∧ x.d = 0); let a ← finOf 4 x.a; let b ← finOf 4 x.b; let c ← finOf 4 x.c; some (.por a b c)
  | 1, 4 => do need (x.l = 0 ∧ x.d = 0); let a ← finOf 4 x.a; let b ← finOf 4 x.b; let c ← finOf 4 x.c; some (.pxor a b c)
  | 1, 5 => do need (x.c = 0 ∧ x.l = 0 ∧ x.d = 0); let a ← finOf 4 x.a; let b ← finOf 4 x.b; some (.pnot a b)
  | 1, 6 => do need (x.c = 0 ∧ x.d = 0); let a ← finOf 16 x.a; let b ← finOf 4 x.b; let w ← finOf 4 x.l; some (.pcnt a b w)
  | 1, 7 => do need (x.c = 0 ∧ x.d = 0); let a ← finOf 16 x.a; let b ← finOf 4 x.b; let w ← finOf 4 x.l; some (.pfirst a b w)
  | 1, 8 => do need (x.c = 0 ∧ x.d = 0); let a ← finOf 4 x.a; let b ← finOf 16 x.b; let w ← finOf 4 x.l; some (.plen a b w)
  | _, _ => none

/-- Major opcode 0x33, SEND (R271; selectors R127). -/
noncomputable def decodeSend (x : Fields) : Option Instr :=
  match x.t, x.f with
  | 1, 0 => do need (x.d = 0); let a ← finOf 8 x.a; let b ← finOf 16 x.b; let c ← finOf 16 x.c; let cls ← finOf 4 x.l; some (.sendH a b c cls)
  | 1, 2 => do need (x.d = 0); let a ← finOf 8 x.a; let b ← finOf 16 x.b; let c ← finOf 16 x.c; let cls ← finOf 4 x.l; some (.sendA a b c cls)
  | 1, 8 => do need (x.d = 0); let a ← finOf 8 x.a; let b ← finOf 16 x.b; let c ← finOf 16 x.c; let cls ← finOf 4 x.l; some (.sendxH a b c cls)
  | 1, 10 => do need (x.d = 0); let a ← finOf 8 x.a; let b ← finOf 16 x.b; let c ← finOf 16 x.c; let cls ← finOf 4 x.l; some (.sendxA a b c cls)
  | 1, 1 => do let a ← finOf 8 x.a; let b ← finOf 16 x.b; let c ← finOf 16 x.c; let d ← finOf 16 x.d; let cls ← finOf 4 x.l; some (.sendN a b c d cls)
  | 1, 9 => do let a ← finOf 8 x.a; let b ← finOf 16 x.b; let c ← finOf 16 x.c; let d ← finOf 16 x.d; let cls ← finOf 4 x.l; some (.sendxN a b c d cls)
  | _, _ => none

/-- Major opcode 0x34, MSG (R272; selectors R127). -/
noncomputable def decodeMsg (x : Fields) : Option Instr :=
  match x.t, x.b with
  | 0, 0 => do need (x.a = 0); some (.endAct)
  | 0, 1 => do need (x.a = 0); some (.cmit)
  | 0, 2 => do let a ← finOf 16 x.a; some (.wbor a)
  | 0, 3 => do let a ← finOf 16 x.a; some (.wret a)
  | _, _ => none

/-- Major opcode 0x35, FRM (R292; selectors R127). -/
noncomputable def decodeFrm (x : Fields) : Option Instr :=
  match x.t, x.f with
  | 1, 0 => do need (x.l = 0); let a ← finOf 16 x.a; let b ← finOf 16 x.b; let c ← finOf 16 x.c; let d ← finOf 4 x.d; some (.fcre a d b c)
  | 1, 1 => do need (x.l = 0 ∧ x.d = 0); let a ← finOf 4 x.a; let b ← finOf 16 x.b; let c ← finOf 16 x.c; some (.fjoin a c b)
  | 1, 2 =>
    if x.l = 1 then do need (x.a = 0 ∧ x.c = 0 ∧ x.d = 0 ∧ x.l = 1); let b ← finOf 4 x.b; some (.fleaveAbs b)
    else do need (x.a = 0 ∧ x.c = 0 ∧ x.d = 0 ∧ x.l = 0); let b ← finOf 4 x.b; some (.fleave b)
  | 1, 3 => do need (x.c = 0 ∧ x.l = 0 ∧ x.d = 0); let a ← finOf 16 x.a; let b ← finOf 4 x.b; some (.farr a b)
  | 1, 4 => do need (x.c = 0 ∧ x.l = 0); let a ← finOf 16 x.a; let b ← finOf 4 x.b; let d ← finOf 16 x.d; some (.farrn b a d)
  | 1, 5 => do need (x.d = 0); let a ← finOf 16 x.a; let b ← finOf 4 x.b; let c ← finOf 16 x.c; let mode ← finOf 3 x.l; some (.fvote a b c mode)
  | 1, 6 => do need (x.d = 0); let a ← finOf 16 x.a; let b ← finOf 4 x.b; let c ← finOf 16 x.c; let op ← finOf 8 x.l; some (.fred a b c op)
  | 1, 7 => do let a ← finOf 16 x.a; let b ← finOf 4 x.b; let c ← finOf 16 x.c; let d ← finOf 16 x.d; let op ← finOf 8 x.l; some (.fredn b c a d op)
  | 1, 8 => do need (x.c = 0 ∧ x.d = 0); let a ← finOf 16 x.a; let b ← finOf 4 x.b; let sel ← finOf 3 x.l; some (.fqry a b sel)
  | 1, 9 => do need (x.a = 0 ∧ x.c = 0 ∧ x.l = 0 ∧ x.d = 0); let b ← finOf 4 x.b; some (.fdel b)
  | 1, 10 => do need (x.l = 0 ∧ x.d = 0); let j ← finOf 8 x.a; let b ← finOf 4 x.b; let c ← finOf 16 x.c; some (.fwait j b c)
  | 1, 11 => do need (x.a = 0 ∧ x.c = 0 ∧ x.l = 0 ∧ x.d = 0); let b ← finOf 4 x.b; some (.fclose b)
  | 1, 12 => do need (x.c = 0 ∧ x.l = 0 ∧ x.d = 0); let a ← finOf 16 x.a; let b ← finOf 4 x.b; some (.htox a b)
  | 1, 13 => do need (x.c = 0 ∧ x.l = 0 ∧ x.d = 0); let a ← finOf 4 x.a; let b ← finOf 16 x.b; some (.xtoh a b)
  | _, _ => none

/-- Major opcode 0x36, SYS (R156; selectors R127). -/
def decodeSys (x : Fields) : Option Instr :=
  match x.t, x.f with
  | 1, 0 => do need (x.a = 0 ∧ x.b = 0 ∧ x.l = 0); let code ← finOf 256 (x.c * 16 + x.d); some (.trap code)
  | 1, 1 => do need (x.a = 0 ∧ x.b = 0 ∧ x.c = 0 ∧ x.l = 0 ∧ x.d = 0); some (.rett)
  | 1, 2 => do need (x.a = 0 ∧ x.b = 0 ∧ x.l = 0); let code ← finOf 256 (x.c * 16 + x.d); some (.svc code)
  | 1, 3 => do need (x.l = 0 ∧ x.d = 0); let a ← finOf 16 x.a; let b ← finOf 16 x.b; let c ← finOf 16 x.c; some (.tlbw a b c)
  | 1, 4 => do need (x.b = 0 ∧ x.c = 0 ∧ x.l = 0 ∧ x.d = 0); let a ← finOf 16 x.a; some (.tlbi a)
  | 1, 5 => do need (x.b = 0 ∧ x.c = 0 ∧ x.l = 0 ∧ x.d = 0); let a ← finOf 16 x.a; some (.sdown a)
  | 1, 6 => do need (x.c = 0 ∧ x.l = 0); let a ← finOf 16 x.a; let b ← finOf 16 x.b; let lvl ← finOf 2 x.d; some (.ipref a b lvl)
  | 1, 7 => do need (x.c = 0 ∧ x.l = 0); let a ← finOf 16 x.a; let b ← finOf 16 x.b; let lvl ← finOf 2 x.d; some (.ipin a b lvl)
  | 1, 8 => do need (x.c = 0 ∧ x.l = 0); let a ← finOf 16 x.a; let b ← finOf 16 x.b; let lvl ← finOf 2 x.d; some (.iunpin a b lvl)
  | 1, 9 => do need (x.a = 0 ∧ x.b = 0 ∧ x.c = 0 ∧ x.l = 0 ∧ x.d = 0); some (.dbrk)
  | 1, 10 => do need (x.a = 0 ∧ x.b = 0 ∧ x.c = 0 ∧ x.l = 0 ∧ x.d = 0); some (.halt)
  | 1, 11 => do need (x.a = 0 ∧ x.b = 0 ∧ x.c = 0 ∧ x.l = 0 ∧ x.d = 0); some (.wfi)
  | 1, 12 => do need (x.c = 0 ∧ x.l = 0 ∧ x.d = 0); let a ← finOf 16 x.a; let b ← finOf 16 x.b; some (.evq a b)
  | _, _ => none

/-- The instruction of a head and its tail by its major opcode (R126, R127, R128): a major, selector, tail size or
field the rules do not name gives none. (The compiled runtime has no constructor with fields above index 244, so
this definition is for the kernel only.) -/
noncomputable def decodeFields (x : Fields) : Option Instr :=
  match x.o with
  | 0x01 => decodeMov x
  | 0x02 => decodeAdd x
  | 0x03 => decodeSub x
  | 0x04 => decodeAnd x
  | 0x05 => decodeOr x
  | 0x06 => decodeXor x
  | 0x07 => decodeAddq x
  | 0x08 => decodeShlq x
  | 0x09 => decodeShrq x
  | 0x0a => decodeAlu3 x
  | 0x0b => decodeAlu3m x
  | 0x0c => decodeAlu1 x
  | 0x0d => decodeAlui x
  | 0x0e => decodeLi x
  | 0x0f => decodeAdda x
  | 0x10 => decodeSel x
  | 0x11 => decodeBr x
  | 0x12 => decodeBcmp x
  | 0x13 => decodeBz x
  | 0x14 => decodeCall x
  | 0x15 => decodeJr x
  | 0x16 => decodeLoop x
  | 0x17 => decodeSpr x
  | 0x18 => decodeLd x
  | 0x19 => decodeSt x
  | 0x1a => decodeLdv x
  | 0x1b => decodeStv x
  | 0x1c => decodeTagw x
  | 0x1d => decodeVld x
  | 0x1e => decodeVst x
  | 0x1f => decodeVmemx x
  | 0x20 => decodeVldv x
  | 0x21 => decodeAmo x
  | 0x22 => decodeCas x
  | 0x23 => decodeRed x
  | 0x24 => decodeFence x
  | 0x25 => decodeCpy x
  | 0x26 => decodeTok x
  | 0x27 => decodeGal x
  | 0x28 => decodeMq x
  | 0x29 => decodeVfa x
  | 0x2a => decodeVia x
  | 0x2b => decodeVun x
  | 0x2c => decodeVcmp x
  | 0x2d => decodeVbit x
  | 0x2e => decodeVmov x
  | 0x2f => decodeVred x
  | 0x30 => decodeVcvt x
  | 0x32 => decodePrd x
  | 0x33 => decodeSend x
  | 0x34 => decodeMsg x
  | 0x35 => decodeFrm x
  | 0x36 => decodeSys x
  | _ => none
/-- The fields of a slot instruction, from the encoding tables named at each decoder; none for the operations and
events that have no encoding. -/
def encodeFields : Instr → Option Fields
  | .mov a b => some { o := 0x01, t := 0, a := a.val, b := b.val }
  | .add a b => some { o := 0x02, t := 0, a := a.val, b := b.val }
  | .sub a b => some { o := 0x03, t := 0, a := a.val, b := b.val }
  | .and a b => some { o := 0x04, t := 0, a := a.val, b := b.val }
  | .or a b => some { o := 0x05, t := 0, a := a.val, b := b.val }
  | .xor a b => some { o := 0x06, t := 0, a := a.val, b := b.val }
  | .addq a imm => some { o := 0x07, t := 0, a := a.val, b := imm.toNat }
  | .shlq a k => some { o := 0x08, t := 0, a := a.val, b := k.val }
  | .shrq a k => some { o := 0x09, t := 0, a := a.val, b := k.val }
  | .alu3Add a b c => some { o := 0x0a, t := 1, a := a.val, b := b.val, c := c.val }
  | .alu3Sub a b c => some { o := 0x0a, t := 1, a := a.val, b := b.val, c := c.val, f := 1 }
  | .alu3And a b c => some { o := 0x0a, t := 1, a := a.val, b := b.val, c := c.val, f := 2 }
  | .alu3Or a b c => some { o := 0x0a, t := 1, a := a.val, b := b.val, c := c.val, f := 3 }
  | .alu3Xor a b c => some { o := 0x0a, t := 1, a := a.val, b := b.val, c := c.val, f := 4 }
  | .andn a b c => some { o := 0x0a, t := 1, a := a.val, b := b.val, c := c.val, f := 5 }
  | .shl a b c => some { o := 0x0a, t := 1, a := a.val, b := b.val, c := c.val, f := 6 }
  | .shr a b c => some { o := 0x0a, t := 1, a := a.val, b := b.val, c := c.val, f := 7 }
  | .sar a b c => some { o := 0x0a, t := 1, a := a.val, b := b.val, c := c.val, f := 8 }
  | .rot a b c => some { o := 0x0a, t := 1, a := a.val, b := b.val, c := c.val, f := 9 }
  | .min a b c => some { o := 0x0a, t := 1, a := a.val, b := b.val, c := c.val, f := 10 }
  | .max a b c => some { o := 0x0a, t := 1, a := a.val, b := b.val, c := c.val, f := 11 }
  | .minN a b c => some { o := 0x0a, t := 1, a := a.val, b := b.val, c := c.val, f := 12 }
  | .maxN a b c => some { o := 0x0a, t := 1, a := a.val, b := b.val, c := c.val, f := 13 }
  | .cmpeq a b c => some { o := 0x0a, t := 1, a := a.val, b := b.val, c := c.val, f := 14 }
  | .cmplt a b c => some { o := 0x0a, t := 1, a := a.val, b := b.val, c := c.val, f := 15 }
  | .cmpltN a b c => some { o := 0x0b, t := 1, a := a.val, b := b.val, c := c.val }
  | .cmple a b c => some { o := 0x0b, t := 1, a := a.val, b := b.val, c := c.val, f := 1 }
  | .cmpleN a b c => some { o := 0x0b, t := 1, a := a.val, b := b.val, c := c.val, f := 2 }
  | .cmpne a b c => some { o := 0x0b, t := 1, a := a.val, b := b.val, c := c.val, f := 3 }
  | .mul a b c => some { o := 0x0b, t := 1, a := a.val, b := b.val, c := c.val, f := 4 }
  | .mulh a b c => some { o := 0x0b, t := 1, a := a.val, b := b.val, c := c.val, f := 5 }
  | .mulhN a b c => some { o := 0x0b, t := 1, a := a.val, b := b.val, c := c.val, f := 6 }
  | .div a b c l => some { o := 0x0b, t := 1, a := a.val, b := b.val, c := c.val, f := 7, l := l.val }
  | .divN a b c l => some { o := 0x0b, t := 1, a := a.val, b := b.val, c := c.val, f := 8, l := l.val }
  | .rem a b c l => some { o := 0x0b, t := 1, a := a.val, b := b.val, c := c.val, f := 9, l := l.val }
  | .remN a b c l => some { o := 0x0b, t := 1, a := a.val, b := b.val, c := c.val, f := 10, l := l.val }
  | .clmul a b c => some { o := 0x0b, t := 1, a := a.val, b := b.val, c := c.val, f := 11 }
  | .clmulh a b c => some { o := 0x0b, t := 1, a := a.val, b := b.val, c := c.val, f := 12 }
  | .bext a b c => some { o := 0x0b, t := 1, a := a.val, b := b.val, c := c.val, f := 13 }
  | .bdep a b c => some { o := 0x0b, t := 1, a := a.val, b := b.val, c := c.val, f := 14 }
  | .clz a b => some { o := 0x0c, t := 1, a := a.val, b := b.val }
  | .ctz a b => some { o := 0x0c, t := 1, a := a.val, b := b.val, f := 1 }
  | .popc a b => some { o := 0x0c, t := 1, a := a.val, b := b.val, f := 2 }
  | .brev a b => some { o := 0x0c, t := 1, a := a.val, b := b.val, f := 3 }
  | .sextB a b => some { o := 0x0c, t := 1, a := a.val, b := b.val, f := 4 }
  | .sextH a b => some { o := 0x0c, t := 1, a := a.val, b := b.val, f := 5 }
  | .sextW a b => some { o := 0x0c, t := 1, a := a.val, b := b.val, f := 6 }
  | .zextB a b => some { o := 0x0c, t := 1, a := a.val, b := b.val, f := 7 }
  | .zextH a b => some { o := 0x0c, t := 1, a := a.val, b := b.val, f := 8 }
  | .zextW a b => some { o := 0x0c, t := 1, a := a.val, b := b.val, f := 9 }
  | .not a b => some { o := 0x0c, t := 1, a := a.val, b := b.val, f := 10 }
  | .neg a b => some { o := 0x0c, t := 1, a := a.val, b := b.val, f := 11 }
  | .abs a b => some { o := 0x0c, t := 1, a := a.val, b := b.val, f := 12 }
  | .tagget a b => some { o := 0x0c, t := 1, a := a.val, b := b.val, f := 13 }
  | .bswap a b => some { o := 0x0c, t := 1, a := a.val, b := b.val, f := 14 }
  | .addi a b imm => some { o := 0x0d, t := 2, a := a.val, b := b.val, imm := imm.toNat }
  | .andi a b imm => some { o := 0x0d, t := 2, a := a.val, b := b.val, f := 1, imm := imm.toNat }
  | .ori a b imm => some { o := 0x0d, t := 2, a := a.val, b := b.val, f := 2, imm := imm.toNat }
  | .xori a b imm => some { o := 0x0d, t := 2, a := a.val, b := b.val, f := 3, imm := imm.toNat }
  | .shli a b k => some { o := 0x0d, t := 2, a := a.val, b := b.val, f := 4, imm := k.val }
  | .shri a b k => some { o := 0x0d, t := 2, a := a.val, b := b.val, f := 5, imm := k.val }
  | .sari a b k => some { o := 0x0d, t := 2, a := a.val, b := b.val, f := 6, imm := k.val }
  | .roti a b k => some { o := 0x0d, t := 2, a := a.val, b := b.val, f := 7, imm := k.val }
  | .cmpeqi a b imm => some { o := 0x0d, t := 2, a := a.val, b := b.val, f := 8, imm := imm.toNat }
  | .cmplti a b imm => some { o := 0x0d, t := 2, a := a.val, b := b.val, f := 9, imm := imm.toNat }
  | .cmpltiN a b imm => some { o := 0x0d, t := 2, a := a.val, b := b.val, f := 10, imm := imm.toNat }
  | .muli a b imm => some { o := 0x0d, t := 2, a := a.val, b := b.val, f := 11, imm := imm.toNat }
  | .addai a b imm => some { o := 0x0d, t := 2, a := a.val, b := b.val, f := 12, imm := imm.toNat }
  | .tagset a b tag => some { o := 0x0d, t := 2, a := a.val, b := b.val, f := 13, imm := tag.toNat }
  | .mini a b imm => some { o := 0x0d, t := 2, a := a.val, b := b.val, f := 14, imm := imm.toNat }
  | .maxi a b imm => some { o := 0x0d, t := 2, a := a.val, b := b.val, f := 15, imm := imm.toNat }
  | .li16 a imm => some { o := 0x0e, t := 1, a := a.val, imm := imm.toNat }
  | .li32 a imm => some { o := 0x0e, t := 2, a := a.val, imm := imm.toNat }
  | .li64 a imm => some { o := 0x0e, t := 3, a := a.val, imm := imm.toNat }
  | .adda a b c sh => some { o := 0x0f, t := 1, a := a.val, b := b.val, c := c.val, f := sh.val }
  | .sel a b c d => some { o := 0x10, t := 1, a := a.val, b := b.val, c := c.val, d := d.val }
  | .br off => some { o := 0x11, t := 2, imm := off.toNat }
  | .beq a b off => some { o := 0x12, t := 2, a := a.val, b := b.val, imm := off.toNat }
  | .bne a b off => some { o := 0x12, t := 2, a := a.val, b := b.val, f := 1, imm := off.toNat }
  | .blt a b off => some { o := 0x12, t := 2, a := a.val, b := b.val, f := 2, imm := off.toNat }
  | .bge a b off => some { o := 0x12, t := 2, a := a.val, b := b.val, f := 3, imm := off.toNat }
  | .bltN a b off => some { o := 0x12, t := 2, a := a.val, b := b.val, f := 4, imm := off.toNat }
  | .bgeN a b off => some { o := 0x12, t := 2, a := a.val, b := b.val, f := 5, imm := off.toNat }
  | .bz a off => some { o := 0x13, t := 2, a := a.val, imm := off.toNat }
  | .bnz a off => some { o := 0x13, t := 2, a := a.val, f := 1, imm := off.toNat }
  | .call a off => some { o := 0x14, t := 2, a := a.val, imm := off.toNat }
  | .jr b => some { o := 0x15, t := 0, b := b.val }
  | .loop a off => some { o := 0x16, t := 2, a := a.val, imm := off.toNat }
  | .rdsr a n => some { o := 0x17, t := 1, a := a.val, c := n.val / 16, d := n.val % 16 }
  | .wrsr n a => some { o := 0x17, t := 1, a := a.val, c := n.val / 16, f := 1, d := n.val % 16 }
  | .rdcnt a n => some { o := 0x17, t := 1, a := a.val, c := n.val / 16, f := 2, d := n.val % 16 }
  | .swpsr a n b => some { o := 0x17, t := 1, a := a.val, b := b.val, c := n.val / 16, f := 3, d := n.val % 16 }
  | .ld sz acq a b l disp => some { o := 0x18, t := 2, a := a.val, b := b.val, f := loadFCode (sz, acq), l := l.val, imm := disp.toNat }
  | .ldv sz acq a b l disp => some { o := 0x1a, t := 2, a := a.val, b := b.val, f := loadFCode (sz, acq), l := l.val, imm := disp.toNat }
  | .st sz rel a b disp => some { o := 0x19, t := 2, a := a.val, b := b.val, f := storeFCode (sz, rel), imm := disp.toNat }
  | .stv sz rel a b disp => some { o := 0x1b, t := 2, a := a.val, b := b.val, f := storeFCode (sz, rel), imm := disp.toNat }
  | .ldf a b l disp => some { o := 0x1c, t := 2, a := a.val, b := b.val, l := l.val, imm := disp.toNat }
  | .ldfe a b l disp => some { o := 0x1c, t := 2, a := a.val, b := b.val, f := 1, l := l.val, imm := disp.toNat }
  | .ste a b disp => some { o := 0x1c, t := 2, a := a.val, b := b.val, f := 2, imm := disp.toNat }
  | .stf a b disp => some { o := 0x1c, t := 2, a := a.val, b := b.val, f := 3, imm := disp.toNat }
  | .tagrd a b l disp => some { o := 0x1c, t := 2, a := a.val, b := b.val, f := 4, l := l.val, imm := disp.toNat }
  | .tagsetf b disp => some { o := 0x1c, t := 2, b := b.val, f := 5, imm := disp.toNat }
  | .tagsete b disp => some { o := 0x1c, t := 2, b := b.val, f := 6, imm := disp.toNat }
  | .ldft a c b l disp => some { o := 0x1c, t := 2, a := a.val, b := b.val, c := c.val, f := 7, l := l.val, imm := disp.toNat }
  | .vld acq a b l disp => some { o := 0x1d, t := 2, a := a.val, b := b.val, f := flag8Code 0 acq, l := l.val, imm := disp.toNat }
  | .vldBc8 acq a b l disp => some { o := 0x1d, t := 2, a := a.val, b := b.val, f := flag8Code 1 acq, l := l.val, imm := disp.toNat }
  | .vldBc4 acq a b l disp => some { o := 0x1d, t := 2, a := a.val, b := b.val, f := flag8Code 2 acq, l := l.val, imm := disp.toNat }
  | .vldHalf acq a b l disp => some { o := 0x1d, t := 2, a := a.val, b := b.val, f := flag8Code 3 acq, l := l.val, imm := disp.toNat }
  | .vst rel a b disp => some { o := 0x1e, t := 2, a := a.val, b := b.val, f := flag8Code 0 rel, imm := disp.toNat }
  | .vstHalf rel a b disp => some { o := 0x1e, t := 2, a := a.val, b := b.val, f := flag8Code 1 rel, imm := disp.toNat }
  | .vstPred rel a b p disp => some { o := 0x1e, t := 2, a := a.val, b := b.val, f := flag8Code 2 rel, l := p.val, imm := disp.toNat }
  | .vldv a b l disp => some { o := 0x20, t := 2, a := a.val, b := b.val, l := l.val, imm := disp.toNat }
  | .vldvAcq a b l disp => some { o := 0x20, t := 2, a := a.val, b := b.val, f := 8, l := l.val, imm := disp.toNat }
  | .vstv a b disp => some { o := 0x20, t := 2, a := a.val, b := b.val, f := 1, imm := disp.toNat }
  | .vstvRel a b disp => some { o := 0x20, t := 2, a := a.val, b := b.val, f := 9, imm := disp.toNat }
  | .vlds w8 a b c l vault p => some { o := 0x1f, t := 1, a := wideACode (w8, a), b := b.val, c := c.val, l := l.val, d := vmemDCode (vault, p) }
  | .vsts w8 a b c vault p => some { o := 0x1f, t := 1, a := wideACode (w8, a), b := b.val, c := c.val, f := 1, d := vmemDCode (vault, p) }
  | .vgath w8 a b c l vault p => some { o := 0x1f, t := 1, a := wideACode (w8, a), b := b.val, c := c.val, f := 2, l := l.val, d := vmemDCode (vault, p) }
  | .vscat w8 a b c vault p => some { o := 0x1f, t := 1, a := wideACode (w8, a), b := b.val, c := c.val, f := 3, d := vmemDCode (vault, p) }
  | .vldf a b c l vault p => some { o := 0x1f, t := 1, a := a.val, b := b.val, c := c.val, f := 4, l := l.val, d := vmemDCode (vault, p) }
  | .vldfh a b c l vault p => some { o := 0x1f, t := 1, a := a.val, b := b.val, c := c.val, f := 5, l := l.val, d := vmemDCode (vault, p) }
  | .vstf half a b c sat vault p => some { o := 0x1f, t := 1, a := wideACode (half, a), b := b.val, c := c.val, f := 6, l := boolCode sat, d := vmemDCode (vault, p) }
  | .amoSwap a b c l ord d8 vault => some { o := 0x21, t := 1, a := a.val, b := b.val, c := c.val, l := l.val, d := amoDCode (ord, d8, vault) }
  | .amoAdd a b c l ord d8 vault => some { o := 0x21, t := 1, a := a.val, b := b.val, c := c.val, f := 1, l := l.val, d := amoDCode (ord, d8, vault) }
  | .amoAnd a b c l ord d8 vault => some { o := 0x21, t := 1, a := a.val, b := b.val, c := c.val, f := 2, l := l.val, d := amoDCode (ord, d8, vault) }
  | .amoOr a b c l ord d8 vault => some { o := 0x21, t := 1, a := a.val, b := b.val, c := c.val, f := 3, l := l.val, d := amoDCode (ord, d8, vault) }
  | .amoXor a b c l ord d8 vault => some { o := 0x21, t := 1, a := a.val, b := b.val, c := c.val, f := 4, l := l.val, d := amoDCode (ord, d8, vault) }
  | .amoMin a b c l ord d8 vault => some { o := 0x21, t := 1, a := a.val, b := b.val, c := c.val, f := 5, l := l.val, d := amoDCode (ord, d8, vault) }
  | .amoMax a b c l ord d8 vault => some { o := 0x21, t := 1, a := a.val, b := b.val, c := c.val, f := 6, l := l.val, d := amoDCode (ord, d8, vault) }
  | .amoMinN a b c l ord d8 vault => some { o := 0x21, t := 1, a := a.val, b := b.val, c := c.val, f := 7, l := l.val, d := amoDCode (ord, d8, vault) }
  | .amoMaxN a b c l ord d8 vault => some { o := 0x21, t := 1, a := a.val, b := b.val, c := c.val, f := 8, l := l.val, d := amoDCode (ord, d8, vault) }
  | .amoIncw a b c l ord d8 vault => some { o := 0x21, t := 1, a := a.val, b := b.val, c := c.val, f := 9, l := l.val, d := amoDCode (ord, d8, vault) }
  | .amoBfadd a b c l ord d8 vault => some { o := 0x21, t := 1, a := a.val, b := b.val, c := c.val, f := 10, l := l.val, d := amoDCode (ord, d8, vault) }
  | .cas a b c l succ facq d8 vault => some { o := 0x22, t := 1, a := a.val, b := b.val, c := c.val, f := casFCode (d8, vault), l := l.val, d := casDCode (succ, facq) }
  | .redAdd b c rel d8 vault => some { o := 0x23, t := 1, b := b.val, c := c.val, d := redDCode (rel, d8, vault) }
  | .redAnd b c rel d8 vault => some { o := 0x23, t := 1, b := b.val, c := c.val, f := 1, d := redDCode (rel, d8, vault) }
  | .redOr b c rel d8 vault => some { o := 0x23, t := 1, b := b.val, c := c.val, f := 2, d := redDCode (rel, d8, vault) }
  | .redXor b c rel d8 vault => some { o := 0x23, t := 1, b := b.val, c := c.val, f := 3, d := redDCode (rel, d8, vault) }
  | .redMin b c rel d8 vault => some { o := 0x23, t := 1, b := b.val, c := c.val, f := 4, d := redDCode (rel, d8, vault) }
  | .redMax b c rel d8 vault => some { o := 0x23, t := 1, b := b.val, c := c.val, f := 5, d := redDCode (rel, d8, vault) }
  | .redMinN b c rel d8 vault => some { o := 0x23, t := 1, b := b.val, c := c.val, f := 6, d := redDCode (rel, d8, vault) }
  | .redMaxN b c rel d8 vault => some { o := 0x23, t := 1, b := b.val, c := c.val, f := 7, d := redDCode (rel, d8, vault) }
  | .redFadd32 b c rel vault => some { o := 0x23, t := 1, b := b.val, c := c.val, f := 8, d := redFDCode (rel, vault) }
  | .redFmax32 b c rel vault => some { o := 0x23, t := 1, b := b.val, c := c.val, f := 9, d := redFDCode (rel, vault) }
  | .redFmin32 b c rel vault => some { o := 0x23, t := 1, b := b.val, c := c.val, f := 10, d := redFDCode (rel, vault) }
  | .fenceAcq sc => some { o := 0x24, t := 0, a := scopeCode sc }
  | .fenceRel sc => some { o := 0x24, t := 0, a := scopeCode sc, b := 1 }
  | .fenceFull sc => some { o := 0x24, t := 0, a := scopeCode sc, b := 2 }
  | .fenceEng sc => some { o := 0x24, t := 0, a := scopeCode sc, b := 3 }
  | .cpwr k b => some { o := 0x25, t := 1, b := b.val, c := k.val }
  | .cpgo a j l => some { o := 0x25, t := 1, a := a.val, f := 1, l := l.val, d := j.val }
  | .cprd a k => some { o := 0x25, t := 1, a := a.val, c := k.val, f := 2 }
  | .cpst a b => some { o := 0x25, t := 1, a := a.val, b := b.val, f := 3 }
  | .wait mask => some { o := 0x26, t := 1, c := mask.toNat / 16, d := mask.toNat % 16 }
  | .waitany a mask => some { o := 0x26, t := 1, a := a.val, c := mask.toNat / 16, f := 1, d := mask.toNat % 16 }
  | .tkst a => some { o := 0x26, t := 1, a := a.val, f := 2 }
  | .tkrel mask => some { o := 0x26, t := 1, c := mask.toNat / 16, f := 3, d := mask.toNat % 16 }
  | .tkclr => some { o := 0x26, t := 1, f := 4 }
  | .ginit b => some { o := 0x27, t := 1, b := b.val }
  | .ginitOff b => some { o := 0x27, t := 1, b := b.val, l := 1 }
  | .garr b c d => some { o := 0x27, t := 1, b := b.val, c := c.val, f := 1, l := (optdCode d).1, d := (optdCode d).2 }
  | .gexp b c d => some { o := 0x27, t := 1, b := b.val, c := c.val, f := 2, d := d.val }
  | .gwait j b c ph => some { o := 0x27, t := 1, a := j.val, b := b.val, c := c.val, f := 3, l := boolCode ph }
  | .grel b c => some { o := 0x27, t := 1, b := b.val, c := c.val, f := 4 }
  | .gtest a b c => some { o := 0x27, t := 1, a := a.val, b := b.val, c := c.val, f := 5 }
  | .stc sid a b => some { o := 0x28, t := 1, a := a.val, b := b.val, l := boolCode sid }
  | .mqst a => some { o := 0x28, t := 1, a := a.val, f := 1 }
  | .mbind j b => some { o := 0x28, t := 1, a := j.val, b := b.val, f := 2 }
  | .mack => some { o := 0x28, t := 1, f := 3 }
  | .vfaVadd a b c ty p => some { o := 0x29, t := 1, a := a.val, b := b.val, c := c.val, l := ftyCode ty, d := pctlCode p }
  | .vfaVsub a b c ty p => some { o := 0x29, t := 1, a := a.val, b := b.val, c := c.val, f := 1, l := ftyCode ty, d := pctlCode p }
  | .vfaVmul a b c ty p => some { o := 0x29, t := 1, a := a.val, b := b.val, c := c.val, f := 2, l := ftyCode ty, d := pctlCode p }
  | .vdiv a b c ty l => some { o := 0x29, t := 1, a := a.val, b := b.val, c := c.val, f := 3, l := ftyCode ty, d := l.val }
  | .vfaVmin a b c ty p => some { o := 0x29, t := 1, a := a.val, b := b.val, c := c.val, f := 4, l := ftyCode ty, d := pctlCode p }
  | .vfaVmax a b c ty p => some { o := 0x29, t := 1, a := a.val, b := b.val, c := c.val, f := 5, l := ftyCode ty, d := pctlCode p }
  | .vfma a b c ty p => some { o := 0x29, t := 1, a := a.val, b := b.val, c := c.val, f := 6, l := ftyCode ty, d := pctlCode p }
  | .vfms a b c ty p => some { o := 0x29, t := 1, a := a.val, b := b.val, c := c.val, f := 7, l := ftyCode ty, d := pctlCode p }
  | .vfnma a b c ty p => some { o := 0x29, t := 1, a := a.val, b := b.val, c := c.val, f := 8, l := ftyCode ty, d := pctlCode p }
  | .viaVadd a b c ty p => some { o := 0x2a, t := 1, a := a.val, b := b.val, c := c.val, l := ityCode ty, d := pctlCode p }
  | .viaVsub a b c ty p => some { o := 0x2a, t := 1, a := a.val, b := b.val, c := c.val, f := 1, l := ityCode ty, d := pctlCode p }
  | .viaVmul a b c ty p => some { o := 0x2a, t := 1, a := a.val, b := b.val, c := c.val, f := 2, l := ityCode ty, d := pctlCode p }
  | .vmulh a b c ty p => some { o := 0x2a, t := 1, a := a.val, b := b.val, c := c.val, f := 3, l := ityCode ty, d := pctlCode p }
  | .viaVmin a b c ty p => some { o := 0x2a, t := 1, a := a.val, b := b.val, c := c.val, f := 4, l := ityCode ty, d := pctlCode p }
  | .viaVmax a b c ty p => some { o := 0x2a, t := 1, a := a.val, b := b.val, c := c.val, f := 5, l := ityCode ty, d := pctlCode p }
  | .vadds a b c ty p => some { o := 0x2a, t := 1, a := a.val, b := b.val, c := c.val, f := 6, l := ityCode ty, d := pctlCode p }
  | .vsubs a b c ty p => some { o := 0x2a, t := 1, a := a.val, b := b.val, c := c.val, f := 7, l := ityCode ty, d := pctlCode p }
  | .vavg a b c ty p => some { o := 0x2a, t := 1, a := a.val, b := b.val, c := c.val, f := 8, l := ityCode ty, d := pctlCode p }
  | .vabsd a b c ty p => some { o := 0x2a, t := 1, a := a.val, b := b.val, c := c.val, f := 9, l := ityCode ty, d := pctlCode p }
  | .vmac a b c ty p => some { o := 0x2a, t := 1, a := a.val, b := b.val, c := c.val, f := 10, l := ityCode ty, d := pctlCode p }
  | .vdot4 a b c ty p => some { o := 0x2a, t := 1, a := a.val, b := b.val, c := c.val, f := 11, l := ityCode ty, d := pctlCode p }
  | .vsqrt a b ty l => some { o := 0x2b, t := 1, a := a.val, b := b.val, l := ftyCode ty, d := l.val }
  | .vrcp8 a b ty p => some { o := 0x2b, t := 1, a := a.val, b := b.val, f := 1, l := ftyCode ty, d := pctlCode p }
  | .vexp2 a b ty l => some { o := 0x2b, t := 1, a := a.val, b := b.val, f := 2, l := ftyCode ty, d := l.val }
  | .vlog2 a b ty l => some { o := 0x2b, t := 1, a := a.val, b := b.val, f := 3, l := ftyCode ty, d := l.val }
  | .vneg a b ty p => some { o := 0x2b, t := 1, a := a.val, b := b.val, f := 4, l := vtyCode ty, d := pctlCode p }
  | .vabs a b ty p => some { o := 0x2b, t := 1, a := a.val, b := b.val, f := 5, l := ftyCode ty, d := pctlCode p }
  | .vfloor a b ty p => some { o := 0x2b, t := 1, a := a.val, b := b.val, f := 6, l := ftyCode ty, d := pctlCode p }
  | .vceil a b ty p => some { o := 0x2b, t := 1, a := a.val, b := b.val, f := 7, l := ftyCode ty, d := pctlCode p }
  | .vrint a b ty p => some { o := 0x2b, t := 1, a := a.val, b := b.val, f := 8, l := ftyCode ty, d := pctlCode p }
  | .vclz a b ty p => some { o := 0x2b, t := 1, a := a.val, b := b.val, f := 9, l := ityCode ty, d := pctlCode p }
  | .vpopc a b ty p => some { o := 0x2b, t := 1, a := a.val, b := b.val, f := 10, l := ityCode ty, d := pctlCode p }
  | .vnot a b ty p => some { o := 0x2b, t := 1, a := a.val, b := b.val, f := 11, l := ityCode ty, d := pctlCode p }
  | .vabsi a b ty p => some { o := 0x2b, t := 1, a := a.val, b := b.val, f := 12, l := ityCode ty, d := pctlCode p }
  | .vcmpEq a b c ty p => some { o := 0x2c, t := 1, a := a.val, b := b.val, c := c.val, l := vtyCode ty, d := pctlCode p }
  | .vcmpNe a b c ty p => some { o := 0x2c, t := 1, a := a.val, b := b.val, c := c.val, f := 1, l := vtyCode ty, d := pctlCode p }
  | .vcmpLt a b c ty p => some { o := 0x2c, t := 1, a := a.val, b := b.val, c := c.val, f := 2, l := vtyCode ty, d := pctlCode p }
  | .vcmpLe a b c ty p => some { o := 0x2c, t := 1, a := a.val, b := b.val, c := c.val, f := 3, l := vtyCode ty, d := pctlCode p }
  | .vcmpGt a b c ty p => some { o := 0x2c, t := 1, a := a.val, b := b.val, c := c.val, f := 4, l := vtyCode ty, d := pctlCode p }
  | .vcmpGe a b c ty p => some { o := 0x2c, t := 1, a := a.val, b := b.val, c := c.val, f := 5, l := vtyCode ty, d := pctlCode p }
  | .vcmpUnord a b c ty p => some { o := 0x2c, t := 1, a := a.val, b := b.val, c := c.val, f := 6, l := ftyCode ty, d := pctlCode p }
  | .vcmpLtN a b c ty p => some { o := 0x2c, t := 1, a := a.val, b := b.val, c := c.val, f := 7, l := ityCode ty, d := pctlCode p }
  | .vcmpLeN a b c ty p => some { o := 0x2c, t := 1, a := a.val, b := b.val, c := c.val, f := 8, l := ityCode ty, d := pctlCode p }
  | .vand a b c ty p => some { o := 0x2d, t := 1, a := a.val, b := b.val, c := c.val, l := ityCode ty, d := pctlCode p }
  | .vor a b c ty p => some { o := 0x2d, t := 1, a := a.val, b := b.val, c := c.val, f := 1, l := ityCode ty, d := pctlCode p }
  | .vxor a b c ty p => some { o := 0x2d, t := 1, a := a.val, b := b.val, c := c.val, f := 2, l := ityCode ty, d := pctlCode p }
  | .vandn a b c ty p => some { o := 0x2d, t := 1, a := a.val, b := b.val, c := c.val, f := 3, l := ityCode ty, d := pctlCode p }
  | .vshl a b c ty p => some { o := 0x2d, t := 1, a := a.val, b := b.val, c := c.val, f := 4, l := ityCode ty, d := pctlCode p }
  | .vshr a b c ty p => some { o := 0x2d, t := 1, a := a.val, b := b.val, c := c.val, f := 5, l := ityCode ty, d := pctlCode p }
  | .vsar a b c ty p => some { o := 0x2d, t := 1, a := a.val, b := b.val, c := c.val, f := 6, l := ityCode ty, d := pctlCode p }
  | .vrot a b c ty p => some { o := 0x2d, t := 1, a := a.val, b := b.val, c := c.val, f := 7, l := ityCode ty, d := pctlCode p }
  | .vclmul a b c ty p => some { o := 0x2d, t := 1, a := a.val, b := b.val, c := c.val, f := 8, l := ityCode ty, d := pctlCode p }
  | .vclmulh a b c ty p => some { o := 0x2d, t := 1, a := a.val, b := b.val, c := c.val, f := 9, l := ityCode ty, d := pctlCode p }
  | .vsel a b c ty p => some { o := 0x2d, t := 1, a := a.val, b := b.val, c := c.val, f := 10, l := ityCode ty, d := selDCode p }
  | .vbcast a b ty p => some { o := 0x2e, t := 1, a := a.val, b := b.val, l := vtyCode ty, d := pctlCode p }
  | .vextr a b c ty => some { o := 0x2e, t := 1, a := a.val, b := b.val, c := c.val, f := 1, l := vtyCode ty }
  | .vins a b c ty => some { o := 0x2e, t := 1, a := a.val, b := b.val, c := c.val, f := 2, l := vtyCode ty }
  | .vperm a b c ty p => some { o := 0x2e, t := 1, a := a.val, b := b.val, c := c.val, f := 3, l := ityCode ty, d := pctlCode p }
  | .vslideup a b c ty p => some { o := 0x2e, t := 1, a := a.val, b := b.val, c := c.val, f := 4, l := vtyCode ty, d := pctlCode p }
  | .vslidedn a b c ty p => some { o := 0x2e, t := 1, a := a.val, b := b.val, c := c.val, f := 5, l := vtyCode ty, d := pctlCode p }
  | .vzip a b c ty p => some { o := 0x2e, t := 1, a := a.val, b := b.val, c := c.val, f := 6, l := vtyCode ty, d := pctlCode p }
  | .vunzip a b c ty p => some { o := 0x2e, t := 1, a := a.val, b := b.val, c := c.val, f := 7, l := vtyCode ty, d := pctlCode p }
  | .vmovv a b ty p => some { o := 0x2e, t := 1, a := a.val, b := b.val, f := 8, l := vtyCode ty, d := pctlCode p }
  | .vfromm a => some { o := 0x2e, t := 1, a := a.val, f := 9 }
  | .vredFsum a b ty p => some { o := 0x2f, t := 1, a := a.val, b := b.val, l := ftyCode ty, d := redPredCode p }
  | .vredMax a b ty p => some { o := 0x2f, t := 1, a := a.val, b := b.val, f := 1, l := vtyCode ty, d := redPredCode p }
  | .vredMin a b ty p => some { o := 0x2f, t := 1, a := a.val, b := b.val, f := 2, l := vtyCode ty, d := redPredCode p }
  | .vredAnd a b ty p => some { o := 0x2f, t := 1, a := a.val, b := b.val, f := 3, l := ityCode ty, d := redPredCode p }
  | .vredOr a b ty p => some { o := 0x2f, t := 1, a := a.val, b := b.val, f := 4, l := ityCode ty, d := redPredCode p }
  | .vredXor a b ty p => some { o := 0x2f, t := 1, a := a.val, b := b.val, f := 5, l := ityCode ty, d := redPredCode p }
  | .vredSum a b ty p => some { o := 0x2f, t := 1, a := a.val, b := b.val, f := 6, l := ityCode ty, d := redPredCode p }
  | .vcvt a b src dst rm sat p => some { o := 0x30, t := 2, a := a.val, b := b.val, l := pctlCode p, imm := vcvtCode (src, dst, rm, sat) }
  | .vcvtHi a b part src dst rm sat p => some { o := 0x30, t := 2, a := a.val, b := b.val, c := part.val, f := 1, l := pctlCode p, imm := vcvtCode (src, dst, rm, sat) }
  | .pset a b => some { o := 0x32, t := 1, a := a.val, b := b.val }
  | .pget a b => some { o := 0x32, t := 1, a := a.val, b := b.val, f := 1 }
  | .pand a b c => some { o := 0x32, t := 1, a := a.val, b := b.val, c := c.val, f := 2 }
  | .por a b c => some { o := 0x32, t := 1, a := a.val, b := b.val, c := c.val, f := 3 }
  | .pxor a b c => some { o := 0x32, t := 1, a := a.val, b := b.val, c := c.val, f := 4 }
  | .pnot a b => some { o := 0x32, t := 1, a := a.val, b := b.val, f := 5 }
  | .pcnt a b w => some { o := 0x32, t := 1, a := a.val, b := b.val, f := 6, l := w.val }
  | .pfirst a b w => some { o := 0x32, t := 1, a := a.val, b := b.val, f := 7, l := w.val }
  | .plen a b w => some { o := 0x32, t := 1, a := a.val, b := b.val, f := 8, l := w.val }
  | .sendH a b c cls => some { o := 0x33, t := 1, a := a.val, b := b.val, c := c.val, l := cls.val }
  | .sendA a b c cls => some { o := 0x33, t := 1, a := a.val, b := b.val, c := c.val, f := 2, l := cls.val }
  | .sendxH a b c cls => some { o := 0x33, t := 1, a := a.val, b := b.val, c := c.val, f := 8, l := cls.val }
  | .sendxA a b c cls => some { o := 0x33, t := 1, a := a.val, b := b.val, c := c.val, f := 10, l := cls.val }
  | .sendN a b c d cls => some { o := 0x33, t := 1, a := a.val, b := b.val, c := c.val, f := 1, l := cls.val, d := d.val }
  | .sendxN a b c d cls => some { o := 0x33, t := 1, a := a.val, b := b.val, c := c.val, f := 9, l := cls.val, d := d.val }
  | .endAct => some { o := 0x34, t := 0 }
  | .cmit => some { o := 0x34, t := 0, b := 1 }
  | .wbor a => some { o := 0x34, t := 0, a := a.val, b := 2 }
  | .wret a => some { o := 0x34, t := 0, a := a.val, b := 3 }
  | .fcre a d b c => some { o := 0x35, t := 1, a := a.val, b := b.val, c := c.val, d := d.val }
  | .fjoin a c b => some { o := 0x35, t := 1, a := a.val, b := b.val, c := c.val, f := 1 }
  | .fleave b => some { o := 0x35, t := 1, b := b.val, f := 2 }
  | .fleaveAbs b => some { o := 0x35, t := 1, b := b.val, f := 2, l := 1 }
  | .farr a b => some { o := 0x35, t := 1, a := a.val, b := b.val, f := 3 }
  | .farrn b a d => some { o := 0x35, t := 1, a := a.val, b := b.val, f := 4, d := d.val }
  | .fvote a b c mode => some { o := 0x35, t := 1, a := a.val, b := b.val, c := c.val, f := 5, l := mode.val }
  | .fred a b c op => some { o := 0x35, t := 1, a := a.val, b := b.val, c := c.val, f := 6, l := op.val }
  | .fredn b c a d op => some { o := 0x35, t := 1, a := a.val, b := b.val, c := c.val, f := 7, l := op.val, d := d.val }
  | .fqry a b sel => some { o := 0x35, t := 1, a := a.val, b := b.val, f := 8, l := sel.val }
  | .fdel b => some { o := 0x35, t := 1, b := b.val, f := 9 }
  | .fwait j b c => some { o := 0x35, t := 1, a := j.val, b := b.val, c := c.val, f := 10 }
  | .fclose b => some { o := 0x35, t := 1, b := b.val, f := 11 }
  | .htox a b => some { o := 0x35, t := 1, a := a.val, b := b.val, f := 12 }
  | .xtoh a b => some { o := 0x35, t := 1, a := a.val, b := b.val, f := 13 }
  | .trap code => some { o := 0x36, t := 1, c := code.val / 16, d := code.val % 16 }
  | .rett => some { o := 0x36, t := 1, f := 1 }
  | .svc code => some { o := 0x36, t := 1, c := code.val / 16, f := 2, d := code.val % 16 }
  | .tlbw a b c => some { o := 0x36, t := 1, a := a.val, b := b.val, c := c.val, f := 3 }
  | .tlbi a => some { o := 0x36, t := 1, a := a.val, f := 4 }
  | .sdown a => some { o := 0x36, t := 1, a := a.val, f := 5 }
  | .ipref a b lvl => some { o := 0x36, t := 1, a := a.val, b := b.val, f := 6, d := lvl.val }
  | .ipin a b lvl => some { o := 0x36, t := 1, a := a.val, b := b.val, f := 7, d := lvl.val }
  | .iunpin a b lvl => some { o := 0x36, t := 1, a := a.val, b := b.val, f := 8, d := lvl.val }
  | .dbrk => some { o := 0x36, t := 1, f := 9 }
  | .halt => some { o := 0x36, t := 1, f := 10 }
  | .wfi => some { o := 0x36, t := 1, f := 11 }
  | .evq a b => some { o := 0x36, t := 1, a := a.val, b := b.val, f := 12 }
  | _ => none
/-- Parcels of a tail of size code t: 0, 1, 2 or 4 (R123). -/
def tailParcels (t : Nat) : Nat :=
  match t with
  | 0 => 0 | 1 => 1 | 2 => 2 | _ => 4

/-- The tail size code of a head (R123). -/
def headT (h : Nat) : Nat := h / 256 % 4

/-- The fields of head h and tail w (R125); the tail of LI is one integer (R147). -/
def fieldsOf (h w : Nat) : Fields :=
  let o := h / 1024 % 64
  let t := headT h
  let a := h / 16 % 16
  let b := h % 16
  if o = 0x0E then { o := o, t := t, a := a, b := b, imm := w }
  else if t = 1 then
    { o := o, t := t, a := a, b := b, c := w / 4096 % 16, f := w / 256 % 16, l := w / 16 % 16, d := w % 16 }
  else if t = 2 then
    { o := o, t := t, a := a, b := b, c := w / 268435456 % 16, f := w / 16777216 % 16, l := w / 1048576 % 16,
      imm := w % 1048576 }
  else { o := o, t := t, a := a, b := b, imm := w }

/-- The head of the fields (R125). -/
def headOf (x : Fields) : Nat := x.o * 1024 + x.t * 256 + x.a * 16 + x.b

/-- The tail of the fields (R125). -/
def tailOf (x : Fields) : Nat :=
  if x.o = 0x0E then x.imm
  else if x.t = 1 then x.c * 4096 + x.f * 256 + x.l * 16 + x.d
  else if x.t = 2 then x.c * 268435456 + x.f * 16777216 + x.l * 1048576 + x.imm
  else x.imm

/-- The instruction of head h (16 bits) and its tail w (16, 32 or 64 bits, zero without a tail): none for every
encoding that raises illegal instruction (R126 to R128). -/
noncomputable def decodeWords (h w : Nat) : Option Instr :=
  match decodeFields (fieldsOf h w) with
  | some i => if i.wellFormed then some i else none
  | none => none

/-- The head and the tail of a slot instruction (R125); none for an operation or event without an encoding. -/
def encode (i : Instr) : Option (Nat × Nat) :=
  (encodeFields i).map fun x => (headOf x, tailOf x)

/-- The decoder's answer for the words w of an instruction of nbits bits as spec/opcode_table.json numbers them: the
head in the highest parcel, then its tail. A head whose tail has no bits in the table takes a tail of zeros. -/
noncomputable def decodeTableWord (nbits w : Nat) : Option Instr :=
  if nbits ≤ 16 then decodeWords (w % 65536) 0
  else decodeWords (w / 2 ^ (nbits - 16) % 65536) (w % 2 ^ (nbits - 16))

/-- Little-endian number of a list of bytes (00_scope.md R6). -/
def leNat : List Byte → Nat
  | [] => 0
  | b :: bs => b.toNat + 256 * leNat bs

/-- n bytes of a number, little-endian. -/
def leBytes : Nat → Nat → List Byte
  | 0, _ => []
  | n + 1, v => BitVec.ofNat 8 v :: leBytes n (v / 256)

/-- The parcels of a line: little-endian 16-bit units (R122). -/
def parcelsOf : List Byte → List Nat
  | a :: b :: rest => (a.toNat + 256 * b.toNat) :: parcelsOf rest
  | _ => []

/-- The first parcel of head k's tail and of every later head's, counting down from pos (R123): none when the tails
run below parcel 0. -/
def tailStarts : List Nat → Nat → Option (List Nat)
  | [], _ => some []
  | h :: hs, pos =>
    if tailParcels (headT h) ≤ pos then
      (tailStarts hs (pos - tailParcels (headT h))).map (fun r => (pos - tailParcels (headT h)) :: r)
    else none

/-- A decoded line (R122, R123): its heads, each with its tail as a number. -/
structure LineCode where
  heads : List (Nat × Nat)
deriving DecidableEq, Repr

/-- The number held by n parcels from index p, the lowest parcel least significant (R123). -/
def parcelsAt (ps : List Nat) (p : Nat) : Nat → Nat
  | 0 => 0
  | n + 1 => ps.getD p 0 + 65536 * parcelsAt ps (p + 1) n

/-- DecodeLine (R122, R123): none for an illegal line. -/
def decodeLine (bytes : List Byte) : Option LineCode :=
  let ps := parcelsOf bytes
  let w := ps.getD 0 0
  let n := w / 2048
  let hs := (ps.drop 1).take n
  if w % 2048 ≠ 0 ∨ n = 0 ∨ ps.length ≠ 32 ∨ hs.length ≠ n then none
  else match tailStarts hs 32 with
    | none => none
    | some ts =>
      let pos := ts.getLastD 32
      if pos < n + 1 then none
      else if ((ps.drop (n + 1)).take (pos - (n + 1))).any (· ≠ 0) then none
      else some { heads := (hs.zip ts).map fun (h, t) => (h, parcelsAt ps t (tailParcels (headT h))) }

/-- A 64-byte line that holds one head with its tail and nothing else (R122, R123). -/
def oneHeadLine (h w : Nat) : List Byte :=
  let n := tailParcels (headT h)
  leBytes 2 2048 ++ leBytes 2 h ++ List.replicate (60 - 2 * n) 0 ++ leBytes (2 * n) w

end Sys2Proof
end

