-- ==== Sys2Proof/Machine/Store.lean ====
section
/-!
DEFINITION. Sparse stores: byte memories as lists of Host.Cell in one canonical form, and maps from numbers to
records. An unlisted byte reads as zero (log entry 2).
-/

namespace Sys2Proof.Machine

/-- What a byte that nothing has written reads as (log entry 2, DESIGN CHOICE). -/
def unlisted : Byte := 0

/-- The byte at an address (00_scope.md R6). -/
def readByte : List Host.Cell → Nat → Byte
  | [], _ => unlisted
  | (k, v) :: m, a => if a = k then v else if a < k then unlisted else readByte m a

/-- The memory with one byte written; the canonical form is kept: addresses rise and no entry equals an unlisted
byte. -/
def writeByte : List Host.Cell → Nat → Byte → List Host.Cell
  | [], a, b => if b = unlisted then [] else [(a, b)]
  | (k, v) :: m, a, b =>
    if a = k then (if b = unlisted then m else (a, b) :: m)
    else if a < k then (if b = unlisted then (k, v) :: m else (a, b) :: (k, v) :: m)
    else (k, v) :: writeByte m a b

/-- The canonical form from a lower bound on the addresses. -/
def Memory.wfFrom : Nat → List Host.Cell → Bool
  | _, [] => true
  | lo, (k, v) :: m => decide (lo ≤ k) && decide (v ≠ unlisted) && Memory.wfFrom (k + 1) m

/-- Memory is in canonical form: addresses strictly rising, no entry equal to an unlisted byte. -/
def Memory.wf (m : List Host.Cell) : Bool := Memory.wfFrom 0 m

/-- n bytes from an address up. -/
def readBytes (m : List Host.Cell) (a : Nat) : Nat → List Byte
  | 0 => []
  | n + 1 => readByte m a :: readBytes m (a + 1) n

/-- Bytes written from an address up. -/
def writeBytes (m : List Host.Cell) (a : Nat) : List Byte → List Host.Cell
  | [] => m
  | b :: bs => writeBytes (writeByte m a b) (a + 1) bs

/-- A map from numbers to records: pairs of key and record, keys rising. -/
abbrev KMap (α : Type) := List (Nat × α)

/-- The record of a key, or d for a key without one. -/
def kget {α : Type} (d : α) : KMap α → Nat → α
  | [], _ => d
  | (k, v) :: m, a => if a = k then v else if a < k then d else kget d m a

/-- The map with the record of a key replaced or added. -/
def kset {α : Type} : KMap α → Nat → α → KMap α
  | [], a, x => [(a, x)]
  | (k, v) :: m, a, x =>
    if a = k then (a, x) :: m
    else if a < k then (a, x) :: (k, v) :: m
    else (k, v) :: kset m a x

/-- The map without the record of a key. -/
def kdel {α : Type} : KMap α → Nat → KMap α
  | [], _ => []
  | (k, v) :: m, a => if a = k then m else if a < k then (k, v) :: m else (k, v) :: kdel m a

/-- Whether a key has a record. -/
def khas {α : Type} : KMap α → Nat → Bool
  | [], _ => false
  | (k, _) :: m, a => if a = k then true else if a < k then false else khas m a

/-- A set of numbers: a rising list. -/
def sinsert : List Nat → Nat → List Nat
  | [], a => [a]
  | k :: m, a => if a = k then k :: m else if a < k then a :: k :: m else k :: sinsert m a

/-- The set without a number. -/
def sremove (m : List Nat) (a : Nat) : List Nat := m.filter (· ≠ a)

end Sys2Proof.Machine
end

