-- ==== Sys2Proof/Machine/State.lean ====
section
/-!
DEFINITION. The state of a K9 package as plain data, and the state right after reset. Numbers that only count or name
(places, clusters, weights, identifiers, cycles) are Nat; what software reads or writes as a word is a bit vector.
INVENTORY.md lists every piece with its rule and reset value; log entry 1 names the reset values the rules do not give.
-/

namespace Sys2Proof.Machine

/-- A word of a number. -/
def word64 (n : Nat) : Word := BitVec.ofNat 64 n

/-- A place number (00_scope.md R4) as a plain number. -/
abbrev Place := Nat

/-- Privileges (13_handlers_and_messages.md R274). -/
inductive Priv where
  | user | supervisor | monitor
deriving DecidableEq, Repr

/-- What a token is bound to (06_copy_and_galleys.md R109). -/
inductive TokSrc where
  | copy (id : Nat)
  | galley (clus ofs k : Nat) (ph : Bool)
  | forme (part num : Nat) (phase : Nat)
  | matrix (core seq : Nat)
deriving DecidableEq, Repr

/-- States of a token (06_copy_and_galleys.md R109); a faulted one carries the fault code of its source. -/
inductive TokSt where
  | unbound
  | pending (src : TokSrc)
  | complete (src : TokSrc)
  | faulted (src : TokSrc) (code : Nat)
deriving DecidableEq, Repr

/-- Floating-point flags (07_instruction_lines.md R121). -/
structure FFlags where
  nv : Bool := false
  dz : Bool := false
  of : Bool := false
  uf : Bool := false
  nx : Bool := false
deriving DecidableEq, Repr

/-- A destination register of a head. -/
inductive Dest where
  | x (r : XReg)
  | v (r : VReg)
deriving DecidableEq, Repr

/-- A value for a destination register. -/
inductive RegVal where
  | x (r : XReg) (w : Word)
  | v (r : VReg) (w : Vec)
deriving DecidableEq, Repr

/-- The outcome of a long-latency head (07_instruction_lines.md R131, R133): still waiting at a bank; not performed yet,
for want of a translation or of an answer from another package (02_main_memory.md R40); values with the flags they
raise; or a failure with trap cause, trap value and the not-resumable mark. -/
inductive OutVal where
  | waiting
  | deferred
  | ok (vals : List RegVal) (flags : FFlags)
  | bad (cause : Nat) (tval : Word) (nr : Bool)
deriving DecidableEq, Repr

/-- What a head that is performed after heads of its window have issued was issued with (07_instruction_lines.md R131):
itself and the registers it reads. -/
structure Redo where
  i : Instr
  x : Vector Word 16
  v : Vector Vec 8
  p : Vector Word 4
deriving DecidableEq, Repr

/-- An outstanding result (07_instruction_lines.md R131): head, destinations, outcome, heads its window may still
issue, heads issued in it, the destinations one of them wrote, whether the result has returned, and what a deferred
head was issued with. -/
structure OutRes where
  pc : Word
  dests : List Dest
  val : OutVal
  left : Nat
  lah : Nat
  ovw : List Dest
  back : Bool
  redo : Option Redo := none
deriving DecidableEq, Repr

/-- What another package answered to a request (03_crossbar.md R54, R62). -/
inductive RemRes where
  | data (bs : List Byte)
  | refused
  | poisoned
  | addressError
deriving DecidableEq, Repr

/-- An answer to a request at a device physical address of another package, kept until the head or transfer that waits
for it is performed. -/
structure RemAns where
  pa : Nat
  op : PortOp
  res : RemRes
deriving DecidableEq, Repr

/-- A buffered reduction (13_handlers_and_messages.md R270): space, translated or vault address, the address TVAL
reports, operation, size and operand. -/
structure RedReq where
  vault : Bool
  addr : Nat
  tval : Word
  op : RedOp
  d8 : Bool
  c : Word
  row : Nat
deriving DecidableEq, Repr

/-- An entry of the commit buffer (13_handlers_and_messages.md R270). -/
inductive BufEntry where
  | send (m : Msg)
  | red (r : RedReq)
deriving DecidableEq, Repr

/-- A forme engine's answer to a slot (15_formes.md R293, R296): values for registers and handles, a refusal with
cause and trap value, or a blocking arrival that now waits for its phase. -/
inductive FormeAns where
  | done (vals : List RegVal) (hdest : Option (HReg × Word))
  | refuse (cause : Nat) (tval : Word)
  | wait (a : XReg)
deriving DecidableEq, Repr

/-- What a slot waits for. -/
inductive Park where
  | run
  | xlat                        -- its translation request (02_main_memory.md R40)
  | remote                      -- the answers to requests made at their ports (03_crossbar.md R51, R63)
  | bank                        -- a tagged request held at a bank (04_vaults.md R77)
  | answer (a : FormeAns)       -- a forme engine's answer (15_formes.md R293)
  | forme (a : XReg)            -- the completion of its phase (15_formes.md R296)
  | woken (a : XReg) (r : Word) -- its phase result, on the way to the slot (15_formes.md R296)
  | deleted                     -- the deletion of its forme, on the way to the slot (15_formes.md R302)
  | grant (x : Nat)             -- a borrow grant (13_handlers_and_messages.md R272)
  | sdown                       -- its shoot-down (02_main_memory.md R46)
  | wfi                         -- an event (08_scalar_instructions.md R162)
deriving DecidableEq, Repr

/-- A line of an instruction cache, or the line a slot executes (07_instruction_lines.md R134, R135); span is the size
of the page it was fetched through. -/
structure CacheLine where
  tsid : Nat
  va : Nat
  bytes : List Byte
  pinned : Option Nat     -- the context whose pin holds it
  span : Nat := 64
deriving DecidableEq, Repr

/-- How the owner of a matrix unit ends once its running command has finished (11_matrix_unit.md R221): killed, or
aborted for a page. -/
inductive Death where
  | kill
  | abort (addr : Nat)
deriving DecidableEq, Repr

/-- A handler slot (07_instruction_lines.md R117, R118, R120). -/
structure Slot where
  occ : Bool := false                 -- holds an activation
  priv : Priv := .user
  pc : Word := 0                      -- SR 0x00
  npc : Word := 0                     -- the head after it in sequence (R124), set by fetching
  x : Vector Word 16 := Vector.replicate 16 0
  v : Vector Vec 8 := Vector.replicate 8 0
  p : Vector Word 4 := Vector.replicate 4 0
  h : Vector Word 4 := Vector.replicate 4 0
  m : Vector Word 8 := Vector.replicate 8 0
  q : Vector Word 4 := Vector.replicate 4 0
  shadow : Vector Word 8 := Vector.replicate 8 0
  tok : Vector TokSt 8 := Vector.replicate 8 .unbound
  wt : Nat := 0                       -- SR 0x01
  ctx : Nat := 0                      -- SR 0x02
  kslot : Nat := 0                    -- SR 0x03
  msrc : Nat := 0                     -- SR 0x05
  mcls : Nat := 0                     -- SR 0x06
  entry : Word := 0                   -- SR 0x07
  spkg : Nat := 0                     -- SR 0x08 [11:8]
  hpkg : Nat := 0                     -- SR 0x08 [3:0]
  fflags : FFlags := {}               -- SR 0x10
  frmode : RMode := .rne              -- SR 0x11
  statid : BitVec 6 := 0              -- SR 0x12
  tpc : Word := 0                     -- SR 0x20
  tcause : BitVec 8 := 0              -- SR 0x21
  tval : Word := 0                    -- SR 0x22
  twt : Word := 0                     -- SR 0x23
  tstate : BitVec 10 := 0             -- SR 0x24
  tres : Word := 0                    -- SR 0x25
  heads : Word := 0                   -- SR 0x31
  lacidx : BitVec 6 := 0              -- SR 0x32
  wstart : Fin 8 := 0                 -- SR 0x50
  irrev : Bool := false               -- SR 0x52
  pmode : Bool := false               -- SR 0x53
  cbuf : List BufEntry := []          -- commit buffer, oldest first (R270)
  cfail : Option (Nat × Word) := none -- the first refusal of a commit that waits for its reductions (R270, R273)
  spent : Bool := false               -- R282
  outs : List OutRes := []            -- oldest first (R131)
  rex : Option (Word × Bool) := none  -- re-execution: resume head, result to discard (R133, R158)
  park : Park := .run
  xres : Option (Nat × Nat) := none   -- a translation answered 2 or 3 (R42): page of 64 KiB, outcome
  rans : List RemAns := []            -- answers to requests of the head under way that were made earlier
  line : Option CacheLine := none     -- the line it executes (R134)
  lineOld : Bool := false             -- that line has been withdrawn since (R134)
  halted : Bool := false              -- R162, R372
  late : Option (Nat × Word) := none  -- a refused or poisoned RED (R187)
  pend : Option (Nat × Word × Bool) := none  -- a trap that waits for outstanding results (R133): cause, value, NR
  skipBp : Bool := false              -- R376
  act : Nat := 0                      -- which activation: numbers the copy transfers it launched (R108)
  msg : Option Msg := none            -- the message it was bound with (R340)
  budget : Nat := 0                   -- descriptor BUDGET (R269)
  regsUsed : Nat := 0                 -- descriptor REGS (R269)
  boundAt : Nat := 0                  -- cycle of its die at binding (R348)
  gang : Bool := false                -- a gang member (R333)
  trapped : Bool := false             -- at the first head of a trap entry (R274)
  stepTrap : Bool := false            -- trapped since the debug module's last step (20_debug.md R375)
  dying : Option Death := none        -- its end waits for its running matrix command (11_matrix_unit.md R221)
deriving DecidableEq, Repr

/-- A translation entry (02_main_memory.md R37): VA and physical address of the page, space, size, permissions. -/
structure TlbEnt where
  va : Nat
  pa : Nat
  tsid : Nat
  size : Nat
  sc : Bool
  u : Bool
  x : Bool
  w : Bool
  r : Bool
deriving DecidableEq, Repr

/-- Who asks for a translation (02_main_memory.md R40): a slot, the network interface or the prefetch engine of a core,
a transfer on a channel of a cluster's copy engine, a feeder, or the launch front end for a partition. -/
inductive Requester where
  | slot (place : Nat)
  | iface (core : Nat)
  | prefetch (core : Nat)
  | copy (clus id chan : Nat)
  | feeder (f : Nat)
  | front (part : Nat)
deriving DecidableEq, Repr

/-- A requester that waits for a translation (02_main_memory.md R42): who, the kind of access, whether it may be
aborted, its virtual address, and the address as issued, with its tag. -/
structure XWaiter where
  who : Requester
  kind : Nat
  abortable : Bool
  va : Nat
  issued : Word := word64 va
deriving DecidableEq, Repr

/-- An open translation request (02_main_memory.md R40, R42, R48). -/
structure XlatReq where
  id : Nat
  tsid : Nat
  addr : Word
  waiters : List XWaiter
  stale : Bool
  bound : Bool
  faulted : Bool := false   -- its page was answered absent (18_faults_and_preemption.md R343)
deriving DecidableEq, Repr

/-- Lines on their way to an instruction cache (07_instruction_lines.md R135): count lines from va up. -/
structure Prefetch where
  ctx : Nat
  tsid : Nat
  va : Nat
  count : Nat
  user : Bool
  phys : Bool
  cluster : Bool
  pin : Bool
deriving DecidableEq, Repr

/-- Progress of a queued matrix command (11_matrix_unit.md R223, R249). -/
inductive CmdSt where
  | queued
  | read              -- its operands have been read, and its steps wait for an earlier command (R425)
  | started           -- it waits for a ring latch
  | done
  | faulted (code : Nat)
deriving DecidableEq, Repr

/-- A tile in a ring latch (11_matrix_unit.md R240). -/
structure Tile where
  bytes : List Byte
  bf : Nat
  lg : Nat
  k : Nat
  n : Nat
deriving DecidableEq, Repr

/-- A queued matrix command (11_matrix_unit.md R226): record, sequence number, progress. -/
structure MCmd where
  words : Vector Word 8
  seq : Nat
  st : CmdSt
  since : Nat         -- cycle of its die at which it was queued, or its progress changed
  at_ : Nat := 0      -- the step that queued it (R251)
  caps : List Tile := []  -- the operands A and B that it has read and not used (25_program_complex_product.md R425)
deriving DecidableEq, Repr

/-- A matrix unit (11_matrix_unit.md R220 to R231, R252). Buffers are keyed by buffer * 2048 + offset (A-buffers 0 to
3, B-buffers 4 to 7), accumulators by accumulator * 256 + row * 16 + column. -/
structure Matrix where
  queue : List MCmd := []
  bufs : List Host.Cell := []
  accs : KMap (BitVec 32) := []
  latch : Option Tile := none
  seq : BitVec 16 := 0
  done : BitVec 16 := 0xFFFF
  outcomes : List (Nat × Nat) := []   -- newest first: sequence number, 0 or fault code
  stop : Bool := false
  mqflt : Word := 0
  fltAcc : Option Nat := none         -- the accumulator the faulting command named (R229)
  owner : Option Nat := none
  leaving : Option Nat := none        -- its owner, of this kernel slot, has given it up while a command runs (R221)
  mix : KMap (Nat × Nat) := []        -- bytes of buffers that a copy wrote: its identifier, and the step at which its
                                      -- completion was observed, 0 before that (R251; 06_copy_and_galleys.md R107)
  stats : KMap (List StatCnt) := []   -- by kernel slot
  owned : Bool := false               -- owned since the last restore (18_faults_and_preemption.md R348)
deriving DecidableEq, Repr

/-- A message in an inbox (13_handlers_and_messages.md R266, R267). -/
structure InMsg where
  msg : Msg
  cls : Nat
  since : Nat                          -- cycle of the core's die at which it entered the inbox
deriving DecidableEq, Repr

/-- A spill ring's pointers, as counts of messages, and the arrival times of the messages it holds, oldest first
(13_handlers_and_messages.md R266, R267); and messages that a switch put ahead of them and that found no place in the
ring, or no translation of it (18_faults_and_preemption.md R350, R351). -/
structure Ring where
  head : Nat := 0
  tail : Nat := 0
  times : List Nat := []
  ahead : List Msg := []
deriving DecidableEq, Repr

/-- A worker core or service core, keyed by place / 8 (R4). -/
structure CoreSt where
  l1 : List TlbEnt := []
  lac : Vector Word 64 := Vector.replicate 64 0
  win : Vector Word 8 := Vector.replicate 8 0
  pfail : BitVec 32 := 0
  pcap : BitVec 32 := 0
  icache : List CacheLine := []
  prefetch : List Prefetch := []
  pxres : Option (Nat × Nat) := none    -- its translation answered 2 or 3 (02_main_memory.md R42)
  pans : Option RemAns := none          -- its port's answer to its prefetch engine
  mx : Matrix := {}
  inbox : List InMsg := []
  ring : Ring := {}
  gated : Bool := false
  readyAt : Nat := 0                    -- 17_scheduling_and_power.md R339
  lastSlot : Fin 8 := 7                 -- the slot that issued last (17_scheduling_and_power.md R337)
  cycle : Word := 0
  idleSince : Nat := 0
  gang : Option Msg := none             -- the message of the gang member that holds it (17_scheduling_and_power.md R333)
deriving DecidableEq, Repr

/-- A copy transfer (06_copy_and_galleys.md R103, R104). -/
structure Transfer where
  id : Nat
  place : Nat
  act : Nat
  regs : Vector Word 8
  tsid : Nat
  ctx : Nat
  kslot : Nat
  status : Nat               -- code of R105 found while moving, 0 so far
  waits : Bool               -- waits for a translation or for the answers of its ports
  seq : Nat := 0             -- the step that launched it: orders the transfers of a slot (R104)
  chan : Nat := 0            -- its channel, once started
  sent : Bool := false       -- its bytes are written, but for those in todo and for answers that are out
  todo : List (Nat × Nat × List Byte) := []  -- stores that wait for a credit: virtual and physical address, bytes (R61)
  rans : List RemAns := []   -- answers of its ports
  moved : Bool := false      -- its bytes and its galley update are done (R104)
  faddr : Word := 0          -- the failing address
  xres : Option (Nat × Nat)  -- a translation answered 2 or 3 (02_main_memory.md R42)
deriving DecidableEq, Repr

/-- Weight withheld until an ended activation's transfers complete (06_copy_and_galleys.md R108). -/
structure Withheld where
  act : Nat
  ctx : Nat
  kslot : Nat
  hpkg : Nat
  wt : Nat
deriving DecidableEq, Repr

/-- An entry of the fault-wait list (18_faults_and_preemption.md R341, R342): covered once a TLBW has written an entry
that covers its address. -/
structure FaultWait where
  core : Nat
  msg : Msg
  tsid : Nat
  addr : Nat
  act : Nat
  covered : Bool := false
deriving DecidableEq, Repr

/-- Tagged operations that wait for a tag (04_vaults.md R77; 09_memory_instructions.md R171). -/
inductive TagForm where
  | ldf | ldfe | ste
deriving DecidableEq, Repr

/-- A tagged request held at a bank, or returned by a full one (04_vaults.md R77; 09_memory_instructions.md R172): its
slot, its word's offset, its form, the destination or the data, its head, whether its result is outstanding in a
window, whether it was returned, and since when. -/
structure HeldReq where
  place : Nat
  ofs : Nat
  form : TagForm
  dest : XReg
  data : Word
  pc : Word
  inWin : Bool
  returned : Bool
  tval : Word := 0
  since : Nat := 0
deriving DecidableEq, Repr

/-- Modes of vacating a cluster (18_faults_and_preemption.md R349). -/
inductive SwMode where
  | drain | spill | discard
deriving DecidableEq, Repr

/-- A switch in progress (18_faults_and_preemption.md R349, R350); at_ is the cycle of its die at the signal. -/
structure Switch where
  ctx : Nat
  incoming : Option Nat
  mode : SwMode
  at_ : Nat
  est : Nat
  miss : Bool
deriving DecidableEq, Repr

/-- A cluster, keyed by die * 64 + cluster (R4). -/
structure ClusSt where
  ctx : Option Nat := none             -- the context it runs (R433)
  tlb : List TlbEnt := []
  ctlb : List TlbEnt := []
  reqs : List XlatReq := []
  nextReq : Nat := 0
  icache : List CacheLine := []
  copies : List Transfer := []         -- inbox, oldest first
  entering : List (Transfer × Word × XReg) := []  -- wait for room in it, with the head and destination of CPGO (R103)
  chans : List Transfer := []          -- started
  nextId : BitVec 16 := 0
  kept : List (Nat × Nat) := []        -- the 256 last completed: identifier, status (R190)
  evq : List (Word × Word) := []
  notices : Nat := 0                   -- event notices that its service core has not bound (R263)
  flog : List (Nat × Nat) := []
  withheld : List Withheld := []
  galleys : List Nat := []             -- offsets of active records
  held : List HeldReq := []
  fwait : List FaultWait := []
  errlog : List (Nat × Nat × Word) := [] -- place, cause, address (R274, R344)
  eccCount : Nat := 0                  -- R71
  svcEntry : Word := 0                 -- R263
  gated : Bool := false
  idleSince : Nat := 0
  readyAt : Nat := 0                   -- R339
  halted : Bool := false               -- halted as a whole (20_debug.md R372): its cores bind nothing
  switch : Option Switch := none
  ends : Bool := false                 -- its slice ends with the period (19_tenants_and_metering.md R362)
  left : Option Nat := none            -- the context that left it, while no other has been restored (R353)
  prestat : Word := 0                  -- R354
  hob : BitVec 9 := 0                  -- DBGCTL, R371
  sslot : BitVec 3 := 0
  score : BitVec 4 := 0
  xt : Bool := false
  frz : Bool := false
  stepst : BitVec 8 := 0               -- DBGSTAT, R371
  frozen : Bool := false
  hcause : BitVec 4 := 0
  stepping : Option (Nat × Nat × Nat) := none  -- slot stepped; head kind awaited and its number (R375)
  stepAct : Nat × Nat × Word := (0, 0, 0)      -- context, kernel slot and PC of the head stepped (R378)
  dbgErr : Bool := false
  dbp : Vector Word 4 := Vector.replicate 4 0
  dbpctx : BitVec 12 := 0
  trccfg : Word := 0
  trclost : BitVec 32 := 0
  trccount : BitVec 32 := 0
  trcnew : List Nat := []              -- places of the ring whose record has not been read (R377)
  inj : Word := 0
deriving DecidableEq, Repr

/-- What an entry of a write queue does (03_crossbar.md R60): a reduction of an operation and element size, with one
pending operand per element by address, or a store of bytes at an address. -/
inductive WqAct where
  | red (op : RedOp) (d8 : Bool) (ops : List (Nat × Word))
  | store (pa : Nat) (bs : List Byte)
deriving DecidableEq, Repr

/-- An entry of a write queue (03_crossbar.md R60, R63): a line, what it does, and the requests answered when it is
applied. -/
structure WqEntry where
  line : Nat
  act : WqAct
  asked : List PortReq := []
deriving DecidableEq, Repr

/-- A response on its way to its requester (03_crossbar.md R58, R59, R62). -/
structure PortResp where
  req : PortReq
  data : List Byte
  poison : Bool
  hold : Bool
  addrError : Bool
deriving DecidableEq, Repr

/-- A replay-filter entry (03_crossbar.md R61). -/
structure Applied where
  port : Nat
  row : Nat
  tag : Nat
  data : List Byte
deriving DecidableEq, Repr

/-- A shard-cache fill in flight (04_vaults.md R65). -/
structure Fill where
  shard : Nat
  line : Nat
  stale : Bool
deriving DecidableEq, Repr

/-- The crossbar, its rows, the write queues of the memory ports, and requests under way (03_crossbar.md). Rows 0 to
31 are the shards, 32 to 95 the host's sub-ports, 96 to 383 the Odnerlink sub-ports, 384 and 385 the firmware
complexes, 386 the debug port. -/
structure Xbar where
  rows : KMap Word := []
  matrixErr : Bool := false
  outOfService : List Nat := []         -- memory ports out of service (R33)
  silent : List Nat := []               -- memory-side ports whose requests fail beyond replay (R62); an input of the model
  wq : List WqEntry := []               -- arrival order (R60)
  reqs : List PortReq := []             -- past ingress (R54)
  ingress : List PortReq := []          -- held at their memory port while its write queue is full (R63)
  lastSrc : KMap Nat := []              -- by memory port: the row whose held request entered last (R63)
  outstanding : List (PortReq × Nat) := []  -- awaiting their response, of every port and unit, with the time of the last attempt, on the row's clock (R61)
  resps : List PortResp := []
  refusals : List PortReq := []
  applied : List Applied := []          -- newest first (R61)
  unresolved : List (Nat × Nat × Bool) := []  -- R62: port, tag, applied, oldest first
  refusedCnt : KMap Nat := []           -- by virtual function (R54)
  nextTag : Nat := 0                    -- request tag of the next request of this package's own units (R61)
  caches : List (Nat × Nat) := []       -- shard, line held (R64), least recently used first
  fills : List Fill := []
  parity : KMap Nat := []               -- by shard (R66)
  retired : List Nat := []              -- clusters retired (R57)
  minErr : Bool := false
deriving DecidableEq, Repr

/-- A loop level of a feeder (05_feeders.md R89): first record of the body, its records, passes left after this one. -/
structure LoopLvl where
  first : Nat
  count : Nat
  left : Nat
deriving DecidableEq, Repr

/-- What a feeder does (05_feeders.md R81, R91, R93, R96, R99). -/
inductive FeedSt where
  | idle
  | running
  | waiting (code : Nat)        -- for a galley slot's state, in a record of the code
  | answer (x : Nat)            -- for the forme engine's answer to an arrival of x units
  | xlat                        -- for a translation
  | port                        -- for its memory port's answers (03_crossbar.md R61, R63)
deriving DecidableEq, Repr

/-- A list that a feeder paused when its context left its slice (05_feeders.md R99). -/
structure FeedSave where
  st : FeedSt
  list : Nat
  p : Vector Word 7
  hold : Nat
  home : Nat
  ctx : Nat
  kslot : Nat
  loops : List LoopLvl
  counted : Nat
deriving DecidableEq, Repr

/-- A feeder, keyed by its index (05_feeders.md R80 to R99). -/
structure Feeder where
  inbox : List Msg := []
  st : FeedSt := .idle
  list : Nat := 0
  p : Vector Word 7 := Vector.replicate 7 0
  hold : Nat := 0
  home : Nat := 0
  ctx : Nat := 0
  kslot : Nat := 0
  loops : List LoopLvl := []            -- innermost first
  tlb : List TlbEnt := []
  overflows : BitVec 32 := 0
  invalids : BitVec 32 := 0
  seen : List Nat := []                 -- clusters already seen in the awaited state (R91)
  row : Nat := 0                        -- rows its PUSH has written (R86)
  counted : Nat := 0                    -- rows of its PUSH whose conversions are counted (R87, R99)
  wrote : Nat := 0                      -- runs of its DRAIN that are stored, or on their way to its port (R88)
  bad : Option (Nat × Word) := none     -- the first answer of its port that is no data: code and address (R97)
  saved : List FeedSave := []           -- oldest first (R99)
  away : List Msg := []                 -- queued messages of contexts out of their slices, saved with them (R99)
  xres : Option (Nat × Nat) := none     -- a translation answered 2 or 3 (02_main_memory.md R42)
deriving DecidableEq, Repr

/-- States of a forme member (15_formes.md R298); a free index has no entry. -/
inductive MemSt where
  | pending | present | absent
deriving DecidableEq, Repr

/-- A member of a forme (15_formes.md R295, R298, R301). -/
structure Member where
  mix : Nat
  st : MemSt
  join : Nat
  ctx : Nat
  kslot : Nat
  hpkg : Nat
  leaveAfter : Option Nat
  abs : Bool
deriving DecidableEq, Repr

/-- Kind of a phase (15_formes.md R296). -/
inductive PhKind where
  | plain
  | vote (mode : Nat)
  | reduce (op : Nat)
deriving DecidableEq, Repr

/-- How an arrival is answered (15_formes.md R296, R297, R301). -/
inductive ArrHow where
  | block (place act : Nat) (hw : Bool)   -- by activation act of a place
  | notify (wt dest eline ctx kslot hpkg : Nat)
  | leave
  | lost                                -- a notify arrival whose weight was killed (18_faults_and_preemption.md R346)
deriving DecidableEq, Repr

/-- An arrival in a phase (15_formes.md R296, R299). -/
structure Arrival where
  mix : Nat
  val : Word
  how : ArrHow
deriving DecidableEq, Repr

/-- One phase of a forme (15_formes.md R299). -/
structure Phase where
  kind : Option PhKind := none
  arr : List Arrival := []              -- oldest first
deriving DecidableEq, Repr

/-- A token bound by FWAIT (15_formes.md R304, R305). -/
structure TokWaiter where
  place : Nat
  tok : Tok
  phase : Nat
  hw : Bool
deriving DecidableEq, Repr

/-- A live forme, keyed by partition * 65536 + number (15_formes.md R288 to R305). -/
structure Forme where
  gen : Nat := 0
  phase : Nat := 0
  scope : Nat := 5
  maxm : Nat := 1
  closed : Bool := false
  creator : Nat := 0
  members : List Member := []           -- by rising index
  cur : Phase := {}
  nxt : Phase := {}
  waiters : List TokWaiter := []
deriving DecidableEq, Repr

/-- A weight return, borrow, answer, loss notice or statistics delivery on its way (14_weight_and_quiescence.md). -/
inductive Wire where
  | combine (shard ctx kslot hpkg amt : Nat)       -- to a shard combiner (R281)
  | ret (ctx kslot hpkg amt src : Nat)             -- to the home (R278)
  | borrow (ctx kslot hpkg amt place spkg act : Nat)   -- of activation act in a slot of package spkg
  | grant (pkg ctx kslot hpkg place amt act : Nat)
  | refuse (pkg ctx kslot place amt act : Nat)
  | loss (ctx kslot hpkg amt cause place : Nat)
  | stats (ctx kslot hpkg : Nat) (cnt : List StatCnt)
deriving DecidableEq, Repr

/-- A shard combiner entry (14_weight_and_quiescence.md R281). -/
structure Combine where
  shard : Nat
  ctx : Nat
  kslot : Nat
  hpkg : Nat
  sum : Nat
  since : Nat
deriving DecidableEq, Repr

/-- States of a kernel record (14_weight_and_quiescence.md R277). -/
inductive KSt where
  | free | running | completing | damaged
deriving DecidableEq, Repr

/-- A kernel record, keyed by context * 64 + kernel slot (14_weight_and_quiescence.md R277), and the statistics
gathered for it. -/
structure Kernel where
  st : KSt := .free
  stall : Bool := false
  xs : Bool := false
  w : Nat := 0
  l : Nat := 0
  h : Nat := 0
  faddr : Nat := 0
  fval : Nat := 0
  cont : Nat := 0
  sblk : Nat := 0
  last : Nat := 0
  wto : Nat := 0
  quiet : Nat := 0                      -- hub cycles of the slice since LAST in which R286 held
  stats : List StatCnt := []
  stage : Nat := 0                      -- steps of a completion or a damage taken: 1 the statistics, 2 the fence (R279)
deriving DecidableEq, Repr

/-- The home (14_weight_and_quiescence.md). -/
structure Home where
  kernels : KMap Kernel := []
  wires : List Wire := []
  combiners : List Combine := []
  errors : List (Nat × Nat × Nat × Nat × Nat) := []  -- conservation errors: event, context, slot, amount, source (R284)
deriving DecidableEq, Repr

/-- Progress of the command at the head of a queue (17_scheduling_and_power.md R326, R328): saving is a SAVE that is
accepted (14_weight_and_quiescence.md R285); wrote, a command whose write is on its way. -/
inductive HeadSt where
  | read | launchReady | launchXlat | fenceWait | saving | wrote
deriving DecidableEq, Repr

/-- A command queue, keyed by function * 8 + queue (17_scheduling_and_power.md R325, R326). -/
structure CmdQueue where
  base : Nat := 0                       -- QBASE [63:6]
  cbase : Nat := 0                      -- QCBASE [63:4]
  szlg : Nat := 0
  prio : Nat := 0
  err : Bool := false
  en : Bool := false
  prod : BitVec 32 := 0
  cons : BitVec 32 := 0
  head : Option (Vector Word 8) := none
  headSt : HeadSt := .read
  since : Nat := 0                      -- hub cycle it reached the head
  desc : List Word := []                -- the handler descriptor of a LAUNCH (R328)
  pollAt : Nat := 0                     -- hub cycle at which a waiting FENCEW reads its word again, at the latest
deriving DecidableEq, Repr

/-- A continuation image at the front end (14_weight_and_quiescence.md R279): the completed kernel, the LAUNCH, the hub
cycle of its submission, and its handler descriptor once it has been read. -/
structure Contn where
  ctx : Nat
  kslot : Nat
  image : Vector Word 8
  since : Nat
  desc : Option (List Word)
deriving DecidableEq, Repr

/-- Scheduling state of a partition (17_scheduling_and_power.md R334; 19_tenants_and_metering.md R362, R363). -/
structure PartSt where
  rem : Nat := 0
  used : Nat := 0                       -- metered energy since the interval start, microjoules
  granted : KMap Nat := []              -- cluster-slots granted in this period, by virtual function
  ran : KMap Nat := []                  -- cluster cycles run in it, with those of switches, by virtual function
  since : Option Nat := none            -- hub cycle the period began
  choices : List PolicyChoice := []     -- what the policy images chose for it
  order : List Nat := []                -- virtual functions in the order of their slices (19_tenants_and_metering.md R363)
deriving DecidableEq, Repr

/-- The launch front end and sequencer (17_scheduling_and_power.md). -/
structure Front where
  queues : KMap CmdQueue := []
  conts : List Contn := []
  parts : KMap PartSt := []
  paused : Bool := false                -- live update (21_host_firmware_security.md R391)
  asking : KMap Nat := []               -- by partition: the key of the LAUNCH its descriptor request is for (R328)
  answers : KMap (Option TlbEnt) := []  -- descriptor translations answered (02_main_memory.md R42), by partition
  gangs : List (List (Nat × Msg) × List Word) := []  -- gangs admitted, not bound: cores, messages, descriptor (R333)
  moving : KMap Bool := []              -- contexts that a MOVE takes, and whether their state is sent (R355)
  lastRun : KMap Nat := []              -- hub cycle of the last admission run of a partition
deriving DecidableEq, Repr

/-- Life of a context (13_handlers_and_messages.md R259, R433; 18_faults_and_preemption.md R356). -/
inductive CtxSt where
  | saved | running | broken | stopped | refused
deriving DecidableEq, Repr

/-- A context, keyed by its number (13_handlers_and_messages.md R259, R433). -/
structure Context where
  words : Vector Word 8 := #v[0x1F00, 0, 0, 0, 0, 0, 0x10000, 0]
  placement : List Nat := []
  owners : KMap Nat := []               -- owner-map entries written
  st : CtxSt := .saved
  pages : List Nat := []                -- reported pages (R356)
  touched : Bool := false               -- an activation has touched one of them
  slicing : Bool := true                -- is given slices
deriving DecidableEq, Repr

/-- Save area of a context on a cluster (18_faults_and_preemption.md R351), keyed by context * 512 + cluster. -/
structure SaveArea where
  slots : KMap Slot := []
  fwait : List FaultWait := []
  matrices : KMap Matrix := []          -- by core 0 to 7
  wins : KMap (Vector Word 8) := []
  rings : KMap Ring := []
  copies : List Transfer := []
  withheld : List Withheld := []
  evq : List (Word × Word) := []
  notices : Nat := 0
  vault : List Host.Cell := []          -- by offset
  empty : List Nat := []                -- offsets / 8 of empty words
  range : Nat × Nat := (0, 0)           -- the offsets saved, from the first up to the second
  poison : List Nat := []               -- offsets / 8 of words saved with a double-bit error (04_vaults.md R71)
  held : List (Nat × HeldReq) := []     -- with the cluster of the bank
  galleys : List Nat := []
  gangs : KMap Msg := []                -- by core 0 to 7 (17_scheduling_and_power.md R333)
deriving DecidableEq, Repr

/-- An interrupt raised to the host (21_host_firmware_security.md R384): function (64 is the physical function),
vector, and the words of the event it announces. -/
structure Irq where
  fn : Nat
  vec : Nat
  words : List Nat
deriving DecidableEq, Repr

/-- The reading mailbox of a function (19_tenants_and_metering.md R367), key 64 the physical function. -/
structure Mailbox where
  nonce : Word := 0
  code : Nat := 0
  done : Bool := false
  busy : Bool := false
  record : List Byte := List.replicate 128 0   -- ERECORD
deriving DecidableEq, Repr

/-- A counter of a profiling session (20_debug.md R381). -/
structure ProfCnt where
  evt : Option Nat := none
  count : Nat := 0
  armed : Bool := false
  per : Nat := 0
  left : Nat := 0
deriving DecidableEq, Repr

/-- A profiling session, keyed by virtual function (20_debug.md R381). -/
structure Session where
  isOpen : Bool := false
  st : Nat := 0
  prod : BitVec 32 := 0
  cnts : KMap ProfCnt := []
  absents : List Nat := []              -- events absent since a move, for the rest of the session (R369)
deriving DecidableEq, Repr

/-- A host-read latch (18_faults_and_preemption.md R358). -/
structure ReadLatch where
  off : Nat := 0
  val : BitVec 32 := 0
  valid : Bool := false
deriving DecidableEq, Repr

/-- How a request of the host, a firmware complex or the debug port ends (03_crossbar.md R54;
18_faults_and_preemption.md R344). -/
inductive ComplSt where
  | good | unsupported | poisoned | addressError
deriving DecidableEq, Repr

/-- A completion: connection row, tag, outcome, data. -/
structure Completion where
  row : Nat
  tag : Nat
  st : ComplSt
  data : List Byte
deriving DecidableEq, Repr

/-- The answer to a read of a function's base address register (18_faults_and_preemption.md R357, R358;
21_host_firmware_security.md R383): function, offset, whether of 8 bytes or of 4, value. -/
structure HostRead where
  fn : Nat
  off : Nat
  wide : Bool
  val : Word
deriving DecidableEq, Repr

/-- The host port (18 to 21). -/
structure HostSt where
  irqs : List Irq := []                 -- oldest first
  latches : KMap ReadLatch := []
  reads : List HostRead := []
  completions : List Completion := []   -- answers to requests of port 32 and of the firmware and debug ports
  boxes : KMap Mailbox := []
  sessions : KMap Session := []
  log : List (List Nat) := []           -- the monitor's event log
  aer : KMap (List Nat) := []           -- error status bits set, by function (R382)
deriving DecidableEq, Repr

/-- Metering (19_tenants_and_metering.md R364 to R368): index 24 is UNATTR. -/
structure Meter where
  cnt : KMap Nat := []                  -- microjoules
  unc : KMap Nat := []
  epk : KMap Nat := []                  -- highest one-millisecond energy of the last second
  recent : KMap (List Nat) := []        -- one-millisecond energies of the last second, newest first
  gap : Bool := false
  resumed : Bool := false
  seqs : KMap Nat := []
  boot : Nat := 0
  bootAt : Nat := 0                     -- hub cycle of the boot
  ops : KMap Nat := []                  -- flits and operations since the latest update, by block * 32 + partition (R365)
  at_ : Nat := 0                        -- hub cycle of the latest update
  slotA : Option (List (Nat × Nat × Nat)) := none  -- persist record: counter, UNC, Epk
  slotB : Option (List (Nat × Nat × Nat)) := none
  newerA : Bool := false
  powerLost : Bool := false
deriving DecidableEq, Repr

/-- States of a live update (21_host_firmware_security.md R391). -/
inductive UpdSt where
  | idle
  | loading (img : Image)
  | pausing (img : Image)
  | switching (img : Image)
deriving DecidableEq, Repr

/-- Firmware complexes and security element (21_host_firmware_security.md R388 to R395). -/
structure Firmware where
  activeB : Bool := false
  stage : Option Image := none
  monitor : Option Image := none
  standby : Option Image := none        -- the image the standby runs
  retained : Option Image := none       -- the monitor in the complex's retained flash
  mirrored : Bool := false              -- the standby's table is consistent
  tableVer : Nat := 0
  upd : UpdSt := .idle
  bootFailed : Bool := false
  pkg : Nat := 0
  span : List Nat := []                 -- package numbers of the span
  key : Bool := false                   -- attestation key present
  rollback : KMap Nat := []             -- by image kind
  vendorHash : BitVec 512 := 0          -- the hash of the vendor's public key (R389, R393)
  clock : Nat := 0                      -- the retained clock, in hub cycles (R393; 19_tenants_and_metering.md R368)
  level2 : Nat := 0                     -- level-2 alarms in this boot
  halted : Bool := false                -- level-2 halt (R395)
  outAt : Nat := 0                      -- hub cycle at which a sensor was last out of its range (R395)
  attest : List (List Byte) := []       -- attestation records returned
  fallback : List Nat := []             -- functions under the default policy until the period ends
  store : List Image := []              -- policy images in storage (19_tenants_and_metering.md R363)
  policy : KMap Nat := []               -- by function: the version of the policy image in force; default without
  dumps : List (List Byte) := []        -- dumps in storage, oldest first (18_faults_and_preemption.md R359)
  pending : List MigDesc := []          -- migration descriptors in force
  moved : List (MigDesc × Nat) := []    -- contexts sent to another package, with the hub cycle
deriving DecidableEq, Repr

/-- A request to another package that awaits its answer (03_crossbar.md R54, R62), with the tag its flit carries. -/
structure RemReq where
  q : PortReq
  tag : Nat
deriving DecidableEq, Repr

/-- An Odnerlink port (21_host_firmware_security.md R386): what it sends, and what it has received. -/
structure Link where
  unacked : List Flit := []
  nextSeq : Nat := 0
  resends : Nat := 0
  sentAt : Nat := 0                     -- hub cycle at which the oldest was last sent
  told : Option Nat := none             -- the last flit it retired, of which it has told the port beyond (R283)
  expect : Nat := 0
  reply : Option (Nat × Bool) := none   -- its last answer: a flit acknowledged, or one asked for again
  entering : List Flit := []            -- received, but not known to be retired by their sender (R283), oldest first
  fresh : Bool := false                 -- no flit has been taken since the link was trained again
  up : Bool := true
  retired : Bool := false               -- by the monitor
  asked : List RemReq := []             -- requests to the package beyond it that await their answer (03_crossbar.md R62)
deriving DecidableEq, Repr

/-- A shoot-down under way (02_main_memory.md R46): issuing slot, descriptor, nodes that have acknowledged. -/
structure SDown where
  place : Nat
  ctx : Nat
  desc : Word
  acked : List Nat
deriving DecidableEq, Repr

/-- A message in a sender's interface or in flight (13_handlers_and_messages.md R264, R266): offered before and kept
waiting, or on its way; and whether it goes to the tail of its core's spill ring (18_faults_and_preemption.md
R341). It was kept since a time on its sender's clock. -/
structure Flight where
  msg : Msg
  held : Bool
  since : Nat
  ring : Bool := false
deriving DecidableEq, Repr

/-- What a write of configuration space by a request goes to (03_crossbar.md R52; 20_debug.md R370; log entry 45): a
register, a connection row, or INJ of a cluster. -/
inductive CfgDest where
  | reg (r : CReg)
  | row (n : Nat)
  | inj (clus : Nat)
deriving DecidableEq, Repr

/-- Who acts next: a slot issues a head, an event of the opcode table comes about, or a write of configuration space
that a request brought (log entry 4). -/
inductive Turn where
  | issue (place : Nat)
  | event (i : Instr)
  | write (d : CfgDest) (v : Word)
deriving DecidableEq, Repr

/-- Clocks of the model: steps taken, hub cycles, free values taken, and two counts that profiling reads (00_scope.md
R5; log entry 4). -/
structure Clock where
  ticks : Nat := 0
  hub : Nat := 0
  draws : Nat := 0                      -- free values taken so far
  delays : List (Nat × Nat) := []       -- delay fields received in this step, with the core that received them
  traps : Nat := 0                      -- traps taken
deriving DecidableEq, Repr

/-- Die controllers (17_scheduling_and_power.md R335, R336), keyed by die: temperature, step, pending step. -/
structure DieSt where
  temp : Nat := 0
  step : Nat := 16
  lag : Nat := 0                        -- sixteenths of a hub cycle its steps have cost since power-on (R336)
  pending : Option Nat := none
  watts : Nat := 0
deriving DecidableEq, Repr

/-- The state of a package. -/
structure State where
  cur : Nat                             -- the slot whose instruction exec runs (log entry 4)
  agenda : List Turn                    -- turns to take, oldest first (log entry 4)
  clk : Clock
  slots : KMap Slot                     -- by place
  cores : KMap CoreSt                   -- by place / 8
  clusters : KMap ClusSt                -- by die * 64 + cluster
  mem : List Host.Cell                  -- main memory and host memory, by device physical address (R31)
  vault : List Host.Cell                -- by cluster * 2^24 + offset (R67)
  empty : List Nat                      -- empty vault words: cluster * 2^21 + offset / 8 (R76)
  flaws : KMap Bool                     -- vault words with flipped bits: two of them, or one (R71); an input of the model
  feeders : KMap Feeder                 -- by index
  net : List Flight                     -- messages in senders' interfaces and in flight, oldest first
  formes : KMap Forme                   -- by partition * 65536 + number
  overflow : KMap Nat                   -- waiters in a partition's overflow ring (R304)
  formeErr : List Nat                   -- engines whose error status is set (R289)
  home : Home
  xbar : Xbar
  sdowns : List SDown
  ctxs : KMap Context
  regs : List (CReg × Word)             -- configuration registers written, oldest first
  dies : KMap DieSt
  front : Front
  host : HostSt
  meter : Meter
  fw : Firmware
  links : KMap Link
  saved : KMap SaveArea
  reports : List (Nat × Nat × Word × Nat × Nat)  -- failures after END (R345)
  fatal : Option (List Byte)            -- frozen with this dump (R359, R360)
deriving DecidableEq, Repr

/-- Faults of a step: none. What the rules call a fault is a trap of a slot, a fault of an engine or a frozen device,
and the machine has a next state in each; so no constructor is needed and a step never faults (safe). -/
inductive Fault where
deriving DecidableEq, Repr

/-- Refusals of a step. -/
inductive Refusal where
  /-- The instruction has no meaning yet: raised by the arms of exec that say so; safe, nothing is claimed. -/
  | notModelled (mnemonic : String)
deriving DecidableEq, Repr

/-- The machine right after reset: every slot free, queues and lists empty, registers at the values of INVENTORY.md,
memory with nothing listed, every vault tag full, connection rows at their reset values. The current slot is slot 0
of the service core of die 0, cluster 0 (place 64; log entry 4). -/
def State.reset : State where
  cur := 64
  agenda := []
  clk := {}
  slots := []
  cores := []
  clusters := []
  mem := []
  vault := []
  empty := []
  flaws := []
  feeders := []
  net := []
  formes := []
  overflow := []
  formeErr := []
  home := {}
  xbar := {}
  sdowns := []
  ctxs := []
  regs := []
  dies := []
  front := {}
  host := {}
  meter := {}
  fw := {}
  links := []
  saved := []
  reports := []
  fatal := none

end Sys2Proof.Machine
end

