-- ==== Sys2Proof/Machine/Ops.lean ====
section
/-!
DEFINITION. Named operations over the state: places, slots, registers, configuration, taking a trap and returning,
completing a head, lookahead windows, messages and weight on their way, tokens.
-/

namespace Sys2Proof.Machine

/-- What a meaning answers. -/
abbrev Out := Host.Outcome State Fault Refusal

/-- n bits of a word from bit lo, as a number. -/
def fld (w : Word) (lo n : Nat) : Nat := w.toNat / 2 ^ lo % 2 ^ n

/-- A word of a number. -/
def word (n : Nat) : Word := BitVec.ofNat 64 n

/-- One bit of a number. -/
def bitOf (n k : Nat) : Bool := n / 2 ^ k % 2 == 1

/-- The last n items put at the front of a list, newest first, are kept. -/
def keepNewest {α : Type} (n : Nat) (l : List α) : List α := l.take n

/-- The list with one item replaced. -/
def setAt {α : Type} (l : List α) (i : Nat) (a : α) : List α := l.set i a

/-! Places (00_scope.md R4, 13_handlers_and_messages.md R260) -/

/-- The core of a slot's place: place bits above SLOT. -/
def coreOf (place : Nat) : Nat := place / 8
/-- UNIT of a place. -/
def unitOf (place : Nat) : Nat := place / 8 % 16
/-- The cluster of a place, die * 64 + cluster. -/
def clusOf (place : Nat) : Nat := place / 128
/-- The die of a place. -/
def dieOf (place : Nat) : Nat := place / 8192
/-- The shard of a cluster, 0 to 31 (03_crossbar.md R50). -/
def shardOf (clus : Nat) : Nat := clus / 16
/-- The core number (place / 8) of unit u of a cluster. -/
def coreIn (clus u : Nat) : Nat := clus * 16 + u
/-- A place names a handler slot: a worker or service core of the package. -/
def isSlot (place : Nat) : Bool := decide (place < 65536) && decide (unitOf place ≤ 8)
/-- A place is on a service core. -/
def isService (place : Nat) : Bool := unitOf place == 8
/-- The index of a feeder's place, or none (R260). -/
def feederOf (place : Nat) : Option Nat :=
  if unitOf place = 11 ∧ place % 8 = 0 ∧ place / 128 < 96 then some (place / 128) else none
/-- The place of a feeder (R260). -/
def feederPlace (f : Nat) : Nat := f * 128 + 88
/-- The place of a die's forme engine (R260). -/
def enginePlace (die : Nat) : Nat := (256 + die) * 128 + 88
/-- The hub's place (R260). -/
def hubPlace : Nat := 0xFFFF

/-! Reading and writing the parts of the state -/

/-- The slot at a place. -/
def State.slot (s : State) (p : Nat) : Slot := kget {} s.slots p
/-- The state with the slot at a place replaced. -/
def State.setSlot (s : State) (p : Nat) (x : Slot) : State := { s with slots := kset s.slots p x }
/-- The current slot. -/
def State.me (s : State) : Slot := s.slot s.cur
/-- The state with the current slot replaced. -/
def State.setMe (s : State) (x : Slot) : State := s.setSlot s.cur x
/-- The core of a number (place / 8). -/
def State.core (s : State) (c : Nat) : CoreSt := kget {} s.cores c
/-- The state with a core replaced. -/
def State.setCore (s : State) (c : Nat) (x : CoreSt) : State := { s with cores := kset s.cores c x }
/-- The core of the current slot. -/
def State.myCore (s : State) : CoreSt := s.core (coreOf s.cur)
/-- A cluster. -/
def State.clus (s : State) (c : Nat) : ClusSt := kget {} s.clusters c
/-- The state with a cluster replaced. -/
def State.setClus (s : State) (c : Nat) (x : ClusSt) : State := { s with clusters := kset s.clusters c x }
/-- A feeder. -/
def State.feeder (s : State) (f : Nat) : Feeder := kget {} s.feeders f
/-- The state with a feeder replaced. -/
def State.setFeeder (s : State) (f : Nat) (x : Feeder) : State := { s with feeders := kset s.feeders f x }
/-- A context. -/
def State.ctxOf (s : State) (c : Nat) : Context := kget {} s.ctxs c
/-- The state with a context replaced. -/
def State.setCtx (s : State) (c : Nat) (x : Context) : State := { s with ctxs := kset s.ctxs c x }
/-- A kernel record (14_weight_and_quiescence.md R277). -/
def State.kernel (s : State) (ctx k : Nat) : Kernel := kget {} s.home.kernels (ctx * 64 + k)
/-- The state with a kernel record replaced. -/
def State.setKernel (s : State) (ctx k : Nat) (x : Kernel) : State :=
  { s with home := { s.home with kernels := kset s.home.kernels (ctx * 64 + k) x } }
/-- A command queue. -/
def State.queue (s : State) (vf q : Nat) : CmdQueue := kget {} s.front.queues (vf * 8 + q)
/-- The state with a command queue replaced. -/
def State.setQueue (s : State) (vf q : Nat) (x : CmdQueue) : State :=
  { s with front := { s.front with queues := kset s.front.queues (vf * 8 + q) x } }
/-- Scheduling state of a partition. -/
def State.part (s : State) (p : Nat) : PartSt := kget {} s.front.parts p
/-- The state with a partition's scheduling state replaced. -/
def State.setPart (s : State) (p : Nat) (x : PartSt) : State :=
  { s with front := { s.front with parts := kset s.front.parts p x } }
/-- A die controller. -/
def State.die (s : State) (d : Nat) : DieSt := kget {} s.dies d
/-- The state with a die controller replaced. -/
def State.setDie (s : State) (d : Nat) (x : DieSt) : State := { s with dies := kset s.dies d x }
/-- Cycles of a die since power-on: hub cycles less those its steps below 16 have cost (00_scope.md R5,
17_scheduling_and_power.md R336). -/
def State.dieClock (s : State) (d : Nat) : Nat := (s.clk.hub * 16 - (s.die d).lag) / 16
/-- The clock of what a place counts: its die's for a slot, the hub's for a feeder, a forme engine, the hub and places
of another package (00_scope.md R5). -/
def State.placeClock (s : State) (place : Nat) : Nat := if isSlot place then s.dieClock (dieOf place) else s.clk.hub
/-- The clock of a connection row's requests: a shard's die's, the hub's for the others (00_scope.md R5). -/
def State.rowClock (s : State) (row : Nat) : Nat := if row < 32 then s.dieClock (row / 4) else s.clk.hub
/-- An Odnerlink port. -/
def State.link (s : State) (p : Nat) : Link := kget {} s.links p
/-- The state with an Odnerlink port replaced. -/
def State.setLink (s : State) (p : Nat) (x : Link) : State := { s with links := kset s.links p x }
/-- A save area. -/
def State.save (s : State) (ctx clus : Nat) : SaveArea := kget {} s.saved (ctx * 512 + clus)
/-- The state with a save area replaced. -/
def State.setSave (s : State) (ctx clus : Nat) (x : SaveArea) : State :=
  { s with saved := kset s.saved (ctx * 512 + clus) x }
/-- The state with a weight wire added behind the others. -/
def State.wire (s : State) (w : Wire) : State := { s with home := { s.home with wires := s.home.wires ++ [w] } }
/-- The state with an interrupt raised behind the others (21_host_firmware_security.md R384). -/
def State.irq (s : State) (fn vec : Nat) (words : List Nat) : State :=
  { s with host := { s.host with irqs := s.host.irqs ++ [⟨fn, vec, words⟩] } }
/-- The clock of the interface that sends a message: its sender's, in this package (00_scope.md R5). -/
def State.msgClock (s : State) (m : Msg) : Nat := if m.spkg = s.fw.pkg then s.placeClock m.src else s.clk.hub
/-- The state with a message in its sender's interface, behind the others (13_handlers_and_messages.md R264). -/
def State.post (s : State) (m : Msg) : State :=
  { s with net := s.net ++ [{ msg := m, held := false, since := s.msgClock m }] }

/-! Registers of a slot -/

/-- A general register of the current slot. -/
def State.x (s : State) (r : XReg) : Word := s.me.x.get r
/-- A vector register of the current slot. -/
def State.v (s : State) (r : VReg) : Vec := s.me.v.get r
/-- A predicate of the current slot. -/
def State.p (s : State) (r : PReg) : Word := s.me.p.get r
/-- A forme handle of the current slot. -/
def State.h (s : State) (r : HReg) : Word := s.me.h.get r
/-- The slot with a general register written; none is hardwired (07_instruction_lines.md R117). -/
def Slot.setX (sl : Slot) (r : XReg) (w : Word) : Slot := { sl with x := sl.x.set r.val w r.isLt }
/-- The slot with a vector register written. -/
def Slot.setV (sl : Slot) (r : VReg) (w : Vec) : Slot := { sl with v := sl.v.set r.val w r.isLt }
/-- The slot with a predicate written. -/
def Slot.setP (sl : Slot) (r : PReg) (w : Word) : Slot := { sl with p := sl.p.set r.val w r.isLt }
/-- The slot with a handle written. -/
def Slot.setH (sl : Slot) (r : HReg) (w : Word) : Slot := { sl with h := sl.h.set r.val w r.isLt }
/-- The slot with a token changed. -/
def Slot.setTok (sl : Slot) (t : Tok) (x : TokSt) : Slot := { sl with tok := sl.tok.set t.val x t.isLt }

/-- The slot with a result's value written. -/
def Slot.putVal (sl : Slot) (x : RegVal) : Slot :=
  match x with
  | .x r w => sl.setX r w
  | .v r w => sl.setV r w

/-- The register a result's value goes to. -/
def RegVal.dest (x : RegVal) : Dest :=
  match x with
  | .x r _ => .x r
  | .v r _ => .v r

/-- Two sets of flags together (10_vector_instructions.md R200: flags are sticky). -/
def FFlags.or (a b : FFlags) : FFlags :=
  { nv := a.nv || b.nv, dz := a.dz || b.dz, of := a.of || b.of, uf := a.uf || b.uf, nx := a.nx || b.nx }

/-- The privilege code of TSTATE.PPRV (07_instruction_lines.md R121). -/
def Priv.code (p : Priv) : Nat :=
  match p with
  | .user => 0
  | .supervisor => 1
  | .monitor => 2

/-! Configuration registers -/

/-- Reset values of the configuration registers (INVENTORY.md; R41, R265, R289, R332, R334, R335, R339, R347, R361,
R362, R365, R371, R376, R377, R325, R381, R367, R259). -/
def cregReset (r : CReg) : Word :=
  match r with
  | .padm _ => word (0x0100 * 2 ^ 48 + 3500000)
  | .pebud _ => word (1000 * 2 ^ 16)
  | .dpctl _ => word (8 * 2 ^ 40 + 95 * 2 ^ 32 + 95 * 2 ^ 16 + 16)
  | .plim => 3000
  | .dpgate _ => word (0x0040 * 2 ^ 16 + 0x0040)
  | .precfg _ => word (64 * 2 ^ 32 + 100000)
  | .valloc _ => 0xBF00
  | .vfcfg _ => 0x1F00
  | .pslice _ => 10000
  | _ => 0

/-- The value found under a register in the list of those written. -/
def cregFind : List (CReg × Word) → CReg → Option Word
  | [], _ => none
  | (k, v) :: m, r => if k = r then some v else cregFind m r

/-- The list of registers written with one value replaced or added. -/
def cregPut : List (CReg × Word) → CReg → Word → List (CReg × Word)
  | [], r, w => [(r, w)]
  | (k, v) :: m, r, w => if k = r then (r, w) :: m else (k, v) :: cregPut m r w

/-- The value of a configuration register. -/
def State.reg (s : State) (r : CReg) : Word := (cregFind s.regs r).getD (cregReset r)
/-- The state with a configuration register written. -/
def State.setReg (s : State) (r : CReg) (w : Word) : State := { s with regs := cregPut s.regs r w }

/-- A connection row (03_crossbar.md R52): reset value PART 31; the firmware rows read as PART 31 with every ALLOW
bit. -/
def State.row (s : State) (n : Nat) : Word :=
  if n = 384 ∨ n = 385 then word (31 * 2 ^ 40 + (2 ^ 38 - 1))
  else kget (word (31 * 2 ^ 40)) s.xbar.rows n

/-- PART of a connection row. -/
def rowPart (w : Word) : Nat := fld w 40 5
/-- Whether a row's requests may reach memory-side port t (03_crossbar.md R52, R54): never above 37. -/
def rowAllows (w : Word) (t : Nat) : Bool := decide (t ≤ 37) && bitOf w.toNat t

/-- The partition of a cluster: PART of its shard's row (03_crossbar.md R53). -/
def State.partOfClus (s : State) (c : Nat) : Nat := rowPart (s.row (shardOf c))

/-- The partition of a memory port: PART of a row in which its bit is set (03_crossbar.md R53), or 31. -/
def State.partOfPort (s : State) (t : Nat) : Nat :=
  match (List.range 387).find? (fun n => decide (n ≠ 384 ∧ n ≠ 385) && rowAllows (s.row n) t) with
  | some n => rowPart (s.row n)
  | none => 31

/-- A target is allowed by a shard, host or Odnerlink row of a partition (14_weight_and_quiescence.md R277). -/
def State.partAllows (s : State) (part t : Nat) : Bool :=
  s.xbar.rows.any fun (k, w) => decide (k < 384) && decide (rowPart w = part) && rowAllows w t

/-! Context records (13_handlers_and_messages.md R259) -/

/-- A word of a context record. -/
def Context.w (c : Context) (i : Fin 8) : Word := c.words.get i
/-- TSID. -/
def Context.tsid (c : Context) : Nat := fld (c.w 0) 36 12
/-- CODEHI. -/
def Context.codehi (c : Context) : Nat := fld (c.w 0) 48 10
/-- PART. -/
def Context.part (c : Context) : Nat := fld (c.w 0) 8 5
/-- VF. -/
def Context.vf (c : Context) : Nat := fld (c.w 0) 0 6
/-- QTOFS. -/
def Context.qtofs (c : Context) : Nat := fld (c.w 1) 0 24
/-- TTAB. -/
def Context.ttab (c : Context) : Nat := fld (c.w 2) 0 56
/-- OMSZ. -/
def Context.omsz (c : Context) : Nat := fld (c.w 3) 48 16
/-- FFPLACE. -/
def Context.ffplace (c : Context) : Nat := fld (c.w 4) 40 16
/-- FFELINE. -/
def Context.ffeline (c : Context) : Nat := fld (c.w 4) 0 40
/-- SPBASE * 64. -/
def Context.spbase (c : Context) : Nat := fld (c.w 5) 6 50 * 64
/-- SPLG. -/
def Context.splg (c : Context) : Nat := fld (c.w 5) 0 5
/-- AGELIM. -/
def Context.agelim (c : Context) : Nat := fld (c.w 6) 0 32

/-- The handler entry of a line (R261). -/
def Context.entry (c : Context) (eline : Nat) : Word := word (c.codehi * 2 ^ 46 + eline * 64 + 2)
/-- The line of the descriptor of the handler of a line: the 64 bytes before the entry's (R268, R269). -/
def Context.descLine (c : Context) (eline : Nat) : Nat := (c.codehi * 2 ^ 46 + eline * 64 + 2 ^ 56 - 64) % 2 ^ 56
/-- An entry register is valid (R261). -/
def Context.entryValid (c : Context) (w : Word) : Bool :=
  decide (fld w 56 8 = 0) && decide (fld w 46 10 = c.codehi) && decide (fld w 0 6 = 2)
/-- ELINE of an entry register (R261). -/
def elineOf (w : Word) : Nat := fld w 6 40

/-- The translation space of a slot (02_main_memory.md R39). -/
def State.tsidOf (s : State) (sl : Slot) : Nat := (s.ctxOf sl.ctx).tsid

/-! Destinations (13_handlers_and_messages.md R260, R265) -/

/-- A place that receives messages in a partition: a worker or service core or a feeder, with SLOT 0 (R260). -/
def State.receives (s : State) (part place : Nat) : Bool :=
  (isSlot place && decide (place % 8 = 0) && decide (s.partOfClus (clusOf place) = part)) ||
    (match feederOf place with
     | some f => decide (s.partOfPort (f / 4) = part)
     | none => false)

/-- A message may be delivered at its core: its place is one of the context's partition, in its placement (R265,
R433). -/
def State.deliverable (s : State) (m : Msg) : Bool :=
  isSlot m.dest && s.receives (s.ctxOf m.ctx).part m.dest && (s.ctxOf m.ctx).placement.contains (clusOf m.dest)

/-! Free values (log entries 4, 7) -/

/-- A response's delay field (03_crossbar.md R58). -/
def State.delay (s : State) : Nat := min (Config.delay s.clk.draws) 65535

/-- The state with a response's delay added to accumulator i of a core (03_crossbar.md R59). -/
def State.addDelay (s : State) (core : Nat) (i : Fin 64) : State :=
  let c := s.core core
  let d := s.delay
  { s.setCore core { c with lac := c.lac.set i.val (c.lac.get i + word d) i.isLt } with
    clk := { s.clk with delays := s.clk.delays ++ [(core, d)], draws := s.clk.draws + 1 } }

/-! Waking -/

/-- Slots of a core that wait in WFI go on (08_scalar_instructions.md R162). -/
def State.wakeCore (s : State) (core : Nat) : State :=
  { s with slots := s.slots.map fun (k, sl) =>
      if coreOf k = core ∧ sl.park = .wfi then (k, { sl with park := .run }) else (k, sl) }

/-- Slots of a cluster that wait in WFI go on. -/
def State.wakeCluster (s : State) (clus : Nat) : State :=
  { s with slots := s.slots.map fun (k, sl) =>
      if clusOf k = clus ∧ sl.park = .wfi then (k, { sl with park := .run }) else (k, sl) }

/-! Traps (08_scalar_instructions.md R157, 13_handlers_and_messages.md R274, 07_instruction_lines.md R133) -/

/-- The trap entry for a cause: TTAB + 64c + 2 (R274). -/
def trapEntry (ttab cause : Nat) : Word := word (ttab + 64 * cause + 2)

/-- TSTATE of its fields (07_instruction_lines.md R121). -/
def tstateOf (nr irr : Bool) (lah : Nat) (ovw rex : Bool) (pprv : Nat) : BitVec 10 :=
  BitVec.ofNat 10 (boolCode nr * 512 + boolCode irr * 256 + min lah 15 * 16 + boolCode ovw * 8 + boolCode rex * 4 + pprv)

/-- TakeTrap on a slot (R157): at is the head of TPC, and the fields of R133 are given. Registers, tokens, wt and the
commit buffer stay. The trap table is that of the context (ttab). -/
def Slot.takeTrap (sl : Slot) (ttab cause : Nat) (tval at_ : Word) (nr : Bool) (lah : Nat) (ovw rex : Bool)
    (tres : Word) : Slot :=
  { sl with
    tpc := at_, tcause := BitVec.ofNat 8 cause, tval := tval, twt := word sl.wt,
    tstate := tstateOf nr sl.irrev lah ovw rex sl.priv.code,
    tres := tres,
    priv := if sl.priv = .monitor then .monitor else .supervisor,
    pc := trapEntry ttab cause,
    npc := trapEntry ttab cause,
    rex := none, park := .run, xres := none, rans := [], line := none, pend := none, trapped := true, stepTrap := true }

/-- Taking a trap in a slot of the state; the number of traps taken rises. -/
def State.takeTrapAt (s : State) (place cause : Nat) (tval at_ : Word) (nr : Bool) (lah : Nat) (ovw rex : Bool)
    (tres : Word) : State :=
  let sl := s.slot place
  { s.setSlot place (sl.takeTrap (s.ctxOf sl.ctx).ttab cause tval at_ nr lah ovw rex tres) with
    clk := { s.clk with traps := s.clk.traps + 1 } }

/-! Lookahead windows (07_instruction_lines.md R130 to R133) -/

/-- A result has a value that has returned. -/
def OutRes.settled (r : OutRes) : Bool := r.back && r.val != .waiting && r.val != .deferred

/-- A head of the slot has issued and is yet to be performed, so that accesses after it wait (02_main_memory.md R40). -/
def Slot.defers (sl : Slot) : Bool := sl.outs.any fun r => r.val == .deferred

/-- A result that failed. -/
def OutRes.failed (r : OutRes) : Bool :=
  match r.val with
  | .bad .. => true
  | _ => false

/-- The slot with a returned result written, but for the registers a head of its window wrote (R131); its flags are
ORed whether it is written or discarded (10_vector_instructions.md R200). -/
def Slot.writeRes (sl : Slot) (r : OutRes) : Slot :=
  match r.val with
  | .ok vals fl =>
    let sl' := vals.foldl (fun t x => if r.ovw.contains x.dest then t else t.putVal x) sl
    { sl' with fflags := sl'.fflags.or fl }
  | _ => sl

/-- The slot with every outstanding result written or discarded. -/
def Slot.drain (sl : Slot) : Slot := { sl.outs.foldl Slot.writeRes sl with outs := [] }

/-- The earliest failing result, with whether another failed behind it (R133). -/
def firstFailure : List OutRes → Option (OutRes × Bool)
  | [] => none
  | r :: rs => if r.failed then some (r, rs.any OutRes.failed) else firstFailure rs

/-- The trap of a long-latency head that failed late (R133): at the earliest failing head, with REX, LAH, OVW, TRES;
NR when a second failing head lies among the later heads or the failure is not resumable. -/
def State.lateTrap (s : State) (place : Nat) (r : OutRes) (second : Bool) : State :=
  let sl := s.slot place
  let tres := sl.pc
  let s' := s.setSlot place sl.drain
  match r.val with
  | .bad cause tval nr => s'.takeTrapAt place cause tval r.pc (nr || second) r.lah (!r.ovw.isEmpty) true tres
  | _ => s'

/-- Ends every open window of the current slot, then goes on (R132): the slot stalls while a result is out, takes the
trap of a failed one, or writes them all. -/
def withWindows (s : State) (k : State → State) : State :=
  let sl := s.me
  if sl.outs.isEmpty then k s
  else if !sl.outs.all OutRes.settled then s
  else match firstFailure sl.outs with
    | some (r, second) => s.lateTrap s.cur r second
    | none => k (s.setMe sl.drain)

/-- A trap of a slot's head found while results are outstanding (R133): it waits for them; then the trap of a failed
one is taken, or else this one, precise at the head. -/
def State.trapIn (s : State) (place cause : Nat) (tval : Word) (nr : Bool) : State :=
  let sl := s.slot place
  if !sl.outs.all OutRes.settled then s.setSlot place { sl with pend := some (cause, tval, nr), park := .run }
  else match firstFailure sl.outs with
    | some (r, second) => s.lateTrap place r second
    | none => (s.setSlot place sl.drain).takeTrapAt place cause tval sl.pc nr 0 false false 0

/-- A trap of the current slot's head on its own (R133, R157). -/
def State.trap (s : State) (cause : Nat) (tval : Word) : State := s.trapIn s.cur cause tval false

/-- A trap at the head after which the activation cannot be resumed (R344, R179, R273). -/
def State.trapNR (s : State) (cause : Nat) (tval : Word) : State := s.trapIn s.cur cause tval true

/-- A trap of the current slot's head whose trap value no rule states: a free one (log entry 14). -/
def State.trapOpen (s : State) (cause : Nat) : State :=
  { s with clk := { s.clk with draws := s.clk.draws + 1 } }.trap cause (Config.freeWord s.clk.draws)

/-- TVAL of an illegal instruction: the head in [15:0] and an S- or W-tail in [47:16] (07_instruction_lines.md
R128). -/
def illegalTval (h t : Nat) : Word :=
  word (h % 65536 + (if headT h = 1 ∨ headT h = 2 then t % 2 ^ 32 * 65536 else 0))

/-- Illegal instruction at the current head, which is i (R128). -/
def State.illegal (s : State) (i : Instr) : State :=
  match encode i with
  | some (h, t) => s.trap 1 (illegalTval h t)
  | none => s.trapOpen 1

/-- The windows of a slot after a head that wrote the registers given (R131). -/
def noteHead (wr : List Dest) (outs : List OutRes) : List OutRes :=
  outs.map fun r =>
    { r with left := r.left - 1, lah := r.lah + 1, ovw := r.ovw ++ wr.filter (fun d => r.dests.contains d) }

/-- The slot after its head retired and control goes to pc: one head more (08_scalar_instructions.md R154), windows
noted; a re-executed head goes on at its resume head (R133, R158). -/
def Slot.retireTo (sl : Slot) (pc : Word) (wr : List Dest) : Slot :=
  { sl with
    pc := match sl.rex with | some (t, _) => t | none => pc
    rex := none
    xres := if sl.defers then sl.xres else none
    rans := if sl.defers then sl.rans else []
    heads := sl.heads + 1
    outs := noteHead wr sl.outs
    trapped := false }

/-- The slot after its head retired in sequence, having written the registers given. -/
def Slot.retire (sl : Slot) (wr : List Dest) : Slot := sl.retireTo sl.npc wr

/-- The state after the current head retired with one general register written. -/
def State.doneX (s : State) (r : XReg) (w : Word) : State := s.setMe ((s.me.setX r w).retire [.x r])

/-- The state after the current head retired with one vector register written. -/
def State.doneV (s : State) (r : VReg) (w : Vec) : State := s.setMe ((s.me.setV r w).retire [.v r])

/-- The state after the current head retired without a register result. -/
def State.done (s : State) : State := s.setMe (s.me.retire [])

/-- The outcome of a long-latency head with its lookahead (R131): without lookahead, or in a re-execution, its result
is written at once, or its failure is a precise trap; with lookahead it is outstanding. -/
def State.deliver (s : State) (l : Look) (dests : List Dest) (val : OutVal) : State :=
  let sl := s.me
  if l.val = 0 ∨ sl.rex.isSome then
    match val with
    | .ok vals fl =>
      let sl' := vals.foldl Slot.putVal sl
      s.setMe ({ sl' with fflags := sl'.fflags.or fl }.retire (vals.map RegVal.dest))
    | .bad cause tval nr => if nr then s.trapNR cause tval else s.trap cause tval
    | .waiting => s
    | .deferred => s
  else
    let sl' := sl.retire dests
    s.setMe { sl' with outs := sl'.outs ++ [{ pc := sl.pc, dests := dests, val := val, left := l.val, lah := 0,
                                              ovw := [], back := false }] }

/-- A long-latency head waits while four results are outstanding (R131). -/
def withRoom (s : State) (k : State → State) : State :=
  if 4 ≤ s.me.outs.countP (fun r => !r.back) then s else k s

/-! Tokens (06_copy_and_galleys.md R109) -/

/-- A pending token bound to an event that satisfies the test completes, or faults with a code. -/
def TokSt.settle (t : TokSt) (hit : TokSrc → Option (Option Nat)) : TokSt :=
  match t with
  | .pending src =>
    match hit src with
    | some none => .complete src
    | some (some code) => .faulted src code
    | none => t
  | _ => t

/-- A slot's tokens after an event. -/
def Slot.settleTokens (sl : Slot) (hit : TokSrc → Option (Option Nat)) : Slot :=
  { sl with tok := sl.tok.map (fun t => t.settle hit) }

/-- Every slot's tokens after an event, saved slots too (15_formes.md R306, 18_faults_and_preemption.md R350). -/
def State.settleTokens (s : State) (hit : TokSrc → Option (Option Nat)) : State :=
  { s with
    slots := s.slots.map (fun (k, sl) => (k, sl.settleTokens hit))
    saved := s.saved.map (fun (k, a) => (k,
        { a with slots := a.slots.map (fun (j, sl) => (j, sl.settleTokens hit)) })) }

/-- Tokens of one cluster's slots (a copy's token is of its own cluster) after an event. -/
def State.settleClusTokens (s : State) (clus : Nat) (hit : TokSrc → Option (Option Nat)) : State :=
  { s with
    slots := s.slots.map (fun (k, sl) => if clusOf k = clus then (k, sl.settleTokens hit) else (k, sl))
    saved := s.saved.map (fun (k, a) =>
      if k % 512 = clus then (k, { a with slots := a.slots.map (fun (j, sl) => (j, sl.settleTokens hit)) }) else (k, a)) }

/-! Weight on its way home (14_weight_and_quiescence.md R281, R283) -/

/-- A return of weight from a cluster: to its shard's combiner (R281). -/
def State.returnWeight (s : State) (clus ctx kslot hpkg amt : Nat) : State :=
  if amt = 0 then s else s.wire (.combine (shardOf clus) ctx kslot hpkg amt)

/-- A loss notice (R283). -/
def State.lose (s : State) (ctx kslot hpkg amt cause place : Nat) : State :=
  if amt = 0 then s else s.wire (.loss ctx kslot hpkg amt cause place)

/-- A dropped message's weight (R283). -/
def State.loseMsg (s : State) (m : Msg) (cause place : Nat) : State :=
  s.lose m.ctx m.kslot m.hpkg m.wt cause place

end Sys2Proof.Machine
end

