-- ==== Sys2Proof/Machine/ConfigSpace.lean ====
section
/-!
DEFINITION. Registers in configuration space, as requests of the firmware complexes, of the debug port and of
supervisor slots reach them (03_crossbar.md R51 to R53, R62; 05_feeders.md R87; 06_copy_and_galleys.md R105;
14_weight_and_quiescence.md R277; 19_tenants_and_metering.md R365; 20_debug.md R370, R371, R377, R379). The rules give a
debug module's registers their place, and the latency accumulators their offset; where else a register lies is the
model's choice (log entry 45).
-/

namespace Sys2Proof.Machine

/-! Addresses (02_main_memory.md R31) -/

/-- The target and offset of a device physical address (02_main_memory.md R31). -/
def tgtOf (pa : Nat) : Nat := pa / 2 ^ 42 % 64
/-- Its offset. -/
def ofsOf (pa : Nat) : Nat := pa % 2 ^ 42

/-- The place a device physical address of configuration space belongs to (log entry 45). -/
def cfgPlace (pa : Nat) : Nat := ofsOf pa / 4096 % 65536
/-- The offset among the registers of that place. -/
def cfgOfs (pa : Nat) : Nat := pa % 4096
/-- The registers of a debug module: UNIT 10 (20_debug.md R370). -/
def isDebugReg (pa : Nat) : Bool := tgtOf pa == 37 && decide (ofsOf pa < 2 ^ 28) && unitOf (cfgPlace pa) == 10

/-! Live formes (15_formes.md R288, R289) -/

/-- HomeDie (15_formes.md R288). -/
def homeDie (part num : Nat) : Nat :=
  let v := part * 65536 + num
  (List.range 7).foldl (fun r i => Nat.xor r (v / 2 ^ (3 * i) % 8)) 0

/-- Live formes of an engine, of one partition or of all (15_formes.md R289). -/
def State.liveAt (s : State) (die : Nat) (part : Option Nat) : Nat :=
  s.formes.countP fun (k, _) =>
    decide (homeDie (k / 65536) (k % 65536) = die) && (part.isNone || part == some (k / 65536))

/-! Kernel records (14_weight_and_quiescence.md R277) -/

/-- STATE of a record. -/
def KSt.code (k : KSt) : Nat :=
  match k with
  | .free => 0
  | .running => 1
  | .completing => 2
  | .damaged => 3

/-- The eight words of a record. -/
def Kernel.words (k : Kernel) : List Nat :=
  [k.st.code * 2 ^ 57 + boolCode k.stall * 2 ^ 56 + boolCode k.xs * 2 ^ 55 + k.w, k.l * 2 ^ 32 + k.h, k.faddr, k.fval,
      k.cont,
   k.sblk, k.last * 2 ^ 32 + k.wto, 0]

/-! Debug modules (20_debug.md R371, R377, R380) -/

/-- HALTED of a core (R371): every occupied slot is halted. A core without an activation counts where its cluster is
halted as a whole, so that the bit resets to zero (log entry 45). -/
def State.coreHalted (s : State) (clus u : Nat) : Bool :=
  let mine := s.slots.filter fun (p, sl) => decide (coreOf p = coreIn clus u) && sl.occ
  mine.all (fun (_, sl) => sl.halted) && (!mine.isEmpty || (s.clus clus).halted)

/-- DBGCTL: HALT, RES and STEP read 0 (R371). -/
def ClusSt.dbgctl (c : ClusSt) : Word :=
  word (c.hob.toNat * 2 ^ 16 + c.sslot.toNat * 2 ^ 12 + c.score.toNat * 2 ^ 8 + boolCode c.xt * 2 ^ 7 + boolCode c.frz * 2 ^ 6)

/-- DBGSTAT (R371). -/
def State.dbgstat (s : State) (clus : Nat) : Word :=
  let c := s.clus clus
  let halted := ((List.range 9).map fun u => boolCode (s.coreHalted clus u) * 2 ^ (32 + u)).sum
  word (c.stepst.toNat * 2 ^ 48 + halted + boolCode c.frozen * 2 ^ 16 + c.hcause.toNat)

/-- TRCPTR (R377). -/
def ClusSt.trcptr (c : ClusSt) : Word := word (c.trclost.toNat * 2 ^ 32 + c.trccount.toNat)

/-- A register of a debug module by its offset (log entry 45): DBGCTL, DBGSTAT, DBP0 to DBP3, DBPCTX, TRCCFG, TRCPTR,
INJ, and the cluster's PRESTAT (18_faults_and_preemption.md R354). -/
def State.debugReg (s : State) (clus ofs : Nat) : Option Word :=
  let c := s.clus clus
  match ofs / 8 with
  | 0 => some c.dbgctl
  | 1 => some (s.dbgstat clus)
  | 2 => some (c.dbp.get 0)
  | 3 => some (c.dbp.get 1)
  | 4 => some (c.dbp.get 2)
  | 5 => some (c.dbp.get 3)
  | 6 => some (word c.dbpctx.toNat)
  | 7 => some c.trccfg
  | 8 => some c.trcptr
  | 9 => some c.inj
  | 10 => some c.prestat
  | _ => none

/-- The register of a debug module that a write at an offset goes to. -/
def debugDest (clus ofs : Nat) : Option CfgDest :=
  match ofs / 8 with
  | 0 => some (.reg (.dbgctl clus))
  | 2 => some (.reg (.dbp clus 0))
  | 3 => some (.reg (.dbp clus 1))
  | 4 => some (.reg (.dbp clus 2))
  | 5 => some (.reg (.dbp clus 3))
  | 6 => some (.reg (.dbpctx clus))
  | 7 => some (.reg (.trccfg clus))
  | 9 => some (.inj clus)
  | _ => none

/-! Registers at a place: the first 2^28 bytes, 4 KiB to a place (log entry 45) -/

/-- The fault log of a cluster's copy engine (06_copy_and_galleys.md R105), by word: how many entries it has, then the
entries, oldest first, each an identifier with the code above it. No rule gives it a place (log entry 45). -/
def ClusSt.flogWord (c : ClusSt) (i : Nat) : Word :=
  match i with
  | 0 => word c.flog.length
  | i + 1 => match c.flog[i]? with
    | some (id, code) => word (code * 2 ^ 16 + id)
    | none => 0

/-- A register at a place: of a core its latency accumulators (R379), of a debug module its registers, of a feeder its
conversion counters (05_feeders.md R87), of channel 0 of a copy engine the engine's fault log. -/
def State.placeReg (s : State) (place ofs : Nat) : Option Word :=
  match feederOf place with
  | some f => if ofs / 8 = 0 then some (word ((s.feeder f).invalids.toNat * 2 ^ 32 + (s.feeder f).overflows.toNat)) else none
  | none =>
    if 65536 ≤ place then none
    else if unitOf place = 10 then s.debugReg (clusOf place) ofs
    else if unitOf place = 9 ∧ place % 8 = 0 then some ((s.clus (clusOf place)).flogWord (ofs / 8))
    else if unitOf place ≤ 8 ∧ 0x800 ≤ ofs ∧ ofs < 0xA00 then
      some ((s.core (coreOf place)).lac.get (Fin.ofNat 64 ((ofs - 0x800) / 8)))
    else none

/-! The monitor's tables -/

/-- A register of the monitor's tables by its kind, 2^20 bytes to a kind, and its index (log entry 45). -/
def tableReg (kind i : Nat) : Option CReg :=
  match kind with
  | 0 => some (.pxlate i)
  | 1 => some (.sprt i)
  | 2 => some (.frmquota (i / 32) (i % 32))
  | 3 => some (.frmarea i)
  | 4 => some (.padm i)
  | 5 => some (.pebud i)
  | 6 => some (.perem i)
  | 7 => some (.dpctl i)
  | 8 => some .plim
  | 9 => some (.dpgate i)
  | 10 => some (.precfg i)
  | 11 => some (.valloc i)
  | 12 => some (.vfcfg i)
  | 13 => some (.pslice i)
  | 14 => some (.peshare i)
  | 15 => some (.svcEntry i)
  | 16 => some (.ctxWord (i / 8) (i % 8))
  | _ => none

/-- What a register reads as. -/
def State.readReg (s : State) (r : CReg) : Word :=
  match r with
  | .frmquota d p => word (s.liveAt d (some p) * 2 ^ 16 + fld (s.reg r) 0 13)
  | .perem p => word (s.part p).rem
  | .dpctl d =>
    let x := s.die d
    let lim := fld (s.reg r) 32 8
    word (fld (s.reg r) 32 32 * 2 ^ 32 + boolCode (x.step == fld (s.reg r) 40 5 && decide (lim ≤ x.temp)) * 2 ^ 24 +
      (lim - x.temp) * 2 ^ 16 + x.temp % 2 ^ 8 * 2 ^ 8 + x.step)
  | .svcEntry c => (s.clus c).svcEntry
  | .ctxWord c w => (s.ctxOf c).words.get (Fin.ofNat 8 w)
  | .dbgctl c => (s.clus c).dbgctl
  | .dbp c n => (s.clus c).dbp.get (Fin.ofNat 4 n)
  | .dbpctx c => word (s.clus c).dbpctx.toNat
  | .trccfg c => (s.clus c).trccfg
  | _ => s.reg r

/-! Configuration space -/

/-- The log of requests that failed beyond replay at a memory-side port (03_crossbar.md R62), by word: how many entries
it has, then the entries, oldest first, each a tag with, in bit 16, whether the request was applied. -/
def Xbar.portLogWord (x : Xbar) (port i : Nat) : Word :=
  let l := x.unresolved.filter fun e => e.1 = port
  match i with
  | 0 => word l.length
  | i + 1 => match l[i]? with
    | some (_, tag, applied) => word (boolCode applied * 2 ^ 16 + tag)
    | none => 0

/-- The eight bytes at an aligned offset of configuration space, where a register lies there: at a place; a connection
row from 2^28 up; the log of a memory-side port from 2^29 up, 2^20 bytes to a port; a table of the monitor from 2^30 up,
with the coefficients of shared blocks (19_tenants_and_metering.md R365) behind them; a kernel record from 2^31 up (log
entry 45). -/
def State.cfgWord (s : State) (ofs : Nat) : Option Word :=
  if ofs < 2 ^ 28 then s.placeReg (ofs / 4096) (ofs % 4096)
  else if ofs < 2 ^ 28 + 8 * 387 then some (s.row ((ofs - 2 ^ 28) / 8))
  else if ofs < 2 ^ 29 then none
  else if ofs < 2 ^ 29 + 38 * 2 ^ 20 then some (s.xbar.portLogWord ((ofs - 2 ^ 29) / 2 ^ 20) (ofs % 2 ^ 20 / 8))
  else if ofs < 2 ^ 30 then none
  else if ofs < 2 ^ 31 then
    if ofs / 2 ^ 20 % 1024 = 17 then some (word (Config.coefficient (ofs % 2 ^ 20 / 8)))
    else (tableReg (ofs / 2 ^ 20 % 1024) (ofs % 2 ^ 20 / 8)).map s.readReg
  else
    let i := (ofs - 2 ^ 31) / 64
    if i < 4096 * 64 then ((s.kernel (i / 64) (i % 64)).words[ofs / 8 % 8]?).map word else none

/-- n bytes read at an offset of configuration space; free where no register lies (log entry 11). -/
def State.cfgRead (s : State) (ofs n : Nat) : List Byte :=
  (List.range n).map fun i =>
    match s.cfgWord ((ofs + i) / 8 * 8) with
    | some w => BitVec.ofNat 8 (fld w ((ofs + i) % 8 * 8) 8)
    | none => Config.freeByte s.clk.draws i

/-- A register of configuration space is one that software of a partition may read (log entry 45): of what belongs to a
partition (a place, a memory port's log, a kernel record) its own; of a debug module none (20_debug.md R370); of the
coefficients of shared blocks none (19_tenants_and_metering.md R365). -/
def State.cfgOwn (s : State) (part ofs : Nat) : Bool :=
  if ofs < 2 ^ 28 then
    let place := ofs / 4096
    unitOf place != 10 && match feederOf place with
      | some f => s.partOfPort (f / 4) == part
      | none => s.partOfClus (clusOf place) == part
  else if 2 ^ 29 ≤ ofs ∧ ofs < 2 ^ 30 then s.partOfPort ((ofs - 2 ^ 29) / 2 ^ 20) == part
  else if 2 ^ 30 ≤ ofs ∧ ofs < 2 ^ 31 then ofs / 2 ^ 20 % 1024 != 17
  else if 2 ^ 31 ≤ ofs then (s.ctxOf ((ofs - 2 ^ 31) / 64 / 64)).part == part
  else true

/-- A load of a slot of a privilege, in a shard of a row, is one of a register that the supervisor reads in
configuration space (14_weight_and_quiescence.md R277; 05_feeders.md R87; 06_copy_and_galleys.md R105; log entry 20). -/
def State.cfgLoads (s : State) (priv : Priv) (row pa : Nat) : Bool :=
  tgtOf pa == 37 && priv != .user && (s.cfgWord (ofsOf pa / 8 * 8)).isSome && s.cfgOwn (rowPart (s.row row)) (ofsOf pa)

/-- The register that software writes at an aligned offset (log entry 45). -/
def cfgDest (ofs : Nat) : Option CfgDest :=
  if ofs < 2 ^ 28 then
    if unitOf (ofs / 4096) = 10 then debugDest (clusOf (ofs / 4096)) (ofs % 4096) else none
  else if ofs < 2 ^ 28 + 8 * 387 then some (.row ((ofs - 2 ^ 28) / 8))
  else if 2 ^ 30 ≤ ofs ∧ ofs < 2 ^ 31 then (tableReg (ofs / 2 ^ 20 % 1024) (ofs % 2 ^ 20 / 8)).map .reg
  else none

/-- Bytes written at an offset of configuration space: the register's write comes about next. -/
def State.cfgWrite (s : State) (ofs : Nat) (bs : List Byte) : State :=
  match if ofs % 8 = 0 ∧ bs.length = 8 then cfgDest ofs else none with
  | some d => { s with agenda := .write d (word (leNat bs)) :: s.agenda }
  | none => s

end Sys2Proof.Machine
end

