-- ==== Sys2Proof/Machine/Operands.lean ====
section
/-!
DEFINITION. Operand forms: addresses of main memory and of the vault, lanes of vector registers, active lanes, and
target addresses (07_instruction_lines.md R117, R124; 08_scalar_instructions.md R150; 09_memory_instructions.md R164
to R166; 10_vector_instructions.md R195, R196).
-/

namespace Sys2Proof

/-- Bytes of a lane of an integer type (10_vector_instructions.md R195). -/
def ITy.bytes (t : ITy) : Nat :=
  match t with
  | .i8 | .n8 => 1
  | .i16 | .n16 => 2
  | .i32 | .n32 => 4
  | .i64 | .n64 => 8

/-- A signed integer type. -/
def ITy.signed (t : ITy) : Bool :=
  match t with
  | .i8 | .i16 | .i32 | .i64 => true
  | _ => false

/-- Bytes of a lane of a float type. -/
def FTy.bytes (t : FTy) : Nat :=
  match t with
  | .f32 => 4
  | .f16 | .bf16 => 2

/-- Bytes of a lane of a vector type. -/
def VTy.bytes (t : VTy) : Nat :=
  match t with
  | .int t => ITy.bytes t
  | .flt t => FTy.bytes t

end Sys2Proof

namespace Sys2Proof.Machine

/-- One past the last vault offset (04_vaults.md R67, R68). -/
def vaultEnd : Nat := 0xC00000

/-- An address, or the trap its form raises (09_memory_instructions.md R164 to R166). -/
inductive AddrRes where
  | ok (a : Nat)
  | bad (cause : Nat) (tval : Word)
deriving DecidableEq, Repr

/-- MemAddr (R164): modulo 2^56, the tag ignored. -/
def memAddr (x : Word) (off : Int) : Nat := (((fld x 0 56 : Nat) + off) % (2 ^ 56 : Nat)).toNat

/-- A main-memory operand: aligned to align bytes, or cause 0x03 with the VA (R166). -/
def memOperand (x : Word) (off : Int) (align : Nat) : AddrRes :=
  let a := memAddr x off
  if a % align ≠ 0 then .bad 3 (word a) else .ok a

/-- A vault operand (R164 to R166, 04_vaults.md R68): an access that is not aligned, or that would run past the end, is
misaligned; then bits [29:24] and the offset are checked. -/
def vaultOperand (x : Word) (off : Int) (align size : Nat) : AddrRes :=
  let o : Int := (fld x 0 24 : Nat) + off
  let va : Nat := (((fld x 24 16 * 2 ^ 24 : Nat) + o) % (2 ^ 40 : Nat)).toNat
  if o % align ≠ 0 ∨ (0 ≤ o ∧ o < vaultEnd ∧ vaultEnd < o + size) then .bad 3 (word va)
  else if fld x 24 6 ≠ 0 then .bad 7 (word (fld x 0 40))
  else if o < 0 ∨ vaultEnd ≤ o then .bad 7 (word va)
  else .ok va

/-- An operand in the space a form selects. -/
def operand (vault : Bool) (x : Word) (off : Int) (align size : Nat) : AddrRes :=
  if vault then vaultOperand x off align size else memOperand x off align

/-- The addresses of several elements: all of them, or the first that is misaligned, or else the first that fails
otherwise (R165: every check of one step comes before the next step). -/
def operands (rs : List AddrRes) : Except (Nat × Word) (List Nat) :=
  let bads := rs.filterMap fun r => match r with | .bad c t => some (c, t) | .ok _ => none
  match bads.find? (fun b => b.1 = 3), bads with
  | some b, _ => .error b
  | none, b :: _ => .error b
  | none, [] => .ok (rs.filterMap fun r => match r with | .ok a => some a | .bad .. => none)

/-- The addresses of count units of size bytes from a main-memory or vault address up; a main-memory address wraps
(R164). -/
def unitsFrom (vault : Bool) (a size count : Nat) : List (Nat × Nat) :=
  (List.range count).map fun i => (if vault then a + i * size else (a + i * size) % 2 ^ 56, size)

/-- The signed value of a displacement or immediate. -/
def dispOf {n : Nat} (d : BitVec n) : Int := d.toInt

/-! Lanes -/

/-- Lane i of w bytes of a vector (07_instruction_lines.md R117). -/
def lane (w : Nat) (v : Vec) (i : Nat) : Nat := v.toNat / 2 ^ (8 * w * i) % 2 ^ (8 * w)

/-- The number of lanes of w bytes. -/
def laneCount (w : Nat) : Nat := 64 / w

/-- The lanes of w bytes of a vector, lane 0 first. -/
def lanesOf (w : Nat) (v : Vec) : List Nat := (List.range (laneCount w)).map (lane w v)

/-- A number whose digits in base 2^(8w) are the lanes given. -/
def lanesNat (w : Nat) : List Nat → Nat
  | [] => 0
  | l :: ls => l % 2 ^ (8 * w) + 2 ^ (8 * w) * lanesNat w ls

/-- The vector of its lanes of w bytes. -/
def vecOfLanes (w : Nat) (ls : List Nat) : Vec := BitVec.ofNat 512 (lanesNat w ls)

/-- A lane of w bytes is active in a predicate: the bit of its lowest byte (R117). -/
def predLane (p : Word) (w i : Nat) : Bool := bitOf p.toNat (i * w)

/-- Whether lane i of w bytes is active under a predicate control, read from the current slot (R196). -/
def State.active (s : State) (p : PCtl) (w i : Nat) : Bool :=
  match p with
  | .all => true
  | .merge r => predLane (s.p r) w i
  | .zero r => predLane (s.p r) w i

/-- Whether lane i of w bytes is active under an optional predicate. -/
def State.activeOpt (s : State) (p : Option PReg) (w i : Nat) : Bool :=
  match p with
  | none => true
  | some r => predLane (s.p r) w i

/-! Targets of control transfers -/

/-- Target(I) of 08_scalar_instructions.md R150, on unbounded integers. -/
def branchTarget (pc : Word) (off : BitVec 20) : Int := (pc.toNat : Int) + 2 * dispOf off

end Sys2Proof.Machine
end

