-- ==== Sys2Proof/Machine/Flags.lean ====
section
/-!
DEFINITION. The sticky floating-point flags and the rounding mode as software reads and writes them
(07_instruction_lines.md R120, R121; 01_formats.md R23, R27; 10_vector_instructions.md R200). No other flags exist.
-/

namespace Sys2Proof.Machine

/-- FFLAGS as a word (07_instruction_lines.md R121). -/
def FFlags.code (f : FFlags) : Nat :=
  boolCode f.nv * 16 + boolCode f.dz * 8 + boolCode f.of * 4 + boolCode f.uf * 2 + boolCode f.nx

/-- The flags of a word. -/
def FFlags.ofCode (n : Nat) : FFlags :=
  { nv := bitOf n 4, dz := bitOf n 3, of := bitOf n 2, uf := bitOf n 1, nx := bitOf n 0 }

/-- The flags that any of several operations raised. -/
def flagsOf (fs : List FFlags) : FFlags := fs.foldl FFlags.or {}

/-- The slot with flags raised. -/
def Slot.raise (sl : Slot) (f : FFlags) : Slot := { sl with fflags := sl.fflags.or f }

end Sys2Proof.Machine
end

