-- ==== Sys2Proof/Machine/Float.lean ====
section
/-!
DEFINITION. Number formats: exact values, rounding once to a format, conversions and the block formats
(01_formats.md R9 to R29), and the floating-point operations of the reductions and the vector lanes.
-/

namespace Sys2Proof.Machine

/-- A floating-point format (01_formats.md R10): exponent and mantissa widths, bias, and its special values: with
infinities and NaNs, with the E4M3 NaN only, or with neither. -/
structure FFmt where
  ew : Nat
  mw : Nat
  bias : Nat
  inf : Bool
  nan : Bool
deriving DecidableEq, Repr

def fp32 : FFmt := ⟨8, 23, 127, true, true⟩
def bf16 : FFmt := ⟨8, 7, 127, true, true⟩
def fp16 : FFmt := ⟨5, 10, 15, true, true⟩
def e4m3 : FFmt := ⟨4, 3, 7, false, true⟩
def e5m2 : FFmt := ⟨5, 2, 15, true, true⟩
def e3m2 : FFmt := ⟨3, 2, 3, false, false⟩
def e2m3 : FFmt := ⟨2, 3, 1, false, false⟩
def e2m1 : FFmt := ⟨2, 1, 1, false, false⟩

/-- The float of a format code 1 to 8 (01_formats.md R9). -/
def fmtOfCode (c : Nat) : Option FFmt :=
  match c with
  | 1 => some fp32 | 2 => some bf16 | 3 => some fp16 | 4 => some e4m3 | 5 => some e5m2
  | 6 => some e3m2 | 7 => some e2m3 | 8 => some e2m1 | _ => none

/-- Width and signedness of an integer format code (01_formats.md R12). -/
def intOfCode (c : Nat) : Option (Nat × Bool) :=
  match c with
  | 9 => some (8, true) | 10 => some (8, false) | 11 => some (4, true) | 12 => some (4, false)
  | 13 => some (16, true) | 21 => some (32, true) | 22 => some (32, false) | 23 => some (64, true)
  | 24 => some (64, false) | 25 => some (16, false) | _ => none

/-- Bits of an element of a format code, 0 for a code without elements (01_formats.md R9). -/
def elementBits (c : Nat) : Nat :=
  match c with
  | 1 => 32 | 2 => 16 | 3 => 16 | 4 => 8 | 5 => 8 | 6 => 6 | 7 => 6 | 8 => 4 | 9 => 8 | 10 => 8 | 11 => 4 | 12 => 4
  | 13 => 16 | 14 => 8 | 15 => 8 | 16 => 6 | 17 => 6 | 18 => 4 | 19 => 8 | 20 => 4 | 21 => 32 | 22 => 32 | 23 => 64
  | 24 => 64 | 25 => 16 | _ => 0

/-- Bits of the format. -/
def FFmt.width (f : FFmt) : Nat := 1 + f.ew + f.mw

/-- The largest finite magnitude as mantissa and exponent of two (01_formats.md R10). -/
def FFmt.maxFin (f : FFmt) : Nat × Int :=
  if f.inf then (2 ^ (f.mw + 1) - 1, (2 ^ f.ew : Int) - 2 - f.bias - f.mw)
  else if f.nan then (2 ^ (f.mw + 1) - 2, (2 ^ f.ew : Int) - 1 - f.bias - f.mw)
  else (2 ^ (f.mw + 1) - 1, (2 ^ f.ew : Int) - 1 - f.bias - f.mw)

/-- A decoded value: a NaN with its sign, whether it is quiet and its mantissa bits (with their number), an infinity,
or (−1)^neg × m × 2^e, where m = 0 is the zero of that sign. -/
inductive FVal where
  | nan (neg quiet : Bool) (mant mw : Nat)
  | inf (neg : Bool)
  | fin (neg : Bool) (m : Nat) (e : Int)
deriving DecidableEq, Repr

/-- The value of an encoding (01_formats.md R10, R11). -/
def FFmt.decode (f : FFmt) (bits : Nat) : FVal :=
  let neg := bits / 2 ^ (f.ew + f.mw) % 2 == 1
  let ex := bits / 2 ^ f.mw % 2 ^ f.ew
  let man := bits % 2 ^ f.mw
  if f.inf && ex == 2 ^ f.ew - 1 then
    (if man = 0 then .inf neg else .nan neg (decide (2 ^ (f.mw - 1) ≤ man)) man f.mw)
  else if !f.inf && f.nan && ex == 2 ^ f.ew - 1 && man == 2 ^ f.mw - 1 then .nan neg true man f.mw
  else if ex = 0 then .fin neg man (1 - f.bias - f.mw)
  else .fin neg (2 ^ f.mw + man) ((ex : Int) - f.bias - f.mw)

/-- The bits with a sign. -/
def FFmt.signed (f : FFmt) (neg : Bool) (mag : Nat) : Nat := if neg then 2 ^ (f.ew + f.mw) + mag else mag

/-- The infinity of a format that has one. -/
def FFmt.infBits (f : FFmt) (neg : Bool) : Nat := f.signed neg ((2 ^ f.ew - 1) * 2 ^ f.mw)

/-- The largest finite encoding of a sign. -/
def FFmt.maxBits (f : FFmt) (neg : Bool) : Nat :=
  f.signed neg (if f.inf then (2 ^ f.ew - 1) * 2 ^ f.mw - 1 else if f.nan then 2 ^ (f.ew + f.mw) - 2 else 2 ^ (f.ew + f.mw) - 1)

/-- The canonical NaN (01_formats.md R11). -/
def FFmt.canonNaN (f : FFmt) : Nat :=
  if f.inf then (2 ^ f.ew - 1) * 2 ^ f.mw + 2 ^ (f.mw - 1) else 2 ^ (f.ew + f.mw) - 1

/-- A NaN of the format from another's mantissa: quieted, payload kept at the top (01_formats.md R11, R26). -/
def FFmt.nanBits (f : FFmt) (neg : Bool) (mant mw : Nat) : Nat :=
  if f.inf then
    let kept := if mw ≤ f.mw then mant * 2 ^ (f.mw - mw) else mant / 2 ^ (mw - f.mw)
    let low := kept % 2 ^ (f.mw - 1)
    f.signed neg ((2 ^ f.ew - 1) * 2 ^ f.mw + 2 ^ (f.mw - 1) + low)
  else f.signed neg (2 ^ (f.ew + f.mw) - 1)

/-- Whether to round a magnitude away from zero (01_formats.md R23): low bit of the kept part, sign, and the order of
the dropped part against one half, where exact tells that nothing was dropped. -/
def roundsUp (rm : RMode) (neg odd exact : Bool) (half : Ordering) : Bool :=
  if exact then false
  else match rm with
    | .rne => half == .gt || (half == .eq && odd)
    | .rtz => false
    | .rdn => neg
    | .rup => !neg
    | .rna => half != .lt

/-- The magnitude (m + a fraction that is positive exactly when sticky) × 2^e, rounded to a multiple of 2^q: the
number of quanta and whether it is inexact. -/
def roundQ (rm : RMode) (neg : Bool) (m : Nat) (e : Int) (sticky : Bool) (q : Int) : Nat × Bool :=
  if q ≤ e then
    let k := m * 2 ^ (e - q).toNat
    if roundsUp rm neg (k % 2 == 1) (!sticky) .lt then (k + 1, true) else (k, sticky)
  else
    let d := (q - e).toNat
    let k := m / 2 ^ d
    let r := m % 2 ^ d
    let exact := decide (r = 0) && !sticky
    let half := match compare (2 * r) (2 ^ d) with
      | .eq => if sticky then .gt else .eq
      | o => o
    (if roundsUp rm neg (k % 2 == 1) exact half then k + 1 else k, !exact)

/-- m × 2^e is above the largest finite magnitude. -/
def FFmt.beyond (f : FFmt) (m : Nat) (e : Int) : Bool :=
  let (mm, me) := f.maxFin
  if me ≤ e then decide (mm < m * 2 ^ (e - me).toNat) else decide (mm * 2 ^ (me - e).toNat < m)

/-- The encoding of quanta k × 2^q that is within range: k is at most 2^(mw + 1). -/
def FFmt.pack (f : FFmt) (neg : Bool) (k : Nat) (q : Int) : Nat :=
  if k < 2 ^ f.mw then f.signed neg k
  else if k < 2 ^ (f.mw + 1) then f.signed neg ((q + f.mw + f.bias).toNat * 2 ^ f.mw + (k - 2 ^ f.mw))
  else f.signed neg ((q + 1 + f.mw + f.bias).toNat * 2 ^ f.mw + (k / 2 - 2 ^ f.mw))

/-- A result with the flags it raises. -/
abbrev FRes := Nat × FFlags

/-- The overflow result of a finite value (01_formats.md R25). -/
def FFmt.overflow (f : FFmt) (rm : RMode) (sat neg : Bool) : Nat :=
  if sat then f.maxBits neg
  else if f.inf then
    match rm with
    | .rne => f.infBits neg
    | .rna => f.infBits neg
    | .rtz => f.maxBits neg
    | .rdn => if neg then f.infBits true else f.maxBits false
    | .rup => if neg then f.maxBits true else f.infBits false
  else if f.nan then f.signed neg (2 ^ (f.ew + f.mw) - 1)
  else f.maxBits neg

/-- Rounds (m + fraction) × 2^e to the format (01_formats.md R23 to R25, R27; 10_vector_instructions.md R198, R200): a
zero magnitude keeps its sign. A result is tiny when it lies below the smallest normal after rounding with an unbounded
exponent, as IEEE 754 lets a format tell after rounding (R200; log entry 35). -/
def FFmt.round (f : FFmt) (rm : RMode) (sat : Bool) (neg : Bool) (m : Nat) (e : Int) (sticky : Bool) : FRes :=
  if m = 0 ∧ sticky = false then (f.signed neg 0, {})
  else
    let emin : Int := 1 - f.bias
    let q : Int := if m = 0 then emin - f.mw else max (e + (Nat.log2 m : Int) - f.mw) (emin - f.mw)
    let (k, inexact) := roundQ rm neg m e sticky q
    let q0 : Int := e + (Nat.log2 m : Int) - f.mw
    let tiny := decide (m = 0) || (decide (q0 < q) && !(decide (q0 + 1 = q) &&
      decide ((roundQ rm neg m e sticky q0).1 = 2 ^ (f.mw + 1))))
    if f.beyond k q then (f.overflow rm sat neg, { of := true, nx := true })
    else
      (f.pack neg k q, { uf := tiny && inexact, nx := inexact })

/-- Sign and magnitude of an integer times 2^e. -/
def dyadicSign (n : Int) : Bool := decide (n < 0)

/-- The sum of two finite values as an exact integer times a power of two. -/
def addExact (n1 : Bool) (m1 : Nat) (e1 : Int) (n2 : Bool) (m2 : Nat) (e2 : Int) : Int × Int :=
  let e := min e1 e2
  let a : Int := (if n1 then -1 else 1) * (m1 * 2 ^ (e1 - e).toNat : Nat)
  let b : Int := (if n2 then -1 else 1) * (m2 * 2 ^ (e2 - e).toNat : Nat)
  (a + b, e)

/-- Value of a NaN operand in a lane: quieted (10_vector_instructions.md R199). -/
def FFmt.quiet (f : FFmt) (v : FVal) : Nat :=
  match v with
  | .nan neg _ mant mw => f.nanBits neg mant mw
  | _ => f.canonNaN

/-- A value is a NaN. -/
def FVal.isNaN (v : FVal) : Bool :=
  match v with
  | .nan .. => true
  | _ => false

/-- A value is a signalling NaN. -/
def FVal.isSNaN (v : FVal) : Bool :=
  match v with
  | .nan _ q _ _ => !q
  | _ => false

/-- The first NaN of a list of operands, quieted, with NV when any operand is signalling (10_vector_instructions.md
R199, R200). -/
def FFmt.nanOf (f : FFmt) (vs : List FVal) : Option FRes :=
  match vs.find? FVal.isNaN with
  | some v => some (f.quiet v, { nv := vs.any FVal.isSNaN })
  | none => none

/-- A generated NaN: canonical, with NV (10_vector_instructions.md R199). -/
def FFmt.invalid (f : FFmt) : FRes := (f.canonNaN, { nv := true })

/-- a + b in a format (10_vector_instructions.md R198, R203; 09_memory_instructions.md R186). -/
def FFmt.addV (f : FFmt) (rm : RMode) (a b : FVal) : FRes :=
  match f.nanOf [a, b] with
  | some r => r
  | none =>
    match a, b with
    | .inf na, .inf nb => if na = nb then (f.infBits na, {}) else f.invalid
    | .inf na, _ => (f.infBits na, {})
    | _, .inf nb => (f.infBits nb, {})
    | .fin na ma ea, .fin nb mb eb =>
      let (n, e) := addExact na ma ea nb mb eb
      if n = 0 then
        let neg := if na = nb then na else decide (rm = .rdn)
        (f.signed neg 0, {})
      else f.round rm false (dyadicSign n) n.natAbs e false
    | _, _ => f.invalid

/-- The value with its sign inverted; a NaN is unchanged in operand order, as subtraction sees it. -/
def FVal.negate (v : FVal) : FVal :=
  match v with
  | .fin n m e => .fin (!n) m e
  | .inf n => .inf (!n)
  | v => v

/-- a + b of encodings. -/
def FFmt.add (f : FFmt) (rm : RMode) (a b : Nat) : FRes := f.addV rm (f.decode a) (f.decode b)
/-- a − b of encodings. -/
def FFmt.sub (f : FFmt) (rm : RMode) (a b : Nat) : FRes := f.addV rm (f.decode a) (f.decode b).negate

/-- a × b of encodings. -/
def FFmt.mul (f : FFmt) (rm : RMode) (a b : Nat) : FRes :=
  let x := f.decode a
  let y := f.decode b
  match f.nanOf [x, y] with
  | some r => r
  | none =>
    match x, y with
    | .inf na, .inf nb => (f.infBits (na != nb), {})
    | .inf na, .fin nb mb _ => if mb = 0 then f.invalid else (f.infBits (na != nb), {})
    | .fin na ma _, .inf nb => if ma = 0 then f.invalid else (f.infBits (na != nb), {})
    | .fin na ma ea, .fin nb mb eb => f.round rm false (na != nb) (ma * mb) (ea + eb) false
    | _, _ => f.invalid

/-- a ÷ b of encodings (10_vector_instructions.md R203). -/
def FFmt.div (f : FFmt) (rm : RMode) (a b : Nat) : FRes :=
  let x := f.decode a
  let y := f.decode b
  match f.nanOf [x, y] with
  | some r => r
  | none =>
    match x, y with
    | .inf _, .inf _ => f.invalid
    | .inf na, .fin nb _ _ => (f.infBits (na != nb), {})
    | .fin na _ _, .inf nb => (f.signed (na != nb) 0, {})
    | .fin na ma ea, .fin nb mb eb =>
      if mb = 0 then
        (if ma = 0 then f.invalid else (f.infBits (na != nb), { dz := true }))
      else if ma = 0 then (f.signed (na != nb) 0, {})
      else f.round rm false (na != nb) (ma * 2 ^ 64 / mb) (ea - eb - 64) (decide (ma * 2 ^ 64 % mb ≠ 0))
    | _, _ => f.invalid

/-- ±(b × c) ± a with one rounding (10_vector_instructions.md R203): np negates the product, na the addend. -/
def FFmt.fma (f : FFmt) (rm : RMode) (np na : Bool) (b c a : Nat) : FRes :=
  let x := f.decode b
  let y := f.decode c
  let z := f.decode a
  let inv := match x, y with
    | .inf _, .fin _ m _ => decide (m = 0)
    | .fin _ m _, .inf _ => decide (m = 0)
    | _, _ => false
  match f.nanOf [x, y, z] with
  | some (r, fl) => (r, { fl with nv := fl.nv || inv })
  | none =>
    if inv then f.invalid
    else
      let z := if na then z.negate else z
      let prod : FVal := match x, y with
        | .fin n1 m1 e1, .fin n2 m2 e2 => .fin ((n1 != n2) != np) (m1 * m2) (e1 + e2)
        | .inf n1, .inf n2 => .inf ((n1 != n2) != np)
        | .inf n1, .fin n2 _ _ => .inf ((n1 != n2) != np)
        | .fin n1 _ _, .inf n2 => .inf ((n1 != n2) != np)
        | v, _ => v
      f.addV rm prod z

/-- Order of two finite or infinite values, −0 below +0 (09_memory_instructions.md R186). -/
def FVal.ltTotal (a b : FVal) : Bool :=
  match a, b with
  | .inf na, .inf nb => na && !nb
  | .inf na, _ => na
  | _, .inf nb => !nb
  | .fin na ma ea, .fin nb mb eb =>
    let (d, _) := addExact na ma ea (!nb) mb eb
    if ma = 0 ∧ mb = 0 then na && !nb else decide (d < 0)
  | _, _ => false

/-- Order of two values as numbers: +0 equals −0; false for a NaN (10_vector_instructions.md R209). -/
def FVal.lt (a b : FVal) : Bool :=
  match a, b with
  | .inf na, .inf nb => na && !nb
  | .inf na, .fin .. => na
  | .fin .., .inf nb => !nb
  | .fin na ma ea, .fin nb mb eb => decide ((addExact na ma ea (!nb) mb eb).1 < 0)
  | _, _ => false

/-- Equality as numbers; false for a NaN. -/
def FVal.eq (a b : FVal) : Bool :=
  match a, b with
  | .inf na, .inf nb => na == nb
  | .fin na ma ea, .fin nb mb eb => decide ((addExact na ma ea (!nb) mb eb).1 = 0)
  | _, _ => false

/-- The smaller (or larger) of two encodings: a number before a NaN, the first of two NaNs quieted, −0 below +0; NV
only for a signalling NaN (10_vector_instructions.md R199, R203). -/
def FFmt.minmax (f : FFmt) (wantMax : Bool) (a b : Nat) : FRes :=
  let x := f.decode a
  let y := f.decode b
  let fl : FFlags := { nv := x.isSNaN || y.isSNaN }
  if x.isNaN && y.isNaN then (f.quiet x, fl)
  else if x.isNaN then (b, fl)
  else if y.isNaN then (a, fl)
  else if wantMax then (if x.ltTotal y then b else a, fl)
  else (if y.ltTotal x then b else a, fl)

/-- Integer square root of a number below 4^k: digit by digit. -/
def isqrt : Nat → Nat → Nat
  | 0, _ => 0
  | k + 1, n =>
    let r := 2 * isqrt k (n / 4)
    if (r + 1) * (r + 1) ≤ n then r + 1 else r

/-- √b (10_vector_instructions.md R207, R208). -/
def FFmt.sqrt (f : FFmt) (rm : RMode) (b : Nat) : FRes :=
  let x := f.decode b
  match f.nanOf [x] with
  | some r => r
  | none =>
    match x with
    | .inf neg => if neg then f.invalid else (f.infBits false, {})
    | .fin neg m e =>
      if m = 0 then (f.signed neg 0, {})
      else if neg then f.invalid
      else
        -- an even exponent, then 64 more bits of root
        let (m, e) := if e % 2 = 0 then (m, e) else (2 * m, e - 1)
        let n := m * 2 ^ 128
        let r := isqrt 128 n
        f.round rm false false r (e / 2 - 64) (decide (r * r ≠ n))
    | _ => f.invalid

/-- The flags of a conversion (R27) and of VRCP8 (10_vector_instructions.md R208): underflow for a rounded result that
is inexact, nonzero and below the smallest normal. -/
def FFmt.convFlags (f : FFmt) (r : FRes) : FRes :=
  let mag := r.1 % 2 ^ (f.ew + f.mw)
  (r.1, { r.2 with uf := r.2.nx && decide (mag ≠ 0) && decide (mag < 2 ^ f.mw) })

/-- 1 ÷ b rounded to fraction bit fb (10_vector_instructions.md R208): 8 for f32 and f16, 7 for bf16. -/
def FFmt.rcp8 (f : FFmt) (b : Nat) : FRes :=
  let x := f.decode b
  match f.nanOf [x] with
  | some r => r
  | none =>
    match x with
    | .inf neg => (f.signed neg 0, {})
    | .fin neg m e =>
      if m = 0 then (f.infBits neg, { dz := true })
      else
        let fb := min f.mw 8
        let g : FFmt := { f with mw := fb }
        let (r, fl) := g.round .rne false neg (2 ^ 64 / m) (-e - 64) (decide (2 ^ 64 % m ≠ 0))
        f.convFlags (r * 2 ^ (f.mw - fb), fl)
    | _ => f.invalid

/-- Bits of fraction of the fixed-point numbers below. -/
def fxBits : Nat := 320

/-- ln 2 × 2^320 rounded down: 2 × Σ (1/3)^(2i+1) ÷ (2i+1). -/
def lnTwo : Nat :=
  1480553391661173448385607439722553250922680800745876974795605978609098082859138712941075737848984

/-- Σ from i of term, each next term scaled by y and divided by its index: the exponential series in fixed point. -/
def expTerms (y : Nat) : Nat → Nat → Nat → Nat
  | 0, _, _ => 0
  | n + 1, i, t => t + expTerms y n (i + 1) (t * y / (2 ^ fxBits * i))

/-- 2^g × 2^320 rounded down, for g × 2^320 = f below 2^320. -/
def exp2Fx (f : Nat) : Nat := expTerms (f * lnTwo / 2 ^ fxBits) 90 1 (2 ^ fxBits)

/-- Σ of odd powers of z over their index: the inverse hyperbolic tangent in fixed point. -/
def atanhTerms (z2 : Nat) : Nat → Nat → Nat → Nat
  | 0, _, _ => 0
  | n + 1, i, t => t / i + atanhTerms z2 n (i + 2) (t * z2 / 2 ^ fxBits)

/-- log2 of (m ÷ 2^k) × 2^320 rounded down, for 2^k ≤ m < 2^(k + 1). -/
def log2Fx (m k : Nat) : Nat :=
  let z := (m - 2 ^ k) * 2 ^ fxBits / (m + 2 ^ k)
  2 * atanhTerms (z * z / 2 ^ fxBits) 110 1 z * 2 ^ fxBits / lnTwo

/-- 2^b (10_vector_instructions.md R207, R208). -/
def FFmt.exp2 (f : FFmt) (rm : RMode) (b : Nat) : FRes :=
  let x := f.decode b
  match f.nanOf [x] with
  | some r => r
  | none =>
    match x with
    | .inf neg => if neg then (f.signed false 0, {}) else (f.infBits false, {})
    | .fin neg m e =>
      let n : Int := if neg then -(m : Int) else m
      if m = 0 then f.round rm false false 1 0 false
      -- a magnitude of 2^15 or more is beyond every format either way
      else if 15 ≤ e + (Nat.log2 m : Int) then
        f.round rm false false 1 (if neg then -(2 ^ 15 : Int) else 2 ^ 15) false
      else if 0 ≤ e then f.round rm false false 1 (n * 2 ^ e.toNat) false
      else
        let d := (-e).toNat
        let ip := n / (2 ^ d : Int)
        let fr := (n % (2 ^ d : Int)).toNat
        if fr = 0 then f.round rm false false 1 ip false
        else f.round rm false false (exp2Fx (fr * 2 ^ fxBits / 2 ^ d)) (ip - fxBits) true
    | _ => f.invalid

/-- log2 b (10_vector_instructions.md R207, R208). -/
def FFmt.log2 (f : FFmt) (rm : RMode) (b : Nat) : FRes :=
  let x := f.decode b
  match f.nanOf [x] with
  | some r => r
  | none =>
    match x with
    | .inf neg => if neg then f.invalid else (f.infBits false, {})
    | .fin neg m e =>
      if m = 0 then (f.infBits true, { dz := true })
      else if neg then f.invalid
      else
        let k := Nat.log2 m
        let ip : Int := e + k
        if m = 2 ^ k then f.round rm false (dyadicSign ip) ip.natAbs 0 false
        else
          let v : Int := ip * (2 ^ fxBits : Nat) + (log2Fx m k : Nat)
          -- the exact value lies above v by less than one unit
          if v < 0 then f.round rm false true (v + 1).natAbs (-(fxBits : Int)) true
          else f.round rm false false v.toNat (-(fxBits : Int)) true
    | _ => f.invalid

/-- b rounded to an integral value, keeping the sign of a zero result (10_vector_instructions.md R207). -/
def FFmt.integral (f : FFmt) (rm : RMode) (signalNx : Bool) (b : Nat) : FRes :=
  let x := f.decode b
  match f.nanOf [x] with
  | some r => r
  | none =>
    match x with
    | .fin neg m e =>
      let (k, inexact) := roundQ rm neg m e false 0
      let (r, _) := f.round rm false neg k 0 false
      (r, { nx := signalNx && inexact })
    | _ => (b, {})

/-! Conversions (01_formats.md R24 to R27) -/

/-- A value clamped to an integer format, with whether it saturated. -/
def clampInt (w : Nat) (signed : Bool) (n : Int) : Int × Bool :=
  let lo : Int := if signed then -(2 ^ (w - 1) : Nat) else 0
  let hi : Int := if signed then (2 ^ (w - 1) : Nat) - 1 else (2 ^ w : Nat) - 1
  if n < lo then (lo, true) else if hi < n then (hi, true) else (n, false)

/-- The encoding of an integer in w bits. -/
def intBits (w : Nat) (n : Int) : Nat := (n % (2 ^ w : Nat)).toNat

/-- The integer of w bits. -/
def intVal (w : Nat) (signed : Bool) (b : Nat) : Int :=
  let v := b % 2 ^ w
  if signed && decide (2 ^ (w - 1) ≤ v) then (v : Int) - (2 ^ w : Nat) else v

/-- A float value to a float format (R24 to R27); exact rational values come with sticky. -/
def FFmt.convert (f : FFmt) (rm : RMode) (sat : Bool) (v : FVal) : FRes :=
  match v with
  | .nan neg quiet mant mw =>
    if f.inf then
      let r := if f.mw = 2 then
          -- E5M2 keeps the payload bit just below the quiet bit; a NaN of a 1-bit mantissa has none (log entry 43)
          f.signed neg ((2 ^ f.ew - 1) * 4 + 2 + if 2 ≤ mw then mant / 2 ^ (mw - 2) % 2 else 0)
        else f.nanBits neg mant mw
      (r, { nv := !quiet })
    else if f.nan then (f.signed neg (2 ^ (f.ew + f.mw) - 1), { nv := !quiet })
    else (0, { nv := true })
  | .inf neg =>
    if f.inf then (f.infBits neg, {})
    else if f.nan then (if sat then f.maxBits neg else f.signed neg (2 ^ (f.ew + f.mw) - 1), { nv := true })
    else (f.maxBits neg, { nv := true })
  | .fin neg m e => f.convFlags (f.round rm sat neg m e false)

/-- A float value to an integer format (R24 to R27). -/
def intFromFloat (w : Nat) (signed : Bool) (rm : RMode) (v : FVal) : FRes :=
  match v with
  | .nan .. => (0, { nv := true })
  | .inf neg => (intBits w (clampInt w signed (if neg then -(2 ^ 64 : Nat) else (2 ^ 64 : Nat))).1, { nv := true })
  | .fin neg m e =>
    let (k, inexact) := roundQ rm neg m e false 0
    let n : Int := if neg then -(k : Int) else k
    let (c, satd) := clampInt w signed n
    (intBits w c, if satd then { nv := true } else { nx := inexact })

/-- Converts the encoding b of format src to format dst (R24 to R27). -/
def convertElem (src dst : Nat) (rm : RMode) (sat : Bool) (b : Nat) : FRes :=
  match fmtOfCode src, intOfCode src, fmtOfCode dst, intOfCode dst with
  | some fs, _, some fd, _ => fd.convert rm sat (fs.decode b)
  | some fs, _, none, some (w, sg) => intFromFloat w sg rm (fs.decode b)
  | none, some (w, sg), some fd, _ =>
    let n := intVal w sg b
    fd.convert rm sat (.fin (dyadicSign n) n.natAbs 0)
  | none, some (w, sg), none, some (wd, sd) =>
    let n := intVal w sg b
    (intBits wd (if sat then (clampInt wd sd n).1 else n), {})
  | _, _, _, _ => (0, {})

/-! Block formats (01_formats.md R14 to R29) -/

/-- The element format of an MX code. -/
def mxElem (c : Nat) : Option FFmt :=
  match c with
  | 14 => some e4m3 | 15 => some e5m2 | 16 => some e3m2 | 17 => some e2m3 | 18 => some e2m1 | _ => none

/-- Legal pairings of format code and block logarithm (01_formats.md R18). -/
def tagLegal (f lg : Nat) : Bool :=
  if f ≤ 13 ∨ (21 ≤ f ∧ f ≤ 25) then decide (lg = 0)
  else if f ≤ 18 then decide (lg = 5)
  else if f ≤ 20 then decide (5 ≤ lg ∧ lg ≤ 7)
  else false

/-- Bytes of a block (01_formats.md R16). -/
def blockBytes (f lg : Nat) : Nat := 4 + 2 ^ lg * elementBits f / 8

/-- Offset of element i's first byte from the pointer's address, and its bit within the byte or 6-bit group
(01_formats.md R20). -/
def elementAddress (f lg i : Nat) : Nat × Nat :=
  let b := elementBits f
  let base := if lg = 0 then 0 else i / 2 ^ lg * blockBytes f lg + 4
  let j := if lg = 0 then i else i % 2 ^ lg
  if b = 6 then (base + 3 * (j / 4), 6 * (j % 4)) else (base + j * b / 8, j * b % 8)

/-- Bytes that element i occupies, as an offset and a number: its byte, its group of three, or its whole bytes. -/
def elementSpan (f lg i : Nat) : Nat × Nat :=
  let (o, _) := elementAddress f lg i
  (o, if elementBits f = 6 then 3 else max (elementBits f / 8) 1)

/-- Offset of the header of element i's block (01_formats.md R20). -/
def headerOffset (f lg i : Nat) : Nat := i / 2 ^ lg * blockBytes f lg

/-- Alignment of the pointer of a format-decoding access (01_formats.md R21). -/
def formatAlign (f lg : Nat) : Nat := if lg ≠ 0 then 4 else max (elementBits f / 8) 1

/-- A header has a nonzero reserved bit (01_formats.md R14, R15, R17). -/
def headerBad (f : Nat) (h : Nat) : Bool :=
  if f ≤ 18 then decide (h / 256 ≠ 0) else decide (h / 2 ^ 24 ≠ 0)

/-- The decoded value of an element's raw bits (01_formats.md R22); header 0 for an unblocked format. R22 says NaN and
no more: the model's choice (log entry 43) is a positive quiet NaN without payload for SCALE 0xFF and for an infinite s
with q = z, and s itself, with its sign, payload and quietness, for a NaN s. -/
def decodeValue (f header raw : Nat) : FVal :=
  match fmtOfCode f with
  | some ff => ff.decode raw
  | none =>
    match intOfCode f with
    | some (w, sg) => let n := intVal w sg raw; .fin (dyadicSign n) n.natAbs 0
    | none =>
      match mxElem f with
      | some ff =>
        let scale := header % 256
        if scale = 255 then .nan false true (2 ^ (ff.mw - 1)) ff.mw
        else match ff.decode raw with
          | .fin n m e => .fin n m (e + scale - 127)
          | v => v
      | none =>
        let z := header / 65536 % 256
        let d : Int := (raw : Int) - z
        match fp16.decode (header % 65536) with
        | .nan n q m w => .nan n q m w
        | .inf n => if d = 0 then .nan false true 512 10 else .inf (n != dyadicSign d)
        | .fin n m e => .fin (n != dyadicSign d) (m * d.natAbs) e

/-- Rounds to a format without infinities or NaNs in the result (01_formats.md R28: RoundSat). -/
def FFmt.roundSat (f : FFmt) (rm : RMode) (v : FVal) : Nat :=
  match v with
  | .fin n m e => (f.round rm true n m e false).1
  | _ => 0

/-- RoundInt of a value divided by a nonzero finite scale, exactly (01_formats.md R28, R29), and whether it is inexact.
-/
def roundIntDivX (rm : RMode) (n : Bool) (m : Nat) (e : Int) (sn : Bool) (sm : Nat) (se : Int) : Int × Bool :=
  let neg := n != sn
  let num := m * 2 ^ ((e - se).toNat + 64)
  let den := sm * 2 ^ ((se - e).toNat)
  let (k, inexact) := roundQ rm neg (num / den) (-64) (decide (num % den ≠ 0)) 0
  (if neg then -(k : Int) else k, inexact)

/-- RoundInt of a value divided by a nonzero finite scale, exactly (01_formats.md R28, R29). -/
def roundIntDiv (rm : RMode) (n : Bool) (m : Nat) (e : Int) (sn : Bool) (sm : Nat) (se : Int) : Int :=
  (roundIntDivX rm n m e sn sm se).1

/-- Flags of a value whose element holds nothing of it (SCALE 0xFF, or s zero, NaN or infinite): a finite one is
inexact, but for a zero where the element decodes to zero (01_formats.md R27, R29; log entry 15). -/
def lostFlags (zeroFits : Bool) (v : FVal) : FFlags :=
  match v with
  | .fin _ m _ => { nx := !(zeroFits && decide (m = 0)) }
  | _ => {}

/-- The raw element for a value in a block whose header stands (01_formats.md R29), and the flags that R27 gives the
conversion, whose destination is the block's element format (R178; log entry 15). A z above 15 gives an A4 element
z modulo 16: R29 does not say how it fits (log entry 43, the model's choice). -/
def encodeInBlock (f header : Nat) (rm : RMode) (v : FVal) : FRes :=
  match mxElem f with
  | some ff =>
    let scale := header % 256
    match v with
    | .fin n m e =>
      if scale = 255 then (0, lostFlags false v)
      else
        let x : FVal := .fin n m (e - scale + 127)
        (ff.roundSat rm x, (ff.convert rm true x).2)
    | _ => (0, (ff.convert rm true v).2)
  | none =>
    let z := header / 65536 % 256
    let low := z % 2 ^ elementBits f
    let qmax : Nat := 2 ^ elementBits f - 1
    match fp16.decode (header % 65536), v with
    | .fin sn sm se, .fin n m e =>
      if sm = 0 then (low, lostFlags true v)
      else
        let (k, inexact) := roundIntDivX rm n m e sn sm se
        let q := k + z
        if q < 0 then (0, { nv := true })
        else if (qmax : Int) < q then (qmax, { nv := true })
        else (q.toNat, { nx := inexact })
    | .fin _ sm _, .inf n => (if sm = 0 then low else if n then 0 else qmax, { nv := true })
    | _, .fin .. => (low, lostFlags false v)
    | _, _ => (low, { nv := true })

/-- EncodeMXBlock (01_formats.md R28): the header and the elements of a whole MX block. -/
def encodeMxBlock (f : Nat) (rm : RMode) (xs : List FVal) : Nat × List Nat :=
  match mxElem f with
  | none => (0, [])
  | some ff =>
    if xs.any (fun v => match v with | .fin .. => false | _ => true) then (0xFF, xs.map fun _ => 0)
    else
      let logs := xs.filterMap fun v => match v with
        | .fin _ m e => if m = 0 then none else some (e + (Nat.log2 m : Int))
        | _ => none
      let emax : Int := match f with | 14 => 8 | 15 => 15 | 16 => 4 | 17 => 2 | _ => 2
      let x : Int := match logs with
        | [] => -127
        | l :: ls => max (-127) (min (ls.foldl max l - emax) 127)
      ((x + 127).toNat, xs.map fun v => match v with
        | .fin n m e => ff.roundSat rm (.fin n m (e - x))
        | _ => 0)

/-- EncodeAffineBlock (01_formats.md R28): the header and the elements of a whole affine block of finite values or
NaNs; an infinite value makes the range infinite. -/
def encodeAffineBlock (f : Nat) (rm : RMode) (xs : List FVal) : Nat × List Nat :=
  let qmax := 2 ^ elementBits f - 1
  if xs.any FVal.isNaN then (0x7E00, xs.map fun _ => 0)
  else
    let zero : FVal := .fin false 0 0
    let lo := xs.foldl (fun a x => if x.lt a then x else a) zero
    let hi := xs.foldl (fun a x => if a.lt x then x else a) zero
    match lo, hi with
    | .fin nl ml el, .fin nh mh eh =>
      let (d, e) := addExact nh mh eh (!nl) ml el
      if ml = 0 ∧ mh = 0 then (0, xs.map fun _ => 0)
      else
        let num := d.natAbs * 2 ^ 64
        let s0 := (fp16.round .rne false false (num / qmax) (e - 64) (decide (num % qmax ≠ 0))).1
        let s := if s0 = 0x7C00 then 0x7BFF else if s0 = 0 then 1 else s0
        match fp16.decode s with
        | .fin sn sm se =>
          let z := (max 0 (min (roundIntDiv .rne (!nl) ml el sn sm se) qmax)).toNat
          (s + z * 65536, xs.map fun v => match v with
            | .fin n m e => (max 0 (min (roundIntDiv rm n m e sn sm se + z) qmax)).toNat
            | _ => 0)
        | _ => (s, xs.map fun _ => 0)
    | _, _ =>
      -- an infinite range takes the largest scale
      match fp16.decode 0x7BFF with
      | .fin sn sm se =>
        let z := match lo with
          | .fin nl ml el => (max 0 (min (roundIntDiv .rne (!nl) ml el sn sm se) qmax)).toNat
          | _ => qmax
        (0x7BFF + z * 65536, xs.map fun v => match v with
          | .fin n m e => (max 0 (min (roundIntDiv rm n m e sn sm se + z) qmax)).toNat
          | .inf n => if n then 0 else qmax
          | _ => 0)
      | _ => (0x7BFF, xs.map fun _ => 0)

/-! Operations of AMO and RED (09_memory_instructions.md R181, R185, R186) -/

/-- Bits of an atomic: 32 or 64. -/
def atomBits (d8 : Bool) : Nat := if d8 then 64 else 32

/-- New of R181; the operand word is whole for BFADD. -/
def amoNew (op : AmoOp) (d8 : Bool) (old : Nat) (cw : Word) : Nat :=
  let w := atomBits d8
  let c := cw.toNat % 2 ^ w
  let sg (n : Nat) : Int := intVal w true n
  match op with
  | .swap => c
  | .add => (old + c) % 2 ^ w
  | .and => Nat.land old c
  | .or => Nat.lor old c
  | .xor => Nat.xor old c
  | .min => if sg c < sg old then c else old
  | .max => if sg old < sg c then c else old
  | .minN => min old c
  | .maxN => max old c
  | .incw => if c ≤ old then 0 else old + 1
  | .bfadd =>
    let add := fld cw 0 32
    let bound := fld cw 32 32
    if bound ≤ old then old else min (old + add) bound

/-- The new element of R185, R186: m combined with c. -/
def redNew (op : RedOp) (d8 : Bool) (m : Nat) (c : Nat) : Nat :=
  let w := atomBits d8
  let sg (n : Nat) : Int := intVal w true n
  match op with
  | .add => (m + c) % 2 ^ w
  | .and => Nat.land m c
  | .or => Nat.lor m c
  | .xor => Nat.xor m c
  | .min => if sg c < sg m then c else m
  | .max => if sg m < sg c then c else m
  | .minN => min m c
  | .maxN => max m c
  | .fadd32 => (fp32.add .rne m c).1
  | .fmax32 => (fp32.minmax true m c).1
  | .fmin32 => (fp32.minmax false m c).1

end Sys2Proof.Machine
end

