-- ==== Sys2Proof/Machine/Access.lean ====
section
/-!
DEFINITION. Access of a handler slot to main memory and to vaults: translation, the checks at the target, reads,
writes, atomics and reductions, with the delay fields they report (02_main_memory.md R31 to R44, 03_crossbar.md R52 to
R61, 04_vaults.md R64 to R77, 09_memory_instructions.md R164 to R168). A slot's accesses are performed one at a time
in program order (log entry 6).
-/

namespace Sys2Proof.Machine

/-- Kinds of access (02_main_memory.md R38, R42). -/
inductive AKind where
  | load | store | atomic | fetch
deriving DecidableEq, Repr

/-- The code of a kind in a translation request (02_main_memory.md R42). -/
def AKind.code (k : AKind) : Nat :=
  match k with
  | .load => 0
  | .store => 1
  | .atomic => 2
  | .fetch => 3

/-- What an attempt comes to: done with a value, waiting (the head is attempted again later), or failed with a trap's
cause and value and whether the activation can go on after it. -/
inductive Acc (α : Type) where
  | ok (a : α) (s : State)
  | wait (s : State)
  | bad (cause : Nat) (tval : Word) (nr : Bool) (s : State)
deriving DecidableEq

/-- One attempt after another. -/
def Acc.bind {α β : Type} (x : Acc α) (f : α → State → Acc β) : Acc β :=
  match x with
  | .ok a s => f a s
  | .wait s => .wait s
  | .bad c t n s => .bad c t n s

/-! Trace records (20_debug.md R377, R378) -/

/-- CYCLE of a core (07_instruction_lines.md R120), in its die's cycles. -/
def State.cycleOf (s : State) (core : Nat) : Word := (s.core core).cycle + word (s.dieClock (core / 1024))

/-- The state with a trace record written into the cluster's ring when tracing is on for its kind; one that is written
over while unread is lost (log entry 44: a record is read when a byte of it is read at its bank). -/
def State.trace (s : State) (place kind detail ctx kslot : Nat) (pc data : Word) : State :=
  let c := clusOf place
  let k := s.clus c
  if bitOf k.trccfg.toNat 0 && bitOf (fld k.trccfg 1 8) kind then
    let slots := 2 ^ (fld k.trccfg 12 4 + 5)
    let w1 := place % 65536 + kind * 2 ^ 16 + detail % 256 * 2 ^ 24 + ctx % 65536 * 2 ^ 32 + kslot % 64 * 2 ^ 48
    let rec32 := leBytes 8 (s.cycleOf (coreOf place)).toNat ++ leBytes 8 w1 ++ leBytes 8 pc.toNat ++
        leBytes 8 data.toNat
    let n := k.trccount.toNat % slots
    let at_ := c * 2 ^ 24 + fld k.trccfg 16 18 * 64 + 32 * n
    let lost := if k.trcnew.contains n ∧ k.trclost ≠ 0xFFFFFFFF then k.trclost + 1 else k.trclost
    { s.setClus c { k with trccount := k.trccount + 1, trclost := lost, trcnew := sinsert k.trcnew n } with
      vault := writeBytes s.vault at_ rec32 }
  else s

/-! Translation -/

/-- Bytes of a page of a SIZE code (02_main_memory.md R36, R37). -/
def pageSize (size : Nat) : Nat := if size = 0 then 2 ^ 16 else if size = 1 then 2 ^ 21 else 2 ^ 30

/-- An entry matches an address (02_main_memory.md R39). -/
def TlbEnt.covers (e : TlbEnt) (tsid va : Nat) : Bool :=
  decide (e.tsid = tsid) && decide (e.va ≤ va) && decide (va < e.va + pageSize e.size)

/-- Two entries of one translation space whose pages overlap (02_main_memory.md R39). -/
def TlbEnt.overlaps (e f : TlbEnt) : Bool :=
  decide (e.tsid = f.tsid) && decide (e.va < f.va + pageSize f.size) && decide (f.va < e.va + pageSize e.size)

/-- The entry of a TLB for an address. -/
def tlbFind (l : List TlbEnt) (tsid va : Nat) : Option TlbEnt := l.find? (·.covers tsid va)

/-- A TLB with an entry written: every overlapping entry goes first (02_main_memory.md R39). -/
def tlbPut (l : List TlbEnt) (e : TlbEnt) : List TlbEnt := e :: l.filter (fun f => !e.overlaps f)

/-- The permissions of an entry allow an access (02_main_memory.md R38). -/
def TlbEnt.permits (e : TlbEnt) (k : AKind) (user : Bool) : Bool :=
  (!user || e.u) &&
    match k with
    | .load => e.r
    | .store => e.w
    | .atomic => e.r && e.w
    | .fetch => e.x

/-- The physical address an entry gives. -/
def TlbEnt.phys (e : TlbEnt) (va : Nat) : Nat := (e.pa + (va - e.va)) % 2 ^ 48

/-- A translated address: the device physical address, whether reads may be held in the shard cache, and the size of its
page. -/
structure Phys where
  pa : Nat
  sc : Bool
  span : Nat := 64
deriving DecidableEq, Repr

/-- A free request identifier of a cluster from n upward: never 0xFFFF, never one of an open request (02_main_memory.md
R42, R159). -/
def freeReqId (reqs : List XlatReq) : Nat → Nat → Nat
  | 0, n => n % 65536
  | fuel + 1, n =>
    let n := n % 65536
    if n = 65535 ∨ reqs.any (·.id == n) then freeReqId reqs fuel (n + 1) else n

/-- The 64 KiB page a request is for; the tag of its address is ignored (02_main_memory.md R42). -/
def XlatReq.page (r : XlatReq) : Nat := r.addr.toNat % 2 ^ 56 / 65536

/-- A translation request queued to a cluster's service core, merged with an open one of the same space and 64 KiB
(02_main_memory.md R40); it is an event for that core (08_scalar_instructions.md R162). -/
def State.openXlat (s : State) (clus tsid : Nat) (w : XWaiter) : State :=
  let k := s.clus clus
  if k.reqs.any (fun r => r.tsid = tsid ∧ r.page = w.va / 65536) then
    s.setClus clus { k with reqs := k.reqs.map fun r =>
      if r.tsid = tsid ∧ r.page = w.va / 65536 then { r with waiters := r.waiters ++ [w] } else r }
  else
    let id := freeReqId k.reqs 400 k.nextReq
    (s.setClus clus { k with
      reqs := k.reqs ++ [{ id := id, tsid := tsid, addr := w.issued, waiters := [w], stale := false, bound := false }]
      nextReq := id + 1 }).wakeCore (coreIn clus 8)

/-- A requester has an open translation request in a cluster (02_main_memory.md R40). -/
def ClusSt.asks (c : ClusSt) (who : Requester) : Bool := c.reqs.any fun r => r.waiters.any fun w => w.who == who

/-- The current slot waits for a translation of an address issued with a tag: it opens a request unless it has one
(02_main_memory.md R40, R42). -/
def State.awaitXlat (s : State) (k : AKind) (va tag : Nat) : State :=
  let sl := s.me
  let c := clusOf s.cur
  let t := if (s.clus c).asks (.slot s.cur) then s
    else s.openXlat c (s.tsidOf sl)
      { who := .slot s.cur, kind := k.code, abortable := !sl.irrev, va := va, issued := word (tag * 2 ^ 56 + va) }
  t.setMe { sl with park := .xlat }

/-- The L1 TLB of the current core with an entry copied into it (02_main_memory.md R40 step 2). -/
def State.fillL1 (s : State) (e : TlbEnt) : State :=
  s.setCore (coreOf s.cur) { s.myCore with l1 := tlbPut s.myCore.l1 e }

/-- An entry found for an access: its address, or a protection trap (02_main_memory.md R38). -/
def useEntry (s : State) (k : AKind) (va : Nat) (e : TlbEnt) : Acc Phys :=
  if e.permits k (s.me.priv = .user) then .ok ⟨e.phys va, e.sc, pageSize e.size⟩ s
  else .bad (if k = .fetch then 0x15 else 0x05) (word va) false s

/-- Translation of an access of the current slot (02_main_memory.md R40, R42, R43): a miss of a worker slot waits for an
answer, and one answered protection or unmapped traps. The address was issued with a tag. -/
def State.translate (s : State) (k : AKind) (va : Nat) (tag : Nat := 0) : Acc Phys :=
  let sl := s.me
  if isService s.cur && sl.pmode then .ok ⟨va % 2 ^ 48, false, 64⟩ s
  else
    match tlbFind s.myCore.l1 (s.tsidOf sl) va with
    | some e => useEntry s k va e
    | none =>
      match tlbFind (s.clus (clusOf s.cur)).tlb (s.tsidOf sl) va with
      | some e => useEntry (s.fillL1 e) k va e
      | none =>
        if isService s.cur then .bad (if k = .fetch then 0x15 else 0x04) (word va) false s
        else match sl.xres with
          | some (page, code) =>
            if page = va / 65536 then
              .bad (if k = .fetch then 0x15 else if code = 2 then 0x05 else 0x04) (word va) false
                (s.setMe { sl with xres := none })
            else .wait (s.awaitXlat k va tag)
          | none => .wait (s.awaitXlat k va tag)

/-! Pieces: naturally aligned runs of at most eight bytes, in one line and one bank -/

/-- A located run of n bytes: what TVAL reports, whether it lies in a vault, its device physical address or its
cluster * 2^24 + offset, and whether the shard cache may hold it. -/
structure Piece where
  tval : Word
  vault : Bool
  at_ : Nat
  n : Nat
  sc : Bool
deriving DecidableEq, Repr

/-- The key of a vault address for a slot of a cluster (04_vaults.md R67). -/
def vaultKey (clus a : Nat) : Nat :=
  (if bitOf a 30 then clus else a / 2 ^ 31 % 512) * 2 ^ 24 + a % 2 ^ 24

/-- The tag of an address register (02_main_memory.md R34). -/
def tagOf (w : Word) : Nat := fld w 56 8

/-- A vault address without LOC of a key (04_vaults.md R67). -/
def vaultAddr (key : Nat) : Word := word (key / 2 ^ 24 * 2 ^ 31 + key % 2 ^ 24)

/-- A run of n bytes at an address of either space, issued with a tag, located for an access of the current slot; it
waits while an access before it has yet to be performed (02_main_memory.md R40). -/
def State.locate (s : State) (k : AKind) (vault : Bool) (a n : Nat) (tag : Nat := 0) : Acc Piece :=
  if s.me.defers then .wait s
  else if vault then .ok ⟨word a, true, vaultKey (clusOf s.cur) a, n, false⟩ s
  else if s.fw.halted then .wait s
  else (s.translate k a tag).bind fun p t =>
    .ok ⟨if isService t.cur && t.me.pmode then word p.pa else word a, false, p.pa, n, p.sc⟩ t

/-- Several runs located one after the other: step 4 of R165 for every byte before any is performed. -/
def State.locateAll (s : State) (k : AKind) (vault : Bool) (tag : Nat := 0) : List (Nat × Nat) → Acc (List Piece)
  | [] => .ok [] s
  | (a, n) :: us =>
    (s.locate k vault a n tag).bind fun p t => (t.locateAll k vault tag us).bind fun ps u => .ok (p :: ps) u

/-! Checks at the target -/

/-- Permissions of a window that an access needs (04_vaults.md R74). -/
structure WinNeed where
  rd : Bool
  wr : Bool
  at_ : Bool
deriving DecidableEq, Repr

/-- What loads, stores and atomics need (04_vaults.md R74). -/
def AKind.need (k : AKind) : WinNeed :=
  match k with
  | .load => ⟨true, false, false⟩
  | .fetch => ⟨true, false, false⟩
  | .store => ⟨false, true, false⟩
  | .atomic => ⟨true, true, true⟩

/-- A window admits an access to an offset (04_vaults.md R73). -/
def winAdmits (w : Word) (ofs : Nat) (sameDie : Bool) (n : WinNeed) : Bool :=
  bitOf w.toNat 63 && decide (fld w 0 18 ≤ ofs / 64) && decide (ofs / 64 ≤ fld w 24 18) &&
    (decide (fld w 57 3 = 5) || (decide (fld w 57 3 = 4) && sameDie)) &&
    (!n.rd || bitOf w.toNat 62) && (!n.wr || bitOf w.toNat 61) && (!n.at_ || bitOf w.toNat 60)

/-- Steps 1 and 2 of R72: partition and context, for a party of a cluster that runs a context. -/
def State.vaultGate (s : State) (clus ctx target : Nat) : Option Nat :=
  if target = clus then none
  else if s.partOfClus target ≠ s.partOfClus clus ∨ s.partOfClus clus = 31 then some 7
  else if (s.clus target).ctx ≠ some ctx then some 6
  else none

/-- The refusal of an access to a vault offset by the owning core (04_vaults.md R72): none for the own cluster. -/
def State.vaultRefusal (s : State) (clus ctx key : Nat) (n : WinNeed) : Option Nat :=
  let target := key / 2 ^ 24
  let ofs := key % 2 ^ 24
  match s.vaultGate clus ctx target with
  | some c => some c
  | none =>
    if target = clus then none
    else if (s.core (coreIn target (ofs / 1024 % 8))).win.toList.any (fun w =>
        winAdmits w ofs (target / 64 = clus / 64) n) then none
    else some 6

/-- The refusal of a request at crossbar ingress or by its memory port, for a requester of a row (03_crossbar.md R54,
02_main_memory.md R32). -/
def State.portRefusal (s : State) (row pa : Nat) : Option Nat :=
  if !rowAllows (s.row row) (tgtOf pa) then some 7
  else if tgtOf pa < 24 ∧ 2 ^ 39 ≤ ofsOf pa then some 5
  else none

/-- The same for a slot, whose write of configuration space, and every access of a debug module's registers, is a
privilege matter (R41, R52, R370). -/
def State.slotRefusal (s : State) (row : Nat) (wr : Bool) (pa : Nat) : Option Nat :=
  if (tgtOf pa = 37 ∧ wr) ∨ isDebugReg pa then some 0x14 else s.portRefusal row pa

/-- The refusal of an access of the current slot at its target (step 5 of R165). The row is read before the shard cache
is looked at, so a refused load is refused though its line is held there (log entry 46). -/
def State.refusal (s : State) (p : Piece) (n : WinNeed) : Option Nat :=
  if p.vault then s.vaultRefusal (clusOf s.cur) s.me.ctx p.at_ n
  else if !n.wr && s.cfgLoads s.me.priv (shardOf (clusOf s.cur)) p.at_ then none
  else s.slotRefusal (shardOf (clusOf s.cur)) n.wr p.at_

/-- The accumulator a response adds its delay to (03_crossbar.md R59). -/
def lacIndex (p : Piece) : Fin 64 :=
  if p.vault then Fin.ofNat 64 (p.at_ / 256 % 32)
  else if tgtOf p.at_ < 24 then Fin.ofNat 64 (32 + (2 * tgtOf p.at_ + p.at_ / 256 % 2) % 30)
  else if tgtOf p.at_ = 24 then 62
  else 63

/-- The state after a response from a piece's target reached the current core (03_crossbar.md R58, R59). -/
def State.answered (s : State) (p : Piece) : State := s.addDelay (coreOf s.cur) (lacIndex p)

/-- The accumulator a refusal with a cause adds its delay to: an address error is a response of its memory port
(02_main_memory.md R32), every other has index 63 (03_crossbar.md R59). -/
def refusalIndex (p : Piece) (cause : Nat) : Fin 64 := if cause = 5 then lacIndex p else 63

/-- The state after a refusal of a piece reached the current core. -/
def State.refused (s : State) (p : Piece) (cause : Nat) : State := s.addDelay (coreOf s.cur) (refusalIndex p cause)

/-! Main memory -/

/-- Bytes of an atomic or reduction. -/
def atomBytes (d8 : Bool) : Nat := if d8 then 8 else 4

/-- Memory with one reduction applied (09_memory_instructions.md R185). -/
def redApply (op : RedOp) (d8 : Bool) (m : List Host.Cell) (a : Nat) (c : Word) : List Host.Cell :=
  let n := atomBytes d8
  writeBytes m a (leBytes n (redNew op d8 (leNat (readBytes m a n)) (c.toNat % 2 ^ (8 * n))))

/-- Memory with an entry of a write queue applied: a reduction as one operation per element (03_crossbar.md R60). -/
def WqEntry.apply (e : WqEntry) (m : List Host.Cell) : List Host.Cell :=
  match e.act with
  | .red op d8 ops => ops.foldl (fun m (a, c) => redApply op d8 m a c) m
  | .store pa bs => writeBytes m pa bs

/-- Memory with every pending entry of a line applied in arrival order. -/
def applyLine (line : Nat) (wq : List WqEntry) (m : List Host.Cell) : List Host.Cell :=
  (wq.filter (fun e => e.line = line)).foldl (fun m e => e.apply m) m

/-- Bytes a request of a port covers. -/
def portBytes (op : PortOp) : Nat :=
  match op with
  | .load n => n
  | .store bs => bs.length
  | .amo _ d8 _ => atomBytes d8
  | .cas d8 _ _ => atomBytes d8
  | .red _ d8 _ => atomBytes d8

/-- The lines that n bytes from an address lie in. -/
def linesOf (pa n : Nat) : List Nat := (List.range ((pa % 64 + n + 63) / 64)).map (pa / 64 + ·)

/-- A request touches a line. -/
def reqTouches (q : PortReq) (line : Nat) : Bool := (linesOf q.pa (portBytes q.op)).contains line

/-- What a request does at memory whose pending entries have been applied: what it returns, and the bytes it writes
(03_crossbar.md R60; 09_memory_instructions.md R181, R183, R185). -/
def portEffect (op : PortOp) (pa : Nat) (m : List Host.Cell) : List Byte × List Byte :=
  let n := portBytes op
  let old := readBytes m pa n
  match op with
  | .load _ => (old, [])
  | .store bs => ([], bs)
  | .amo f d8 c => (old, leBytes n (amoNew f d8 (leNat old) c))
  | .cas _ e c => (old, if leNat old = e.toNat % 2 ^ (8 * n) then leBytes n c.toNat else old)
  | .red f d8 c => ([], leBytes n (redNew f d8 (leNat old) (c.toNat % 2 ^ (8 * n))))

/-- Memory with a held request applied. -/
def reqOnMem (q : PortReq) (m : List Host.Cell) : List Host.Cell := writeBytes m q.pa (portEffect q.op q.pa m).2

/-- Copies of a line and fills of it withdrawn from every shard that holds them, before a write to it is performed
(04_vaults.md R64, R65). -/
def Xbar.withdraw (x : Xbar) (line : Nat) : Xbar :=
  { x with
    caches := x.caches.filter (fun e => e.2 ≠ line)
    fills := x.fills.map fun f => if f.line = line then { f with stale := true } else f }

/-- The 256 newest entries of a source at a port, and every other (03_crossbar.md R61). -/
def keepApplied (port row : Nat) : Nat → List Applied → List Applied
  | _, [] => []
  | n, e :: es =>
    if e.port = port ∧ e.row = row then (if n = 0 then keepApplied port row 0 es else e :: keepApplied port row (n - 1) es)
    else e :: keepApplied port row n es

/-- A response of a memory port, kept by its replay filter (03_crossbar.md R61). A posted request, which the host does
not expect an answer to and does not issue again, has none (log entry 46). -/
def Xbar.respond (x : Xbar) (q : PortReq) (data : List Byte) : Xbar :=
  if q.posted then x
  else { x with
    resps := x.resps ++ [{ req := q, data := data, poison := false, hold := false, addrError := false }]
    applied := keepApplied (tgtOf q.pa) q.row 256 ({ port := tgtOf q.pa, row := q.row, tag := q.tag, data := data } :: x.applied) }

/-- Requests answered, without data. -/
def Xbar.respondAll (x : Xbar) (qs : List PortReq) : Xbar := qs.foldl (fun x q => x.respond q []) x

/-- An entry of a write queue applied to the array, and its requests answered (03_crossbar.md R60, R63). -/
def State.applyEntry (s : State) (e : WqEntry) : State :=
  { s with mem := e.apply s.mem, xbar := s.xbar.respondAll e.asked }

/-- Every pending entry of a line applied (03_crossbar.md R60). -/
def State.settleLine (s : State) (line : Nat) : State :=
  (s.xbar.wq.filter (fun e => e.line = line)).foldl State.applyEntry
    { s with xbar := { s.xbar with wq := s.xbar.wq.filter (fun e => e.line ≠ line) } }

/-- What a load of n bytes returns: every earlier write to its lines, in the write queue or held in ingress, applied
(03_crossbar.md R60, R63). -/
def State.memView (s : State) (pa n : Nat) : List Byte :=
  let m := (linesOf pa n).foldl (fun m l => applyLine l s.xbar.wq m) s.mem
  readBytes ((s.xbar.ingress.filter fun q => (linesOf pa n).any (reqTouches q)).foldl (fun m q => reqOnMem q m) m) pa n

/-- Bytes written at a memory port or at host memory: behind the pending entries of their line, or to the array, and the
requests given answered then (03_crossbar.md R60). -/
def State.memStore (s : State) (pa : Nat) (bs : List Byte) (asked : List PortReq) : State :=
  let ls := linesOf pa bs.length
  let x := ls.foldl Xbar.withdraw s.xbar
  if ls.length = 1 ∧ x.wq.any (·.line = pa / 64) then
    { s with xbar := { x with wq := x.wq ++ [⟨pa / 64, .store pa bs, asked⟩] } }
  else
    let t := ls.foldl State.settleLine { s with xbar := x }
    { t with mem := writeBytes t.mem pa bs, xbar := t.xbar.respondAll asked }

/-- A pending reduction of an entry with one more operand: combined with the element's, or the first of its element
(03_crossbar.md R60). -/
def mergeOperand (op : RedOp) (d8 : Bool) (a : Nat) (c : Word) (ops : List (Nat × Word)) : List (Nat × Word) :=
  match ops.find? (·.1 = a) with
  | some (_, c0) =>
    let n := atomBytes d8
    let c' := word (redNew op d8 (c0.toNat % 2 ^ (8 * n)) (c.toNat % 2 ^ (8 * n)))
    ops.map fun (k, x) => if k = a then (k, c') else (k, x)
  | none => ops ++ [(a, c)]

/-- The write queue, newest entry first, with a reduction merged into the newest entry of its line, or none when that
is no reduction of the same operation and size (03_crossbar.md R60). -/
def wqMerge (op : RedOp) (d8 : Bool) (a : Nat) (c : Word) (asked : List PortReq) : List WqEntry → Option (List WqEntry)
  | [] => none
  | e :: es =>
    if e.line = a / 64 then
      match e.act with
      | .red op' d8' ops =>
        if op' = op ∧ d8' = d8 then
          some ({ e with act := .red op d8 (mergeOperand op d8 a c ops), asked := e.asked ++ asked } :: es)
        else none
      | .store .. => none
    else (wqMerge op d8 a c asked es).map (e :: ·)

/-- A reduction that reaches a memory port: merged, or a new entry behind the others (03_crossbar.md R60). -/
def wqAdd (wq : List WqEntry) (op : RedOp) (d8 : Bool) (a : Nat) (c : Word) (asked : List PortReq) : List WqEntry :=
  match wqMerge op d8 a c asked wq.reverse with
  | some l => l.reverse
  | none => wq ++ [⟨a / 64, .red op d8 [(a, c)], asked⟩]

/-- A reduction performed at main memory: queued at a memory port, applied at once at host memory (03_crossbar.md
R60). -/
def State.memReduce (s : State) (op : RedOp) (d8 : Bool) (pa : Nat) (c : Word) (asked : List PortReq) : State :=
  if tgtOf pa < 24 then
    let x := s.xbar.withdraw (pa / 64)
    { s with xbar := { x with wq := wqAdd x.wq op d8 pa c asked } }
  else { s with mem := redApply op d8 s.mem pa c, xbar := s.xbar.respondAll asked }

/-- A request performed at its memory, and answered (03_crossbar.md R60): a store or a reduction when it is applied, an
AMO or CAS after every earlier entry of its lines. -/
def State.portDo (s : State) (q : PortReq) : State :=
  match q.op with
  | .load n => { s with xbar := s.xbar.respond q (s.memView q.pa n) }
  | .store bs => s.memStore q.pa bs [q]
  | .red op d8 c => s.memReduce op d8 q.pa c [q]
  | _ =>
    let ls := linesOf q.pa (portBytes q.op)
    let t := ls.foldl State.settleLine { s with xbar := ls.foldl Xbar.withdraw s.xbar }
    let (data, bs) := portEffect q.op q.pa t.mem
    { t with mem := writeBytes t.mem q.pa bs, xbar := t.xbar.respond q data }

/-- Entries of the write queue of a memory port. -/
def Xbar.queued (x : Xbar) (port : Nat) : Nat := (x.wq.filter fun e => e.line / 2 ^ 36 = port).length

/-- A memory port holds stores, AMO, CAS and RED in ingress: its write queue is full, or requests are held already
(03_crossbar.md R63). -/
def Xbar.busy (x : Xbar) (port : Nat) : Bool :=
  decide (port < 24) && (decide (256 ≤ x.queued port) || x.ingress.any fun q => tgtOf q.pa == port)

/-- Requests of a source outstanding at a memory-side port (03_crossbar.md R61). -/
def Xbar.credits (x : Xbar) (row port : Nat) : Nat :=
  x.outstanding.countP fun (q, _) => decide (q.row = row) && decide (tgtOf q.pa = port)

/-- A source has no credit left at the port of an address (03_crossbar.md R61). -/
def State.noCredit (s : State) (row pa : Nat) : Bool := decide (256 ≤ s.xbar.credits row (tgtOf pa))

/-- The oldest entry of a port's write queue drained to the array (03_crossbar.md R63). -/
def State.drainOne (s : State) (port : Nat) : State :=
  match s.xbar.wq.find? (fun e => e.line / 2 ^ 36 = port) with
  | none => s
  | some e =>
    State.applyEntry { s with xbar := { s.xbar with wq := s.xbar.wq.eraseP (fun e => e.line / 2 ^ 36 = port) } } e

/-- A store or reduction of a unit of this package performed at a memory port or host memory (03_crossbar.md R60). -/
def State.memDo (s : State) (q : PortReq) : State :=
  match q.op with
  | .store bs => s.memStore q.pa bs []
  | .red op d8 c => s.memReduce op d8 q.pa c []
  | _ => s

/-! Shard caches (04_vaults.md R64 to R66) -/

/-- The lines of a shard's cache, and of a memory port's sharer directory, that share a set with a line: 8,192 sets of
16 ways, and 16,384 (04_vaults.md R65; log entry 47). -/
def Xbar.setMates (x : Xbar) (shard line : Nat) : List Nat :=
  (x.caches.filter fun c => decide (c.1 = shard) &&
      decide (Config.cacheSet c.2 % 8192 = Config.cacheSet line % 8192)).map (·.2)
/-- The lines of a port's directory that share a set with a line, least recently used first. -/
def Xbar.dirMates (x : Xbar) (line : Nat) : List Nat :=
  ((x.caches.map (·.2)).filter fun l =>
    decide (l / 2 ^ 36 = line / 2 ^ 36) && decide (Config.dirSet l % 16384 = Config.dirSet line % 16384)).eraseDups

/-- A line allocated in a shard's cache (04_vaults.md R64, R65): the least recently used of a full set goes, and where
the line is new to a full set of its port's directory, the entry evicted there is invalidated in every sharer. -/
def Xbar.allocate (x : Xbar) (shard line : Nat) : Xbar :=
  if x.caches.contains (shard, line) then x
  else
    let x := match x.dirMates line with
      | l :: ls => if !(l :: ls).contains line && decide (16 ≤ (l :: ls).length) then x.withdraw l else x
      | [] => x
    let kept := match x.setMates shard line with
      | l :: ls => if 16 ≤ (l :: ls).length then x.caches.filter (· ≠ (shard, l)) else x.caches
      | [] => x.caches
    { x with caches := kept ++ [(shard, line)] }

/-- A read of a line through a translation that allows the shard cache: a hit may meet a parity error, which is counted
and makes it a miss; a miss starts a fill where it allocates (04_vaults.md R64 to R66). -/
def State.shardRead (s : State) (shard pa : Nat) (alloc : Bool) : State :=
  let line := pa / 64
  let x := s.xbar
  let fill (x : Xbar) : Xbar :=
    if !alloc || x.fills.any (fun f => f.shard = shard ∧ f.line = line) then x
    else { x with fills := x.fills ++ [⟨shard, line, false⟩] }
  if 24 ≤ tgtOf pa then s
  else if x.caches.contains (shard, line) then
    let rest := x.caches.filter (· ≠ (shard, line))
    let t := { s with clk := { s.clk with draws := s.clk.draws + 1 } }
    if Config.parityError s.clk.draws then
      { t with xbar := fill { x with
          caches := rest
          parity := kset x.parity shard (kget 0 x.parity shard + 1) } }
    else { t with xbar := { x with caches := rest ++ [(shard, line)] } }
  else { s with xbar := fill x }

/-! Other packages (03_crossbar.md R51, R54, R62) -/

/-- Free bytes (log entries 10, 11). -/
def State.freeBytes (s : State) (n : Nat) : List Byte := (List.range n).map (Config.freeByte s.clk.draws)

/-- A flit or an operation of a block counted for a partition (19_tenants_and_metering.md R365). -/
def State.countOp (s : State) (block part : Nat) : State :=
  let k := block * 32 + part % 32
  { s with meter := { s.meter with ops := kset s.meter.ops k (kget 0 s.meter.ops k + 1) } }

/-- The partition a flit is sent for, where its body tells. -/
def State.flitPart (s : State) (b : FlitBody) : Option Nat :=
  match b with
  | .msg m => some (s.ctxOf m.ctx).part
  | .memReq q => some (q.row % 32)
  | .ret ctx _ _ _ => some (s.ctxOf ctx).part
  | .borrow ctx _ _ _ _ _ _ => some (s.ctxOf ctx).part
  | .grant _ ctx _ _ _ _ _ => some (s.ctxOf ctx).part
  | .refuse _ ctx _ _ _ _ => some (s.ctxOf ctx).part
  | .loss ctx _ _ _ _ _ => some (s.ctxOf ctx).part
  | .stats ctx _ _ _ => some (s.ctxOf ctx).part
  | .leave _ ctx _ _ => some (s.ctxOf ctx).part
  | .context c => some (s.ctxOf c.desc.ctx).part
  | _ => none

/-- A flit queued at an Odnerlink port (21_host_firmware_security.md R386), and counted. -/
def State.sendFlit (s : State) (port : Nat) (b : FlitBody) : State :=
  let s := match s.flitPart b with
    | some p => s.countOp (2 + port) p
    | none => s
  let l := s.link port
  let at_ := if l.unacked.isEmpty then s.clk.hub else l.sentAt
  s.setLink port { l with
    sentAt := at_
    unacked := l.unacked ++ [{ seq := l.nextSeq % 4096, src := s.fw.pkg, crcGood := true, body := b }]
    nextSeq := (l.nextSeq + 1) % 4096 }

/-- The answer to a request of another package, counted for the partition of its sub-port. -/
def State.answerFlit (s : State) (port : Nat) (q : PortReq) (b : FlitBody) : State :=
  (s.countOp (2 + port) ((q.row - 96) % 24)).sendFlit port b

/-! Requests that are answered later (03_crossbar.md R51, R54, R61 to R63) -/

/-- A device physical address lies at another package. -/
def isRemote (pa : Nat) : Bool := decide (25 ≤ tgtOf pa) && decide (tgtOf pa ≤ 36)

/-- The Odnerlink port to a remote address. -/
def portTo (pa : Nat) : Nat := tgtOf pa - 25

/-- A request at an address fails beyond replay at once: its link has failed (03_crossbar.md R62). -/
def State.linkDown (s : State) (pa : Nat) : Bool := isRemote pa && !(s.link (portTo pa)).up

/-- A read, or another access, at an address cannot be performed in the step that makes it: its port is at another
package, gives no answer (log entry 52), or holds stores, AMO, CAS and RED in ingress (03_crossbar.md R63); n entries of
the port's write queue are bespoken. -/
def State.mustAsk (s : State) (pa : Nat) (load : Bool) (n : Nat := 0) : Bool :=
  isRemote pa || s.xbar.silent.contains (tgtOf pa) ||
    (!load && (s.xbar.busy (tgtOf pa) || (decide (tgtOf pa < 24) && decide (256 ≤ s.xbar.queued (tgtOf pa) + n))))

/-- The source number of a core's prefetch engine, and of its network interface, in requests: no places. -/
def prefetchSrc (core : Nat) : Nat := 2 ^ 17 + core
/-- The source number of a core's network interface. -/
def ifaceSrc (core : Nat) : Nat := 2 ^ 18 + core
/-- The core whose prefetch engine a source number is. -/
def prefetchOf (src : Nat) : Option Nat := if 2 ^ 17 ≤ src ∧ src < 2 ^ 18 then some (src - 2 ^ 17) else none
/-- The core whose network interface a source number is. -/
def ifaceOf (src : Nat) : Option Nat := if 2 ^ 18 ≤ src then some (src - 2 ^ 18) else none

/-- A request of a unit of this package is on its way already. -/
def State.askedFor (s : State) (q : PortReq) : Bool :=
  s.xbar.outstanding.any fun y => { y.1 with tag := 0, replay := false, reissues := 0 } == q

/-- What a request to another package carries over Odnerlink (log entry 11): a tag of its own, and its partition where
a request of this package carries its row, the hub's requests the partition they are made for. It awaits an answer
there even where it awaits none here, since a refusal comes back for a posted request too (03_crossbar.md R54). -/
def State.remoteReq (s : State) (q : PortReq) (tag : Nat) (replay : Bool) : PortReq :=
  { row := if q.row = 384 ∧ q.src = 65536 then q.act else rowPart (s.row q.row), tag := tag, src := q.src, pa := q.pa,
      op := q.op, posted := false, replay := replay,
    reissues := 0 }

/-- A request to another package through an Odnerlink port (03_crossbar.md R51; log entry 11): it is noted there until
it is answered. -/
def State.askRemote (s : State) (q : PortReq) : State :=
  let port := portTo q.pa
  let tag := s.xbar.nextTag % 65536
  let t := { s with xbar := { s.xbar with nextTag := s.xbar.nextTag + 1 } }.sendFlit port (.memReq (s.remoteReq q tag false))
  let l := t.link port
  t.setLink port { l with asked := l.asked ++ [⟨q, tag⟩] }

/-- A request of a unit of this package made at its port, with a fresh tag, and outstanding until it is answered
(03_crossbar.md R61): sent to another package, held in ingress, or taken by a port that gives no answer. -/
def State.askUnit (s : State) (q : PortReq) : State :=
  let q' := { q with tag := s.xbar.nextTag % 65536 }
  let x := s.xbar
  let t := { s with xbar := { x with outstanding := x.outstanding ++ [(q', s.rowClock q.row)], nextTag := x.nextTag + 1 } }
  if x.silent.contains (tgtOf q.pa) then t
  else if isRemote q.pa then t.askRemote q'
  else
    let y := (linesOf q.pa (portBytes q.op)).foldl Xbar.withdraw t.xbar
    { t with xbar := { y with ingress := y.ingress ++ [q'] } }

/-- A request of a unit asked once, when its source has a credit (03_crossbar.md R61). -/
def State.askOnce (s : State) (q : PortReq) : State :=
  if s.askedFor q || s.noCredit q.row q.pa then s else s.askUnit q

/-- A request only reads. -/
def isPortLoad (op : PortOp) : Bool :=
  match op with
  | .load _ => true
  | _ => false

/-- A reduction, whose head has gone on. -/
def isPortRed (op : PortOp) : Bool :=
  match op with
  | .red .. => true
  | _ => false

/-- Writes of a kernel's activations that have not been answered: at another package, at a port that holds them, or at
one that gives no answer (16_ordering.md R309, R324; 12_way_back.md R256). -/
def State.writesOpen (s : State) (ctx kslot : Nat) : Bool :=
  s.xbar.outstanding.any fun (q, _) =>
    decide (q.row < 32) && decide (q.ctx = ctx) && decide (q.kslot = kslot) && !isPortLoad q.op

/-! Poison (04_vaults.md R71, 18_faults_and_preemption.md R344, 20_debug.md R380) -/

/-- The bank of a vault key (04_vaults.md R69). -/
def bankOf (key : Nat) : Nat := key / 16 % 512

/-- An armed injection poisons the next read of a bank. -/
def State.poisonArmed (s : State) (key : Nat) : Bool :=
  let w := (s.clus (key / 2 ^ 24)).inj
  bitOf w.toNat 0 && decide (fld w 4 4 = 3) && decide (fld w 16 9 = bankOf key)

/-- The state after an injection fired: disarmed, with its trace record (20_debug.md R378, R380). -/
def State.injFired (s : State) (clus place kind ctx kslot : Nat) (pc data : Word) : State :=
  let k := s.clus clus
  (s.setClus clus { k with inj := k.inj &&& ~~~1 }).trace place 7 kind ctx kslot pc data

/-- The vault words, by key / 8, that n bytes from a key lie in. -/
def wordsAt (key n : Nat) : List Nat := (List.range ((key % 8 + n + 7) / 8)).map (key / 8 + ·)

/-- The places of a trace ring that n bytes from an offset touch (20_debug.md R377). -/
def ringPlaces (trccfg : Word) (ofs n : Nat) : List Nat :=
  let base := fld trccfg 16 18 * 64
  (List.range (n / 32 + 2)).filterMap fun i =>
    let a := ofs / 32 * 32 + 32 * i
    if base ≤ a ∧ a < ofs + n ∧ a < base + 32 * 2 ^ (fld trccfg 12 4 + 5) then some ((a - base) / 32) else none

/-- The state after n bytes from a key are read at their bank, and whether a double-bit error poisons the response:
single-bit errors are corrected and counted (04_vaults.md R71), and trace records read are noted (20_debug.md R377). -/
def State.bankRead (s : State) (key n : Nat) : Bool × State :=
  let hit := (wordsAt key n).filter (khas s.flaws)
  let single := hit.filter fun w => !kget false s.flaws w
  let c := key / 2 ^ 24
  let k := s.clus c
  let t := if single.isEmpty then s else
    { s.setClus c { k with eccCount := k.eccCount + single.length } with flaws := single.foldl kdel s.flaws }
  let k := t.clus c
  let u := if k.trcnew.isEmpty then t else
    t.setClus c { k with trcnew := (ringPlaces k.trccfg (key % 2 ^ 24) n).foldl sremove k.trcnew }
  (single.length != hit.length, u)

/-- Whether the read of n bytes from a key for an activation is poisoned, by an armed injection or a double-bit error,
and the state after it (04_vaults.md R71, 20_debug.md R380); data is what the injection's record holds. -/
def State.vaultRead (s : State) (key n ctx kslot : Nat) (pc data : Word) : Bool × State :=
  if s.poisonArmed key then
    (true, s.injFired (key / 2 ^ 24) (key / 2 ^ 24 * 128 + key / 1024 % 8 * 8) 3 ctx kslot pc data)
  else s.bankRead key n

/-- An entry of a cluster's error log: a poisoned response at a place (18_faults_and_preemption.md R344). -/
def State.logAt (s : State) (clus place cause : Nat) (addr : Word) : State :=
  s.setClus clus { s.clus clus with errlog := (s.clus clus).errlog ++ [(place, cause, addr)] }

/-- The state after a poisoned response reached a requester at a place of a cluster (R344). -/
def State.logError (s : State) (place cause : Nat) (addr : Word) : State := s.logAt (clusOf place) place cause addr

/-- The first 16 bytes of a range of a vault whose bank an armed injection poisons (20_debug.md R380). -/
def State.armedIn (s : State) (key n : Nat) : Option Nat :=
  ((List.range (n / 16 + 2)).map fun i => key / 16 * 16 + 16 * i).find? fun a => decide (a < key + n) && s.poisonArmed a

/-- Bytes of a vault read by an engine at a place for an activation's context, or none for a poisoned response, which a
cluster's error log keeps (04_vaults.md R71; 18_faults_and_preemption.md R344). -/
def State.engineRead (s : State) (clus place ctx kslot key n : Nat) : Option (List Byte) × State :=
  let at_ := (s.armedIn key n).getD key
  match s.vaultRead at_ n ctx kslot 0 (vaultAddr at_) with
  | (true, t) => (none, t.logAt clus place 5 (vaultAddr key))
  | (false, t) => (some (readBytes t.vault key n), t)

/-- TVAL of a poisoned response (18_faults_and_preemption.md R344). -/
def poisonTval (t : Word) : Word := word (2 ^ 63 + t.toNat)

/-- A poisoned response to the current slot. -/
def Piece.poisoned {α : Type} (p : Piece) (s : State) : Acc α :=
  .bad 5 (poisonTval p.tval) true ((s.answered p).logError s.cur 5 p.tval)

/-! Performing an access -/

/-- The activation that made a request is in a slot. -/
def Slot.made (sl : Slot) (q : PortReq) : Bool := sl.occ && decide (sl.act = q.act)

/-- Reductions of the activation in a place that have not been answered: within the package, or anywhere (16_ordering.md
R309, R313, R324). -/
def State.redsOpen (s : State) (place : Nat) (anywhere : Bool) : Bool :=
  s.xbar.outstanding.any fun (q, _) =>
    decide (q.row < 32) && decide (q.src = place) && (s.slot place).made q && isPortRed q.op &&
        (anywhere || !isRemote q.pa)


/-- The request of a slot at a place for a piece. -/
def State.slotReq (s : State) (place : Nat) (p : Piece) (op : PortOp) : PortReq :=
  let sl := s.slot place
  { row := shardOf (clusOf place), tag := 0, src := place, pa := p.at_, op := op, posted := false, replay := false,
      reissues := 0,
    va := some p.tval, act := sl.act, ctx := sl.ctx, kslot := sl.kslot }

/-- The answer that has come to an access of the current head made earlier. -/
def State.remoteRes (s : State) (p : Piece) (op : PortOp) : Option RemRes :=
  if p.vault then none else (s.me.rans.find? fun a => a.pa = p.at_ ∧ a.op = op).map (·.res)

/-- An access of the current head has been made at its port, and is past ingress (03_crossbar.md R55). -/
def State.asked (s : State) (a : Piece × PortOp) : Bool := !a.1.vault && s.askedFor (s.slotReq s.cur a.1 a.2)

/-- An access of the current head, behind n of its accesses, has no answer yet and cannot be performed without. -/
def State.unanswered (s : State) (n : Nat) (a : Piece × PortOp) : Bool :=
  !a.1.vault && (s.remoteRes a.1 a.2).isNone &&
    (s.asked a || (s.mustAsk a.1.at_ (isPortLoad a.2) n && !s.linkDown a.1.at_))

/-- Accesses of the current head, up to the first that is refused as it would enter ingress: those that cannot be
performed in this step are made at their ports, once each, and the head goes on when every one is answered
(03_crossbar.md R51, R54, R55, R63). -/
def withAnswers {α : Type} (s : State) (need : WinNeed) (l : List (Piece × PortOp)) (k : State → Acc α) : Acc α :=
  let made := l.takeWhile fun a => (s.remoteRes a.1 a.2).isSome || s.asked a || (s.refusal a.1 need).isNone
  let rest := ((List.range made.length).zip made).filterMap fun (n, a) => if s.unanswered n a then some a else none
  if rest.isEmpty then k s
  else
    let t := rest.foldl (fun t a => t.askOnce (t.slotReq t.cur a.1 a.2)) s
    .wait (if rest.any t.asked then t.setMe { t.me with park := .remote } else t)

/-- An access of the current head whose answer has come, or one made now: data, poison, or a refusal (03_crossbar.md
R54, R55, R62; 02_main_memory.md R32). What has been answered is not checked again. -/
def State.answerOr (s : State) (partial_ : Bool) (need : WinNeed) (p : Piece) (op : PortOp) (now : State → Acc (List Byte)) :
    Acc (List Byte) :=
  match s.remoteRes p op with
  | some (.data bs) => .ok bs (s.answered p)
  | some .refused => .bad 7 p.tval partial_ (s.refused p 7)
  | some .addressError => .bad 5 p.tval partial_ (s.answered p)
  | some .poisoned => p.poisoned s
  | none =>
    match s.refusal p need with
    | some c => .bad c p.tval partial_ (s.refused p c)
    | none => if !p.vault && s.linkDown p.at_ then p.poisoned s else now s

/-- Reads a located piece whose answer is there if it had to be asked for (steps 5 and 6 of R165). -/
def State.readOne (s : State) (need : WinNeed) (p : Piece) : Acc (List Byte) :=
  s.answerOr false need p (.load p.n) fun s =>
    if p.vault then
      match s.vaultRead p.at_ p.n s.me.ctx s.me.kslot s.me.pc p.tval with
      | (true, t) => p.poisoned t
      | (false, t) => .ok (readBytes t.vault p.at_ p.n) (t.answered p)
    else if tgtOf p.at_ = 37 then .ok (s.cfgRead (ofsOf p.at_) p.n) (s.answered p)
    else
      .ok (s.memView p.at_ p.n)
        ((if p.sc then s.shardRead (shardOf (clusOf s.cur)) p.at_ true else s).answered p)

/-- Reads a located piece (steps 5 and 6 of R165). -/
def State.readPiece (s : State) (need : WinNeed) (p : Piece) : Acc (List Byte) :=
  withAnswers s need [(p, .load p.n)] fun t => t.readOne need p

/-- Reads located pieces; the first failure counts. -/
def State.readEach (s : State) (need : WinNeed) : List Piece → Acc (List (List Byte))
  | [] => .ok [] s
  | p :: ps => (s.readOne need p).bind fun b t => (t.readEach need ps).bind fun bs u => .ok (b :: bs) u

/-- Reads located pieces: each of at most eight bytes brings a response of its own (03_crossbar.md R59; log entry 46).
-/
def State.readPieces (s : State) (need : WinNeed) (ps : List Piece) : Acc (List (List Byte)) :=
  withAnswers s need (ps.map fun p => (p, .load p.n)) fun t => t.readEach need ps

/-- A vault key lies in an active galley's record (06_copy_and_galleys.md R113). -/
def State.inGalley (s : State) (key n : Nat) : Bool :=
  (s.clus (key / 2 ^ 24)).galleys.any fun g => decide (g < key % 2 ^ 24 + n) && decide (key % 2 ^ 24 < g + 128)

/-- Writes a located piece whose answer is there if it had to be asked for (steps 5 and 6 of R165); partial tells that
other elements have been written, and then a failure is not resumable (R179). -/
def State.writeOne (s : State) (partial_ : Bool) (p : Piece) (bs : List Byte) : Acc Unit :=
  (s.answerOr partial_ AKind.store.need p (.store bs) fun s =>
    if p.vault then
      if s.inGalley p.at_ p.n then .bad 0x0F p.tval partial_ (s.answered p)
      else .ok [] ({ s with vault := writeBytes s.vault p.at_ bs }.answered p)
    else .ok [] ((s.memDo (s.slotReq s.cur p (.store bs))).answered p)).bind fun _ t => .ok () t

/-- Writes located pieces in order. -/
def State.writeEach (s : State) (partial_ : Bool) : List (Piece × List Byte) → Acc Unit
  | [] => .ok () s
  | (p, bs) :: ps => (s.writeOne partial_ p bs).bind fun _ t => t.writeEach true ps

/-- Writes located pieces in order, when those that had to be asked for are answered. One that has been performed there
counts as written when another fails (R179). -/
def State.writePieces (s : State) (partial_ : Bool) (l : List (Piece × List Byte)) : Acc Unit :=
  withAnswers s AKind.store.need (l.map fun a => (a.1, .store a.2)) fun t =>
    t.writeEach (partial_ || l.any fun a => match t.remoteRes a.1 (.store a.2) with | some (.data _) => true | _ => false) l

/-- Writes a located piece. -/
def State.writePiece (s : State) (partial_ : Bool) (p : Piece) (bs : List Byte) : Acc Unit :=
    s.writePieces partial_ [(p, bs)]

/-- An atomic read and write of a located piece (09_memory_instructions.md R181, R183): upd gives the new value of the
old one, or none when nothing is written. The result is the old value. At a memory port that holds requests it takes its
turn in ingress (03_crossbar.md R63). -/
def State.updatePiece (s : State) (op : PortOp) (upd : Nat → Option Nat) (p : Piece) : Acc Nat :=
  withAnswers s AKind.atomic.need [(p, op)] fun s =>
  (s.answerOr false AKind.atomic.need p op fun s =>
    if p.vault then
      match s.vaultRead p.at_ p.n s.me.ctx s.me.kslot s.me.pc p.tval with
      | (true, t) => p.poisoned t
      | (false, t) =>
        let old := readBytes t.vault p.at_ p.n
        .ok old (match upd (leNat old) with
          | some new => { t with vault := writeBytes t.vault p.at_ (leBytes p.n new) }.answered p
          | none => t.answered p)
    else
      let t := { s with xbar := s.xbar.withdraw (p.at_ / 64) }.settleLine (p.at_ / 64)
      let old := readBytes t.mem p.at_ p.n
      .ok old ((match upd (leNat old) with
        | some new => { t with mem := writeBytes t.mem p.at_ (leBytes p.n new) }
        | none => t).answered p)).bind fun bs t => .ok (leNat bs) t

/-! Reductions and messages of a slot (09_memory_instructions.md R187, 13_handlers_and_messages.md R264) -/

/-- The piece of a buffered reduction. -/
def RedReq.piece (r : RedReq) : Piece := ⟨r.tval, r.vault, r.addr, atomBytes r.d8, false⟩

/-- A reduction must wait for a credit of its source at its port (03_crossbar.md R61). -/
def State.stopped (s : State) (p : Piece) : Bool :=
  !p.vault && s.mustAsk p.at_ false && s.noCredit (shardOf (clusOf s.cur)) p.at_

/-- Performs a reduction of a slot at a place: the state, and the refusal or poison with the value TVAL takes. One that
cannot be performed in this step is made at its port and answered later. -/
def State.perform (s : State) (place : Nat) (r : RedReq) : Option (Nat × Word) × State :=
  let sl := s.slot place
  let p := r.piece
  let got (s : State) : State := s.addDelay (coreOf place) (lacIndex p)
  let poisoned (s : State) : Option (Nat × Word) × State :=
    (some (5, poisonTval r.tval), (got s).logError place 5 r.tval)
  if r.vault then
    match s.vaultRefusal (clusOf place) sl.ctx r.addr AKind.atomic.need with
    | some c => (some (c, r.tval), s.addDelay (coreOf place) 63)
    | none =>
      match s.vaultRead r.addr (atomBytes r.d8) sl.ctx sl.kslot sl.pc r.tval with
      | (true, t) => poisoned t
      | (false, t) => (none, got { t with vault := redApply r.op r.d8 t.vault r.addr r.c })
  else
    let q := { s.slotReq place p (.red r.op r.d8 r.c) with row := r.row }
    match s.slotRefusal r.row true r.addr with
    | some c => (some (c, r.tval), s.addDelay (coreOf place) (refusalIndex p c))
    | none =>
      if s.linkDown r.addr then poisoned s
      else if s.mustAsk r.addr false then (none, s.askUnit q)
      else (none, got (s.memDo q))

/-- A message a slot transmits: an armed injection of kind 2 drops it (20_debug.md R380); a message that leaves the
package or stays goes into the sender's interface. -/
def State.transmit (s : State) (m : Msg) : State :=
  let w := (s.clus (clusOf m.src)).inj
  if isSlot m.src && decide (m.wt ≠ 0) && bitOf w.toNat 0 && decide (fld w 4 4 = 2) &&
      decide (coreOf (fld w 32 16) = coreOf m.src) then
    (s.injFired (clusOf m.src) m.src 2 m.ctx m.kslot (s.slot m.src).pc (word m.wt)).loseMsg m 5 m.src
  else s.post m

/-- A message of this package that its target refuses on arrival (13_handlers_and_messages.md R433). -/
def State.refusesMsg (s : State) (m : Msg) : Bool :=
  decide (m.dpkg = s.fw.pkg) && (feederOf m.dest).isNone && !s.deliverable m

/-! The shapes of the memory forms -/

/-- A long-latency access whose pointer and address form have passed: its outcome is delivered under its lookahead
(R131, R133). -/
def loadForm (l : Look) (dests : List Dest) (acc : Acc (List RegVal × FFlags)) : State :=
  match acc with
  | .ok (vals, fl) t => t.deliver l dests (.ok vals fl)
  | .wait t => t
  | .bad c tv nr t => t.deliver l dests (.bad c tv nr)

/-- A form that completes at issue without a result: done, or its trap. -/
def storeForm (a : Acc Unit) : State :=
  match a with
  | .ok () t => t.done
  | .wait t => t
  | .bad c tv nr t => if nr then t.trapNR c tv else t.trap c tv

end Sys2Proof.Machine
end

