-- ==== Sys2Proof/Machine/Observe.lean ====
section
/-!
DEFINITION. Counting for profiling sessions (20_debug.md R381): the counters of the virtual function of a context, and
the samples an armed counter writes.
-/

namespace Sys2Proof.Machine

/-- Host memory's base as a device physical address (02_main_memory.md R31). -/
def hostBase : Nat := 24 * 2 ^ 42

/-- Profiled events (20_debug.md R381). -/
inductive PEvent where
  | heads | bindings | aborts | traps | commands | copyBytes | requests | delays
deriving DecidableEq, Repr

/-- The event number. -/
def PEvent.code (e : PEvent) : Nat :=
  match e with
  | .heads => 1
  | .bindings => 2
  | .aborts => 3
  | .traps => 4
  | .commands => 5
  | .copyBytes => 6
  | .requests => 7
  | .delays => 8

/-- The state with one sample of a function written to its host ring, announced (21_host_firmware_security.md R384), and
written to the trace ring of the place's cluster. -/
def State.sample (s : State) (vf cix place ctx kslot : Nat) (pc : Word) (count : Nat) : State :=
  let se := kget {} s.host.sessions vf
  let ring := s.reg (.psring vf)
  let w1 := place % 65536 + 6 * 2 ^ 16 + cix * 2 ^ 24 + ctx % 65536 * 2 ^ 32 + kslot % 64 * 2 ^ 48
  let bytes := leBytes 8 (s.cycleOf (coreOf place)).toNat ++ leBytes 8 w1 ++ leBytes 8 pc.toNat ++ leBytes 8 count
  let at_ := hostBase + fld ring 12 52 * 4096 + 32 * (se.prod.toNat % (2 ^ fld ring 0 4 * 128))
  let t := { s with
    mem := writeBytes s.mem at_ bytes
    host := { s.host with sessions := kset s.host.sessions vf { se with prod := se.prod + 1 } } }
  (t.irq vf 2 [at_, count]).trace place 6 cix ctx kslot pc (word count)

/-- k samples one after the other. -/
def State.samples (s : State) (vf cix place ctx kslot : Nat) (pc : Word) (count : Nat) : Nat → State
  | 0 => s
  | k + 1 => (s.sample vf cix place ctx kslot pc count).samples vf cix place ctx kslot pc count k

/-- The state after n occurrences of an event for the counters of a session, counter index i first of those listed. -/
def State.countFor (s : State) (vf : Nat) (e : PEvent) (n place ctx kslot : Nat) (pc : Word) : List Nat → State
  | [] => s
  | i :: is =>
    let se := kget {} s.host.sessions vf
    let c := kget {} se.cnts i
    if c.evt = some e.code then
      let count := min (c.count + n) (2 ^ 63 - 1)
      let fired := if c.armed ∧ c.per ≠ 0 then (n + (c.per - c.left)) / c.per else 0
      let left := if c.armed ∧ c.per ≠ 0 then c.per - (n + (c.per - c.left)) % c.per else c.left
      let se' := { se with cnts := kset se.cnts i { c with count := count, left := left } }
      let t := { s with host := { s.host with sessions := kset s.host.sessions vf se' } }
      (t.samples vf i place ctx kslot pc count fired).countFor vf e n place ctx kslot pc is
    else s.countFor vf e n place ctx kslot pc is

/-- n occurrences of an event for a context, seen at a place: counted when its function has a session open. -/
def State.count (s : State) (e : PEvent) (n place ctx kslot : Nat) (pc : Word) : State :=
  let vf := (s.ctxOf ctx).vf
  if (kget {} s.host.sessions vf).isOpen && decide (n ≠ 0) then
    s.countFor vf e n place ctx kslot pc [0, 1, 2, 3, 4, 5, 6, 7]
  else s

end Sys2Proof.Machine
end

