-- ==== Sys2Proof/Machine/Activation.lean ====
section
/-!
DEFINITION. The ends of an activation: giving up the matrix unit, abort, kill and END's last steps
(11_matrix_unit.md R221, R229, R250; 13_handlers_and_messages.md R273; 14_weight_and_quiescence.md R282, R283;
18_faults_and_preemption.md R340 to R346; 06_copy_and_galleys.md R108).
-/

namespace Sys2Proof.Machine

/-! The matrix queue given up -/

/-- The outcomes of queued commands when their queue is discarded, oldest first: a command that could have retired,
since it and every one before it have run, keeps its outcome, and every other is discarded with code 0x0B (R221,
R229). -/
def discardOuts (keep : Bool) : List MCmd → List (Nat × Nat)
  | [] => []
  | c :: cs =>
    match keep, c.st with
    | true, .done => (c.seq, 0) :: discardOuts true cs
    | true, .faulted k => (c.seq, k) :: discardOuts false cs
    | _, _ => (c.seq, 0x0B) :: discardOuts false cs

/-- A token's answer to the outcomes of retired commands of a core: complete, or faulted with the code (R228). -/
def matrixHit (core : Nat) (outs : List (Nat × Nat)) (src : TokSrc) : Option (Option Nat) :=
  match src with
  | .matrix c q =>
    if c = core then
      match outs.find? (·.1 = q) with
      | some (_, 0) => some none
      | some (_, k) => some (some k)
      | none => none
    else none
  | _ => none

/-- An accumulator with 256 free elements (R229; log entry 9); n is the step. -/
def Matrix.freeAcc (m : Matrix) (acc n : Nat) : Matrix :=
  { m with accs := (List.range 256).foldl (fun a i => kset a (acc * 256 + i) (Config.freeElement n i)) m.accs }

/-- The accumulator a queued command named that has faulted, if it named one (R221, R229). -/
def MCmd.lostAcc (c : MCmd) : Option Nat :=
  let w := c.words.toList.getD 0 0
  match c.st with
  | .faulted _ => if 1 ≤ fld w 0 8 ∧ fld w 0 8 ≤ 5 then some (fld w 8 2) else none
  | _ => none

/-- Every queued command retired, oldest first; MQFLT and STOP cleared, and the accumulator that a faulting command
named free, whether it had retired or not (R221, R229). -/
def State.discardQueue (s : State) (core : Nat) : State :=
  let k := s.core core
  let m := k.mx
  let outs := discardOuts (!m.stop) m.queue
  let m' := { m with
    queue := []
    done := match m.queue.getLast? with | some c => BitVec.ofNat 16 c.seq | none => m.done
    outcomes := keepNewest 64 (outs.reverse ++ m.outcomes)
    stop := false
    mqflt := 0
    fltAcc := none }
  let m' := (m.fltAcc.toList ++ m.queue.filterMap MCmd.lostAcc).foldl (fun x a => x.freeAcc a s.clk.ticks) m'
  (s.setCore core { k with mx := m' }).settleClusTokens (core / 16) (matrixHit core outs)

/-- The core of a place owned by the activation in that place. -/
def State.ownsMatrix (s : State) (place : Nat) : Bool :=
  let m := (s.core (coreOf place)).mx
  m.owner == some place && m.leaving.isNone

/-- Ownership ended. -/
def State.dropOwner (s : State) (place : Nat) : State :=
  let k := s.core (coreOf place)
  s.setCore (coreOf place) { k with mx := { k.mx with owner := none, leaving := none } }

/-- A command of the unit is running: it waits for a ring latch (R240), or for an earlier command to end (R425). -/
def Matrix.runs (m : Matrix) : Bool := m.queue.any fun c => c.st == .started || c.st == .read

/-- The matrix unit given up by an activation that is aborted, discarded or killed: at once, or once the running command
has finished (R221). -/
def State.loseMatrix (s : State) (place : Nat) : State :=
  let k := s.core (coreOf place)
  if !s.ownsMatrix place then s
  else if k.mx.runs then s.setCore (coreOf place) { k with mx := { k.mx with leaving := some (s.slot place).kslot } }
  else (s.discardQueue (coreOf place)).dropOwner place

/-! Requests withdrawn -/

/-- Requests of a slot held at vault banks withdrawn (R340). -/
def State.withdrawHeld (s : State) (place : Nat) : State :=
  { s with clusters := s.clusters.map fun (k, c) => (k, { c with held := c.held.filter (fun h => h.place ≠ place) }) }

/-- A requester's translation requests closed in its cluster (02_main_memory.md R42). -/
def State.closeXlat (s : State) (clus : Nat) (who : Requester) : State :=
  let k := s.clus clus
  s.setClus clus { k with reqs := (k.reqs.map fun r =>
    { r with waiters := r.waiters.filter (fun w => w.who ≠ who) }).filter (fun r => !r.waiters.isEmpty) }

/-- The slot freed; its core may be idle from now on (17_scheduling_and_power.md R339). -/
def State.freeSlot (s : State) (place : Nat) : State :=
  let t := s.setSlot place {}
  let now := t.dieClock (dieOf place)
  if isService place then t.setClus (clusOf place) { t.clus (clusOf place) with idleSince := now }
  else t.setCore (coreOf place) { t.core (coreOf place) with idleSince := now }

/-! Abort (R340, R341) -/

/-- A message put on the fault-wait list of a core's cluster, or into the core's spill ring when the list is full
(R341). -/
def State.faultWait (s : State) (core : Nat) (m : Msg) (tsid addr act : Nat) : State :=
  let c := s.clus (core / 16)
  if c.fwait.length < 128 then
    s.setClus (core / 16) { c with fwait := c.fwait ++
      [{ core := core, msg := m, tsid := tsid, addr := addr / 65536 * 65536, act := act }] }
  else { s with net := s.net ++ [{ msg := m, held := false, since := s.msgClock m, ring := true }] }

/-- Abort up to freeing the slot; the requeued message is the one the slot was bound with (R340). -/
def State.abortSlot (s : State) (place : Nat) : State :=
  let sl := s.slot place
  let s1 := ((s.withdrawHeld place).closeXlat (clusOf place) (.slot place)).loseMatrix place
  let s2 := s1.trace place 8 0 sl.ctx sl.kslot sl.pc (word (match sl.msg with | some m => m.wt | none => sl.wt))
  (s2.count .aborts 1 place sl.ctx sl.kslot sl.pc).freeSlot place

/-- The owner of a core's matrix unit whose running command has not finished (R221). -/
def State.mustWait (s : State) (place : Nat) : Bool := s.ownsMatrix place && (s.core (coreOf place)).mx.runs

/-- The end of an activation put off until its running matrix command has finished (R221): it issues no head, and its
requests are withdrawn. -/
def State.putOff (s : State) (place : Nat) (d : Death) : State :=
  let t := (s.withdrawHeld place).closeXlat (clusOf place) (.slot place)
  t.setSlot place { t.slot place with dying := some d }

/-- Abort for a page answered absent, the unit's command at an end (R340). -/
def State.abortNow (s : State) (place addr : Nat) : State :=
  let sl := s.slot place
  let t := s.abortSlot place
  match sl.msg with
  | some m => t.faultWait (coreOf place) m (s.tsidOf sl) addr sl.act
  | none => t

/-- Abort for a page answered absent (R340), which waits for the owner's running command (R221). -/
def State.abort (s : State) (place addr : Nat) : State :=
  if s.mustWait place then s.putOff place (.abort addr) else s.abortNow place addr

/-- The live transfers of a cluster: queued, started, or waiting for room in the inbox (06_copy_and_galleys.md R103). -/
def ClusSt.transfers (c : ClusSt) : List Transfer := c.copies ++ c.chans ++ c.entering.map (·.1)

/-- Copy transfers of an activation queued or in flight (06_copy_and_galleys.md R108). -/
def ClusSt.flightsOf (c : ClusSt) (act : Nat) : Nat := (c.transfers.filter (fun t => t.act = act)).length

/-- Entries of a fault-wait list that an entry written into the cluster's TLB covers are marked; those marked whose
copies are done leave the list and arrive at their cores again (R342). -/
def State.releaseWaits (s : State) (clus : Nat) (covered : FaultWait → Bool) : State :=
  let c := s.clus clus
  let marked := c.fwait.map fun w => { w with covered := w.covered || covered w }
  let free (w : FaultWait) : Bool := w.covered && decide (c.flightsOf w.act = 0)
  { s.setClus clus { c with fwait := marked.filter fun w => !free w } with
    net := s.net ++ (marked.filter free).map fun w => { msg := w.msg, held := false, since := s.msgClock w.msg } }

/-- Statistics counts of a kernel slot sent home ahead of the weight (R252). -/
def State.sendStats (s : State) (place : Nat) : State :=
  let sl := s.slot place
  let k := s.core (coreOf place)
  match kget [] k.mx.stats sl.kslot with
  | [] => s
  | cnt =>
    (s.setCore (coreOf place) { k with mx := { k.mx with stats := kdel k.mx.stats sl.kslot } }).wire
      (.stats sl.ctx sl.kslot sl.hpkg cnt)

/-- The statistics counts of an owner of its core's matrix unit sent home, ahead of its weight (R252). -/
def State.statsHome (s : State) (place : Nat) : State := if s.ownsMatrix place then s.sendStats place else s

/-! Kill (R346) -/

/-- Weight in the buffered sends of a commit buffer. -/
def bufferedWeight : List BufEntry → Nat
  | [] => 0
  | .send m :: es => m.wt + bufferedWeight es
  | .red _ :: es => bufferedWeight es

/-- A core whose gang member is gone is free for gangs again (17_scheduling_and_power.md R333). -/
def State.gangDone (s : State) (place : Nat) : State :=
  if (s.slot place).gang then s.setCore (coreOf place) { s.core (coreOf place) with gang := none } else s

/-- A killed slot, the unit's command at an end (R346): its buffer and tokens go, its matrix queue is lost, and its
weight, with that of the sends its buffer held, becomes a loss notice of cause 4. -/
def State.killNow (s : State) (place : Nat) : State :=
  let sl := s.slot place
  if !sl.occ then s
  else
    let s1 := ((((s.statsHome place).withdrawHeld place).closeXlat (clusOf place) (.slot place)).loseMatrix place).gangDone place
    (s1.freeSlot place).lose sl.ctx sl.kslot sl.hpkg (sl.wt + bufferedWeight sl.cbuf) 4 place

/-- Kill (R346), which waits for the owner's running command (R221). -/
def State.kill (s : State) (place : Nat) : State :=
  if (s.slot place).occ && s.mustWait place then s.putOff place .kill else s.killNow place

/-! Failures after END (18_faults_and_preemption.md R345) -/

/-- An error record of a failure that reached an activation after its END, passed to the host (R345). -/
def State.report (s : State) (ctx kslot cause : Nat) (tval : Word) (place : Nat) : State :=
  { s with reports := s.reports ++ [(ctx, kslot, tval, cause, place)] }.irq 64 0 [ctx, kslot, tval.toNat, cause, place]

/-- A reduction of a slot failed at its target: its trap comes before the activation's next head
(09_memory_instructions.md R187), wherever the activation is, or is reported when it has ended (R345). -/
def State.redFailed (s : State) (q : PortReq) (cause : Nat) (tval : Word) : State :=
  let fail (sl : Slot) : Slot := { sl with late := sl.late.or (some (cause, tval)) }
  let a := s.save q.ctx (clusOf q.src)
  if (s.slot q.src).made q && (s.slot q.src).dying.isNone then s.setSlot q.src (fail (s.slot q.src))
  else if (kget {} a.slots q.src).made q then
    s.setSave q.ctx (clusOf q.src) { a with slots := kset a.slots q.src (fail (kget {} a.slots q.src)) }
  else s.report q.ctx q.kslot cause tval q.src

/-! The commit point (13_handlers_and_messages.md R270, R273) -/

/-- The buffered reductions performed in buffer order; a refused one does not stop the rest, and the first refusal is
kept (R273). -/
def State.performAll (s : State) (place : Nat) : List BufEntry → Option (Nat × Word) × State
  | [] => (none, s)
  | .send _ :: es => s.performAll place es
  | .red r :: es =>
    let (f, t) := s.perform place r
    let (g, u) := t.performAll place es
    (f.or g, u)

/-- The buffered sends released in buffer order. One that its target refuses becomes a loss notice and does not stop
the rest; the result is the first refusal, with cause 0x07 and a trap value no rule states (13_handlers_and_messages.md
R273, R433; log entries 14, 50). -/
def State.releaseAll (s : State) : List BufEntry → Option (Nat × Word) × State
  | [] => (none, s)
  | .red _ :: es => s.releaseAll es
  | .send m :: es =>
    if s.refusesMsg m then
      let t := { s with clk := { s.clk with draws := s.clk.draws + 1 } }.loseMsg m 1 m.dest
      let (_, u) := t.releaseAll es
      (some (7, Config.freeWord s.clk.draws), u)
    else (s.transmit m).releaseAll es

/-- An entry of a commit buffer is a send. -/
def BufEntry.isSend (e : BufEntry) : Bool :=
  match e with
  | .send _ => true
  | .red _ => false

/-- The buffered reductions of a slot performed in buffer order; its sends stay in the buffer, with the first
refusal. -/
def State.performBuffer (s : State) (place : Nat) : State :=
  let (f, t) := s.performAll place (s.slot place).cbuf
  let sl := t.slot place
  t.setSlot place { sl with cbuf := sl.cbuf.filter BufEntry.isSend, cfail := f }

/-- The buffered sends of a slot released in buffer order, behind the statistics counts of a matrix unit whose owner
gives all its weight away (11_matrix_unit.md R252). The result is the first refusal of the commit. -/
def State.releaseBuffer (s : State) (place : Nat) : Option (Nat × Word) × State :=
  let sl := s.slot place
  let s := if sl.spent && !sl.cbuf.isEmpty then s.statsHome place else s
  let (g, t) := s.releaseAll sl.cbuf
  (sl.cfail.or g, t.setSlot place { t.slot place with cbuf := [], cfail := none })

/-- A commit buffer performed and released (R270, R273): its reductions in buffer order, then its sends. The result is
the first refusal. -/
def State.emptyBuffer (s : State) (place : Nat) : Option (Nat × Word) × State :=
    (s.performBuffer place).releaseBuffer place

/-- The buffer of a slot at END (R273): performed and released, or the rest of it, where its reductions kept it waiting.
-/
def State.endBuffer (s : State) (place : Nat) : Option (Nat × Word) × State :=
  if (s.slot place).irrev then s.releaseBuffer place else s.emptyBuffer place

/-- A slot commits (R270): its buffered reductions are performed in buffer order, then its buffered sends released in
buffer order, and IRREV is set; a slot that has committed has only sends left to release, if its reductions kept it
waiting. The result is the first refusal. -/
def State.commitAt (s : State) (place : Nat) : Option (Nat × Word) × State :=
  let sl := s.slot place
  if sl.irrev then if sl.cbuf.isEmpty && sl.cfail.isNone then (none, s) else s.releaseBuffer place
  else
    let (f, t) := s.emptyBuffer place
    (f, t.setSlot place { t.slot place with irrev := true })

/-- A buffered reduction cannot be performed in the step that commits it, or its ingress is stopped
(21_host_firmware_security.md R395). -/
def State.redWaits (s : State) (e : BufEntry) : Bool :=
  match e with
  | .red r => !r.vault && (s.fw.halted || (s.mustAsk r.addr false 32 && !s.linkDown r.addr))
  | .send _ => false

/-- The commit of a slot, and what it commits for, waits: a buffered reduction cannot be performed at once, or one of
the package that went out has not been performed (16_ordering.md R309, R313). -/
def State.commitStops (s : State) (place : Nat) : Bool :=
  let sl := s.slot place
  if sl.irrev then s.redsOpen place false else sl.cbuf.any s.redWaits

/-- What a commit that waits has done: its reductions are made at their ports, when their source has credits for them
all (03_crossbar.md R61), and it counts as committed from then on, since an abort could not take them back. -/
def State.commitWait (s : State) (place : Nat) : State :=
  let sl := s.slot place
  let short (e : BufEntry) : Bool :=
    match e with
    | .red r => !r.vault && decide (256 ≤ s.xbar.credits r.row (tgtOf r.addr) + 32)
    | .send _ => false
  if sl.irrev || s.fw.halted || sl.cbuf.any short then s
  else
    let t := s.performBuffer place
    t.setSlot place { t.slot place with irrev := true }

/-- The current slot commits and goes on, or waits, or traps at its head when a buffered reduction was refused (R167,
R273). -/
def withCommit (s : State) (k : State → State) : State :=
  if s.commitStops s.cur then s.commitWait s.cur else
  match s.commitAt s.cur with
  | (none, t) => k t
  | (some (c, tv), t) => t.trapNR c tv

/-- A release of package scope waits until the slot's own reductions have been performed (16_ordering.md R309, R313). -/
def withRelease (rel : Bool) (s : State) (k : State → State) : State := if rel && s.redsOpen s.cur false then s else k s

/-! END (R273) -/

/-- Steps 3 to 5 of END, after its buffer has been performed and released: statistics, ownership and the slot go, and
the weight returns, withheld while copy transfers of the activation are in flight (R108, R273, R282); one without weight
withholds none, but is noted, since a copy that fails now is reported (18_faults_and_preemption.md R345). -/
def State.endSlot (s : State) (place : Nat) : State :=
  let sl := s.slot place
  let clus := clusOf place
  let s1 := if s.ownsMatrix place then (s.sendStats place).dropOwner place else s
  let s2 := match sl.late with
    | some (c, tv) => s1.report sl.ctx sl.kslot c tv place
    | none => s1
  let s3 := (s2.gangDone place).freeSlot place
  if (s.clus clus).flightsOf sl.act ≠ 0 then
    s3.setClus clus { s3.clus clus with withheld := (s3.clus clus).withheld ++
      [{ act := sl.act, ctx := sl.ctx, kslot := sl.kslot, hpkg := sl.hpkg, wt := sl.wt }] }
  else s3.returnWeight clus sl.ctx sl.kslot sl.hpkg sl.wt

end Sys2Proof.Machine
end

