-- ==== Sys2Proof/Machine/LoadStore.lean ====
section
/-!
DEFINITION. Scalar loads and stores (09_memory_instructions.md R169, R170). An acquire or release form has the same
effect on the state: a slot's accesses are performed in program order (R168; log entry 6).
-/

namespace Sys2Proof.Machine

/-- Bytes of a scalar load (R170). -/
def loadBytes (sz : LoadSize) : Nat :=
  match sz with
  | .b | .bs => 1
  | .h | .hs => 2
  | .w | .ws => 4
  | .d => 8

/-- The register value of the loaded bytes (R170). -/
def loadValue (sz : LoadSize) (n : Nat) : Word :=
  match sz with
  | .bs => (BitVec.ofNat 8 n).signExtend 64
  | .hs => (BitVec.ofNat 16 n).signExtend 64
  | .ws => (BitVec.ofNat 32 n).signExtend 64
  | _ => word n

/-- Bytes of a scalar store (R170). -/
def storeBytes (sz : StoreSize) : Nat :=
  match sz with
  | .b => 1
  | .h => 2
  | .w => 4
  | .d => 8

/-- A scalar read of n bytes at an address of either space by the current slot. -/
def State.readScalar (s : State) (vault : Bool) (a n tag : Nat) : Acc (List Byte) :=
  (s.locate .load vault a n tag).bind fun p t => t.readPiece AKind.load.need p

/-- A scalar write of n bytes at an address of either space by the current slot. -/
def State.writeScalar (s : State) (vault : Bool) (a : Nat) (bs : List Byte) (tag : Nat) : Acc Unit :=
  (s.locate .store vault a bs.length tag).bind fun p t => t.writePiece false p bs

/-- LD and LDV (R170). -/
def State.scalarLoad (s : State) (vault : Bool) (sz : LoadSize) (a b : XReg) (l : Look) (disp : BitVec 20) : State :=
  withRoom s fun s =>
    match operand vault (s.x b) (dispOf disp) (loadBytes sz) (loadBytes sz) with
    | .bad c tv => s.trap c tv
    | .ok addr =>
      loadForm l [.x a] ((s.readScalar vault addr (loadBytes sz) (tagOf (s.x b))).bind fun bs t =>
        .ok ([.x a (loadValue sz (leNat bs))], {}) t)

/-- ST and STV (R170). -/
def State.scalarStore (s : State) (vault : Bool) (sz : StoreSize) (a b : XReg) (disp : BitVec 20) : State :=
  match operand vault (s.x b) (dispOf disp) (storeBytes sz) (storeBytes sz) with
  | .bad c tv => s.trap c tv
  | .ok addr => storeForm (s.writeScalar vault addr (leBytes (storeBytes sz) (s.x a).toNat) (tagOf (s.x b)))

/-- LD (R170). -/
def execLd (sz : LoadSize) (_acq : Bool) (a b : XReg) (l : Look) (disp : BitVec 20) (s : State) : Out :=
  .next (s.scalarLoad false sz a b l disp)

/-- LDV (R170). -/
def execLdv (sz : LoadSize) (_acq : Bool) (a b : XReg) (l : Look) (disp : BitVec 20) (s : State) : Out :=
  .next (s.scalarLoad true sz a b l disp)

/-- ST (R170). -/
def execSt (sz : StoreSize) (rel : Bool) (a b : XReg) (disp : BitVec 20) (s : State) : Out :=
  .next (withRelease rel s fun s => s.scalarStore false sz a b disp)

/-- STV (R170). -/
def execStv (sz : StoreSize) (rel : Bool) (a b : XReg) (disp : BitVec 20) (s : State) : Out :=
  .next (withRelease rel s fun s => s.scalarStore true sz a b disp)

end Sys2Proof.Machine
end

