-- ==== Sys2Proof/Machine/Tagged.lean ====
section
/-!
DEFINITION. Tagged words (09_memory_instructions.md R171 to R173; 04_vaults.md R76, R77): the forms, the requests held
at a bank, and their service when a tag changes.
-/

namespace Sys2Proof.Machine

/-- The vault word at a key is full (04_vaults.md R76). -/
def State.isFull (s : State) (key : Nat) : Bool := !s.empty.contains (key / 8)

/-- The state with the tag of a word set. -/
def State.setTag (s : State) (key : Nat) (full : Bool) : State :=
  { s with empty := if full then sremove s.empty (key / 8) else sinsert s.empty (key / 8) }

/-- Eight bytes of a vault written. -/
def State.putWord (s : State) (key : Nat) (w : Word) : State :=
  { s with vault := writeBytes s.vault key (leBytes 8 w.toNat) }

/-- Eight bytes of a vault read. -/
def State.getWord (s : State) (key : Nat) : Word := word (leNat (readBytes s.vault key 8))

/-- The state with a slot's waiting result of a head given its outcome. -/
def State.answerOut (s : State) (place : Nat) (pc : Word) (v : OutVal) : State :=
  let sl := s.slot place
  s.setSlot place { sl with outs := sl.outs.map fun r =>
    if r.pc = pc ∧ r.val = .waiting then { r with val := v } else r }

/-- A held request is answered: its slot's result is there, or its parked head retires with it (R172). -/
def State.heldDone (s : State) (h : HeldReq) (vals : List RegVal) : State :=
  if h.inWin then s.answerOut h.place h.pc (.ok vals {})
  else
    let sl := s.slot h.place
    let sl' := if sl.rex.any (·.2) then sl else vals.foldl Slot.putVal sl
    s.setSlot h.place { sl'.retire (vals.map RegVal.dest) with park := .run }

/-- A held request is answered with poison (18_faults_and_preemption.md R344). -/
def State.heldPoisoned (s : State) (h : HeldReq) (tv : Word) : State :=
  let t := s.logError h.place 5 tv
  if h.inWin then t.answerOut h.place h.pc (.bad 5 (poisonTval tv) true)
  else t.trapIn h.place 5 (poisonTval tv) true

/-- The tag lets a held request proceed (R171). -/
def State.heldReady (s : State) (key : Nat) (f : TagForm) : Bool :=
  match f with
  | .ldf => s.isFull key
  | .ldfe => s.isFull key
  | .ste => !s.isFull key

/-- A held request performed at its bank (R171): the word is read, or written, and the tag changes. -/
def State.heldPerform (s : State) (clus : Nat) (h : HeldReq) : State :=
  let key := clus * 2 ^ 24 + h.ofs
  let t := s.addDelay (coreOf h.place) (lacIndex ⟨0, true, key, 8, false⟩)
  match h.form with
  | .ste =>
    match t.bankRead key 8 with
    | (true, u) => u.heldPoisoned h h.tval
    | (false, u) => ((u.putWord key h.data).setTag key true).heldDone h []
  | f =>
    match t.vaultRead key 8 (s.slot h.place).ctx (s.slot h.place).kslot h.pc h.tval with
    | (true, u) => u.heldPoisoned h h.tval
    | (false, u) => (if f = .ldfe then u.setTag key false else u).heldDone h [.x h.dest (u.getWord key)]

/-- Requests held at a word served in arrival order as its tag allows (04_vaults.md R77): those that proceed leave the
queue, and each sees the tag its predecessors left. -/
def State.serveList (s : State) (clus : Nat) : List HeldReq → State × List HeldReq
  | [] => (s, [])
  | h :: hs =>
    if !h.returned && s.heldReady (clus * 2 ^ 24 + h.ofs) h.form then
      (s.heldPerform clus h).serveList clus hs
    else
      let (t, rest) := s.serveList clus hs
      (t, h :: rest)

/-- The held requests of a cluster served until no tag lets one proceed: a request behind another may change the tag
for one before it, at most once for each request held. -/
def State.serve (s : State) (clus : Nat) : Nat → State
  | 0 => s
  | n + 1 =>
    let held := (s.clus clus).held
    let (t, rest) := s.serveList clus held
    if rest.length = held.length then t
    else (t.setClus clus { t.clus clus with held := rest }).serve clus n

/-- The state after a tag of a cluster's vault changed. -/
def State.tagChanged (s : State) (clus : Nat) : State := s.serve clus ((s.clus clus).held.length + 1)

/-- A request that must wait enters its bank's queue behind the others, or is returned when sixteen are held there
(04_vaults.md R77). -/
def State.holdAt (s : State) (key : Nat) (h : HeldReq) : State :=
  let clus := key / 2 ^ 24
  let c := s.clus clus
  let bank := c.held.filter fun x => !x.returned && decide (bankOf x.ofs = bankOf h.ofs)
  s.setClus clus { c with held := c.held ++ [{ h with returned := decide (16 ≤ bank.length), since := s.dieClock (clus / 64) }] }

/-- A request that reaches its bank again, after it was returned or after a restore: performed where its tag lets it, or
held or returned (04_vaults.md R75, R77). The window is not checked again when it comes back after 64 cycles: R75 checks
an access once, and leaves open whether the second attempt is a new one (log entry 46, the model's choice). -/
def State.offer (s : State) (clus : Nat) (h : HeldReq) : State :=
  let key := clus * 2 ^ 24 + h.ofs
  (if s.heldReady key h.form then s.heldPerform clus h else s.holdAt key h).tagChanged clus

/-- The address of a tagged form and its key: aligned to eight bytes (R171). -/
def State.tagWord (s : State) (b : XReg) (disp : BitVec 20) (k : Word → Nat → State) : State :=
  match vaultOperand (s.x b) (dispOf disp) 8 8 with
  | .bad c tv => s.trap c tv
  | .ok a => k (word a) (vaultKey (clusOf s.cur) a)

/-- An access of the current slot to the word at a vault key, checked at the core that owns it (04_vaults.md R72). -/
def State.ownerCheck (s : State) (tv : Word) (key : Nat) (need : WinNeed) (no : Nat → State → State)
    (k : Piece → State → State) : State :=
  let p : Piece := ⟨tv, true, key, 8, false⟩
  match s.vaultRefusal (clusOf s.cur) s.me.ctx key need with
  | some c => no c (s.refused p c)
  | none => k p s

/-- The word and its tag read together at their bank, under one code (04_vaults.md R71): poisoned, or the tag and the
word. -/
def State.readTagged (s : State) (p : Piece) : Acc (Bool × Word) :=
  match s.vaultRead p.at_ 8 s.me.ctx s.me.kslot s.me.pc p.tval with
  | (true, t) => p.poisoned t
  | (false, t) => .ok (t.isFull p.at_, t.getWord p.at_) (t.answered p)

/-- LDF and LDFE once their address has passed (and, for LDFE, the slot has committed): refused, performed, or held at
the bank (R171, R172). -/
def State.waitFull (s : State) (f : TagForm) (a : XReg) (l : Look) (tv : Word) (key : Nat) : State :=
  s.ownerCheck tv key ⟨true, f = .ldfe, false⟩ (fun c t => t.deliver l [.x a] (.bad c tv false)) fun p s =>
    if s.isFull key then
      loadForm l [.x a] ((s.readTagged p).bind fun r t =>
        .ok ([.x a r.2], {}) (if f = .ldfe then (t.setTag key false).tagChanged (key / 2 ^ 24) else t))
    else match s.bankRead key 8 with
      | (true, t) => loadForm l [.x a] (p.poisoned t)
      | (false, t) =>
        let win := decide (l.val ≠ 0) && t.me.rex.isNone
        let u := if win then t.deliver l [.x a] .waiting else t.setMe { t.me with park := .bank }
        u.holdAt key { place := s.cur, ofs := key % 2 ^ 24, form := f, dest := a, data := 0, pc := s.me.pc,
                       inWin := win, returned := false, tval := tv }

/-- LDF (R171). -/
def execLdf (a b : XReg) (l : Look) (disp : BitVec 20) (s : State) : Out :=
  .next (withRoom s fun s => s.tagWord b disp fun tv key => s.waitFull .ldf a l tv key)

/-- LDFE (R171): irrevocable (R167). -/
def execLdfe (a b : XReg) (l : Look) (disp : BitVec 20) (s : State) : Out :=
  .next (withRoom s fun s => s.tagWord b disp fun tv key => withCommit s fun s => s.waitFull .ldfe a l tv key)

/-- TAGRD (R171). -/
def execTagrd (a b : XReg) (l : Look) (disp : BitVec 20) (s : State) : Out :=
  .next (withRoom s fun s => s.tagWord b disp fun tv key =>
    s.ownerCheck tv key ⟨true, false, false⟩ (fun c t => t.deliver l [.x a] (.bad c tv false)) fun p s =>
      loadForm l [.x a] ((s.readTagged p).bind fun r t => .ok ([.x a (if r.1 then 1 else 0)], {}) t))

/-- LDFT (R171): irrevocable (R167). -/
def execLdft (a c b : XReg) (l : Look) (disp : BitVec 20) (s : State) : Out :=
  .next (withRoom s fun s => s.tagWord b disp fun tv key => withCommit s fun s =>
    s.ownerCheck tv key ⟨true, false, false⟩ (fun cause t => t.deliver l [.x a, .x c] (.bad cause tv false)) fun p s =>
      loadForm l [.x a, .x c] ((s.readTagged p).bind fun r t =>
        if r.1 then .ok ([.x a r.2, .x c 1], {}) ((t.setTag key false).tagChanged (key / 2 ^ 24))
        else .ok ([.x c 0], {}) t))

/-- A writing tagged form that waits for nothing, after its commit: refused, or performed (R171). -/
def State.tagWrite (s : State) (tv : Word) (key : Nat) (act : State → State) : State :=
  s.ownerCheck tv key ⟨false, true, false⟩ (fun c t => t.trap c tv) fun p s =>
    (act (s.answered p)).done.tagChanged (key / 2 ^ 24)

/-- STE (R171): irrevocable; its bank reads the tag, under one code with the word (04_vaults.md R71), and it parks the
slot at once when the word is full (R172). -/
def execSte (a b : XReg) (disp : BitVec 20) (s : State) : Out :=
  .next (s.tagWord b disp fun tv key =>
    let w := s.x a
    withCommit s fun s => s.ownerCheck tv key ⟨false, true, false⟩ (fun c t => t.trap c tv) fun p s =>
      match s.bankRead key 8 with
      | (true, t) => storeForm (p.poisoned t)
      | (false, s) =>
      if s.isFull key then
        (s.setMe { s.me with park := .bank }).holdAt key
          { place := s.cur, ofs := key % 2 ^ 24, form := .ste, dest := 0, data := w, pc := s.me.pc, inWin := false,
            returned := false, tval := tv }
      else s.tagWrite tv key fun t => (t.putWord key w).setTag key true)

/-- STF (R171): irrevocable. -/
def execStf (a b : XReg) (disp : BitVec 20) (s : State) : Out :=
  .next (s.tagWord b disp fun tv key =>
    let w := s.x a
    withCommit s fun s => s.tagWrite tv key fun t => (t.putWord key w).setTag key true)

/-- TAGSETF (R171): irrevocable. -/
def execTagsetf (b : XReg) (disp : BitVec 20) (s : State) : Out :=
  .next (s.tagWord b disp fun tv key => withCommit s fun s => s.tagWrite tv key fun t => t.setTag key true)

/-- TAGSETE (R171): irrevocable. -/
def execTagsete (b : XReg) (disp : BitVec 20) (s : State) : Out :=
  .next (s.tagWord b disp fun tv key => withCommit s fun s => s.tagWrite tv key fun t => t.setTag key false)

end Sys2Proof.Machine
end

