-- ==== Sys2Proof/Machine/Atomic.lean ====
section
/-!
DEFINITION. AMO, CAS, RED and FENCE (09_memory_instructions.md R180 to R188). Orderings have no further effect: a slot's
accesses are performed in program order (log entry 6).
-/

namespace Sys2Proof.Machine

/-- AMO and CAS (R181, R183): steps 1 to 4 of R165, then the commit (R167), then the access; xA gets the old value. -/
def State.atomic (s : State) (l : Look) (a b : XReg) (d8 vault : Bool) (op : PortOp) (upd : Nat → Option Nat) : State :=
  withRoom s fun s =>
    match operand vault (s.x b) 0 (atomBytes d8) (atomBytes d8) with
    | .bad c tv => s.trap c tv
    | .ok addr =>
      match s.locate .atomic vault addr (atomBytes d8) (tagOf (s.x b)) with
      | .wait t => t
      | .bad c tv nr t => t.deliver l [.x a] (.bad c tv nr)
      | .ok p t => withCommit t fun t =>
          loadForm l [.x a] ((t.updatePiece op upd p).bind fun old u => .ok ([.x a (word old)], {}) u)

/-- AMO of an operation (R181). -/
def State.amo (s : State) (op : AmoOp) (a b c : XReg) (l : Look) (d8 vault : Bool) : State :=
  s.atomic l a b d8 vault (.amo op d8 (s.x c)) fun old => some (amoNew op d8 old (s.x c))

/-- AMO.Swap (R181). -/
def execAmoSwap (a b c : XReg) (l : Look) (_ord : AmoOrd) (d8 vault : Bool) (s : State) : Out :=
  .next (s.amo .swap a b c l d8 vault)

/-- AMO.Add (R181). -/
def execAmoAdd (a b c : XReg) (l : Look) (_ord : AmoOrd) (d8 vault : Bool) (s : State) : Out :=
  .next (s.amo .add a b c l d8 vault)

/-- AMO.And (R181). -/
def execAmoAnd (a b c : XReg) (l : Look) (_ord : AmoOrd) (d8 vault : Bool) (s : State) : Out :=
  .next (s.amo .and a b c l d8 vault)

/-- AMO.Or (R181). -/
def execAmoOr (a b c : XReg) (l : Look) (_ord : AmoOrd) (d8 vault : Bool) (s : State) : Out :=
  .next (s.amo .or a b c l d8 vault)

/-- AMO.Xor (R181). -/
def execAmoXor (a b c : XReg) (l : Look) (_ord : AmoOrd) (d8 vault : Bool) (s : State) : Out :=
  .next (s.amo .xor a b c l d8 vault)

/-- AMO.Min (R181). -/
def execAmoMin (a b c : XReg) (l : Look) (_ord : AmoOrd) (d8 vault : Bool) (s : State) : Out :=
  .next (s.amo .min a b c l d8 vault)

/-- AMO.Max (R181). -/
def execAmoMax (a b c : XReg) (l : Look) (_ord : AmoOrd) (d8 vault : Bool) (s : State) : Out :=
  .next (s.amo .max a b c l d8 vault)

/-- AMO.MinN (R181). -/
def execAmoMinN (a b c : XReg) (l : Look) (_ord : AmoOrd) (d8 vault : Bool) (s : State) : Out :=
  .next (s.amo .minN a b c l d8 vault)

/-- AMO.MaxN (R181). -/
def execAmoMaxN (a b c : XReg) (l : Look) (_ord : AmoOrd) (d8 vault : Bool) (s : State) : Out :=
  .next (s.amo .maxN a b c l d8 vault)

/-- AMO.Incw (R181). -/
def execAmoIncw (a b c : XReg) (l : Look) (_ord : AmoOrd) (d8 vault : Bool) (s : State) : Out :=
  .next (s.amo .incw a b c l d8 vault)

/-- AMO.Bfadd (R181). -/
def execAmoBfadd (a b c : XReg) (l : Look) (_ord : AmoOrd) (d8 vault : Bool) (s : State) : Out :=
  .next (s.amo .bfadd a b c l d8 vault)

/-- CAS (R183): xA holds the expected value. -/
def execCas (a b c : XReg) (l : Look) (_succ : AmoOrd) (_facq : Bool) (d8 vault : Bool) (s : State) : Out :=
  let w := 8 * atomBytes d8
  .next (s.atomic l a b d8 vault (.cas d8 (s.x a) (s.x c)) fun old =>
    if old = (s.x a).toNat % 2 ^ w then some ((s.x c).toNat % 2 ^ w) else none)

/-- RED (R185, R187): steps 1 to 4 of R165 at issue; then it is buffered, or after the commit point sent at once, and a
failure found there waits for the slot's next head. -/
def State.reduce (s : State) (op : RedOp) (b c : XReg) (d8 vault : Bool) : State :=
  match operand vault (s.x b) 0 (atomBytes d8) (atomBytes d8) with
  | .bad cause tv => s.trap cause tv
  | .ok addr =>
    match s.locate .atomic vault addr (atomBytes d8) (tagOf (s.x b)) with
    | .wait t => t
    | .bad cause tv nr t => if nr then t.trapNR cause tv else t.trap cause tv
    | .ok p t =>
      let r : RedReq := ⟨vault, p.at_, p.tval, op, d8, s.x c, shardOf (clusOf s.cur)⟩
      let sl := t.me
      if sl.irrev ∧ t.stopped p = true then t
      else if sl.irrev then
        let (f, u) := t.perform t.cur r
        (u.setMe { u.me with late := u.me.late.or f }).done
      else if 32 ≤ sl.cbuf.length then t.trapOpen 0x13
      else (t.setMe { sl with cbuf := sl.cbuf ++ [.red r] }).done

/-- RED.Add (R185). -/
def execRedAdd (b c : XReg) (rel : Bool) (d8 vault : Bool) (s : State) : Out :=
  .next (withRelease rel s fun s => s.reduce .add b c d8 vault)

/-- RED.And (R185). -/
def execRedAnd (b c : XReg) (rel : Bool) (d8 vault : Bool) (s : State) : Out :=
  .next (withRelease rel s fun s => s.reduce .and b c d8 vault)

/-- RED.Or (R185). -/
def execRedOr (b c : XReg) (rel : Bool) (d8 vault : Bool) (s : State) : Out :=
  .next (withRelease rel s fun s => s.reduce .or b c d8 vault)

/-- RED.Xor (R185). -/
def execRedXor (b c : XReg) (rel : Bool) (d8 vault : Bool) (s : State) : Out :=
  .next (withRelease rel s fun s => s.reduce .xor b c d8 vault)

/-- RED.Min (R185). -/
def execRedMin (b c : XReg) (rel : Bool) (d8 vault : Bool) (s : State) : Out :=
  .next (withRelease rel s fun s => s.reduce .min b c d8 vault)

/-- RED.Max (R185). -/
def execRedMax (b c : XReg) (rel : Bool) (d8 vault : Bool) (s : State) : Out :=
  .next (withRelease rel s fun s => s.reduce .max b c d8 vault)

/-- RED.MinN (R185). -/
def execRedMinN (b c : XReg) (rel : Bool) (d8 vault : Bool) (s : State) : Out :=
  .next (withRelease rel s fun s => s.reduce .minN b c d8 vault)

/-- RED.MaxN (R185). -/
def execRedMaxN (b c : XReg) (rel : Bool) (d8 vault : Bool) (s : State) : Out :=
  .next (withRelease rel s fun s => s.reduce .maxN b c d8 vault)

/-- RED.Fadd32 (R185, R186). -/
def execRedFadd32 (b c : XReg) (rel : Bool) (vault : Bool) (s : State) : Out :=
  .next (withRelease rel s fun s => s.reduce .fadd32 b c false vault)

/-- RED.Fmax32 (R185, R186). -/
def execRedFmax32 (b c : XReg) (rel : Bool) (vault : Bool) (s : State) : Out :=
  .next (withRelease rel s fun s => s.reduce .fmax32 b c false vault)

/-- RED.Fmin32 (R185, R186). -/
def execRedFmin32 (b c : XReg) (rel : Bool) (vault : Bool) (s : State) : Out :=
  .next (withRelease rel s fun s => s.reduce .fmin32 b c false vault)

/-- A FENCE of a scope after the windows have ended: it waits for the slot's reductions within its unit that have not
been performed, at package scope those of the package's memory, at scope 6 those at other packages too; every other
access of the slot is performed before its head retires (R188; 16_ordering.md R309, R317, R324). -/
def State.fence (s : State) (sc : Scope) : State :=
  if (sc = .system ∧ s.redsOpen s.cur true) ∨ (sc = .package ∧ s.redsOpen s.cur false) then s else s.done

/-- FENCE.acq (R188): it ends open windows; earlier loads have been performed. -/
def execFenceAcq (_sc : Scope) (s : State) : Out := .next (withWindows s State.done)

/-- FENCE.rel (R188). -/
def execFenceRel (sc : Scope) (s : State) : Out := .next (withWindows s fun s => s.fence sc)

/-- FENCE.full (R188). -/
def execFenceFull (sc : Scope) (s : State) : Out := .next (withWindows s fun s => s.fence sc)

/-- Every copy transfer of the current activation has completed, and its matrix commands have retired or are held
behind a stopped queue (R188). -/
def State.enginesIdle (s : State) : Bool :=
  let mx := s.myCore.mx
  decide ((s.clus (clusOf s.cur)).flightsOf s.me.act = 0) &&
    (!s.ownsMatrix s.cur || mx.queue.isEmpty || mx.stop)

/-- FENCE.eng (R188): it stalls at its head until the engines have finished. -/
def execFenceEng (sc : Scope) (s : State) : Out :=
  .next (withWindows s fun s => if s.enginesIdle then s.fence sc else s)

end Sys2Proof.Machine
end

