-- ==== Sys2Proof/Machine/Fetch.lean ====
section
/-!
DEFINITION. Fetching instruction lines and checking the target of a control transfer (07_instruction_lines.md R124,
R134; 02_main_memory.md R43).
-/

namespace Sys2Proof.Machine

/-- The translation space of the current slot's fetches; 4096, which no context has, in physical mode (R43). -/
def State.fetchSpace (s : State) : Nat :=
  if isService s.cur && s.me.pmode then 4096 else s.tsidOf s.me

/-- The line of a space and address held by the current core's or cluster's instruction cache, a pinned copy first,
which is never evicted (R135). -/
def State.cachedLine (s : State) (tsid va : Nat) : Option CacheLine :=
  let l := (s.myCore.icache ++ (s.clus (clusOf s.cur)).icache).filter fun l => l.tsid = tsid ∧ l.va = va
  (l.find? fun c => c.pinned.isSome).or l.head?

/-- A cache with a line loaded; a pinned copy stays as it is (R135). -/
def cacheLoad (l : List CacheLine) (x : CacheLine) : List CacheLine :=
  match l.find? (fun c => c.tsid = x.tsid ∧ c.va = x.va) with
  | some c => if c.pinned.isSome then l else x :: l.filter (fun c => ¬(c.tsid = x.tsid ∧ c.va = x.va))
  | none => x :: l

/-- The state with a line in the current core's and cluster's instruction caches. -/
def State.loadLine (s : State) (x : CacheLine) : State :=
  let t := s.setCore (coreOf s.cur) { s.myCore with icache := cacheLoad s.myCore.icache x }
  let c := t.clus (clusOf s.cur)
  t.setClus (clusOf s.cur) { c with icache := cacheLoad c.icache x }

/-- A failed fetch of a line: poison and an address error are failures of the fetch, a refusal has its own cause (R134;
03_crossbar.md R54; 18_faults_and_preemption.md R344). -/
def fetchFailed {α : Type} (p : Piece) (cause : Nat) (tval : Word) (nr : Bool) (s : State) : Acc α :=
  if cause ≠ 5 then .bad cause p.tval false s
  else .bad 0x15 tval nr s

/-- A line read from its memory port and loaded into the instruction caches. -/
def State.readLine (s : State) (tsid va : Nat) (p : Phys) : Acc CacheLine :=
  if s.fw.halted then .wait s else
  let row := shardOf (clusOf s.cur)
  let need := AKind.fetch.need
  let tv := if isService s.cur && s.me.pmode then word p.pa else word va
  let q : Piece := ⟨tv, false, p.pa, 64, p.sc⟩
  let got (bs : List Byte) (t : State) : Acc CacheLine :=
    let x : CacheLine := { tsid := tsid, va := va, bytes := bs, pinned := none, span := p.span }
    .ok x (t.loadLine x)
  if tgtOf p.pa = 37 then
    let c := (s.slotRefusal row false p.pa).getD 7
    fetchFailed q c tv false (s.refused q c)
  else withAnswers s need [(q, .load 64)] fun t =>
    match t.answerOr false need q (.load 64) fun t =>
        .ok (t.memView p.pa 64) ((if p.sc then t.shardRead row p.pa true else t).answered q) with
    | .ok bs u => got bs u
    | .wait u => .wait u
    | .bad c v nr u => fetchFailed q c v nr u

/-- The line at a line address, fetched by the current slot (R134): through its translation, from an instruction cache
that still holds the line or from memory. A slot that executes the line goes on with it, though it may have been
withdrawn since, so that no mixture of an old and a new line executes; a transfer does not enter a withdrawn line again.
-/
def State.fetchLine (s : State) (va : Nat) (transfer : Bool := false) : Acc CacheLine :=
  match (if transfer && s.me.lineOld then none else s.me.line).filter (fun c => c.tsid = s.fetchSpace ∧ c.va = va) with
  | some c => .ok c s
  | none =>
    (s.translate .fetch va).bind fun p t =>
      let tsid := t.fetchSpace
      match t.cachedLine tsid va with
      | none => t.readLine tsid va p
      | some c =>
        let u := { t with clk := { t.clk with draws := t.clk.draws + 1 } }
        if c.pinned.isSome || Config.keepsLine t.clk.draws then .ok c u else u.readLine tsid va p

/-- The current slot executes a line. -/
def State.setLine (s : State) (c : CacheLine) : State :=
  s.setMe { s.me with line := some c, lineOld := s.me.lineOld && s.me.line == some c }

/-- Whether an address is that of a head of its line (R124): in an illegal line, every even address but the line
word. -/
def isHeadOf (bytes : List Byte) (t : Nat) : Bool :=
  decide (t % 2 = 0) && decide (2 ≤ t % 64) &&
    match decodeLine bytes with
    | some lc => decide ((t % 64 - 2) / 2 < lc.heads.length)
    | none => true

/-- The line of a transfer's target (R124): an address outside the address space, or the outcome of fetching its
line. -/
def State.targetLine (s : State) (t : Int) : Option (Acc CacheLine) :=
  if t < 0 ∨ (2 ^ 56 : Nat) ≤ t then none else some (s.fetchLine (t.toNat / 64 * 64) true)

/-- The trap of a target whose line cannot be fetched; TVAL is the target (R124; of a refused fetch by log entry 20). -/
def State.targetTrap (s : State) (t : Int) (c : Nat) (nr : Bool) : State :=
  if nr then s.trapNR c (wrap64 t) else s.trap c (wrap64 t)

/-- The check of a transfer's target (R124, 08_scalar_instructions.md R150): its line is fetched, then the target must
be a head; otherwise the transferring head traps and has no effect. -/
def withTarget (s : State) (t : Int) (k : State → State) : State :=
  match s.targetLine t with
  | none => s.trap 2 (wrap64 t)
  | some (.wait u) => u
  | some (.bad c _ nr u) => u.targetTrap t c nr
  | some (.ok l u) => if isHeadOf l.bytes t.toNat then k u else u.trap 2 (wrap64 t)

/-- A taken transfer (R124, R131, R132, R150): its target's line is fetched first, and then it ends open windows, so
that a head that waits for the line reads the values from before pending results when it is attempted again; then the
target is checked, and it acts. -/
def takeTransfer (s : State) (t : Int) (act : Slot → Slot) (wr : List Dest) : State :=
  match s.targetLine t with
  | none => withWindows s fun u => u.trap 2 (wrap64 t)
  | some (.wait u) => u
  | some (.bad c _ nr u) => withWindows u fun u => u.targetTrap t c nr
  | some (.ok l u) => withWindows u fun u =>
      if isHeadOf l.bytes t.toNat then u.setMe { (act u.me).retireTo (word t.toNat) wr with line := some l, lineOld := false }
      else u.trap 2 (wrap64 t)

end Sys2Proof.Machine
end

