-- ==== Sys2Proof/Machine/Control.lean ====
section
/-!
DEFINITION. The control transfers (08_scalar_instructions.md R150 to R152). Conditions, counts and targets are read at
issue, before the windows end.
-/

namespace Sys2Proof.Machine

/-- A conditional branch (R152): taken to Target(I), or on in sequence. -/
def State.branchIf (s : State) (c : Bool) (off : BitVec 20) : State :=
  if c then takeTransfer s (branchTarget s.me.pc off) id [] else s.done

/-- BR (R152). -/
def execBr (off : BitVec 20) (s : State) : Out := .next (takeTransfer s (branchTarget s.me.pc off) id [])

/-- BEQ (R152). -/
def execBeq (a b : XReg) (off : BitVec 20) (s : State) : Out := .next (s.branchIf (s.x a = s.x b) off)

/-- BNE (R152). -/
def execBne (a b : XReg) (off : BitVec 20) (s : State) : Out := .next (s.branchIf (s.x a ≠ s.x b) off)

/-- BLT (R152). -/
def execBlt (a b : XReg) (off : BitVec 20) (s : State) : Out := .next (s.branchIf (sInt (s.x a) < sInt (s.x b)) off)

/-- BGE (R152). -/
def execBge (a b : XReg) (off : BitVec 20) (s : State) : Out := .next (s.branchIf (sInt (s.x b) ≤ sInt (s.x a)) off)

/-- BLT_N (R152). -/
def execBltN (a b : XReg) (off : BitVec 20) (s : State) : Out :=
  .next (s.branchIf ((s.x a).toNat < (s.x b).toNat) off)

/-- BGE_N (R152). -/
def execBgeN (a b : XReg) (off : BitVec 20) (s : State) : Out :=
  .next (s.branchIf ((s.x b).toNat ≤ (s.x a).toNat) off)

/-- BZ (R152). -/
def execBz (a : XReg) (off : BitVec 20) (s : State) : Out := .next (s.branchIf (s.x a = 0) off)

/-- BNZ (R152). -/
def execBnz (a : XReg) (off : BitVec 20) (s : State) : Out := .next (s.branchIf (s.x a ≠ 0) off)

/-- CALL (R152): the link is the head after the CALL in sequence. -/
def execCall (a : XReg) (off : BitVec 20) (s : State) : Out :=
  .next (takeTransfer s (branchTarget s.me.pc off) (fun sl => sl.setX a sl.npc) [.x a])

/-- JR (R152). -/
def execJr (b : XReg) (s : State) : Out := .next (takeTransfer s (s.x b).toNat id [])

/-- LOOP (R152): the target is not checked when it falls through. -/
def execLoop (a : XReg) (off : BitVec 20) (s : State) : Out :=
  let n := s.x a - 1
  .next (if n ≠ 0 then takeTransfer s (branchTarget s.me.pc off) (fun sl => sl.setX a n) [.x a] else s.doneX a n)

end Sys2Proof.Machine
end

