-- ==== Sys2Proof/Machine/CopyToken.lean ====
section
/-!
DEFINITION. Launching copies and the token forms (09_memory_instructions.md R189 to R191; 06_copy_and_galleys.md R100
to R111).
-/

namespace Sys2Proof.Machine

/-! Copies -/

/-- The checks of CPGO on the shadow registers in the order R103 lists them: 0, or the fault code of R105. -/
def shadowFault (r : Vector Word 8) : Nat :=
  let r1 := r.get 1
  let r2 := r.get 2
  let r5 := r.get 5
  let sk := fld r5 0 2
  let dk := fld r5 2 2
  let gu := bitOf r5.toNat 7
  if r.get 7 ≠ 0 ∨ fld r2 56 8 ≠ 0 ∨ fld r5 48 16 ≠ 0 ∨ fld r5 41 3 ≠ 0 ∨ fld r5 8 16 ≠ 0 ∨ bitOf r5.toNat 5 = true ∨
      2 ≤ sk ∨ dk = 3 ∨ (dk = 2 ∧ (fld r1 27 37 ≠ 0 ∨ fld r1 6 10 ≠ 0)) ∨
      (gu = false ∧ (fld r5 44 4 ≠ 0 ∨ fld r5 24 17 ≠ 0)) then 1
  else if sk = 0 ∧ dk = 0 then 1
  else if fld r2 40 16 = 0 ∨ fld r2 24 16 = 0 ∨ fld r2 0 24 = 0 then 2
  else if gu = true ∧ dk ≠ 1 then 1
  else if dk = 2 ∧ 2048 < fld r1 16 11 + fld r2 40 16 * fld r2 24 16 * fld r2 0 24 then 6
  else 0

/-- A free transfer identifier from n upward: never 0xFFFF, never a live one (R103). -/
def freeCopyId (live : List Transfer) : Nat → Nat → Nat
  | 0, n => n % 65536
  | fuel + 1, n =>
    let n := n % 65536
    if n = 65535 ∨ live.any (·.id = n) then freeCopyId live fuel (n + 1) else n

/-- A token of a slot is bound and pending. -/
def TokSt.isPending (t : TokSt) : Bool :=
  match t with
  | .pending _ => true
  | _ => false

/-- The transfer a slot launches (R103). -/
def Slot.transfer (sl : Slot) (place tsid id seq : Nat) : Transfer :=
  { id := id, place := place, act := sl.act, regs := sl.shadow, tsid := tsid, ctx := sl.ctx, kslot := sl.kslot,
    status := 0, waits := false, seq := seq, xres := none }

/-- CPWR (R190). -/
def execCpwr (k : Fin 8) (b : XReg) (s : State) : Out :=
  .next (s.setMe ({ s.me with shadow := s.me.shadow.set k.val (s.x b) k.isLt }.retire []))

/-- CPRD (R190). -/
def execCprd (a : XReg) (k : Fin 8) (s : State) : Out := .next (s.doneX a (s.me.shadow.get k))

/-- The inbox of a copy engine has no room, or others wait for it (R103). -/
def ClusSt.inboxFull (c : ClusSt) : Bool := decide (64 ≤ c.copies.length) || !c.entering.isEmpty

/-- CPGO (R103, R190): it waits in place while the inbox is full, as an outstanding result where it has a lookahead;
with GU set it is irrevocable (R167). -/
def execCpgo (a : XReg) (j : Tok) (l : Look) (s : State) : Out :=
  .next (withRoom s fun s =>
    let sl := s.me
    let clus := clusOf s.cur
    let code := shadowFault sl.shadow
    if code ≠ 0 then s.trap 0x10 (word code)
    else if (sl.tok.get j).isPending then s.trap 0x0E (word j.val)
    else if (s.clus clus).inboxFull = true ∧ (l.val = 0 ∨ sl.rex.isSome = true) then s
    else
      let go (t : State) : State :=
        let c := t.clus clus
        let id := freeCopyId c.transfers (c.transfers.length + 2) c.nextId.toNat
        let x := t.me.transfer t.cur (t.tsidOf t.me) id t.clk.ticks
        let full := c.inboxFull
        let u := t.setClus clus { c with
          copies := if full then c.copies else c.copies ++ [x]
          entering := if full then c.entering ++ [(x, t.me.pc, a)] else c.entering
          nextId := BitVec.ofNat 16 (id + 1) }
        (u.setMe (u.me.setTok j (.pending (.copy id)))).deliver l [.x a]
          (if full then .waiting else .ok [.x a (word id)] {})
      if bitOf (sl.shadow.get 5).toNat 7 then withCommit s go else withRelease true s go)

/-- The status of a transfer of a cluster (R190). -/
def ClusSt.copyStatus (c : ClusSt) (id : Nat) : Nat :=
  if c.transfers.any (·.id = id) then 0xFF
  else match c.kept.find? (·.1 = id) with
    | some (_, st) => st
    | none => 0xFE

/-- CPST (R190). -/
def execCpst (a b : XReg) (s : State) : Out :=
  .next (s.doneX a (word ((s.clus (clusOf s.cur)).copyStatus (fld (s.x b) 0 16))))

/-! Tokens -/

/-- The state code of a token (R191). -/
def TokSt.code (t : TokSt) : Nat :=
  match t with
  | .unbound => 0
  | .pending _ => 1
  | .complete _ => 2
  | .faulted .. => 3

/-- The trap cause of a token's source (06_copy_and_galleys.md R110). -/
def TokSrc.cause (x : TokSrc) : Nat :=
  match x with
  | .copy _ => 0x10
  | .galley .. => 0x0F
  | .forme .. => 0x0C
  | .matrix .. => 0x0D

/-- A token's fault: its cause and the trap value (R110). -/
def TokSt.fault (t : TokSt) (i : Nat) : Option (Nat × Word) :=
  match t with
  | .faulted src code => some (src.cause, word (code * 256 + i))
  | _ => none

/-- Tokens a mask selects, lowest first, with their states. -/
def Slot.masked (sl : Slot) (mask : BitVec 8) : List (Nat × TokSt) :=
  ((List.range 8).zip sl.tok.toList).filter fun p => mask.getLsbD p.1

/-- Copies of the current slot's cluster whose completion is observed through a token: a command queued from now on
finds their bytes in the operand buffers (R107; 11_matrix_unit.md R251). -/
def State.observe (s : State) (ts : List TokSt) : State :=
  let ids := ts.filterMap fun t => match t with
    | .complete (.copy id) => some id
    | _ => none
  let seen (e : Nat × Nat × Nat) : Nat × Nat × Nat :=
    if e.2.2 = 0 ∧ ids.contains e.2.1 then (e.1, e.2.1, s.clk.ticks) else e
  if ids.isEmpty then s
  else { s with cores := s.cores.map fun (k, c) =>
    if k / 16 = clusOf s.cur then (k, { c with mx := { c.mx with mix := c.mx.mix.map seen } }) else (k, c) }

/-- WAIT (R110): it stalls at its head while a masked token is pending. -/
def execWait (mask : BitVec 8) (s : State) : Out :=
  .next (withWindows s fun s =>
    let ts := s.me.masked mask
    if ts.any (·.2.isPending) then s
    else match ts.findSome? (fun p => p.2.fault p.1) with
      | some (c, tv) => s.trap c tv
      | none => (s.observe (ts.map (·.2))).done)

/-- The tokens of a mask with their release to unbound (R191). -/
def Slot.unbind (sl : Slot) (mask : BitVec 8) : Slot :=
  { sl with tok := Vector.ofFn fun i : Fin 8 => if mask.getLsbD i.val then .unbound else sl.tok.get i }

/-- TKREL (R191). -/
def execTkrel (mask : BitVec 8) (s : State) : Out := .next (s.setMe ((s.me.unbind mask).retire []))

/-- TKCLR (R191). -/
def execTkclr (s : State) : Out := .next (s.setMe ((s.me.unbind 0xFF).retire []))

/-- The first masked token in rotation from S that has left pending (R111). -/
def Slot.nextReady (sl : Slot) (mask : BitVec 8) : Option (Fin 8) :=
  ((List.finRange 8).map (fun j => sl.wstart + j)).find? fun i => mask.getLsbD i.val && decide (2 ≤ (sl.tok.get i).code)

/-- WAITANY (R111, R191). -/
def execWaitany (a : XReg) (mask : BitVec 8) (s : State) : Out :=
  .next (withWindows s fun s =>
    let sl := s.me
    if (sl.masked mask).all (fun p => p.2.code == 0) then s.doneX a (BitVec.allOnes 64)
    else match sl.nextReady mask with
      | none => s
      | some i =>
        match (sl.tok.get i).fault i.val with
        | some (c, tv) => s.trap c tv
        | none => ((s.observe [sl.tok.get i]).setMe { sl with wstart := i + 1 }).doneX a (word i.val))

/-- TKST (R191): it only reads, and observes no completion (16_ordering.md R323). -/
def execTkst (a : XReg) (s : State) : Out := .next (s.doneX a (word (lanesFrom s.me.tok.toList)))
where
  /-- Two bits for each token, token 0 lowest. -/
  lanesFrom : List TokSt → Nat
    | [] => 0
    | t :: ts => t.code + 4 * lanesFrom ts

end Sys2Proof.Machine
end

