-- ==== Sys2Proof/Machine/Galley.lean ====
section
/-!
DEFINITION. The galley unit and the GAL forms (06_copy_and_galleys.md R112 to R116; 09_memory_instructions.md R192 to
R194). An active record stands in the vault's bytes, which hold its current state.
-/

namespace Sys2Proof.Machine

/-! The record (R112) -/

/-- The header of the record at a key: its slot words' top bytes, W0's lowest. -/
def State.gHeader (s : State) (key : Nat) : Nat :=
  leNat ((List.range 16).map fun j => readByte s.vault (key + 8 * j + 7))

/-- Slot word j of the record at a key. -/
def State.gWord (s : State) (key j : Nat) : Nat := (s.getWord (key + 8 * j)).toNat

/-- A field of a number. -/
def nfld (n lo w : Nat) : Nat := n / 2 ^ lo % 2 ^ w

/-- A number with a field replaced. -/
def nput (n lo w v : Nat) : Nat := n - nfld n lo w * 2 ^ lo + v % 2 ^ w * 2 ^ lo

/-- Slot count of a header. -/
def gSlots (h : Nat) : Nat := nfld h 2 4 + 1
/-- Slot size in bytes. -/
def gSize (h : Nat) : Nat := 64 * 2 ^ nfld h 6 4
/-- Offset of slot k. -/
def gSlotOfs (h k : Nat) : Nat := nfld h 10 18 * 64 + k * gSize h
/-- TSID. -/
def gTsid (h : Nat) : Nat := nfld h 28 12
/-- FLT. -/
def gFlt (h : Nat) : Bool := bitOf h 1

/-- Bytes of the header written from byte j up. -/
def putHeader (m : List Host.Cell) (key : Nat) : Nat → List Byte → List Host.Cell
  | _, [] => m
  | j, b :: bs => putHeader (writeByte m (key + 8 * j + 7) b) key (j + 1) bs

/-- The state with the header of a record replaced. -/
def State.setHeader (s : State) (key h : Nat) : State :=
  { s with vault := putHeader s.vault key 0 (leBytes 16 h) }

/-- The state with a slot word replaced. -/
def State.setGWord (s : State) (key j w : Nat) : State := s.putWord (key + 8 * j) (word w)

/-- The record at an offset of a cluster is active. -/
def State.gActive (s : State) (clus ofs : Nat) : Bool := (s.clus clus).galleys.contains ofs

/-- The key of a record. -/
def gKey (clus ofs : Nat) : Nat := clus * 2 ^ 24 + ofs

/-- The state of slot k as R114 counts it: 3 in a galley in fault. -/
def State.gState (s : State) (key k : Nat) : Nat :=
  if gFlt (s.gHeader key) then 3 else nfld (s.gWord key k) 51 2

/-- PH of slot k. -/
def State.gPhase (s : State) (key k : Nat) : Bool := bitOf (s.gWord key k) 50

/-! Tokens -/

/-- Tokens bound to a galley faulted with a code (R114, R116). -/
def State.faultGalley (s : State) (clus ofs code : Nat) : State :=
  s.settleTokens fun src => match src with
    | .galley c o _ _ => if c = clus ∧ o = ofs then some (some code) else none
    | _ => none

/-- Tokens bound to slot k reaching a phase completed. -/
def State.fillGalley (s : State) (clus ofs k : Nat) (ph : Bool) : State :=
  s.settleTokens fun src => match src with
    | .galley c o j p => if c = clus ∧ o = ofs ∧ j = k ∧ p = ph then some none else none
    | _ => none

/-! Updates (R114, R115) -/

/-- What an update's producer is told. -/
inductive GRes where
  | ok | fault
deriving DecidableEq, Repr

/-- A slot word after a release (R114), or none in fault. -/
def gRelease (st w : Nat) : Option Nat :=
  if st = 3 then none else some (nput (nput (nput w 51 2 0) 44 6 0) 25 19 0)

/-- A slot word after GEXP: only of a free slot. -/
def gExpect (st w expa expb : Nat) : Option Nat := if st = 0 then some (nput (nput w 19 6 expa) 0 19 expb) else none

/-- A byte or arrival count raised: the new word, or none where the slot is full or the count would pass what is
expected (an overrun). -/
def gCount (w lo width elo ewidth n : Nat) : Option Nat :=
  if nfld w 51 2 = 2 ∨ nfld w elo ewidth < nfld w lo width + n then none
  else some (nput (nput w lo width (nfld w lo width + n)) 51 2 1)

/-- The overrun of slot k (R114): it and its galley are in fault, and the bound tokens fault. -/
def State.gOverrun (s : State) (clus ofs k : Nat) : State :=
  let key := gKey clus ofs
  let t := s.setGWord key k (nput (s.gWord key k) 51 2 3)
  (t.setHeader key (nput (t.gHeader key) 1 1 1)).faultGalley clus ofs 1

/-- One count applied to slot k: bytes, or an arrival. -/
def State.gAdd (s : State) (clus ofs k : Nat) (isBytes : Bool) (n : Nat) : State × GRes :=
  let key := gKey clus ofs
  if s.gState key k = 3 then (s, .fault)
  else
    match (if isBytes then gCount (s.gWord key k) 25 19 0 19 n else gCount (s.gWord key k) 44 6 19 6 n) with
    | some w => (s.setGWord key k w, .ok)
    | none => (s.gOverrun clus ofs k, .fault)

/-- The completion test of slot k (R114): full, with its phase turned, and the tokens of that phase complete. -/
def State.gTest (s : State) (clus ofs k : Nat) : State :=
  let key := gKey clus ofs
  let w := s.gWord key k
  if 2 ≤ s.gState key k ∨ nfld w 25 19 ≠ nfld w 0 19 ∨ nfld w 44 6 ≠ nfld w 19 6 then s
  else
    let ph := !bitOf w 50
    (s.setGWord key k (nput (nput w 51 2 2) 50 1 (boolCode ph))).fillGalley clus ofs k ph

/-- A release of slot k. -/
def State.gRel (s : State) (clus ofs k : Nat) : State × GRes :=
  let key := gKey clus ofs
  match gRelease (s.gState key k) (s.gWord key k) with
  | some w => (s.setGWord key k w, .ok)
  | none => (s, .fault)

/-- A GEXP of slot k. -/
def State.gExp (s : State) (clus ofs k expa expb : Nat) : State × GRes :=
  let key := gKey clus ofs
  match gExpect (s.gState key k) (s.gWord key k) expa expb with
  | some w => (s.setGWord key k w, .ok)
  | none => (s, .fault)

/-- Byte updates or arrivals one after the other; the producer is told of a fault of any. -/
def State.gAddAll (s : State) (clus ofs k : Nat) (isBytes : Bool) : List Nat → State × GRes
  | [] => (s, .ok)
  | n :: ns =>
    let (t, r) := s.gAdd clus ofs k isBytes n
    let (u, q) := t.gAddAll clus ofs k isBytes ns
    (u, if r = .ok then q else r)

/-- The events of one cycle that reach slot k of an active record, in the order of R115. -/
def State.gCycle (s : State) (clus ofs k : Nat) (release : Bool) (exp : Option (Nat × Nat)) (bytes : List Nat)
    (arrivals : Nat) : State × GRes :=
  let (s1, r1) := if release then s.gRel clus ofs k else (s, .ok)
  let (s2, r2) := match exp with
    | some (a, b) => s1.gExp clus ofs k a b
    | none => (s1, .ok)
  let (s3, r3) := s2.gAddAll clus ofs k true bytes
  let (s4, r4) := s3.gAddAll clus ofs k false (List.replicate arrivals 1)
  (s4.gTest clus ofs k, if r1 = .fault ∨ r2 = .fault ∨ r3 = .fault ∨ r4 = .fault then .fault else .ok)

/-! GINIT (R113) -/

/-- The slot words of a record image break R112 for a header. -/
def gWordsBad (h : Nat) : Nat → List Nat → Bool
  | _, [] => false
  | k, w :: ws =>
    (decide (nfld w 53 3 ≠ 0) ||
      (if k < gSlots h then decide (gSize h < nfld w 0 19) ||
          decide (nfld w 0 25 = 0) else decide (nfld w 0 56 ≠ 0))) ||
    gWordsBad h (k + 1) ws

/-- The slot words of the record at a key. -/
def State.gWords (s : State) (key : Nat) : List Nat := (List.range 16).map (s.gWord key)

/-- GINIT of the record at an offset of a cluster is refused. A ring whose end is exactly 0xC0_0000 does not reach it
(log entry 25, the model's reading). -/
def State.ginitBad (s : State) (clus ofs : Nat) : Bool :=
  let key := gKey clus ofs
  let h := s.gHeader key
  let lo := gSlotOfs h 0
  let hi := gSlotOfs h (gSlots h)
  decide (12 < nfld h 6 4) || decide (nfld h 40 88 ≠ 0) || decide (nfld h 10 18 % 2 ^ nfld h 6 4 ≠ 0) ||
    decide (vaultEnd < hi) || (decide (lo < ofs + 128) && decide (ofs < hi)) || gWordsBad h 0 (s.gWords key) ||
    decide (32 ≤ (s.clus clus).galleys.length) || s.gActive clus ofs

/-- Slot words set to what GINIT leaves of them, from slot j up. -/
def State.gClear (s : State) (key : Nat) : Nat → List Nat → State
  | _, [] => s
  | j, w :: ws => (s.setGWord key j (nput w 25 31 0)).gClear key (j + 1) ws

/-- GINIT of a record that passes its checks. -/
def State.ginit (s : State) (clus ofs tsid : Nat) : State :=
  let key := gKey clus ofs
  let h := nput (nput (s.gHeader key) 28 12 tsid) 0 2 1
  let t := (s.gClear key 0 (s.gWords key)).setHeader key h
  t.setClus clus { t.clus clus with galleys := sinsert (t.clus clus).galleys ofs }

/-- GINIT.off of an active record: V and FLT cleared, bound tokens fault (R113, R116). -/
def State.ginitOff (s : State) (clus ofs : Nat) : State :=
  let key := gKey clus ofs
  let t := s.setHeader key (nput (s.gHeader key) 0 2 0)
  (t.setClus clus { t.clus clus with galleys := sremove (t.clus clus).galleys ofs }).faultGalley clus ofs 3

/-! The GAL forms (09_memory_instructions.md R192, R193) -/

/-- The record a GAL form names: its cluster, offset and address; an address that VaultAddr refuses, or that is not a
multiple of 128, traps with cause 0x0F (R192). -/
def State.galRecord (s : State) (b : XReg) (k : Nat → Nat → Word → State) : State :=
  let tv := word (fld (s.x b) 0 40)
  match vaultOperand (s.x b) 0 128 128 with
  | .bad _ _ => s.trap 0x0F tv
  | .ok a => k (vaultKey (clusOf s.cur) a / 2 ^ 24) (a % 2 ^ 24) tv

/-- The record at a key read at its banks by the galley unit for the current slot (04_vaults.md R71): whether it is
poisoned, and the state after it. -/
def State.galBank (s : State) (key : Nat) (tv : Word) : Bool × State :=
  s.vaultRead ((s.armedIn key 128).getD key) 128 s.me.ctx s.me.kslot s.me.pc tv

/-- The galley unit acts on the record at a key once it has read it; poison traps (18_faults_and_preemption.md R344). -/
def State.galRead (s : State) (key : Nat) (tv : Word) (k : State → State) : State :=
  match s.galBank key tv with
  | (true, t) => (t.logError t.cur 5 tv).trapNR 5 (poisonTval tv)
  | (false, t) => k t

/-- The checks of the owning core, and of the galley unit on the record's state and owner (R192, R114). -/
def State.galUnit (s : State) (clus ofs : Nat) (tv : Word) (k : State → State) : State :=
  match s.vaultGate (clusOf s.cur) s.me.ctx clus with
  | some c => s.trap c tv
  | none => s.galRead (gKey clus ofs) tv fun s =>
    if !s.gActive clus ofs || gTsid (s.gHeader (gKey clus ofs)) != s.tsidOf s.me then s.trap 0x0F tv else k s

/-- The slot a GAL form uses (R192). -/
def State.galSlot (s : State) (clus ofs : Nat) (c : Word) : Nat := c.toNat % gSlots (s.gHeader (gKey clus ofs))

/-- The galley unit's answer to an update (R193). -/
def galAnswer (tv : Word) (r : State × GRes) : State :=
  match r with
  | (t, .ok) => t.done
  | (t, .fault) => t.trap 0x0F tv

/-- GINIT (R113, R193): irrevocable. -/
def execGinit (b : XReg) (s : State) : Out :=
  .next (s.galRecord b fun clus ofs tv =>
    if clus ≠ clusOf s.cur then s.trap 0x0F tv
    else withCommit s fun s => s.galRead (gKey clus ofs) tv fun s =>
      if s.ginitBad clus ofs then s.trap 0x0F tv else (s.ginit clus ofs (s.tsidOf s.me)).done)

/-- GINIT.off (R113, R193): irrevocable. -/
def execGinitOff (b : XReg) (s : State) : Out :=
  .next (s.galRecord b fun clus ofs tv =>
    if clus ≠ clusOf s.cur then s.trap 0x0F tv
    else withCommit s fun s => s.galRead (gKey clus ofs) tv fun s =>
      if !s.gActive clus ofs || gTsid (s.gHeader (gKey clus ofs)) != s.tsidOf s.me then s.trap 0x0F tv
      else (s.ginitOff clus ofs).done)

/-- GARR (R193): irrevocable; the bytes, when given, and the arrival reach the unit in one cycle. -/
def execGarr (b c : XReg) (d : Option XReg) (s : State) : Out :=
  let bytes := match d with
    | some r => [(s.x r).toNat]
    | none => []
  .next (s.galRecord b fun clus ofs tv => withCommit s fun t => t.galUnit clus ofs tv fun t =>
    galAnswer tv (t.gCycle clus ofs (t.galSlot clus ofs (s.x c)) false none bytes 1))

/-- GEXP (R193): irrevocable. -/
def execGexp (b c d : XReg) (s : State) : Out :=
  let v := s.x d
  .next (s.galRecord b fun clus ofs tv => withCommit s fun t => t.galUnit clus ofs tv fun t =>
    if fld v 25 39 ≠ 0 ∨ gSize (t.gHeader (gKey clus ofs)) < fld v 0 19 ∨ fld v 0 25 = 0 then t.trap 0x0F tv
    else galAnswer tv (t.gCycle clus ofs (t.galSlot clus ofs (s.x c)) false (some (fld v 19 6, fld v 0 19)) [] 0))

/-- GREL (R193): irrevocable. -/
def execGrel (b c : XReg) (s : State) : Out :=
  .next (s.galRecord b fun clus ofs tv => withCommit s fun t => t.galUnit clus ofs tv fun t =>
    galAnswer tv (t.gCycle clus ofs (t.galSlot clus ofs (s.x c)) true none [] 0))

/-- What GWAIT binds a token to (R116). -/
def State.galBind (s : State) (clus ofs k : Nat) (ph : Bool) : TokSt :=
  let key := gKey clus ofs
  let src := TokSrc.galley clus ofs k ph
  if s.gState key k = 3 then .faulted src 2
  else if s.gState key k = 2 ∧ s.gPhase key k = ph then .complete src
  else .pending src

/-- GWAIT (R116, R193). -/
def execGwait (j : Tok) (b c : XReg) (ph : Bool) (s : State) : Out :=
  .next (s.galRecord b fun clus ofs tv => s.galUnit clus ofs tv fun t =>
    if (t.me.tok.get j).isPending then t.trapOpen 0x0E
    else t.setMe ((t.me.setTok j (t.galBind clus ofs (t.galSlot clus ofs (t.x c)) ph)).retire []))

/-- GTEST (R193). -/
def execGtest (a b c : XReg) (s : State) : Out :=
  .next (s.galRecord b fun clus ofs tv => s.galUnit clus ofs tv fun t =>
    let key := gKey clus ofs
    let w := t.gWord key (t.galSlot clus ofs (t.x c))
    t.doneX a (word (boolCode (gFlt (t.gHeader key)) * 8 + nfld w 50 1 * 4 + nfld w 51 2)))

end Sys2Proof.Machine
end

