-- ==== Sys2Proof/Machine/Special.lean ====
section
/-!
DEFINITION. Special registers (07_instruction_lines.md R119 to R121; 08_scalar_instructions.md R153 to R155;
02_main_memory.md R43; 04_vaults.md R73; 11_matrix_unit.md R230, R231).
-/

namespace Sys2Proof.Machine

/-- Special registers read-only at every level (R120). -/
def srReadOnly (n : Nat) : Bool :=
  decide (n ≤ 0x08) || n == 0x30 || n == 0x31 || n == 0x40 || n == 0x41 || n == 0x51 || n == 0x52 ||
    (decide (0x70 ≤ n) && decide (n ≤ 0x7B))

/-- Special registers that only supervisor and monitor read and write (R120, R73). -/
def srSupervisor (n : Nat) : Bool :=
  (decide (0x20 ≤ n) && decide (n ≤ 0x25)) || n == 0x53 || (decide (0x60 ≤ n) && decide (n ≤ 0x67))

/-- Special registers that every privilege reads and writes (R120). -/
def srUser (n : Nat) : Bool := n == 0x10 || n == 0x11 || n == 0x12 || n == 0x32 || n == 0x50

/-- Registers that RDCNT reads (R119). -/
def srCounter (n : Nat) : Bool := n == 0x30 || n == 0x31 || n == 0x33

/-- Numbers that name a register (R120). -/
def srKnown (n : Nat) : Bool :=
  srReadOnly n || srSupervisor n || srUser n || n == 0x33 || n == 0x34

/-- Width of a writable register's field (R120, R121). -/
def srWidth (n : Nat) : Nat :=
  match n with
  | 0x10 => 5
  | 0x11 => 3
  | 0x12 => 6
  | 0x21 => 8
  | 0x24 => 10
  | 0x32 => 6
  | 0x50 => 3
  | 0x53 => 1
  | _ => 64

/-- Check 5 of R119: a reserved bit or code in a value written to a register by a slot of a worker or service core. -/
def srBadValue (service : Bool) (n : Nat) (v : Word) : Bool :=
  if 0x60 ≤ n ∧ n ≤ 0x67 then
    bitOf v.toNat 63 && (decide (fld v 42 15 ≠ 0) || decide (fld v 18 6 ≠ 0) ||
      (decide (fld v 57 3 ≠ 4) && decide (fld v 57 3 ≠ 5)))
  else
    decide (2 ^ srWidth n ≤ v.toNat) || (n == 0x11 && decide (4 < v.toNat)) ||
      (n == 0x24 && decide (fld v 0 2 = 3)) || (n == 0x53 && !service && decide (v ≠ 0))

/-- MQSTAT as a place reads it (R230): LOUT is the incoming latch of the next core. -/
def State.mqstat (s : State) (place : Nat) : Word :=
  let core := coreOf place
  let m := (s.core core).mx
  let next := (s.core (core / 16 * 16 + (core % 16 + 1) % 8)).mx
  word (m.seq.toNat * 2 ^ 48 + m.done.toNat * 2 ^ 32 + m.queue.length * 2 ^ 16 + boolCode next.latch.isSome * 8 +
    boolCode m.latch.isSome * 4 + boolCode (s.ownsMatrix place) * 2 + boolCode m.stop)

/-- MQFLT as a place reads it (R231). -/
def State.mqflt (s : State) (place : Nat) : Word :=
  if s.ownsMatrix place then (s.core (coreOf place)).mx.mqflt else 0

/-- The value of a special register as the current slot reads it (R120). -/
def State.srRead (s : State) (n : Nat) : Word :=
  let sl := s.me
  match n with
  | 0x00 => sl.pc
  | 0x01 => word sl.wt
  | 0x02 => word (sl.ctx % 65536)
  | 0x03 => word sl.kslot
  | 0x04 => word s.cur
  | 0x05 => word sl.msrc
  | 0x06 => word sl.mcls
  | 0x07 => sl.entry
  | 0x08 => word (sl.spkg * 256 + sl.hpkg)
  | 0x10 => word sl.fflags.code
  | 0x11 => word (rmodeCode sl.frmode)
  | 0x12 => sl.statid.setWidth 64
  | 0x20 => sl.tpc
  | 0x21 => sl.tcause.setWidth 64
  | 0x22 => sl.tval
  | 0x23 => sl.twt
  | 0x24 => sl.tstate.setWidth 64
  | 0x25 => sl.tres
  | 0x30 => s.cycleOf (coreOf s.cur)
  | 0x31 => sl.heads
  | 0x32 => sl.lacidx.setWidth 64
  | 0x33 => s.myCore.lac.toList.getD sl.lacidx.toNat 0
  | 0x34 => word (s.myCore.pfail.toNat * 2 ^ 32 + s.myCore.pcap.toNat)
  | 0x40 => s.mqstat s.cur
  | 0x41 => s.mqflt s.cur
  | 0x50 => word sl.wstart.val
  | 0x51 => word sl.cbuf.length
  | 0x52 => word (boolCode sl.irrev)
  | 0x53 => word (boolCode (isService s.cur && sl.pmode))
  | 0x60 => s.myCore.win.get 0
  | 0x61 => s.myCore.win.get 1
  | 0x62 => s.myCore.win.get 2
  | 0x63 => s.myCore.win.get 3
  | 0x64 => s.myCore.win.get 4
  | 0x65 => s.myCore.win.get 5
  | 0x66 => s.myCore.win.get 6
  | 0x67 => s.myCore.win.get 7
  | 0x70 => sl.m.get 0
  | 0x71 => sl.m.get 1
  | 0x72 => sl.m.get 2
  | 0x73 => sl.m.get 3
  | 0x74 => sl.m.get 4
  | 0x75 => sl.m.get 5
  | 0x76 => sl.m.get 6
  | 0x77 => sl.m.get 7
  | 0x78 => sl.q.get 0
  | 0x79 => sl.q.get 1
  | 0x7A => sl.q.get 2
  | 0x7B => sl.q.get 3
  | _ => 0

/-- The state after the current slot wrote a special register (R120). -/
def State.srWrite (s : State) (n : Nat) (v : Word) : State :=
  let sl := s.me
  let c := s.myCore
  match n with
  | 0x10 => s.setMe { sl with fflags := FFlags.ofCode v.toNat }
  | 0x11 => match rmodeOf v.toNat with
    | some r => s.setMe { sl with frmode := r }
    | none => s
  | 0x12 => s.setMe { sl with statid := v.setWidth 6 }
  | 0x20 => s.setMe { sl with tpc := v }
  | 0x21 => s.setMe { sl with tcause := v.setWidth 8 }
  | 0x22 => s.setMe { sl with tval := v }
  | 0x23 => s.setMe { sl with twt := v }
  | 0x24 => s.setMe { sl with tstate := v.setWidth 10 }
  | 0x25 => s.setMe { sl with tres := v }
  | 0x32 => s.setMe { sl with lacidx := v.setWidth 6 }
  | 0x33 => s.setCore (coreOf s.cur)
      { c with lac := c.lac.set (sl.lacidx.toNat) v (by have := sl.lacidx.isLt; omega) }
  | 0x34 => s.setCore (coreOf s.cur)
      { c with pfail := BitVec.ofNat 32 (fld v 32 32), pcap := BitVec.ofNat 32 (fld v 0 32) }
  | 0x50 => s.setMe { sl with wstart := Fin.ofNat 8 v.toNat }
  | 0x53 => s.setMe { sl with pmode := isService s.cur && v == 1 }
  | 0x60 => s.setCore (coreOf s.cur) { c with win := c.win.set 0 v }
  | 0x61 => s.setCore (coreOf s.cur) { c with win := c.win.set 1 v }
  | 0x62 => s.setCore (coreOf s.cur) { c with win := c.win.set 2 v }
  | 0x63 => s.setCore (coreOf s.cur) { c with win := c.win.set 3 v }
  | 0x64 => s.setCore (coreOf s.cur) { c with win := c.win.set 4 v }
  | 0x65 => s.setCore (coreOf s.cur) { c with win := c.win.set 5 v }
  | 0x66 => s.setCore (coreOf s.cur) { c with win := c.win.set 6 v }
  | 0x67 => s.setCore (coreOf s.cur) { c with win := c.win.set 7 v }
  | _ => s

/-- What the checks of R119 find: nothing, or the trap they raise. -/
inductive SrCheck where
  | pass
  | illegal
  | privilege
  | value
deriving DecidableEq, Repr

/-- The checks of R119 in order, for an access that reads by RDCNT or otherwise, that writes a value or none, from a
privilege on a worker or service core. -/
def srCheck (service : Bool) (user : Bool) (reads counts : Bool) (n : Nat) (write : Option Word) : SrCheck :=
  if !srKnown n then .illegal
  else if reads && (counts != srCounter n) then .illegal
  else if write.isSome && srReadOnly n then .illegal
  else if user && ((reads && srSupervisor n) || (write.isSome && (srSupervisor n || n == 0x33 || n == 0x34))) then
    .privilege
  else match write with
    | some v => if srBadValue service n v then .value else .pass
    | none => .pass

/-- A special-register access of head i: the checks of R119, the wait of R155 for FFLAGS, FRMODE and STATID, then the
access. -/
def State.srAccess (s : State) (i : Instr) (reads counts : Bool) (n : Nat) (write : Option Word)
    (k : State → State) : State :=
  match srCheck (isService s.cur) (s.me.priv = .user) reads counts n write with
  | .illegal => s.illegal i
  | .privilege => s.trapOpen 0x14
  | .value => s.trap 5 (write.getD 0)
  | .pass => if n = 0x10 ∨ n = 0x11 ∨ n = 0x12 then withWindows s k else k s

/-- RDSR (R153). -/
def execRdsr (a : XReg) (n : Fin 256) (s : State) : Out :=
  .next (s.srAccess (.rdsr a n) true false n.val none fun s => s.doneX a (s.srRead n.val))

/-- WRSR (R153, R155). -/
def execWrsr (n : Fin 256) (a : XReg) (s : State) : Out :=
  .next (s.srAccess (.wrsr n a) false false n.val (some (s.x a)) fun t => (t.srWrite n.val (s.x a)).done)

/-- RDCNT (R153, R154). -/
def execRdcnt (a : XReg) (n : Fin 256) (s : State) : Out :=
  .next (s.srAccess (.rdcnt a n) true true n.val none fun s => s.doneX a (s.srRead n.val))

/-- SWPSR (R153, R155): xB is read before xA is written. -/
def execSwpsr (a : XReg) (n : Fin 256) (b : XReg) (s : State) : Out :=
  .next (s.srAccess (.swpsr a n b) true false n.val (some (s.x b)) fun t =>
    (t.srWrite n.val (s.x b)).doneX a (t.srRead n.val))

end Sys2Proof.Machine
end

