-- ==== Sys2Proof/Machine/MatrixQueue.lean ====
section
/-!
DEFINITION. The queue instructions of the matrix unit (11_matrix_unit.md R223 to R231).
-/

namespace Sys2Proof.Machine

/-- The eight words of a record held in a vector register (R226). -/
def recordOf (v : Vec) : Vector Word 8 := Vector.ofFn fun i : Fin 8 => word (lane 8 v i.val)

/-- A word with a field replaced. -/
def putFld (w : Word) (lo n v : Nat) : Word := word (nput w.toNat lo n v)

/-- The checks of R225: ownership, and for all but MACK a stopped queue. -/
def withOwner (s : State) (mack : Bool) (k : State → State) : State :=
  if !s.ownsMatrix s.cur then s.trap 0x0D 0x0C
  else if !mack && s.myCore.mx.stop then s.trap 0x0D s.myCore.mx.mqflt
  else k s

/-- The state with the current core's matrix unit replaced. -/
def State.setMx (s : State) (core : Nat) (m : Matrix) : State := s.setCore core { s.core core with mx := m }

/-- STC (R223, R226): it stalls at its head while sixteen records are queued. -/
def execStc (sid : Bool) (a : XReg) (b : VReg) (s : State) : Out :=
  .next (withOwner s false fun s =>
    let m := s.myCore.mx
    if 16 ≤ m.queue.length then s
    else withRelease true s fun s =>
      let r := recordOf (s.v b)
      let r := if sid then r.set 0 (putFld (r.get 0) 32 6 s.me.statid.toNat) else r
      let cmd : MCmd := { words := r, seq := m.seq.toNat, st := .queued, since := s.dieClock (dieOf s.cur), at_ := s.clk.ticks }
      (s.setMx (coreOf s.cur) { m with queue := m.queue ++ [cmd], seq := m.seq + 1 }).doneX a (m.seq.setWidth 64))

/-- MQST (R227): it meets the second check of R225, for an owner. -/
def execMqst (a : XReg) (s : State) : Out :=
  .next (if s.ownsMatrix s.cur && s.myCore.mx.stop then s.trap 0x0D s.myCore.mx.mqflt else s.doneX a (s.mqstat s.cur))

/-- What MBIND binds a token to (R228), or none where it binds nothing. -/
def Matrix.bindTo (m : Matrix) (core q : Nat) : Option TokSt :=
  let src := TokSrc.matrix core q
  if m.queue.any (·.seq = q) then some (.pending src)
  else match m.outcomes.find? (·.1 = q) with
    | some (_, 0) => some (.complete src)
    | some (_, k) => some (.faulted src k)
    | none => none

/-- MBIND (R228). -/
def execMbind (j : Tok) (b : XReg) (s : State) : Out :=
  .next (withOwner s false fun s =>
    if (s.me.tok.get j).isPending then s.trapOpen 0x0E
    else match s.myCore.mx.bindTo (coreOf s.cur) (fld (s.x b) 0 16) with
      | some t => s.setMe ((s.me.setTok j t).retire [])
      | none => s.trapOpen 0x0E)

/-- MACK (R229): it discards a stopped queue. -/
def execMack (s : State) : Out :=
  .next (withOwner s true fun s => if s.myCore.mx.stop then (s.discardQueue (coreOf s.cur)).done else s.done)

end Sys2Proof.Machine
end

