-- ==== Sys2Proof/Machine/Scalar.lean ====
section
/-!
DEFINITION. The scalar arithmetic, logic, bit-field, immediate, pointer and selection forms
(08_scalar_instructions.md R136 to R149). Each reads its sources before it writes xA; none sets a flag or traps.
-/

namespace Sys2Proof.Machine

/-- 1 or 0 of a comparison (R136). -/
def flag (p : Prop) [Decidable p] : Word := if p then 1 else 0

/-- Rotation right (R140). -/
def rotr (b : Word) (k : Nat) : Word := b.rotateRight k

/-- The value with the smaller SInt (R140). -/
def minS (b c : Word) : Word := if sInt c < sInt b then c else b
/-- The value with the larger SInt. -/
def maxS (b c : Word) : Word := if sInt b < sInt c then c else b
/-- The value with the smaller UInt. -/
def minU (b c : Word) : Word := if c.toNat < b.toNat then c else b
/-- The value with the larger UInt. -/
def maxU (b c : Word) : Word := if b.toNat < c.toNat then c else b

/-- DIV (R142). -/
def divS (b c : Word) : Word := if c = 0 then BitVec.allOnes 64 else wrap64 ((sInt b).tdiv (sInt c))
/-- DIV.n (R142). -/
def divU (b c : Word) : Word := if c = 0 then BitVec.allOnes 64 else word (b.toNat / c.toNat)
/-- REM (R142). -/
def remS (b c : Word) : Word := if c = 0 then b else wrap64 (sInt b - sInt c * (sInt b).tdiv (sInt c))
/-- REM.n (R142). -/
def remU (b c : Word) : Word := if c = 0 then b else word (b.toNat - c.toNat * (b.toNat / c.toNat))

/-- ClMul over the low n bits of c (R143). -/
def clMul : Nat → Nat → Nat → Nat
  | 0, _, _ => 0
  | n + 1, b, c => if c % 2 = 1 then Nat.xor b (clMul n (2 * b) (c / 2)) else clMul n (2 * b) (c / 2)

/-- BExt over the low n bits of the mask, from result bit j up (R143). -/
def bExt : Nat → Nat → Nat → Nat → Nat
  | 0, _, _, _ => 0
  | n + 1, j, b, m => if m % 2 = 1 then b % 2 * 2 ^ j + bExt n (j + 1) (b / 2) (m / 2) else bExt n j (b / 2) (m / 2)

/-- BDep over the low n bits of the mask, from bit i up (R143). -/
def bDep : Nat → Nat → Nat → Nat → Nat
  | 0, _, _, _ => 0
  | n + 1, i, b, m => if m % 2 = 1 then b % 2 * 2 ^ i + bDep n (i + 1) (b / 2) (m / 2) else bDep n (i + 1) b (m / 2)

/-- Leading zero bits of a number of w bits; w for zero (R144). -/
def leadingZeros (w n : Nat) : Nat := if n = 0 then w else w - 1 - Nat.log2 n

/-- Trailing zero bits of a number of w bits; w for zero (R144). -/
def trailingZeros : Nat → Nat → Nat
  | 0, _ => 0
  | w + 1, n => if n % 2 = 1 then 0 else 1 + trailingZeros w (n / 2)

/-- Set bits of a number of w bits (R144). -/
def setBits : Nat → Nat → Nat
  | 0, _ => 0
  | w + 1, n => n % 2 + setBits w (n / 2)

/-- The low w bits of n reversed, behind those already gathered (R144). -/
def reverseBits : Nat → Nat → Nat → Nat
  | 0, r, _ => r
  | w + 1, r, n => reverseBits w (2 * r + n % 2) (n / 2)

/-- Pointer arithmetic that keeps the tag (02_main_memory.md R35). -/
def addTagged (b : Word) (off : Int) : Word := word (fld b 56 8 * 2 ^ 56 + memAddr b off)

/-- MOV (R139). -/
def execMov (a b : XReg) (s : State) : Out :=
  .next (s.doneX a (s.x b))

/-- ADD (R139). -/
def execAdd (a b : XReg) (s : State) : Out :=
  .next (s.doneX a (s.x a + s.x b))

/-- SUB (R139). -/
def execSub (a b : XReg) (s : State) : Out :=
  .next (s.doneX a (s.x a - s.x b))

/-- AND (R139). -/
def execAnd (a b : XReg) (s : State) : Out :=
  .next (s.doneX a (s.x a &&& s.x b))

/-- OR (R139). -/
def execOr (a b : XReg) (s : State) : Out :=
  .next (s.doneX a (s.x a ||| s.x b))

/-- XOR (R139). -/
def execXor (a b : XReg) (s : State) : Out :=
  .next (s.doneX a (s.x a ^^^ s.x b))

/-- ADDQ (R139). -/
def execAddq (a : XReg) (imm : BitVec 4) (s : State) : Out :=
  .next (s.doneX a (s.x a + imm.signExtend 64))

/-- SHLQ (R139). -/
def execShlq (a : XReg) (k : Fin 16) (s : State) : Out :=
  .next (s.doneX a (s.x a <<< k.val))

/-- SHRQ (R139). -/
def execShrq (a : XReg) (k : Fin 16) (s : State) : Out :=
  .next (s.doneX a (s.x a >>> k.val))

/-- ALU3_ADD (R140). -/
def execAlu3Add (a b c : XReg) (s : State) : Out :=
  .next (s.doneX a (s.x b + s.x c))

/-- ALU3_SUB (R140). -/
def execAlu3Sub (a b c : XReg) (s : State) : Out :=
  .next (s.doneX a (s.x b - s.x c))

/-- ALU3_AND (R140). -/
def execAlu3And (a b c : XReg) (s : State) : Out :=
  .next (s.doneX a (s.x b &&& s.x c))

/-- ALU3_OR (R140). -/
def execAlu3Or (a b c : XReg) (s : State) : Out :=
  .next (s.doneX a (s.x b ||| s.x c))

/-- ALU3_XOR (R140). -/
def execAlu3Xor (a b c : XReg) (s : State) : Out :=
  .next (s.doneX a (s.x b ^^^ s.x c))

/-- ANDN (R140). -/
def execAndn (a b c : XReg) (s : State) : Out :=
  .next (s.doneX a (s.x b &&& ~~~(s.x c)))

/-- SHL (R140). -/
def execShl (a b c : XReg) (s : State) : Out :=
  .next (s.doneX a (s.x b <<< fld (s.x c) 0 6))

/-- SHR (R140). -/
def execShr (a b c : XReg) (s : State) : Out :=
  .next (s.doneX a (s.x b >>> fld (s.x c) 0 6))

/-- SAR (R140). -/
def execSar (a b c : XReg) (s : State) : Out :=
  .next (s.doneX a ((s.x b).sshiftRight (fld (s.x c) 0 6)))

/-- ROT (R140). -/
def execRot (a b c : XReg) (s : State) : Out :=
  .next (s.doneX a (rotr (s.x b) (fld (s.x c) 0 6)))

/-- MIN (R140). -/
def execMin (a b c : XReg) (s : State) : Out :=
  .next (s.doneX a (minS (s.x b) (s.x c)))

/-- MAX (R140). -/
def execMax (a b c : XReg) (s : State) : Out :=
  .next (s.doneX a (maxS (s.x b) (s.x c)))

/-- MIN_N (R140). -/
def execMinN (a b c : XReg) (s : State) : Out :=
  .next (s.doneX a (minU (s.x b) (s.x c)))

/-- MAX_N (R140). -/
def execMaxN (a b c : XReg) (s : State) : Out :=
  .next (s.doneX a (maxU (s.x b) (s.x c)))

/-- CMPEQ (R140). -/
def execCmpeq (a b c : XReg) (s : State) : Out :=
  .next (s.doneX a (flag (s.x b = s.x c)))

/-- CMPLT (R140). -/
def execCmplt (a b c : XReg) (s : State) : Out :=
  .next (s.doneX a (flag (sInt (s.x b) < sInt (s.x c))))

/-- CMPLT_N (R141). -/
def execCmpltN (a b c : XReg) (s : State) : Out :=
  .next (s.doneX a (flag ((s.x b).toNat < (s.x c).toNat)))

/-- CMPLE (R141). -/
def execCmple (a b c : XReg) (s : State) : Out :=
  .next (s.doneX a (flag (sInt (s.x b) ≤ sInt (s.x c))))

/-- CMPLE_N (R141). -/
def execCmpleN (a b c : XReg) (s : State) : Out :=
  .next (s.doneX a (flag ((s.x b).toNat ≤ (s.x c).toNat)))

/-- CMPNE (R141). -/
def execCmpne (a b c : XReg) (s : State) : Out :=
  .next (s.doneX a (flag (s.x b ≠ s.x c)))

/-- MUL (R141). -/
def execMul (a b c : XReg) (s : State) : Out :=
  .next (s.doneX a (s.x b * s.x c))

/-- MULH (R141). -/
def execMulh (a b c : XReg) (s : State) : Out :=
  .next (s.doneX a (wrap64 (sInt (s.x b) * sInt (s.x c) / (2 ^ 64 : Nat))))

/-- MULH_N (R141). -/
def execMulhN (a b c : XReg) (s : State) : Out :=
  .next (s.doneX a (word ((s.x b).toNat * (s.x c).toNat / 2 ^ 64)))

/-- DIV (R142). -/
def execDiv (a b c : XReg) (l : Look) (s : State) : Out :=
  .next (withRoom s fun s => s.deliver l [.x a] (.ok [.x a (divS (s.x b) (s.x c))] {}))

/-- DIV_N (R142). -/
def execDivN (a b c : XReg) (l : Look) (s : State) : Out :=
  .next (withRoom s fun s => s.deliver l [.x a] (.ok [.x a (divU (s.x b) (s.x c))] {}))

/-- REM (R142). -/
def execRem (a b c : XReg) (l : Look) (s : State) : Out :=
  .next (withRoom s fun s => s.deliver l [.x a] (.ok [.x a (remS (s.x b) (s.x c))] {}))

/-- REM_N (R142). -/
def execRemN (a b c : XReg) (l : Look) (s : State) : Out :=
  .next (withRoom s fun s => s.deliver l [.x a] (.ok [.x a (remU (s.x b) (s.x c))] {}))

/-- CLMUL (R143). -/
def execClmul (a b c : XReg) (s : State) : Out :=
  .next (s.doneX a (word (clMul 64 (s.x b).toNat (s.x c).toNat)))

/-- CLMULH (R143). -/
def execClmulh (a b c : XReg) (s : State) : Out :=
  .next (s.doneX a (word (clMul 64 (s.x b).toNat (s.x c).toNat / 2 ^ 64)))

/-- BEXT (R143). -/
def execBext (a b c : XReg) (s : State) : Out :=
  .next (s.doneX a (word (bExt 64 0 (s.x b).toNat (s.x c).toNat)))

/-- BDEP (R143). -/
def execBdep (a b c : XReg) (s : State) : Out :=
  .next (s.doneX a (word (bDep 64 0 (s.x b).toNat (s.x c).toNat)))

/-- CLZ (R144). -/
def execClz (a b : XReg) (s : State) : Out :=
  .next (s.doneX a (word (leadingZeros 64 (s.x b).toNat)))

/-- CTZ (R144). -/
def execCtz (a b : XReg) (s : State) : Out :=
  .next (s.doneX a (word (trailingZeros 64 (s.x b).toNat)))

/-- POPC (R144). -/
def execPopc (a b : XReg) (s : State) : Out :=
  .next (s.doneX a (word (setBits 64 (s.x b).toNat)))

/-- BREV (R144). -/
def execBrev (a b : XReg) (s : State) : Out :=
  .next (s.doneX a (word (reverseBits 64 0 (s.x b).toNat)))

/-- SEXT_B (R144). -/
def execSextB (a b : XReg) (s : State) : Out :=
  .next (s.doneX a (((s.x b).setWidth 8).signExtend 64))

/-- SEXT_H (R144). -/
def execSextH (a b : XReg) (s : State) : Out :=
  .next (s.doneX a (((s.x b).setWidth 16).signExtend 64))

/-- SEXT_W (R144). -/
def execSextW (a b : XReg) (s : State) : Out :=
  .next (s.doneX a (((s.x b).setWidth 32).signExtend 64))

/-- ZEXT_B (R144). -/
def execZextB (a b : XReg) (s : State) : Out :=
  .next (s.doneX a (word (fld (s.x b) 0 8)))

/-- ZEXT_H (R144). -/
def execZextH (a b : XReg) (s : State) : Out :=
  .next (s.doneX a (word (fld (s.x b) 0 16)))

/-- ZEXT_W (R144). -/
def execZextW (a b : XReg) (s : State) : Out :=
  .next (s.doneX a (word (fld (s.x b) 0 32)))

/-- NOT (R144). -/
def execNot (a b : XReg) (s : State) : Out :=
  .next (s.doneX a (~~~(s.x b)))

/-- NEG (R144). -/
def execNeg (a b : XReg) (s : State) : Out :=
  .next (s.doneX a (-(s.x b)))

/-- ABS (R144). -/
def execAbs (a b : XReg) (s : State) : Out :=
  .next (s.doneX a (wrap64 (sInt (s.x b)).natAbs))

/-- TAGGET (R144). -/
def execTagget (a b : XReg) (s : State) : Out :=
  .next (s.doneX a (word (fld (s.x b) 56 8)))

/-- BSWAP (R144). -/
def execBswap (a b : XReg) (s : State) : Out :=
  .next (s.doneX a (word (leNat (leBytes 8 (s.x b).toNat).reverse)))

/-- ADDI (R146). -/
def execAddi (a b : XReg) (imm : BitVec 20) (s : State) : Out :=
  .next (s.doneX a (s.x b + imm.signExtend 64))

/-- ANDI (R146). -/
def execAndi (a b : XReg) (imm : BitVec 20) (s : State) : Out :=
  .next (s.doneX a (s.x b &&& imm.signExtend 64))

/-- ORI (R146). -/
def execOri (a b : XReg) (imm : BitVec 20) (s : State) : Out :=
  .next (s.doneX a (s.x b ||| imm.signExtend 64))

/-- XORI (R146). -/
def execXori (a b : XReg) (imm : BitVec 20) (s : State) : Out :=
  .next (s.doneX a (s.x b ^^^ imm.signExtend 64))

/-- CMPEQI (R146). -/
def execCmpeqi (a b : XReg) (imm : BitVec 20) (s : State) : Out :=
  .next (s.doneX a (flag (s.x b = imm.signExtend 64)))

/-- CMPLTI (R146). -/
def execCmplti (a b : XReg) (imm : BitVec 20) (s : State) : Out :=
  .next (s.doneX a (flag (sInt (s.x b) < imm.toInt)))

/-- CMPLTI_N (R146). -/
def execCmpltiN (a b : XReg) (imm : BitVec 20) (s : State) : Out :=
  .next (s.doneX a (flag ((s.x b).toNat < (imm.signExtend 64).toNat)))

/-- MULI (R146). -/
def execMuli (a b : XReg) (imm : BitVec 20) (s : State) : Out :=
  .next (s.doneX a (s.x b * imm.signExtend 64))

/-- ADDAI (R146). -/
def execAddai (a b : XReg) (imm : BitVec 20) (s : State) : Out :=
  .next (s.doneX a (addTagged (s.x b) imm.toInt))

/-- MINI (R146). -/
def execMini (a b : XReg) (imm : BitVec 20) (s : State) : Out :=
  .next (s.doneX a (minS (s.x b) (imm.signExtend 64)))

/-- MAXI (R146). -/
def execMaxi (a b : XReg) (imm : BitVec 20) (s : State) : Out :=
  .next (s.doneX a (maxS (s.x b) (imm.signExtend 64)))

/-- SHLI (R146). -/
def execShli (a b : XReg) (k : Fin 64) (s : State) : Out :=
  .next (s.doneX a (s.x b <<< k.val))

/-- SHRI (R146). -/
def execShri (a b : XReg) (k : Fin 64) (s : State) : Out :=
  .next (s.doneX a (s.x b >>> k.val))

/-- SARI (R146). -/
def execSari (a b : XReg) (k : Fin 64) (s : State) : Out :=
  .next (s.doneX a ((s.x b).sshiftRight k.val))

/-- ROTI (R146). -/
def execRoti (a b : XReg) (k : Fin 64) (s : State) : Out :=
  .next (s.doneX a (rotr (s.x b) k.val))

/-- TAGSET (R146). -/
def execTagset (a b : XReg) (tag : BitVec 8) (s : State) : Out :=
  .next (s.doneX a (word (tag.toNat * 2 ^ 56 + fld (s.x b) 0 56)))

/-- LI_16 (R147). -/
def execLi16 (a : XReg) (imm : BitVec 16) (s : State) : Out :=
  .next (s.doneX a (imm.signExtend 64))

/-- LI_32 (R147). -/
def execLi32 (a : XReg) (imm : BitVec 32) (s : State) : Out :=
  .next (s.doneX a (imm.signExtend 64))

/-- LI_64 (R147). -/
def execLi64 (a : XReg) (imm : BitVec 64) (s : State) : Out :=
  .next (s.doneX a (imm))

/-- ADDA (R148). -/
def execAdda (a b c : XReg) (sh : Fin 4) (s : State) : Out :=
  .next (s.doneX a (addTagged (s.x b) (sInt (s.x c) * (2 ^ sh.val : Nat))))

/-- SEL (R149). -/
def execSel (a b c d : XReg) (s : State) : Out :=
  .next (s.doneX a (if s.x c ≠ 0 then s.x b else s.x d))

end Sys2Proof.Machine
end

