-- ==== Sys2Proof/Machine/Send.lean ====
section
/-!
DEFINITION. SEND, SENDX, END, CMIT, WBOR and WRET (13_handlers_and_messages.md R260 to R262, R265, R270 to R273;
14_weight_and_quiescence.md R280 to R282; 11_matrix_unit.md R250).
-/

namespace Sys2Proof.Machine

/-! Destinations -/

/-- Hash of an affinity address (R262). -/
def affinityHash (a : Word) : Nat :=
  Nat.xor (Nat.xor (Nat.xor (fld a 12 12) (fld a 24 12)) (fld a 36 12)) (fld a 48 8)

/-- The place an affinity address routes to (R262). -/
def Context.owner (c : Context) (a : Word) : Nat := kget 0 c.owners (affinityHash a % c.omsz)

/-- The destination package a SEND names (R265, R271). -/
def State.sendPkg (s : State) (b : Word) : Nat := if bitOf b.toNat 20 then fld b 16 4 else s.fw.pkg

/-- The check of a SEND's place (R271 step 4): nothing, or a trap with TVAL xB, or a privilege trap. -/
inductive PlaceCheck where
  | pass | refused | privilege
deriving DecidableEq, Repr

/-- Step 4 of R271. -/
def State.placeCheck (s : State) (b : Word) : PlaceCheck :=
  let place := fld b 0 16
  if s.sendPkg b = s.fw.pkg then
    if !s.receives (s.ctxOf s.me.ctx).part place then .refused
    else if isSlot place && isService place && decide (s.me.priv = .user) then .privilege
    else .pass
  else if bitOf (s.reg (.sprt (s.sendPkg b))).toNat 4 then .pass
  else .refused

/-! SEND (R271) -/

/-- The message a SEND makes (R263, R271). -/
def State.sendMsg (s : State) (amt dest dpkg : Nat) (a : VReg) (c : Word) (cls : Fin 4) : Msg :=
  let sl := s.me
  { wt := amt, eline := elineOf c, cls := cls.val, kslot := sl.kslot, ctx := sl.ctx, src := s.cur, dest := dest,
    spkg := s.fw.pkg, hpkg := sl.hpkg, dpkg := dpkg, payload := (recordOf (s.v a)).toList, arrived := 0 }

/-- SEND and SENDX of an amount (R271): ok tells whether the amount is allowed, all whether it is all the weight. -/
def State.send (s : State) (sendx all ok : Bool) (amt : Nat) (a : VReg) (b c : XReg) (cls : Fin 4) : State :=
  let sl := s.me
  let ctx := s.ctxOf sl.ctx
  let xb := s.x b
  let xc := s.x c
  let feeder := !sendx && (feederOf (fld xb 0 16)).isSome
  if sl.spent || !ok then s.trap 9 (word sl.wt)
  else if !feeder && !ctx.entryValid xc then s.trap 2 xc
  else match (if sendx then .pass else s.placeCheck xb) with
    | .refused => s.trap 7 xb
    | .privilege => s.trapOpen 0x14
    | .pass =>
      if !sl.irrev && decide (32 ≤ sl.cbuf.length) then s.trapOpen 0x13
      else
        let m := if sendx then s.sendMsg amt (ctx.owner xb) s.fw.pkg a xc cls
          else s.sendMsg amt (fld xb 0 16) (s.sendPkg xb) a xc cls
        let t := s.setMe { sl with wt := sl.wt - amt, spent := sl.spent || all }
        if sl.irrev then withRelease true s fun _ => ((if all then t.statsHome t.cur else t).transmit m).done
        else (t.setMe { t.me with cbuf := t.me.cbuf ++ [.send m] }).done

/-- SEND.h (R271). -/
def execSendH (a : VReg) (b c : XReg) (cls : Fin 4) (s : State) : Out :=
  .next (s.send false false (2 ≤ s.me.wt) (s.me.wt / 2) a b c cls)

/-- SEND.a (R271, R282). -/
def execSendA (a : VReg) (b c : XReg) (cls : Fin 4) (s : State) : Out :=
  .next (s.send false true (1 ≤ s.me.wt) s.me.wt a b c cls)

/-- SENDX.h (R271). -/
def execSendxH (a : VReg) (b c : XReg) (cls : Fin 4) (s : State) : Out :=
  .next (s.send true false (2 ≤ s.me.wt) (s.me.wt / 2) a b c cls)

/-- SENDX.a (R271, R282). -/
def execSendxA (a : VReg) (b c : XReg) (cls : Fin 4) (s : State) : Out :=
  .next (s.send true true (1 ≤ s.me.wt) s.me.wt a b c cls)

/-- An amount of .n is allowed (R271). -/
def amountOk (n wt : Nat) : Bool := decide (1 ≤ n) && decide (n < wt)

/-- SEND.n (R271). -/
def execSendN (a : VReg) (b c d : XReg) (cls : Fin 4) (s : State) : Out :=
  .next (s.send false false (amountOk (s.x d).toNat s.me.wt) (s.x d).toNat a b c cls)

/-- SENDX.n (R271). -/
def execSendxN (a : VReg) (b c d : XReg) (cls : Fin 4) (s : State) : Out :=
  .next (s.send true false (amountOk (s.x d).toNat s.me.wt) (s.x d).toNat a b c cls)

/-! END, CMIT, WBOR, WRET (R270, R272, R273) -/

/-- END's buffered reductions and sends (step 2 of R273), which it waits for (12_way_back.md R255), then its last
steps, or the trap of a refused reduction. -/
def State.endNow (s : State) : State :=
  if s.commitStops s.cur then s.commitWait s.cur else
  match (s.statsHome s.cur).endBuffer s.cur with
  | (some (c, tv), t) => t.trapNR c tv
  | (none, t) => t.endSlot s.cur

/-- END (R273, R250): an owner of the matrix unit waits at its head until the queue is empty, and traps where it is
stopped. -/
def execEndAct (s : State) : Out :=
  .next (withWindows s fun s =>
    if s.ownsMatrix s.cur then
      if s.myCore.mx.stop then s.trap 0x0D s.myCore.mx.mqflt
      else if !s.myCore.mx.queue.isEmpty then s
      else s.endNow
    else s.endNow)

/-- CMIT (R270). -/
def execCmit (s : State) : Out := .next (withWindows s fun s => withCommit s State.done)

/-- Returns of a key on their way to or in a shard's combiner, sent on to the home ahead of a borrow (R281). -/
def State.flushKey (s : State) (shard ctx kslot hpkg : Nat) : State :=
  let hit (e : Combine) : Bool := e.shard = shard ∧ e.ctx = ctx ∧ e.kslot = kslot ∧ e.hpkg = hpkg
  { s with home := { s.home with
      combiners := s.home.combiners.filter (fun e => !hit e)
      wires := (s.home.combiners.filter hit).map (fun e => .ret e.ctx e.kslot e.hpkg e.sum hubPlace) ++
        s.home.wires.map fun w => match w with
          | .combine sh c k h amt => if sh = shard ∧ c = ctx ∧ k = kslot ∧ h = hpkg then .ret c k h amt hubPlace else w
          | w => w } }

/-- The combiner of a shard holds returns of a key, or has some on their way to it (R281). -/
def State.holdsKey (s : State) (shard ctx kslot hpkg : Nat) : Bool :=
  s.home.combiners.any (fun e => decide (e.shard = shard) && decide (e.ctx = ctx) && decide (e.kslot = kslot) &&
      decide (e.hpkg = hpkg)) ||
    s.home.wires.any fun w => w == .combine shard ctx kslot hpkg (match w with | .combine _ _ _ _ a => a | _ => 0)

/-- WBOR (R272, R280): it waits at its head for the grant. A combiner entry of its key is flushed ahead of the borrow,
once the writes that the returns there release have been performed (R281); without one the borrow goes on at once
(R418). -/
def execWbor (a : XReg) (s : State) : Out :=
  .next (withWindows s fun s =>
    let x := (s.x a).toNat
    let sl := s.me
    if sl.spent then s.trap 9 0
    else if x = 0 ∨ 2 ^ 32 - 1 < sl.wt + x then s.trap 9 (word x)
    else withCommit s fun t =>
      if t.holdsKey (shardOf (clusOf t.cur)) sl.ctx sl.kslot sl.hpkg && t.writesOpen sl.ctx sl.kslot then t else
      let u := (t.flushKey (shardOf (clusOf t.cur)) sl.ctx sl.kslot sl.hpkg).wire (.borrow sl.ctx sl.kslot sl.hpkg x t.cur t.fw.pkg sl.act)
      u.setMe { u.me with park := .grant x })

/-- WRET (R272, R281). -/
def execWret (a : XReg) (s : State) : Out :=
  .next (withWindows s fun s =>
    let x := (s.x a).toNat
    let sl := s.me
    if x = 0 ∨ sl.wt < x then s.trap 9 (word x)
    else withCommit s fun t =>
      let t := t.statsHome t.cur
      let u := t.setMe { t.me with wt := t.me.wt - x }
      (u.returnWeight (clusOf u.cur) sl.ctx sl.kslot sl.hpkg x).done)

end Sys2Proof.Machine
end

