-- ==== Sys2Proof/Machine/FormeUnit.lean ====
section
/-!
DEFINITION. The forme engines (15_formes.md R288 to R304): naming, handles, members, arrivals, phases and their
completion. An engine acts on an operation at once; its answer, and the wakes it sends, travel (log entry 4).
-/

namespace Sys2Proof.Machine

/-- The key of a forme. -/
def formeKey (part num : Nat) : Nat := part * 65536 + num

/-- Modulo 2^32. -/
def w32 (n : Nat) : Nat := n % 2 ^ 32

/-- Phase p has completed in a forme whose current phase is P (R299). -/
def phaseDone (cur p : Nat) : Bool :=
  let d := w32 (cur + 2 ^ 32 - p)
  decide (1 ≤ d) && decide (d ≤ 2 ^ 31)

/-- A handle (R290). -/
def mkHandle (fo : Bool) (hdie gen mix num : Nat) : Word :=
  word (boolCode fo * 2 ^ 43 + hdie * 2 ^ 40 + gen * 2 ^ 32 + mix * 2 ^ 16 + num)

/-- A handle names the forme only. -/
def handleFo (h : Word) : Bool := bitOf h.toNat 43
/-- MIX of a handle. -/
def handleMix (h : Word) : Nat := fld h 16 16
/-- NUM of a handle. -/
def handleNum (h : Word) : Nat := fld h 0 16

/-- The member of an index that is pending or present. -/
def Forme.member (f : Forme) (mix : Nat) : Option Member := f.members.find? fun m => m.mix = mix ∧ m.st ≠ .absent

/-- The forme of a live key. -/
def State.forme (s : State) (key : Nat) : Option Forme :=
    if khas s.formes key then some (kget {} s.formes key) else none

/-- The state with a forme replaced. -/
def State.setForme (s : State) (key : Nat) (f : Forme) : State := { s with formes := kset s.formes key f }

/-- The forme a handle names for a partition, when the handle is valid (R291). -/
def State.validHandle (s : State) (part : Nat) (h : Word) : Option Forme :=
  if fld h 44 20 ≠ 0 ∨ handleFo h ≠ (handleMix h == 0xFFFF) ∨ fld h 40 3 ≠ homeDie part (handleNum h) then none
  else match s.forme (formeKey part (handleNum h)) with
    | none => none
    | some f =>
      if f.gen ≠ fld h 32 8 then none
      else if handleFo h || (f.member (handleMix h)).isSome then some f
      else none

/-! Phases -/

/-- A member has arrived in a phase. -/
def Phase.has (p : Phase) (mix : Nat) : Bool := p.arr.any (·.mix = mix)

/-- Members in a state. -/
def Forme.count (f : Forme) (st : MemSt) : Nat := f.members.countP (·.st = st)

/-- The member's first phase is the next one (R299): it is pending. -/
def Member.next (m : Member) : Bool := m.st = .pending

/-- Waiters held in hardware or in the overflow ring (R304). -/
def Forme.held (f : Forme) (hw : Bool) : Nat :=
  (f.cur.arr ++ f.nxt.arr).countP (fun a => match a.how with | .block _ _ h => h == hw | _ => false) +
    f.waiters.countP (·.hw == hw)

/-- Where a new waiter is held (R304): in hardware, in the partition's overflow ring, or nowhere. -/
def State.waiterRoom (s : State) (part : Nat) (f : Forme) : Option Bool :=
  if f.held true < 16 then some true
  else if kget 0 s.overflow part < 2 ^ fld (s.reg (.frmarea part)) 0 5 then some false
  else none

/-- The state with a partition's overflow ring holding one waiter more, unless the waiter is in hardware. -/
def State.addOverflow (s : State) (part : Nat) (hw : Bool) : State :=
  if hw then s else { s with overflow := kset s.overflow part (kget 0 s.overflow part + 1) }

/-- The values that votes and reductions combine, leaves as absent members (R296). -/
def Phase.values (p : Phase) (absent : Option Word) : List Word :=
  p.arr.filterMap fun a => match a.how with
    | .leave => absent
    | _ => some a.val

/-- The result of a reduction (R296). -/
def reduceAll (op : Nat) (p : Phase) : Word :=
  match op with
  | 0 => (p.values none).foldl (· + ·) 0
  | 1 => (p.values none).foldl (· &&& ·) (BitVec.allOnes 64)
  | 2 => (p.values none).foldl (· ||| ·) 0
  | 3 => (p.values none).foldl (· ^^^ ·) 0
  | 4 => (p.values (some (word (2 ^ 63 - 1)))).foldl minS (word (2 ^ 63 - 1))
  | 5 => (p.values (some (word (2 ^ 63)))).foldl maxS (word (2 ^ 63))
  | 6 => (p.values none).foldl minU (BitVec.allOnes 64)
  | _ => (p.values none).foldl maxU 0

/-- The result of a phase (R296). -/
def Phase.result (p : Phase) (num : Nat) : Word :=
  let votes := (p.values none).map (· != 0)
  match p.kind with
  | none => 0
  | some .plain => word num
  | some (.vote 0) => word (boolCode (votes.all id))
  | some (.vote 1) => word (boolCode (votes.any id))
  | some (.vote _) => word (votes.countP id)
  | some (.reduce op) => reduceAll op p

/-! Wakes -/

/-- A slot parked in a blocking arrival gets its result, or its forme's deletion: on the way to a live slot. -/
def Slot.wakeForme (sl : Slot) (r : Option Word) : Slot :=
  match sl.park, r with
  | .forme a, some w => { sl with park := .woken a w }
  | .answer (.wait a), some w => { sl with park := .woken a w }
  | .forme _, none => { sl with park := .deleted }
  | .answer (.wait _), none => { sl with park := .deleted }
  | _, _ => sl

/-- A spilled slot: the result is written into its saved state, and it goes on at the next head (R306). -/
def Slot.wakeSaved (sl : Slot) (r : Option Word) : Slot :=
  match (sl.wakeForme r).park with
  | .woken a w => { (sl.setX a w).retire [.x a] with park := .run, skipBp := false }
  | _ => sl.wakeForme r

/-- The slot of a blocking arrival woken, live or saved (R296, R302, R306); one whose activation is gone is not. -/
def State.wakeArrival (s : State) (place act : Nat) (r : Option Word) : State :=
  if (s.slot place).occ && decide ((s.slot place).act = act) then s.setSlot place ((s.slot place).wakeForme r)
  else { s with saved := s.saved.map fun (k, a) =>
    let sl := kget {} a.slots place
    if k % 512 = clusOf place ∧ khas a.slots place = true ∧ sl.act = act then
      (k, { a with slots := kset a.slots place (sl.wakeSaved r) })
    else (k, a) }

/-- The notification of an arrival (R297). -/
def State.notification (s : State) (die wt dest eline ctx kslot hpkg : Nat) (r : Word) (phase absent : Nat)
    (del : Bool) : Msg :=
  { wt := wt, eline := eline, cls := 1, kslot := kslot, ctx := ctx, src := enginePlace die, dest := dest,
    spkg := s.fw.pkg, hpkg := hpkg, dpkg := s.fw.pkg,
    payload := [r, word phase, word (absent % 65536 + boolCode del * 65536), 0, 0, 0, 0, 0], arrived := 0 }

/-- The arrivals of a phase answered: blocking ones woken, then notifications sent; del tells of a deletion. -/
def State.answerArrivals (s : State) (die : Nat) (p : Phase) (num absent : Nat) (del : Bool) : State :=
  let r := if del then 0 else p.result num
  let wakes (hw : Bool) (t : State) : State := p.arr.foldl (fun t a => match a.how with
    | .block place act h => if h = hw then t.wakeArrival place act (if del then none else some r) else t
    | _ => t) t
  p.arr.foldl (fun t a => match a.how with
    | .notify wt dest eline ctx kslot hpkg => t.post (s.notification die wt dest eline ctx kslot hpkg r num absent del)
    | _ => t) (wakes false (wakes true s))

/-- Tokens bound to a phase of a forme completed. -/
def State.completeTokens (s : State) (part num phase : Nat) : State :=
  s.settleTokens fun src => match src with
    | .forme p n ph => if p = part ∧ n = num ∧ ph = phase then some none else none
    | _ => none

/-- The overflow ring after waiters that were held there leave it. -/
def State.dropOverflow (s : State) (part : Nat) (p : Phase) (ws : List TokWaiter) : State :=
  let n := p.arr.countP (fun a => match a.how with | .block _ _ h => !h | _ => false) + ws.countP (fun w => !w.hw)
  if n = 0 then s else { s with overflow := kset s.overflow part (kget 0 s.overflow part - n) }

/-- A member at the completion of phase P: absent where its leave took effect, present where it was pending
(R300 steps 5 and 6). -/
def Member.turn (m : Member) (cur : Nat) : Member :=
  if m.leaveAfter = some cur ∧ m.st = .present then { m with st := .absent }
  else if m.st = .pending then { m with st := .present }
  else m

/-- Phase P completes (R300): one present member at least, and every present member has arrived. -/
def Forme.ready (f : Forme) : Bool :=
  f.members.any (·.st = .present) && f.members.all fun m => m.st != .present || f.cur.has m.mix

/-- One completion (R300 steps 1 to 7). -/
def State.completePhase (s : State) (part num : Nat) (f : Forme) : State :=
  let s1 := s.answerArrivals (homeDie part num) f.cur f.phase (f.count .absent) false
  let s2 := (s1.completeTokens part num f.phase).dropOverflow part f.cur (f.waiters.filter (·.phase = f.phase))
  s2.setForme (formeKey part num) { f with
    members := f.members.map (·.turn f.phase)
    phase := w32 (f.phase + 1)
    cur := f.nxt
    nxt := {}
    waiters := f.waiters.filter (·.phase ≠ f.phase) }

/-- The completion tests after an event (R300): a phase that completes may leave the next one complete; none can
complete a third time, having no arrival. -/
def State.testPhase (s : State) (part num : Nat) : Nat → State
  | 0 => s
  | n + 1 =>
    match s.forme (formeKey part num) with
    | some f => if f.ready then (s.completePhase part num f).testPhase part num n else s
    | none => s

/-- The state after an event of a forme: the forme put back, then the tests. -/
def State.afterEvent (s : State) (part num : Nat) (f : Forme) : State :=
  (s.setForme (formeKey part num) f).testPhase part num 3

/-! Operations -/

/-- An engine's refusal of a form, or what it did. -/
inductive EngineRes where
  | ok (s : State)
  | refuse (code : Nat)
deriving DecidableEq

/-- An arrival of a valid member (R296, R299, R301, R303): the phase it counts in, its kind, and for a blocking one the
waiter's room. -/
def State.arrive (s : State) (part num : Nat) (f : Forme) (h : Word) (kind : PhKind) (val : Word) (how : Bool → ArrHow)
    (blocking : Bool) : EngineRes :=
  let mix := handleMix h
  if handleFo h then .refuse 0x0A
  else match f.member mix with
    | none => .refuse 0x0A
    | some m =>
      if m.leaveAfter.isSome then .refuse 0x0B
      else
        let inNext := m.next || f.cur.has mix
        let p := if inNext then f.nxt else f.cur
        if p.has mix then .refuse 0x06
        else if p.kind.isSome && p.kind != some kind then .refuse 0x05
        else
          let room := if blocking then s.waiterRoom part f else some true
          match room with
          | none => .refuse 0x07
          | some hw =>
            let p' : Phase := { kind := some kind, arr := p.arr ++ [⟨mix, val, how hw⟩] }
            .ok ((if blocking then s.addOverflow part hw else s).afterEvent part num
              (if inNext then { f with nxt := p' } else { f with cur := p' }))

/-- The forme after a member has left (R301), counted as faulted or not. -/
def Forme.leave (f : Forme) (m : Member) (abs : Bool) : Forme :=
  let put (after : Nat) : List Member := f.members.map fun x =>
    if x.mix = m.mix ∧ x.st ≠ .absent then { x with leaveAfter := some after, abs := x.abs || abs } else x
  let gone : Arrival := ⟨m.mix, 0, .leave⟩
  if m.next then
    { f with members := put (w32 (f.phase + 1))
             nxt := if f.nxt.has m.mix then f.nxt else { f.nxt with arr := f.nxt.arr ++ [gone] } }
  else if !f.cur.has m.mix then { f with members := put f.phase, cur := { f.cur with arr := f.cur.arr ++ [gone] } }
  else { f with members := put (if f.nxt.has m.mix then w32 (f.phase + 1) else f.phase) }

/-- FLEAVE of a valid handle (R301). -/
def State.leaveForme (s : State) (part num : Nat) (f : Forme) (h : Word) (abs : Bool) : EngineRes :=
  if handleFo h then .refuse 0x0A
  else match f.member (handleMix h) with
    | none => .refuse 0x0A
    | some m => if m.leaveAfter.isSome then .refuse 0x0B else .ok (s.afterEvent part num (f.leave m abs))

/-- The members a kernel of a home joined leave a forme (R301). -/
def State.leaveKernelIn (s : State) (key ctx kslot hpkg : Nat) : List Member → State
  | [] => s
  | m :: ms =>
    match s.forme key with
    | none => s
    | some f =>
      match f.member m.mix with
      | some x =>
        if x.ctx = ctx ∧ x.kslot = kslot ∧ x.hpkg = hpkg ∧ x.leaveAfter = none then
          (s.afterEvent (key / 65536) (key % 65536) (f.leave x false)).leaveKernelIn key ctx kslot hpkg ms
        else s.leaveKernelIn key ctx kslot hpkg ms
      | none => s.leaveKernelIn key ctx kslot hpkg ms

/-- Every member that a kernel of a home joined in this package leaves its forme (R301). -/
def State.leaveKernel (s : State) (ctx kslot hpkg : Nat) : State :=
  s.formes.foldl (fun t (key, f) => t.leaveKernelIn key ctx kslot hpkg f.members) s

/-- FDEL of a forme (R302). -/
def State.deleteForme (s : State) (part num : Nat) (f : Forme) : State :=
  let die := homeDie part num
  let s1 := s.answerArrivals die f.cur f.phase (f.count .absent) true
  let s2 := s1.answerArrivals die f.nxt (w32 (f.phase + 1)) (f.count .absent) true
  let s3 := s2.settleTokens fun src => match src with
    | .forme p n _ => if p = part ∧ n = num then some (some 8) else none
    | _ => none
  let s4 := (s3.dropOverflow part f.cur f.waiters).dropOverflow part f.nxt []
  { s4 with formes := kdel s4.formes (formeKey part num) }

/-- The address of a number's generation byte, when the partition has a forme area (R289). -/
def State.genAddr (s : State) (part num : Nat) : Option Nat :=
  let base := fld (s.reg (.frmarea part)) 16 32
  if base = 0 then none else some (base * 65536 + num)

/-- FCRE (R294): its status, and the handle it makes. -/
def State.createForme (s : State) (part num scope maxm creator : Nat) : State × Nat × Option Word :=
  let die := homeDie part num
  if khas s.formes (formeKey part num) then (s, 1, none)
  else match s.genAddr part num with
    | none => (s, 2, none)
    | some ga =>
      if 4096 ≤ s.liveAt die none ∨ fld (s.reg (.frmquota die part)) 0 13 ≤ s.liveAt die (some part) then (s, 2, none)
      else
        let old := leNat (s.memView ga 1)
        let gen := if old = 255 then 1 else old + 1
        let t := s.memStore ga [BitVec.ofNat 8 gen] []
        (t.setForme (formeKey part num) { gen := gen, scope := scope, maxm := maxm, creator := creator }, 0,
          some (mkHandle true die gen 0xFFFF num))

/-- Two places lie in one unit at a scope 1 to 5 (R294; 00_scope.md R3). -/
def sameUnit (scope p q : Nat) : Bool :=
  match scope with
  | 1 => decide (coreOf p = coreOf q)
  | 2 => decide (clusOf p = clusOf q)
  | 3 => decide (shardOf (clusOf p) = shardOf (clusOf q))
  | 4 => decide (dieOf p = dieOf q)
  | _ => true

/-- The lowest index below a bound that is neither pending nor present (R295). -/
def Forme.freeIndex (f : Forme) : Option Nat := (List.range f.maxm).find? fun i => (f.member i).isNone

/-- FJOIN (R295): the handle and the join phase, or a refusal. -/
def State.joinForme (s : State) (part num place ctx kslot hpkg : Nat) : Except Nat (State × Word × Nat) :=
  match s.forme (formeKey part num) with
  | none => .error 0x02
  | some f =>
    if f.closed then .error 0x03
    else if !sameUnit f.scope f.creator place then .error 0x09
    else match f.freeIndex with
      | none => .error 0x04
      | some mix =>
        let empty := f.count .present = 0 ∧ f.count .pending = 0 ∧ f.cur.arr = []
        let join := if empty then f.phase else w32 (f.phase + 1)
        let m : Member := { mix := mix, st := if empty then .present else .pending, join := join, ctx := ctx,
                            kslot := kslot, hpkg := hpkg, leaveAfter := none, abs := false }
        let f' := { f with members := (f.members.filter (·.mix ≠ mix)) ++ [m] }
        .ok (s.afterEvent part num f', mkHandle false (homeDie part num) f.gen mix num, join)

/-- The code of a phase's kind, and of its mode or op (R298). -/
def kindCode (k : Option PhKind) : Nat × Nat :=
  match k with
  | none => (0, 0)
  | some .plain => (1, 0)
  | some (.vote m) => (2, m)
  | some (.reduce op) => (3, op)

/-- Weight that the notify arrivals of a phase hold. -/
def Phase.weight (p : Phase) : Nat :=
  (p.arr.map fun a => match a.how with | .notify wt .. => wt | _ => 0).sum

/-- FQRY (R298). -/
def Forme.query (f : Forme) (sel : Nat) : Word :=
  match sel with
  | 0 => word (f.cur.arr.length * 2 ^ 48 + f.count .pending * 2 ^ 32 + f.count .absent * 2 ^ 16 + f.count .present)
  | 1 => word (f.maxm * 2 ^ 48 + f.scope * 2 ^ 40 + boolCode f.closed * 2 ^ 39 + (kindCode f.cur.kind).2 * 2 ^ 35 +
      (kindCode f.cur.kind).1 * 2 ^ 32 + f.phase)
  | _ => word (w32 (f.cur.weight + f.nxt.weight) * 2 ^ 32 + (f.held true + f.held false) % 65536 * 2 ^ 16 +
      f.members.countP (fun m => m.st = .absent ∧ m.abs))

end Sys2Proof.Machine
end

