-- ==== Sys2Proof/Machine/Formes.lean ====
section
/-!
DEFINITION. The FRM forms (15_formes.md R292 to R305). The engine acts on a form at once, and the slot waits at its
head for the answer that FORME_ENGINE_ANSWER brings (log entry 4).
-/

namespace Sys2Proof.Machine

/-- The current slot waits for an engine's answer (R293). -/
def State.awaitAnswer (s : State) (a : FormeAns) : State := s.setMe { s.me with park := .answer a }

/-- A protocol refusal on its way to the slot (R303). -/
def State.protocol (s : State) (code : Nat) : State := s.awaitAnswer (.refuse 0x0C (word code))

/-- The partition of the current slot's context. -/
def State.myPart (s : State) : Nat := (s.ctxOf s.me.ctx).part

/-- The engine's validation of a handle (R291, R293): a stale one is refused with cause 0x0B. -/
def State.withForme (s : State) (h : Word) (k : Forme → State) : State :=
  match s.validHandle s.myPart h with
  | none => s.awaitAnswer (.refuse 0x0B h)
  | some f => k f

/-- A blocking arrival (R296): it ends windows, commits, and waits first for the answer and then for its phase. -/
def State.blockingArrival (s : State) (a : XReg) (b : HReg) (kind : PhKind) (val : State → Word) : State :=
  withWindows s fun s => withCommit s fun s => s.withForme (s.h b) fun f =>
    let h := s.h b
    -- parked before the engine acts, so that a completion finds it
    let t := s.awaitAnswer (.wait a)
    match t.arrive s.myPart (handleNum h) f h kind (val s) (fun hw => .block s.cur s.me.act hw) true with
    | .refuse code => s.protocol code
    | .ok u => u

/-- A notify arrival (R297): amount and entry are checked before the commit, and the weight goes with the arrival. -/
def State.notifyArrival (s : State) (b : HReg) (a d : XReg) (kind : PhKind) (val : Word) : State :=
  let x := (s.x d).toNat
  let sl := s.me
  if sl.spent || !amountOk x sl.wt then s.trap 9 (word sl.wt)
  else if !(s.ctxOf sl.ctx).entryValid (s.x a) then s.trap 2 (s.x a)
  else
    let dest := s.cur / 8 * 8
    let eline := elineOf (s.x a)
    withCommit s fun s => s.withForme (s.h b) fun f =>
      let h := s.h b
      match s.arrive s.myPart (handleNum h) f h kind val
          (fun _ => .notify x dest eline sl.ctx sl.kslot sl.hpkg) false with
      | .refuse code => s.protocol code
      | .ok u => (u.setMe { u.me with wt := u.me.wt - x }).awaitAnswer (.done [] none)

/-- FCRE (R294). -/
def execFcre (a : XReg) (d : HReg) (b c : XReg) (s : State) : Out :=
  let par := s.x c
  let scope := fld par 0 3
  .next (if scope = 0 ∨ 5 < scope ∨ fld par 16 16 = 0 ∨ fld par 3 13 ≠ 0 ∨ fld par 32 32 ≠ 0 then s.trap 0x0C 1
    else
      let num := fld (s.x b) 0 16
      withCommit s fun s =>
        let (t, status, h) := s.createForme s.myPart num scope (fld par 16 16) s.cur
        t.awaitAnswer (.done [.x a (word status)] (h.map fun w => (d, w))))

/-- FJOIN (R295). -/
def execFjoin (a : HReg) (c b : XReg) (s : State) : Out :=
  let num := fld (s.x b) 0 16
  .next (withCommit s fun s =>
    match s.joinForme s.myPart num s.cur s.me.ctx s.me.kslot s.me.hpkg with
    | .error code => s.protocol code
    | .ok (t, h, join) => t.awaitAnswer (.done [.x c (word join)] (some (a, h))))

/-- A leave (R301). -/
def State.leaveForm (s : State) (b : HReg) (abs : Bool) : State :=
  withCommit s fun s => s.withForme (s.h b) fun f =>
    match s.leaveForme s.myPart (handleNum (s.h b)) f (s.h b) abs with
    | .refuse code => s.protocol code
    | .ok u => u.awaitAnswer (.done [] none)

/-- FLEAVE (R301). -/
def execFleave (b : HReg) (s : State) : Out := .next (s.leaveForm b false)

/-- FLEAVE.abs (R301): supervisor. -/
def execFleaveAbs (b : HReg) (s : State) : Out :=
  .next (if s.me.priv = .user then s.trapOpen 0x14 else s.leaveForm b true)

/-- FDEL (R302). -/
def execFdel (b : HReg) (s : State) : Out :=
  .next (withCommit s fun s => s.withForme (s.h b) fun f =>
    (s.deleteForme s.myPart (handleNum (s.h b)) f).awaitAnswer (.done [] none))

/-- FCLOSE (R295). -/
def execFclose (b : HReg) (s : State) : Out :=
  .next (withCommit s fun s => s.withForme (s.h b) fun f =>
    (s.setForme (formeKey s.myPart (handleNum (s.h b))) { f with closed := true }).awaitAnswer (.done [] none))

/-- FARR (R296). -/
def execFarr (a : XReg) (b : HReg) (s : State) : Out := .next (s.blockingArrival a b .plain fun _ => 0)

/-- FARRN (R297). -/
def execFarrn (b : HReg) (a d : XReg) (s : State) : Out := .next (s.notifyArrival b a d .plain 0)

/-- FVOTE (R296). -/
def execFvote (a : XReg) (b : HReg) (c : XReg) (mode : Fin 3) (s : State) : Out :=
  .next (s.blockingArrival a b (.vote mode.val) fun t => t.x c)

/-- FRED (R296). -/
def execFred (a : XReg) (b : HReg) (c : XReg) (op : Fin 8) (s : State) : Out :=
  .next (s.blockingArrival a b (.reduce op.val) fun t => t.x c)

/-- FREDN (R297). -/
def execFredn (b : HReg) (c a d : XReg) (op : Fin 8) (s : State) : Out :=
  .next (s.notifyArrival b a d (.reduce op.val) (s.x c))

/-- FQRY (R298). -/
def execFqry (a : XReg) (b : HReg) (sel : Fin 3) (s : State) : Out :=
  .next (s.withForme (s.h b) fun f => s.awaitAnswer (.done [.x a (f.query sel.val)] none))

/-- FWAIT (R305): a token that is bound and pending traps before the engine is asked (06_copy_and_galleys.md R109). -/
def execFwait (j : Tok) (b : HReg) (c : XReg) (s : State) : Out :=
  .next (withWindows s fun s =>
    if (s.me.tok.get j).isPending then s.trapOpen 0x0E
    else s.withForme (s.h b) fun f =>
      let num := handleNum (s.h b)
      let p := fld (s.x c) 0 32
      let src := TokSrc.forme s.myPart num p
      if phaseDone f.phase p then (s.setMe (s.me.setTok j (.complete src))).awaitAnswer (.done [] none)
      else match s.waiterRoom s.myPart f with
        | none => s.protocol 0x07
        | some hw =>
          let t := (s.addOverflow s.myPart hw).setForme (formeKey s.myPart num)
            { f with waiters := f.waiters ++ [⟨s.cur, j, p, hw⟩] }
          (t.setMe (t.me.setTok j (.pending src))).awaitAnswer (.done [] none))

/-- HTOX (R293). -/
def execHtox (a : XReg) (b : HReg) (s : State) : Out := .next (s.doneX a (s.h b))

/-- XTOH (R293). -/
def execXtoh (a : HReg) (b : XReg) (s : State) : Out := .next (s.setMe ((s.me.setH a (s.x b)).retire []))

end Sys2Proof.Machine
end

