-- ==== Sys2Proof/Machine/System.lean ====
section
/-!
DEFINITION. The system forms (08_scalar_instructions.md R156 to R163) with what they act on: translation entries and
their withdrawal (02_main_memory.md R37, R42, R45 to R48), pins (07_instruction_lines.md R135), halting
(20_debug.md R371, R372) and the event queue (06_copy_and_galleys.md R106).
-/

namespace Sys2Proof.Machine

/-! Translation entries -/

/-- A field of page bits is aligned to its page size (02_main_memory.md R37). -/
def pageAligned (size a : Nat) : Bool := decide (a % pageSize size = 0)

/-- The words of TLBW break the table of R37. -/
def entryBad (e0 e1 : Word) : Bool :=
  decide (fld e0 56 8 ≠ 0) || decide (fld e0 2 2 = 3) || bitOf e0.toNat 1 ||
    !pageAligned (fld e0 2 2) (fld e0 16 40 * 65536) || decide (fld e1 48 16 ≠ 0) || decide (fld e1 6 10 ≠ 0) ||
    bitOf e1.toNat 4 || !pageAligned (fld e0 2 2) (fld e1 16 32 * 65536) ||
    (!bitOf e0.toNat 0 && decide (fld e1 16 32 ≠ 0))

/-- The translation entry of two words (R37). -/
def entryOf (e0 e1 : Word) : TlbEnt :=
  { va := fld e0 16 40 * 65536, pa := fld e1 16 32 * 65536, tsid := fld e0 4 12, size := fld e0 2 2,
    sc := bitOf e1.toNat 5, u := bitOf e1.toNat 3, x := bitOf e1.toNat 2, w := bitOf e1.toNat 1, r := bitOf e1.toNat 0 }

/-- A requester goes on after its request was answered, with a translation answered 2 or 3 noted (R42). -/
def State.resume (s : State) (w : XWaiter) (res : Option (Nat × Nat)) : State :=
  match w.who with
  | .slot p =>
    let sl := s.slot p
    s.setSlot p { sl with park := if sl.park = .xlat then .run else sl.park, xres := res }
  | .feeder f =>
    let d := s.feeder f
    if d.st = .xlat then s.setFeeder f { d with st := .running, xres := res } else s
  | .copy c id _ =>
    let k := s.clus c
    s.setClus c { k with chans := k.chans.map fun t => if t.id = id then { t with waits := false, xres := res } else t }
  | .front q =>
    if res.isSome then { s with front := { s.front with answers := kset s.front.answers q none } } else s
  | .iface _ => s
  | .prefetch c => if res.isSome then s.setCore c { s.core c with pxres := res } else s

/-- The entry written into a requester's own TLB (R42). -/
def State.fillOwn (s : State) (w : XWaiter) (e : TlbEnt) : State :=
  match w.who with
  | .slot p => s.setCore (coreOf p) { s.core (coreOf p) with l1 := tlbPut (s.core (coreOf p)).l1 e }
  | .iface c => s.setCore c { s.core c with l1 := tlbPut (s.core c).l1 e }
  | .prefetch c => s.setCore c { s.core c with l1 := tlbPut (s.core c).l1 e }
  | .feeder f => s.setFeeder f { s.feeder f with tlb := tlbPut (s.feeder f).tlb e }
  | .copy c _ _ => s.setClus c { s.clus c with ctlb := tlbPut (s.clus c).ctlb e }
  | .front q => { s with front := { s.front with answers := kset s.front.answers q (some e) } }

/-- The entry written into a cluster's TLB; waiting messages it covers are released (R42, 18_faults_and_preemption.md
R342). -/
def State.fillCluster (s : State) (clus : Nat) (e : TlbEnt) : State :=
  (s.setClus clus { s.clus clus with tlb := tlbPut (s.clus clus).tlb e }).releaseWaits clus
    (fun f => e.covers f.tsid f.addr)

/-- A request removed from a cluster's queue. -/
def State.dropReq (s : State) (clus id : Nat) : State :=
  s.setClus clus { s.clus clus with reqs := (s.clus clus).reqs.filter (fun r => r.id ≠ id) }

/-- Every waiter of a request goes on. -/
def State.resumeAll (s : State) (res : XWaiter → Option (Nat × Nat)) : List XWaiter → State
  | [] => s
  | w :: ws => (s.resume w (res w)).resumeAll res ws

/-- Every waiter's own TLB filled. -/
def State.fillAll (s : State) (e : TlbEnt) : List XWaiter → State
  | [] => s
  | w :: ws => (s.fillOwn w e).fillAll e ws

/-- Outcome 1 for the waiters of a request: an abortable slot is aborted, and every other requester goes on waiting
(R42). -/
def State.absentAll (s : State) : List XWaiter → State
  | [] => s
  | w :: ws =>
    match w.who with
    | .slot p => if w.abortable && w.kind != 3 then (s.abort p w.va).absentAll ws else s.absentAll ws
    | _ => s.absentAll ws

/-- A broken context has touched a reported page (18_faults_and_preemption.md R356). -/
def State.touchPage (s : State) (clus va : Nat) : State :=
  match (s.clus clus).ctx with
  | some ctx =>
    let c := s.ctxOf ctx
    if c.st = .broken ∧ c.pages.contains (va / 65536 * 65536) = true then s.setCtx ctx { c with touched := true } else s
  | none => s

/-- A request answered absent stays open for those it does not abort (R42; 18_faults_and_preemption.md R343). -/
def State.markFaulted (s : State) (clus id : Nat) : State :=
  s.setClus clus { s.clus clus with
    reqs := (s.clus clus).reqs.map fun r => if r.id = id then { r with faulted := true } else r }

/-- TLBW in a cluster once its words have passed (08_scalar_instructions.md R159). -/
def State.tlbWrite (s : State) (clus : Nat) (e0 e1 : Word) (id : Nat) : State :=
  let e := entryOf e0 e1
  match (s.clus clus).reqs.find? (·.id == id) with
  | some r =>
    if bitOf e0.toNat 0 then
      if r.stale then (s.dropReq clus id).resumeAll (fun _ => none) r.waiters
      else (((s.dropReq clus id).fillCluster clus e).fillAll e r.waiters).resumeAll (fun _ => none) r.waiters
    else if fld e1 0 4 = 1 then ((s.touchPage clus (r.addr.toNat % 2 ^ 56)).markFaulted clus id).absentAll r.waiters
    else (s.dropReq clus id).resumeAll (fun w => some (w.va / 65536, fld e1 0 4)) r.waiters
  | none => if bitOf e0.toNat 0 then s.fillCluster clus e else s

/-! Withdrawal (02_main_memory.md R45, R46, R48) -/

/-- A descriptor has a nonzero reserved bit, SIZE 3, or unaligned page bits where they count (R160). -/
def descBad (d : Word) : Bool :=
  decide (fld d 56 8 ≠ 0) || decide (fld d 2 2 = 3) ||
    (!bitOf d.toNat 1 && !pageAligned (fld d 2 2) (fld d 16 40 * 65536))

/-- A descriptor matches a page of a space (R45). -/
def descHits (d : Word) (tsid va len : Nat) : Bool :=
  decide (tsid = fld d 4 12) &&
    (bitOf d.toNat 1 ||
      (decide (va < fld d 16 40 * 65536 + pageSize (fld d 2 2)) && decide (fld d 16 40 * 65536 < va + len)))

/-- A TLB without the entries a descriptor matches. -/
def tlbDrop (d : Word) (l : List TlbEnt) : List TlbEnt := l.filter fun e => !descHits d e.tsid e.va (pageSize e.size)

/-- An instruction cache without the lines fetched through matching entries (07_instruction_lines.md R134). -/
def cacheDrop (d : Word) (l : List CacheLine) : List CacheLine := l.filter fun c =>
    !descHits d c.tsid (c.va / c.span * c.span) c.span

/-- The slot with the line it executes withdrawn, where a descriptor matches the entry it was fetched through: it goes
on to the line's end (07_instruction_lines.md R134). -/
def Slot.dropLine (sl : Slot) (d : Word) : Slot :=
  { sl with lineOld := sl.lineOld || sl.line.any fun c => (cacheDrop d [c]).isEmpty }

/-- The spilled slots of a cluster with the lines they execute withdrawn where a descriptor matches. -/
def SaveArea.dropLines (a : SaveArea) (d : Word) : SaveArea :=
    { a with slots := a.slots.map fun (k, sl) => (k, sl.dropLine d) }

/-- A core without what a descriptor matches. -/
def CoreSt.withdraw (k : CoreSt) (d : Word) : CoreSt := { k with l1 := tlbDrop d k.l1, icache := cacheDrop d k.icache }

/-- A cluster without what a descriptor matches; matching open requests are stale (R48). -/
def ClusSt.withdraw (k : ClusSt) (d : Word) : ClusSt :=
  { k with
    tlb := tlbDrop d k.tlb
    ctlb := tlbDrop d k.ctlb
    icache := cacheDrop d k.icache
    reqs := k.reqs.map fun r => if descHits d r.tsid (r.page * 65536) 65536 then { r with stale := true } else r }

/-- TLBI (R45): one cluster's TLBs and instruction caches. -/
def State.withdrawIn (s : State) (clus : Nat) (d : Word) : State :=
  { s with
    clusters := s.clusters.map fun (k, c) => if k = clus then (k, c.withdraw d) else (k, c)
    cores := s.cores.map fun (k, c) => if k / 16 = clus then (k, c.withdraw d) else (k, c)
    slots := s.slots.map fun (k, sl) => if clusOf k = clus then (k, sl.dropLine d) else (k, sl)
    saved := s.saved.map fun (k, a) => if k % 512 = clus then (k, a.dropLines d) else (k, a) }

/-- SDOWN's invalidation (R46, R47): every TLB and instruction cache of the package that is not power-gated; a gated
core or cluster already owes a flush at its wake. -/
def State.withdrawAll (s : State) (d : Word) : State :=
  { s with
    clusters := s.clusters.map fun (k, c) => if c.gated then (k, c) else (k, c.withdraw d)
    cores := s.cores.map fun (k, c) => if c.gated || (s.clus (k / 16)).gated then (k, c) else (k, c.withdraw d)
    slots := s.slots.map fun (k, sl) => (k, sl.dropLine d)
    saved := s.saved.map fun (k, a) => (k, a.dropLines d)
    feeders := s.feeders.map fun (k, f) => (k, { f with tlb := tlbDrop d f.tlb }) }

/-! Halting (20_debug.md R371, R372) -/

/-- A slot halts with a cause, unless it is halted already: its trace record and HCAUSE (R371, R378). -/
def State.haltOne (s : State) (place hcause : Nat) : State :=
  let sl := s.slot place
  if sl.halted || !sl.occ then s
  else
    let t := s.setSlot place { sl with halted := true }
    (t.setClus (clusOf place) { t.clus (clusOf place) with hcause := BitVec.ofNat 4 hcause }).trace place 4 hcause sl.ctx
      sl.kslot sl.pc 0

/-- Slots halt one after the other. -/
def State.haltMany (s : State) (hcause : Nat) : List Nat → State
  | [] => s
  | p :: ps => (s.haltOne p hcause).haltMany hcause ps

/-- Every slot of a cluster halts, with the cause, but one whose step has yet to issue its head, which halts after it
(R375); with FRZ the copy engine freezes, but for a step or a slice end under way (R371, R372, R374). -/
def State.haltCluster (s : State) (clus hcause : Nat) : State :=
  let stepped (p : Nat) : Bool := (s.clus clus).stepping.any fun x => x.1 == p && x.2.1 == 0
  let t := s.haltMany hcause ((s.slots.filter (fun (k, sl) => clusOf k = clus ∧ sl.occ ∧ stepped k = false)).map (·.1))
  let c := t.clus clus
  t.setClus clus { c with
    halted := true, frozen := c.frozen || (c.frz && c.stepping.isNone && c.switch.isNone), hcause :=
        BitVec.ofNat 4 hcause }

/-- A slot halts, and with XT its whole cluster by cross-trigger (R371). -/
def State.haltSlot (s : State) (place hcause : Nat) : State :=
  let t := s.haltOne place hcause
  if (t.clus (clusOf place)).xt then t.haltCluster (clusOf place) 4 else t

/-! The forms -/

/-- A SYS form that user privilege may not run (R156): windows end, then privilege is checked. -/
def sysForm (s : State) (k : State → State) : State :=
  withWindows s fun s => if s.me.priv = .user then s.trapOpen 0x14 else k s

/-- A trap taken at the head that follows in sequence (R157). -/
def State.trapAfter (s : State) (cause : Nat) (tval : Word) : State :=
  withWindows s fun s => s.takeTrapAt s.cur cause tval s.me.npc false 0 false false 0

/-- TRAP (R157). -/
def execTrap (code : Fin 256) (s : State) : Out := .next (s.trapAfter 0x11 (word code.val))

/-- SVC (R157). -/
def execSvc (code : Fin 256) (s : State) : Out := .next (s.trapAfter 0x11 (word (2 ^ 63 + code.val)))

/-- DBRK (R157): halts its slot where halt-on-break is set for the core. -/
def execDbrk (s : State) : Out :=
  .next (if (s.clus (clusOf s.cur)).hob.getLsbD (unitOf s.cur) then withWindows s fun s => s.done.haltSlot s.cur 2
    else s.trapAfter 0x12 s.me.pc)

/-- RETT (R158): its targets are checked before privilege changes (07_instruction_lines.md R124). -/
def execRett (s : State) : Out :=
  .next (sysForm s fun s =>
    let sl := s.me
    let ts := sl.tstate.toNat
    if bitOf ts 9 then s.illegal .rett
    else if sl.priv.code < ts % 4 then s.trapOpen 0x14
    else
      let back (t : State) : State :=
        let u := t.me.retireTo sl.tpc []
        t.setMe { u with
          line := none
          priv := (match ts % 4 with | 0 => .user | 1 => .supervisor | _ => .monitor)
          rex := if bitOf ts 2 then some (sl.tres, bitOf ts 3) else none }
      withTarget s sl.tpc.toNat fun t => if bitOf ts 2 then withTarget t sl.tres.toNat back else back t)

/-- HALT (R162). -/
def execHalt (s : State) : Out := .next (sysForm s fun s => s.done.haltSlot s.cur 5)

/-- An event condition holds for a core (R162); an event notice that its service core has not bound is a message that
waits for it (13_handlers_and_messages.md R263). -/
def State.eventHolds (s : State) (core : Nat) : Bool :=
  let c := s.clus (core / 16)
  !(s.core core).inbox.isEmpty || c.switch.isSome ||
    (decide (core % 16 = 8) && (!c.evq.isEmpty || c.notices != 0 || c.reqs.any (fun r => !r.bound)))

/-- WFI (R162). -/
def execWfi (s : State) : Out :=
  .next (sysForm s fun s =>
    if s.eventHolds (coreOf s.cur) then s.done
    else s.setMe { s.me.retire [] with park := .wfi })

/-- TLBW (R159). -/
def execTlbw (a b c : XReg) (s : State) : Out :=
  .next (sysForm s fun s =>
    let e0 := s.x a
    let e1 := s.x b
    let id := fld (s.x c) 0 16
    let out := fld e1 0 4
    if entryBad e0 e1 || (!bitOf e0.toNat 0 && (out == 0 || decide (4 ≤ out) || id == 0xFFFF)) then s.trap 5 e0
    else (s.done).tlbWrite (clusOf s.cur) e0 e1 id)

/-- TLBI (R160). -/
def execTlbi (a : XReg) (s : State) : Out :=
  .next (sysForm s fun s =>
    if descBad (s.x a) then s.trap 5 (s.x a) else (s.done).withdrawIn (clusOf s.cur) (s.x a))

/-- A slot's commit buffer holds a reduction that was translated through an entry a descriptor of a shoot-down
withdraws. -/
def State.redUses (s : State) (d : Word) (sl : Slot) : Bool :=
  sl.cbuf.any fun e =>
    match e with
    | .red r => !r.vault && descHits d (s.tsidOf sl) (r.tval.toNat % 2 ^ 56) 1
    | .send _ => false

/-- SDOWN (R160): the entries go at once, and the slot stalls until the package node has acknowledged. No access
through a withdrawn entry remains after it, so its slot commits first where its buffer holds a reduction translated
through one (log entry 48, the model's choice). -/
def execSdown (a : XReg) (s : State) : Out :=
  .next (sysForm s fun s =>
    if descBad (s.x a) then s.trap 5 (s.x a)
    else (if s.redUses (s.x a) s.me then withCommit s else fun k => k s) fun s =>
      let t := s.setMe { s.me.retire [] with park := .sdown }
      { t.withdrawAll (s.x a) with sdowns := t.sdowns ++ [{ place := s.cur, ctx := s.me.ctx, desc := s.x a, acked := [] }] })

/-- The lines an IPREF, IPIN or IUNPIN names, for its slot (R161). -/
def State.rangeOf (s : State) (a b : XReg) (lvl : Fin 2) (pin : Bool) : Prefetch :=
  let sl := s.me
  { ctx := sl.ctx, tsid := s.fetchSpace, va := fld (s.x a) 6 50 * 64, count := fld (s.x b) 0 32,
    user := sl.priv = .user, phys := isService s.cur && sl.pmode, cluster := lvl = 1, pin := pin }

/-- A range handed to the core's prefetch engine (07_instruction_lines.md R135). -/
def State.prefetch (s : State) (r : Prefetch) : State :=
  if r.count = 0 then s
  else s.setCore (coreOf s.cur) { s.myCore with prefetch := s.myCore.prefetch ++ [r] }

/-- IPREF (R161). -/
def execIpref (a b : XReg) (lvl : Fin 2) (s : State) : Out :=
  .next (withWindows s fun s => (s.done).prefetch (s.rangeOf a b lvl false))

/-- IPIN (R161). -/
def execIpin (a b : XReg) (lvl : Fin 2) (s : State) : Out :=
  .next (withWindows s fun s => (s.done).prefetch (s.rangeOf a b lvl true))

/-- A line lies in a range, whose addresses wrap (R161). -/
def Prefetch.holds (r : Prefetch) (l : CacheLine) : Bool :=
  decide (l.tsid = r.tsid) && decide ((l.va + 2 ^ 56 - r.va) % 2 ^ 56 / 64 < r.count)

/-- A cache with the pins of a context in a range released (R135). -/
def unpin (r : Prefetch) (l : List CacheLine) : List CacheLine :=
  l.map fun c => if r.holds c && c.pinned == some r.ctx then { c with pinned := none } else c

/-- IUNPIN (R161). -/
def execIunpin (a b : XReg) (lvl : Fin 2) (s : State) : Out :=
  .next (withWindows s fun s =>
    let r := s.rangeOf a b lvl false
    let t := s.done
    if lvl = 1 then
      t.setClus (clusOf s.cur) { t.clus (clusOf s.cur) with icache := unpin r (t.clus (clusOf s.cur)).icache }
    else t.setCore (coreOf s.cur) { t.myCore with icache := unpin r t.myCore.icache })

/-- EVQ (R163): on a worker core illegal. -/
def execEvq (a b : XReg) (s : State) : Out :=
  .next (sysForm s fun s =>
    if !isService s.cur then s.illegal (.evq a b)
    else
      let c := s.clus (clusOf s.cur)
      let put (t : State) (w0 w1 : Word) : State := t.setMe (((t.me.setX a w0).setX b w1).retire [.x a, .x b])
      match c.evq with
      | [] => put s 0 (BitVec.allOnes 64)
      | (w0, w1) :: es => put (s.setClus (clusOf s.cur) { c with evq := es }) w0 w1)

end Sys2Proof.Machine
end

