-- ==== Sys2Proof/Machine/VectorMemory.lean ====
section
/-!
DEFINITION. Vector loads and stores, strided, gathered and scattered accesses, and the format-decoding accesses
(09_memory_instructions.md R174 to R179; 01_formats.md R13, R18 to R22, R29). An acquire or release form has the same
effect on the state (R168; log entry 6). Elements are performed in ascending order.
-/

namespace Sys2Proof.Machine

/-- n runs of size bytes of a vector, lowest first. -/
def vecChunks (v : Vec) (size n : Nat) : List (List Byte) := (List.range n).map fun i => leBytes size (lane size v i)

/-- The vector of bytes, lowest first, with zeros above. -/
def vecOfBytes (bs : List Byte) : Vec := BitVec.ofNat 512 (leNat bs)

/-! Whole vectors (R175) -/

/-- A load of n units of size bytes, each one single-copy atomic, aligned to a unit (R175). -/
def State.vecLoad (s : State) (vault : Bool) (a : VReg) (b : XReg) (l : Look) (disp : BitVec 20) (size n : Nat)
    (f : List Byte → Vec) : State :=
  withRoom s fun s =>
    match operand vault (s.x b) (dispOf disp) size (size * n) with
    | .bad c tv => s.trap c tv
    | .ok addr =>
      loadForm l [.v a] ((s.locateAll .load vault (tagOf (s.x b)) (unitsFrom vault addr size n)).bind fun ps t =>
        (t.readPieces AKind.load.need ps).bind fun bs u => .ok ([.v a (f bs.flatten)], {}) u)

/-- A store of the units chosen of those from an address up (R175). -/
def State.vecStore (s : State) (vault : Bool) (b : XReg) (disp : BitVec 20) (size n : Nat)
    (units : Nat → List ((Nat × Nat) × List Byte)) : State :=
  match operand vault (s.x b) (dispOf disp) size (size * n) with
  | .bad c tv => s.trap c tv
  | .ok addr =>
    let us := units addr
    storeForm ((s.locateAll .store vault (tagOf (s.x b)) (us.map (·.1))).bind fun ps t =>
      t.writePieces false (ps.zip (us.map (·.2))))

/-- The low n words of eight bytes of a vector, from an address up. -/
def wordUnits (vault : Bool) (v : Vec) (n addr : Nat) : List ((Nat × Nat) × List Byte) :=
  (unitsFrom vault addr 8 n).zip (vecChunks v 8 n)

/-- The bytes a predicate enables: a word with every byte enabled whole, and the others byte by byte (R175). -/
def predUnits (v : Vec) (p : Word) (addr : Nat) : List ((Nat × Nat) × List Byte) :=
  (List.range 8).flatMap fun i =>
    if fld p (8 * i) 8 = 255 then [(((addr + 8 * i) % 2 ^ 56, 8), leBytes 8 (lane 8 v i))]
    else (List.range 8).filterMap fun j =>
      if bitOf p.toNat (8 * i + j) then some (((addr + 8 * i + j) % 2 ^ 56, 1), leBytes 1 (lane 1 v (8 * i + j)))
      else none

/-- VLD (R175). -/
def execVld (_acq : Bool) (a : VReg) (b : XReg) (l : Look) (disp : BitVec 20) (s : State) : Out :=
  .next (s.vecLoad false a b l disp 8 8 vecOfBytes)

/-- VLD.bc8 (R175). -/
def execVldBc8 (_acq : Bool) (a : VReg) (b : XReg) (l : Look) (disp : BitVec 20) (s : State) : Out :=
  .next (s.vecLoad false a b l disp 8 1 fun bs => vecOfLanes 8 (List.replicate 8 (leNat bs)))

/-- VLD.bc4 (R175). -/
def execVldBc4 (_acq : Bool) (a : VReg) (b : XReg) (l : Look) (disp : BitVec 20) (s : State) : Out :=
  .next (s.vecLoad false a b l disp 4 1 fun bs => vecOfLanes 4 (List.replicate 16 (leNat bs)))

/-- VLD.half (R175). -/
def execVldHalf (_acq : Bool) (a : VReg) (b : XReg) (l : Look) (disp : BitVec 20) (s : State) : Out :=
  .next (s.vecLoad false a b l disp 8 4 vecOfBytes)

/-- VST (R175). -/
def execVst (rel : Bool) (a : VReg) (b : XReg) (disp : BitVec 20) (s : State) : Out :=
  .next (withRelease rel s fun s => s.vecStore false b disp 8 8 (wordUnits false (s.v a) 8))

/-- VST.half (R175). -/
def execVstHalf (rel : Bool) (a : VReg) (b : XReg) (disp : BitVec 20) (s : State) : Out :=
  .next (withRelease rel s fun s => s.vecStore false b disp 8 4 (wordUnits false (s.v a) 4))

/-- VST.pred (R175). -/
def execVstPred (rel : Bool) (a : VReg) (b : XReg) (p : PReg) (disp : BitVec 20) (s : State) : Out :=
  .next (withRelease rel s fun s => s.vecStore false b disp 8 8 (predUnits (s.v a) (s.p p)))

/-- VLDV (R175). -/
def execVldv (a : VReg) (b : XReg) (l : Look) (disp : BitVec 20) (s : State) : Out :=
  .next (s.vecLoad true a b l disp 8 8 vecOfBytes)

/-- VLDV.acq (R175). -/
def execVldvAcq (a : VReg) (b : XReg) (l : Look) (disp : BitVec 20) (s : State) : Out :=
  .next (s.vecLoad true a b l disp 8 8 vecOfBytes)

/-- VSTV (R175). -/
def execVstv (a : VReg) (b : XReg) (disp : BitVec 20) (s : State) : Out :=
  .next (s.vecStore true b disp 8 8 (wordUnits true (s.v a) 8))

/-- VSTV.rel (R175). -/
def execVstvRel (a : VReg) (b : XReg) (disp : BitVec 20) (s : State) : Out :=
  .next (withRelease true s fun s => s.vecStore true b disp 8 8 (wordUnits true (s.v a) 8))

/-! Lane forms (R177) -/

/-- The active lanes of w bytes. -/
def State.activeLanes (s : State) (p : Option PReg) (w : Nat) : List Nat :=
  (List.range (laneCount w)).filter (s.activeOpt p w)

/-- Lanes with those at the indices given replaced. -/
def putLanes (old : List Nat) : List (Nat × Nat) → List Nat
  | [] => old
  | (i, v) :: ps => putLanes (old.set i v) ps

/-- A lane load (R177): offs gives each active lane's offset from the base. -/
def State.laneLoad (s : State) (w : Nat) (a : VReg) (b : XReg) (l : Look) (vault : Bool) (p : Option PReg)
    (offs : Nat → Int) : State :=
  withRoom s fun s =>
    let live := s.activeLanes p w
    let old := lanesOf w (s.v a)
    match operands (live.map fun i => operand vault (s.x b) (offs i) w w) with
    | .error (c, tv) => s.trap c tv
    | .ok addrs =>
      loadForm l [.v a] ((s.locateAll .load vault (tagOf (s.x b)) (addrs.map fun a => (a, w))).bind fun ps t =>
        (t.readPieces AKind.load.need ps).bind fun bs u =>
          .ok ([.v a (vecOfLanes w (putLanes old (live.zip (bs.map leNat))))], {}) u)

/-- A lane store (R177): lanes in ascending order, so that the bytes of the highest lane stand. -/
def State.laneStore (s : State) (w : Nat) (a : VReg) (b : XReg) (vault : Bool) (p : Option PReg) (offs : Nat → Int) :
    State :=
  let live := s.activeLanes p w
  let v := s.v a
  match operands (live.map fun i => operand vault (s.x b) (offs i) w w) with
  | .error (c, tv) => s.trap c tv
  | .ok addrs =>
    storeForm ((s.locateAll .store vault (tagOf (s.x b)) (addrs.map fun a => (a, w))).bind fun ps t =>
      t.writePieces false (ps.zip (live.map fun i => leBytes w (lane w v i))))

/-- Bytes of a lane of the width bit. -/
def laneWidth (w8 : Bool) : Nat := if w8 then 8 else 4

/-- The signed index lane i of w bytes. -/
def indexLane (w : Nat) (v : Vec) (i : Nat) : Int := intVal (8 * w) true (lane w v i)

/-- VLDS (R177). -/
def execVlds (w8 : Bool) (a : VReg) (b c : XReg) (l : Look) (vault : Bool) (p : Option PReg) (s : State) : Out :=
  .next (s.laneLoad (laneWidth w8) a b l vault p fun i => i * sInt (s.x c))

/-- VSTS (R177). -/
def execVsts (w8 : Bool) (a : VReg) (b c : XReg) (vault : Bool) (p : Option PReg) (s : State) : Out :=
  .next (s.laneStore (laneWidth w8) a b vault p fun i => i * sInt (s.x c))

/-- VGATH (R177). -/
def execVgath (w8 : Bool) (a : VReg) (b : XReg) (c : VReg) (l : Look) (vault : Bool) (p : Option PReg) (s : State) :
    Out :=
  .next (s.laneLoad (laneWidth w8) a b l vault p (indexLane (laneWidth w8) (s.v c)))

/-- VSCAT (R177). -/
def execVscat (w8 : Bool) (a : VReg) (b : XReg) (c : VReg) (vault : Bool) (p : Option PReg) (s : State) : Out :=
  .next (s.laneStore (laneWidth w8) a b vault p (indexLane (laneWidth w8) (s.v c)))

/-! Format-decoding accesses (R178; 01_formats.md R13, R17 to R22) -/

/-- The runs of bytes of a span that are accessed each at once: a 6-bit group byte by byte. -/
def spanUnits (sp : Nat × Nat) : List (Nat × Nat) :=
  if sp.2 = 3 then [(sp.1, 1), (sp.1 + 1, 1), (sp.1 + 2, 1)] else [sp]

/-- Bytes read from spans, by offset from the base. -/
abbrev SpanBytes := List (Nat × List Byte)

/-- The bytes read from the span at an offset, as a number. -/
def spanNat (m : SpanBytes) (o : Nat) : Nat :=
  match m.find? (·.1 = o) with
  | some (_, bs) => leNat bs
  | none => 0

/-- The address of an offset from the base of a format-decoding access. -/
def fmtAddr (vault : Bool) (x : Word) (o : Nat) : Nat :=
  if vault then fld x 24 16 * 2 ^ 24 + fld x 0 24 + o else memAddr x o

/-- Spans located (step 4 of R165). -/
def State.locateSpans (s : State) (k : AKind) (vault : Bool) (x : Word) :
    List (Nat × Nat) → Acc (List (Nat × List Piece))
  | [] => .ok [] s
  | sp :: sps =>
    (s.locateAll k vault (tagOf x) ((spanUnits sp).map fun u => (fmtAddr vault x u.1, u.2))).bind fun ps t =>
      (t.locateSpans k vault x sps).bind fun rest u => .ok ((sp.1, ps) :: rest) u

/-- Located spans read. -/
def State.readSpans (s : State) (need : WinNeed) : List (Nat × List Piece) → Acc SpanBytes
  | [] => .ok [] s
  | (o, ps) :: sps =>
    (s.readPieces need ps).bind fun bs t => (t.readSpans need sps).bind fun rest u => .ok ((o, bs.flatten) :: rest) u

/-- Headers of the blocks of elements, each once; none for an unblocked format (R178). -/
def headerSpans (f lg : Nat) (els : List Nat) : List (Nat × Nat) :=
  if lg = 0 then [] else (els.map (headerOffset f lg)).eraseDups.map fun o => (o, 4)

/-- The spans of elements, each once. -/
def elementSpans (f lg : Nat) (els : List Nat) : List (Nat × Nat) := (els.map (elementSpan f lg)).eraseDups

/-- Steps 2 and 3 of R165 for a format-decoding access to elements (01_formats.md R18, R19, R21). -/
def withFormat (s : State) (vault : Bool) (x : Word) (els : List Nat) (k : Nat → Nat → State) : State :=
  let f := fld x 59 5
  let lg := fld x 56 3
  let a := if vault then fld x 0 40 else fld x 0 56
  if f = 0 ∨ tagLegal f lg = false then s.trapOpen 8
  else if a % formatAlign f lg ≠ 0 then s.trap 3 (word a)
  else
    let units := (headerSpans f lg els ++ elementSpans f lg els).flatMap spanUnits
    match operands (units.map fun u => if vault then vaultOperand x u.1 1 u.2 else .ok 0) with
    | .error (c, tv) => s.trap c tv
    | .ok _ => k f lg

/-- A tag decode fault found in a header (01_formats.md R17): its trap value is a free one (log entry 14). -/
def headerFault {α : Type} (s : State) : Acc α :=
  .bad 8 (Config.freeWord s.clk.draws) false { s with clk := { s.clk with draws := s.clk.draws + 1 } }

/-- Some header read has a nonzero reserved bit. -/
def anyHeaderBad (f : Nat) (heads : SpanBytes) : Bool := heads.any fun h => headerBad f (leNat h.2)

/-- The decoded value of element k from the headers and spans read (01_formats.md R20, R22). -/
def elementValue (f lg : Nat) (heads els : SpanBytes) (k : Nat) : FVal :=
  let raw := spanNat els (elementSpan f lg k).1 / 2 ^ (elementAddress f lg k).2 % 2 ^ elementBits f
  decodeValue f (if lg = 0 then 0 else spanNat heads (headerOffset f lg k)) raw

/-- VLDF and VLDFH (R178): lanes of w bytes in a float format. R19 does not order the pages of one access: the model
translates every header's page first, then the elements' in lane order, and reports the first failure (log entry 39,
the model's choice). -/
def State.formatLoad (s : State) (fmt : FFmt) (w : Nat) (a : VReg) (b c : XReg) (l : Look) (vault : Bool)
    (p : Option PReg) : State :=
  withRoom s fun s =>
    let live := s.activeLanes p w
    let e := (s.x c).toNat
    let els := live.map (e + ·)
    let x := s.x b
    let old := lanesOf w (s.v a)
    let rm := s.me.frmode
    withFormat s vault x els fun f lg =>
      loadForm l [.v a] ((s.locateSpans .load vault x (headerSpans f lg els)).bind fun hs t =>
        (t.locateSpans .load vault x (elementSpans f lg els)).bind fun es t =>
          (t.readSpans AKind.load.need hs).bind fun heads t =>
            (t.readSpans AKind.load.need es).bind fun bytes t =>
              if anyHeaderBad f heads then headerFault t
              else
                let rs := live.map fun i => (i, fmt.convert rm false (elementValue f lg heads bytes (e + i)))
                .ok ([.v a (vecOfLanes w (putLanes old (rs.map fun r => (r.1, r.2.1))))],
                  flagsOf (rs.map (·.2.2))) t)

/-- VLDF (R178). -/
def execVldf (a : VReg) (b c : XReg) (l : Look) (vault : Bool) (p : Option PReg) (s : State) : Out :=
  .next (s.formatLoad fp32 4 a b c l vault p)

/-- VLDFH (R178). -/
def execVldfh (a : VReg) (b c : XReg) (l : Look) (vault : Bool) (p : Option PReg) (s : State) : Out :=
  .next (s.formatLoad fp16 2 a b c l vault p)

/-- A number with b bits from bit o replaced by raw. -/
def mergeBits (old o b raw : Nat) : Nat := old - old / 2 ^ o % 2 ^ b * 2 ^ o + raw % 2 ^ b * 2 ^ o

/-- The bytes a span gets: the raw elements that lie in it put over the old ones (01_formats.md R13). -/
def spanValue (f lg : Nat) (sp : Nat × Nat) (old : Nat) : List (Nat × Nat) → Nat
  | [] => old
  | (k, raw) :: es =>
    spanValue f lg sp (if elementSpan f lg k = sp then mergeBits old (elementAddress f lg k).2 (elementBits f) raw else old) es

/-- Raw elements written span by span: one narrower than a byte is read, merged and written; part tells that spans
before it have been written (R178, R179). -/
def State.writeSpans (s : State) (f lg : Nat) (raws : List (Nat × Nat)) (part : Bool) :
    List ((Nat × Nat) × List Piece) → Acc Unit
  | [] => .ok () s
  | (sp, ps) :: sps =>
    let put (old : Nat) (t : State) : Acc Unit :=
      let bs := leBytes sp.2 (spanValue f lg sp old raws)
      let parts := if sp.2 = 3 then bs.map (fun b => [b]) else [bs]
      (t.writePieces part (ps.zip parts)).bind fun _ u => u.writeSpans f lg raws true sps
    if elementBits f < 8 then
      match s.readPieces AKind.store.need ps with
      | .ok bs t => put (leNat bs.flatten) t
      | .wait t => .wait t
      | .bad c tv nr t => .bad c tv (nr || part) t
    else put 0 s

/-- VSTF (R178): the raw element of each active lane, and the flags of R27. Headers are read under the permission of the
store (02_main_memory.md R38; 04_vaults.md R74); they, and the bytes that sub-byte elements merge with, use the shard
cache as loads do (04_vaults.md R64 has no row for them; log entry 46). -/
def State.formatStore (s : State) (src w : Nat) (a : VReg) (b c : XReg) (sat : Bool) (vault : Bool)
    (p : Option PReg) : State :=
  let live := s.activeLanes p w
  let e := (s.x c).toNat
  let els := live.map (e + ·)
  let x := s.x b
  let v := s.v a
  let rm := s.me.frmode
  withFormat s vault x els fun f lg =>
    let spans := elementSpans f lg els
    let acc := (s.locateSpans .store vault x (headerSpans f lg els)).bind fun hs t =>
      (t.locateSpans .store vault x spans).bind fun es t =>
        (t.readSpans AKind.store.need hs).bind fun heads t =>
          if anyHeaderBad f heads then headerFault t
          else
            let rs := live.map fun i => (e + i,
              if lg = 0 then convertElem src f rm sat (lane w v i)
              else encodeInBlock f (spanNat heads (headerOffset f lg (e + i))) rm (decodeValue src 0 (lane w v i)))
            (t.writeSpans f lg (rs.map fun r => (r.1, r.2.1)) false (spans.zip (es.map (·.2)))).bind fun _ u =>
              .ok () (u.setMe (u.me.raise (flagsOf (rs.map (·.2.2)))))
    storeForm acc

/-- VSTF (R178). -/
def execVstf (half : Bool) (a : VReg) (b c : XReg) (sat : Bool) (vault : Bool) (p : Option PReg) (s : State) : Out :=
  .next (if half then s.formatStore 3 2 a b c sat vault p else s.formatStore 1 4 a b c sat vault p)

end Sys2Proof.Machine
end

