-- ==== Sys2Proof/Machine/VectorLane.lean ====
section
/-!
DEFINITION. The lane forms of the vector instructions (10_vector_instructions.md R195 to R212, R215 to R217). Every source
is read before the destination is written (R197).
-/

namespace Sys2Proof

/-- The format of a float lane type (R195). -/
def FTy.fmt (t : FTy) : Machine.FFmt :=
  match t with
  | .f32 => Machine.fp32
  | .f16 => Machine.fp16
  | .bf16 => Machine.bf16

/-- A number clamped to the type's range (R205: Sat). -/
def ITy.sat (ty : ITy) (n : Int) : Int := (Machine.clampInt (8 * ty.bytes) ty.signed n).1

/-- The ends of an integer type's range. -/
def ITy.lo (ty : ITy) : Int := ty.sat (-(2 ^ 64 : Nat))
/-- The largest value of an integer type. -/
def ITy.hi (ty : ITy) : Int := ty.sat (2 ^ 64 : Nat)

end Sys2Proof

namespace Sys2Proof.Machine

/-- What an inactive lane of a destination holds (R196): zero under zeroing, else its old value. -/
def inactiveLane (p : PCtl) (old : Nat) : Nat :=
  match p with
  | .zero _ => 0
  | _ => old

/-- Lanes of w bytes written to a vector register: f of each active lane with the flags it raises (R196, R200). -/
def State.laneOp (s : State) (p : PCtl) (w : Nat) (a : VReg) (f : Nat → FRes) : State :=
  let old := s.v a
  let rs := (List.range (laneCount w)).map fun i =>
    if s.active p w i then f i else (inactiveLane p (lane w old i), {})
  s.setMe (((s.me.setV a (vecOfLanes w (rs.map (·.1)))).raise (flagsOf (rs.map (·.2)))).retire [.v a])

/-- Lanes without flags. -/
def State.laneMap (s : State) (p : PCtl) (w : Nat) (a : VReg) (f : Nat → Nat) : State := s.laneOp p w a fun i =>
    (f i, {})

/-- A long-latency form: every lane active, its result under a lookahead (R130, R196). -/
def State.laneLong (s : State) (l : Look) (w : Nat) (a : VReg) (f : Nat → FRes) : State :=
  withRoom s fun s =>
    let rs := (List.range (laneCount w)).map f
    s.deliver l [.v a] (.ok [.v a (vecOfLanes w (rs.map (·.1)))] (flagsOf (rs.map (·.2))))

/-! Floating-point arithmetic (R203) -/

/-- A form of two float sources. -/
def State.floatOp (s : State) (a b c : VReg) (ty : FTy) (p : PCtl) (f : FFmt → RMode → Nat → Nat → FRes) : State :=
  s.laneOp p ty.bytes a fun i => f ty.fmt s.me.frmode (lane ty.bytes (s.v b) i) (lane ty.bytes (s.v c) i)

/-- A fused form: its product negated, its addend negated. -/
def State.fusedOp (s : State) (a b c : VReg) (ty : FTy) (p : PCtl) (np na : Bool) : State :=
  s.laneOp p ty.bytes a fun i =>
    ty.fmt.fma s.me.frmode np na (lane ty.bytes (s.v b) i) (lane ty.bytes (s.v c) i) (lane ty.bytes (s.v a) i)

/-- VADD on floats (R203). -/
def execVfaVadd (a b c : VReg) (ty : FTy) (p : PCtl) (s : State) : Out :=
  .next (s.floatOp a b c ty p FFmt.add)

/-- VSUB on floats (R203). -/
def execVfaVsub (a b c : VReg) (ty : FTy) (p : PCtl) (s : State) : Out :=
  .next (s.floatOp a b c ty p FFmt.sub)

/-- VMUL on floats (R203). -/
def execVfaVmul (a b c : VReg) (ty : FTy) (p : PCtl) (s : State) : Out :=
  .next (s.floatOp a b c ty p FFmt.mul)

/-- VMIN on floats (R203). -/
def execVfaVmin (a b c : VReg) (ty : FTy) (p : PCtl) (s : State) : Out :=
  .next (s.floatOp a b c ty p (fun f _ => f.minmax false))

/-- VMAX on floats (R203). -/
def execVfaVmax (a b c : VReg) (ty : FTy) (p : PCtl) (s : State) : Out :=
  .next (s.floatOp a b c ty p (fun f _ => f.minmax true))

/-- VFMA (R203). -/
def execVfma (a b c : VReg) (ty : FTy) (p : PCtl) (s : State) : Out :=
  .next (s.fusedOp a b c ty p false false)

/-- VFMS (R203). -/
def execVfms (a b c : VReg) (ty : FTy) (p : PCtl) (s : State) : Out :=
  .next (s.fusedOp a b c ty p false true)

/-- VFNMA (R203). -/
def execVfnma (a b c : VReg) (ty : FTy) (p : PCtl) (s : State) : Out :=
  .next (s.fusedOp a b c ty p true false)

/-- VDIV (R203). -/
def execVdiv (a b c : VReg) (ty : FTy) (l : Look) (s : State) : Out :=
  .next (s.laneLong l ty.bytes a fun i =>
    ty.fmt.div s.me.frmode (lane ty.bytes (s.v b) i) (lane ty.bytes (s.v c) i))

/-! Integer arithmetic (R205) -/

/-- Lane i of an integer type as the number it is read as. -/
def intLane (ty : ITy) (v : Vec) (i : Nat) : Int := intVal (8 * ty.bytes) ty.signed (lane ty.bytes v i)

/-- A form of two integer sources: the number whose wrapped bits the lane gets. -/
def State.intOp (s : State) (a b c : VReg) (ty : ITy) (p : PCtl) (f : Int → Int → Int) : State :=
  s.laneMap p ty.bytes a fun i => intBits (8 * ty.bytes) (f (intLane ty (s.v b) i) (intLane ty (s.v c) i))

/-- Sub-element j of the four of lane i (R205). -/
def subLane (ty : ITy) (v : Vec) (i j : Nat) : Int :=
  intVal (2 * ty.bytes) ty.signed (lane (ty.bytes / 4) v (4 * i + j))

/-- Sum of the four products of sub-elements of lane i. -/
def dot4 (ty : ITy) (b c : Vec) (i : Nat) : Int :=
  subLane ty b i 0 * subLane ty c i 0 + subLane ty b i 1 * subLane ty c i 1 + subLane ty b i 2 * subLane ty c i 2 +
    subLane ty b i 3 * subLane ty c i 3

/-- VADD on integers (R205). -/
def execViaVadd (a b c : VReg) (ty : ITy) (p : PCtl) (s : State) : Out :=
  .next (s.intOp a b c ty p fun x y => x + y)

/-- VSUB on integers (R205). -/
def execViaVsub (a b c : VReg) (ty : ITy) (p : PCtl) (s : State) : Out :=
  .next (s.intOp a b c ty p fun x y => x - y)

/-- VMUL on integers (R205). -/
def execViaVmul (a b c : VReg) (ty : ITy) (p : PCtl) (s : State) : Out :=
  .next (s.intOp a b c ty p fun x y => x * y)

/-- VMULH on integers (R205). -/
def execVmulh (a b c : VReg) (ty : ITy) (p : PCtl) (s : State) : Out :=
  .next (s.intOp a b c ty p fun x y => x * y / (2 ^ (8 * ty.bytes) : Nat))

/-- VMIN on integers (R205). -/
def execViaVmin (a b c : VReg) (ty : ITy) (p : PCtl) (s : State) : Out :=
  .next (s.intOp a b c ty p fun x y => if y < x then y else x)

/-- VMAX on integers (R205). -/
def execViaVmax (a b c : VReg) (ty : ITy) (p : PCtl) (s : State) : Out :=
  .next (s.intOp a b c ty p fun x y => if x < y then y else x)

/-- VADDS on integers (R205). -/
def execVadds (a b c : VReg) (ty : ITy) (p : PCtl) (s : State) : Out :=
  .next (s.intOp a b c ty p fun x y => ty.sat (x + y))

/-- VSUBS on integers (R205). -/
def execVsubs (a b c : VReg) (ty : ITy) (p : PCtl) (s : State) : Out :=
  .next (s.intOp a b c ty p fun x y => ty.sat (x - y))

/-- VAVG on integers (R205). -/
def execVavg (a b c : VReg) (ty : ITy) (p : PCtl) (s : State) : Out :=
  .next (s.intOp a b c ty p fun x y => (x + y + 1) / 2)

/-- VABSD on integers (R205). -/
def execVabsd (a b c : VReg) (ty : ITy) (p : PCtl) (s : State) : Out :=
  .next (s.intOp a b c ty p fun x y => (x - y).natAbs)

/-- VMAC (R205). -/
def execVmac (a b c : VReg) (ty : ITy) (p : PCtl) (s : State) : Out :=
  .next (s.laneMap p ty.bytes a fun i =>
    intBits (8 * ty.bytes) (intLane ty (s.v a) i + intLane ty (s.v b) i * intLane ty (s.v c) i))

/-- VDOT4 (R205). -/
def execVdot4 (a b c : VReg) (ty : ITy) (p : PCtl) (s : State) : Out :=
  .next (s.laneMap p ty.bytes a fun i =>
    intBits (8 * ty.bytes) (intLane ty (s.v a) i + dot4 ty (s.v b) (s.v c) i))

/-! Unary forms (R207, R208) -/

/-- A unary float form. -/
def State.floatUn (s : State) (a b : VReg) (ty : FTy) (p : PCtl) (f : FFmt → Nat → FRes) : State :=
  s.laneOp p ty.bytes a fun i => f ty.fmt (lane ty.bytes (s.v b) i)

/-- A long-latency unary float form, rounded by FRMODE. -/
def State.floatUnLong (s : State) (a b : VReg) (ty : FTy) (l : Look) (f : FFmt → RMode → Nat → FRes) : State :=
  s.laneLong l ty.bytes a fun i => f ty.fmt s.me.frmode (lane ty.bytes (s.v b) i)

/-- A unary form on the bits of integer lanes. -/
def State.bitsUn (s : State) (a b : VReg) (ty : ITy) (p : PCtl) (f : Nat → Nat → Nat) : State :=
  s.laneMap p ty.bytes a fun i => f (8 * ty.bytes) (lane ty.bytes (s.v b) i)

/-- A lane with its sign bit inverted, or an integer lane negated (R207: VNEG). -/
def negLane (ty : VTy) (n : Nat) : Nat :=
  match ty with
  | .int t => intBits (8 * t.bytes) (-(n : Int))
  | .flt t => Nat.xor n (2 ^ (8 * t.bytes - 1))

/-- VSQRT (R207, R208). -/
def execVsqrt (a b : VReg) (ty : FTy) (l : Look) (s : State) : Out :=
  .next (s.floatUnLong a b ty l FFmt.sqrt)

/-- VEXP2 (R207, R208). -/
def execVexp2 (a b : VReg) (ty : FTy) (l : Look) (s : State) : Out :=
  .next (s.floatUnLong a b ty l FFmt.exp2)

/-- VLOG2 (R207, R208). -/
def execVlog2 (a b : VReg) (ty : FTy) (l : Look) (s : State) : Out :=
  .next (s.floatUnLong a b ty l FFmt.log2)

/-- VRCP8 (R208). -/
def execVrcp8 (a b : VReg) (ty : FTy) (p : PCtl) (s : State) : Out :=
  .next (s.floatUn a b ty p FFmt.rcp8)

/-- VABS (R207). -/
def execVabs (a b : VReg) (ty : FTy) (p : PCtl) (s : State) : Out :=
  .next (s.floatUn a b ty p fun f n => (n % 2 ^ (f.ew + f.mw), {}))

/-- VFLOOR (R207). -/
def execVfloor (a b : VReg) (ty : FTy) (p : PCtl) (s : State) : Out :=
  .next (s.floatUn a b ty p fun f n => f.integral .rdn false n)

/-- VCEIL (R207). -/
def execVceil (a b : VReg) (ty : FTy) (p : PCtl) (s : State) : Out :=
  .next (s.floatUn a b ty p fun f n => f.integral .rup false n)

/-- VRINT (R207). -/
def execVrint (a b : VReg) (ty : FTy) (p : PCtl) (s : State) : Out :=
  .next (s.floatUn a b ty p fun f n => f.integral s.me.frmode true n)

/-- VNEG (R207). -/
def execVneg (a b : VReg) (ty : VTy) (p : PCtl) (s : State) : Out :=
  .next (s.laneMap p ty.bytes a fun i => negLane ty (lane ty.bytes (s.v b) i))

/-- VCLZ (R207). -/
def execVclz (a b : VReg) (ty : ITy) (p : PCtl) (s : State) : Out :=
  .next (s.bitsUn a b ty p leadingZeros)

/-- VPOPC (R207). -/
def execVpopc (a b : VReg) (ty : ITy) (p : PCtl) (s : State) : Out :=
  .next (s.bitsUn a b ty p setBits)

/-- VNOT (R207). -/
def execVnot (a b : VReg) (ty : ITy) (p : PCtl) (s : State) : Out :=
  .next (s.bitsUn a b ty p fun w n => 2 ^ w - 1 - n)

/-- VABSI (R207). -/
def execVabsi (a b : VReg) (ty : ITy) (p : PCtl) (s : State) : Out :=
  .next (s.bitsUn a b ty p fun w n => intBits w (intVal w true n).natAbs)

/-! Comparisons (R209) -/

/-- Every bit of lane i of w bytes in a predicate, when set. -/
def laneBits (w i : Nat) (x : Bool) : Nat := if x then (2 ^ w - 1) * 2 ^ (w * i) else 0

/-- The bits of lane i of w bytes of a predicate. -/
def oldBits (q : Word) (w i : Nat) : Nat := fld q (w * i) w * 2 ^ (w * i)

/-- A comparison of lanes into a predicate: an active lane's bits get the result, an inactive lane's are cleared under
zeroing and kept under merging. -/
def State.cmpOp (s : State) (p : PCtl) (w : Nat) (a : PReg) (f : Nat → Bool × FFlags) : State :=
  let old := s.p a
  let rs := (List.range (laneCount w)).map fun i =>
    if s.active p w i then (laneBits w i (f i).1, (f i).2)
    else (match p with | .zero _ => 0 | _ => oldBits old w i, {})
  s.setMe (((s.me.setP a (word (rs.map (·.1)).sum)).raise (flagsOf (rs.map (·.2)))).retire [])

/-- NV of a comparison: for any NaN, or for a signalling one only. -/
def cmpFlags (anyNaN : Bool) (x y : FVal) : FFlags :=
  { nv := if anyNaN then x.isNaN || y.isNaN else x.isSNaN || y.isSNaN }

/-- A comparison on any type: of integers as the type reads them, or of floats with its NV rule. -/
def State.compare (s : State) (a : PReg) (b c : VReg) (ty : VTy) (p : PCtl) (fi : Int → Int → Bool)
    (ff : FVal → FVal → Bool) (anyNaN : Bool) : State :=
  match ty with
  | .int t => s.cmpOp p t.bytes a fun i => (fi (intLane t (s.v b) i) (intLane t (s.v c) i), {})
  | .flt t => s.cmpOp p t.bytes a fun i =>
      let x := t.fmt.decode (lane t.bytes (s.v b) i)
      let y := t.fmt.decode (lane t.bytes (s.v c) i)
      (ff x y, cmpFlags anyNaN x y)

/-- VCMP.EQ (R209). -/
def execVcmpEq (a : PReg) (b c : VReg) (ty : VTy) (p : PCtl) (s : State) : Out :=
  .next (s.compare a b c ty p (fun x y => x == y) (fun x y => x.eq y) false)

/-- VCMP.NE (R209). -/
def execVcmpNe (a : PReg) (b c : VReg) (ty : VTy) (p : PCtl) (s : State) : Out :=
  .next (s.compare a b c ty p (fun x y => x != y) (fun x y => !x.eq y) false)

/-- VCMP.LT (R209). -/
def execVcmpLt (a : PReg) (b c : VReg) (ty : VTy) (p : PCtl) (s : State) : Out :=
  .next (s.compare a b c ty p (fun x y => decide (x < y)) (fun x y => x.lt y) true)

/-- VCMP.LE (R209). -/
def execVcmpLe (a : PReg) (b c : VReg) (ty : VTy) (p : PCtl) (s : State) : Out :=
  .next (s.compare a b c ty p (fun x y => decide (x ≤ y)) (fun x y => x.lt y || x.eq y) true)

/-- VCMP.GT (R209). -/
def execVcmpGt (a : PReg) (b c : VReg) (ty : VTy) (p : PCtl) (s : State) : Out :=
  .next (s.compare a b c ty p (fun x y => decide (y < x)) (fun x y => y.lt x) true)

/-- VCMP.GE (R209). -/
def execVcmpGe (a : PReg) (b c : VReg) (ty : VTy) (p : PCtl) (s : State) : Out :=
  .next (s.compare a b c ty p (fun x y => decide (y ≤ x)) (fun x y => y.lt x || x.eq y) true)

/-- VCMP.UNORD (R209). -/
def execVcmpUnord (a : PReg) (b c : VReg) (ty : FTy) (p : PCtl) (s : State) : Out :=
  .next (s.compare a b c (.flt ty) p (fun _ _ => false) (fun x y => x.isNaN || y.isNaN) false)

/-- VCMP.LT.n (R209): unsigned for either kind of integer. -/
def execVcmpLtN (a : PReg) (b c : VReg) (ty : ITy) (p : PCtl) (s : State) : Out :=
  .next (s.cmpOp p ty.bytes a fun i =>
    (decide (lane ty.bytes (s.v b) i < lane ty.bytes (s.v c) i), {}))

/-- VCMP.LE.n (R209): unsigned for either kind of integer. -/
def execVcmpLeN (a : PReg) (b c : VReg) (ty : ITy) (p : PCtl) (s : State) : Out :=
  .next (s.cmpOp p ty.bytes a fun i =>
    (decide (lane ty.bytes (s.v b) i ≤ lane ty.bytes (s.v c) i), {}))

/-! Bitwise, shift and carry-less forms (R210) -/

/-- A form on the bits of two sources: the lane's width in bits, b and c. -/
def State.bitsOp (s : State) (a b c : VReg) (ty : ITy) (p : PCtl) (f : Nat → Nat → Nat → Nat) : State :=
  s.laneMap p ty.bytes a fun i => f (8 * ty.bytes) (lane ty.bytes (s.v b) i) (lane ty.bytes (s.v c) i)

/-- The bits of a lane shifted right, filled with its top bit (R210: VSAR). -/
def sarBits (w b k : Nat) : Nat := intBits w (intVal w true b / (2 ^ k : Nat))

/-- The bits of a lane rotated right. -/
def rotBits (w b k : Nat) : Nat := b / 2 ^ k + b * 2 ^ (w - k) % 2 ^ w

/-- VAND (R210). -/
def execVand (a b c : VReg) (ty : ITy) (p : PCtl) (s : State) : Out :=
  .next (s.bitsOp a b c ty p (fun _ => Nat.land))

/-- VOR (R210). -/
def execVor (a b c : VReg) (ty : ITy) (p : PCtl) (s : State) : Out :=
  .next (s.bitsOp a b c ty p (fun _ => Nat.lor))

/-- VXOR (R210). -/
def execVxor (a b c : VReg) (ty : ITy) (p : PCtl) (s : State) : Out :=
  .next (s.bitsOp a b c ty p (fun _ => Nat.xor))

/-- VANDN (R210). -/
def execVandn (a b c : VReg) (ty : ITy) (p : PCtl) (s : State) : Out :=
  .next (s.bitsOp a b c ty p (fun w b c => Nat.land b (2 ^ w - 1 - c)))

/-- VSHL (R210). -/
def execVshl (a b c : VReg) (ty : ITy) (p : PCtl) (s : State) : Out :=
  .next (s.bitsOp a b c ty p (fun w b c => b * 2 ^ (c % w) % 2 ^ w))

/-- VSHR (R210). -/
def execVshr (a b c : VReg) (ty : ITy) (p : PCtl) (s : State) : Out :=
  .next (s.bitsOp a b c ty p (fun w b c => b / 2 ^ (c % w)))

/-- VSAR (R210). -/
def execVsar (a b c : VReg) (ty : ITy) (p : PCtl) (s : State) : Out :=
  .next (s.bitsOp a b c ty p (fun w b c => sarBits w b (c % w)))

/-- VROT (R210). -/
def execVrot (a b c : VReg) (ty : ITy) (p : PCtl) (s : State) : Out :=
  .next (s.bitsOp a b c ty p (fun w b c => rotBits w b (c % w)))

/-- VCLMUL (R210). -/
def execVclmul (a b c : VReg) (ty : ITy) (p : PCtl) (s : State) : Out :=
  .next (s.bitsOp a b c ty p (fun _ b c => clMul 64 b c % 2 ^ 64))

/-- VCLMULH (R210). -/
def execVclmulh (a b c : VReg) (ty : ITy) (p : PCtl) (s : State) : Out :=
  .next (s.bitsOp a b c ty p (fun _ b c => clMul 64 b c / 2 ^ 64))

/-- VSEL (R210): its predicate chooses the source, and every lane is written. -/
def execVsel (a b c : VReg) (ty : ITy) (p : PReg) (s : State) : Out :=
  .next (s.laneMap .all ty.bytes a fun i =>
    if predLane (s.p p) ty.bytes i then lane ty.bytes (s.v b) i else lane ty.bytes (s.v c) i)

/-! Moves and permutations (R212) -/

/-- VBCAST (R212). -/
def execVbcast (a : VReg) (b : XReg) (ty : VTy) (p : PCtl) (s : State) : Out :=
  .next (s.laneMap p ty.bytes a fun _ => (s.x b).toNat % 2 ^ (8 * ty.bytes))

/-- A lane as VEXTR and VRED extend it: sign-extended for a signed integer type. -/
def extendLane (ty : VTy) (n : Nat) : Word :=
  match ty with
  | .int t => if t.signed then wrap64 (intVal (8 * t.bytes) true n) else word n
  | .flt _ => word n

/-- VEXTR (R212). -/
def execVextr (a : XReg) (b : VReg) (c : XReg) (ty : VTy) (s : State) : Out :=
  .next (s.doneX a (extendLane ty (lane ty.bytes (s.v b) ((s.x c).toNat % laneCount ty.bytes))))

/-- VINS (R212). -/
def execVins (a : VReg) (b c : XReg) (ty : VTy) (s : State) : Out :=
  .next (s.laneMap .all ty.bytes a fun i =>
    if i = (s.x c).toNat % laneCount ty.bytes then (s.x b).toNat % 2 ^ (8 * ty.bytes) else lane ty.bytes (s.v a) i)

/-- VPERM (R212). -/
def execVperm (a b c : VReg) (ty : ITy) (p : PCtl) (s : State) : Out :=
  .next (s.laneMap p ty.bytes a fun i =>
    let j := lane ty.bytes (s.v c) i
    if j < laneCount ty.bytes then lane ty.bytes (s.v b) j else 0)

/-- VSLIDEUP (R212). -/
def execVslideup (a b : VReg) (c : XReg) (ty : VTy) (p : PCtl) (s : State) : Out :=
  .next (s.laneMap p ty.bytes a fun i =>
    if (s.x c).toNat ≤ i then lane ty.bytes (s.v b) (i - (s.x c).toNat) else 0)

/-- VSLIDEDN (R212). -/
def execVslidedn (a b : VReg) (c : XReg) (ty : VTy) (p : PCtl) (s : State) : Out :=
  .next (s.laneMap p ty.bytes a fun i =>
    if i + (s.x c).toNat < laneCount ty.bytes then lane ty.bytes (s.v b) (i + (s.x c).toNat) else 0)

/-- VZIP (R212). -/
def execVzip (a b c : VReg) (ty : VTy) (p : PCtl) (s : State) : Out :=
  .next (s.laneMap p ty.bytes a fun i =>
    if i % 2 = 0 then lane ty.bytes (s.v b) (i / 2) else lane ty.bytes (s.v c) (i / 2))

/-- VUNZIP (R212). -/
def execVunzip (a b c : VReg) (ty : VTy) (p : PCtl) (s : State) : Out :=
  .next (s.laneMap p ty.bytes a fun i =>
    let h := laneCount ty.bytes / 2
    if i < h then lane ty.bytes (s.v b) (2 * i) else lane ty.bytes (s.v c) (2 * (i - h)))

/-- VMOVV (R212). -/
def execVmovv (a b : VReg) (ty : VTy) (p : PCtl) (s : State) : Out :=
  .next (s.laneMap p ty.bytes a fun i => lane ty.bytes (s.v b) i)

/-- VFROMM (R212). -/
def execVfromm (a : VReg) (s : State) : Out :=
  .next (s.doneV a (vecOfLanes 8 (s.me.m.toList.map BitVec.toNat)))

/-! Conversions (R216, R217) -/

/-- Bytes of the lane a format occupies in a register (R216). -/
def formatLane (f : Nat) : Nat :=
  match elementBits f with
  | 64 => 8
  | 32 => 4
  | 16 => 2
  | _ => 1

/-- VCVT of part q (R216): the destination lanes written, each from its source lane. -/
def State.convertLanes (s : State) (a b : VReg) (q src dst : Nat) (rm : RMode) (sat : Bool) (p : PCtl) : State :=
  let ws := formatLane src
  let wd := formatLane dst
  let k := 64 / Nat.max ws wd
  let from_ := if ws < wd then q * k else 0
  let first := if wd < ws then q * k else 0
  let v := s.v b
  let old := s.v a
  let rs := (List.range (laneCount wd)).map fun i =>
    if i < first ∨ first + k ≤ i then (lane wd old i, {})
    else if s.active p wd i then convertElem src dst rm sat (lane ws v (from_ + (i - first)) % 2 ^ elementBits src)
    else (inactiveLane p (lane wd old i), {})
  s.setMe (((s.me.setV a (vecOfLanes wd (rs.map (·.1)))).raise (flagsOf (rs.map (·.2)))).retire [.v a])

/-- VCVT (R216). -/
def execVcvt (a b : VReg) (src dst : Fin 32) (rm : RMode) (sat : Bool) (p : PCtl) (s : State) : Out :=
  .next (s.convertLanes a b 0 src.val dst.val rm sat p)

/-- VCVT.hi (R216). -/
def execVcvtHi (a b : VReg) (part : Fin 8) (src dst : Fin 32) (rm : RMode) (sat : Bool) (p : PCtl) (s : State) : Out :=
  .next (s.convertLanes a b part.val src.val dst.val rm sat p)

end Sys2Proof.Machine
end

