-- ==== Sys2Proof/Machine/VectorReduce.lean ====
section
/-!
DEFINITION. Reductions of lanes and the predicate forms (10_vector_instructions.md R213, R214, R218, R219).
-/

namespace Sys2Proof.Machine

/-- One level of the tree of R214: lane i with lane i + h; an inactive lane takes no part. -/
def treeLevel (f : Nat → Nat → FRes) (l : List (Option Nat)) : List (Option Nat × FFlags) :=
  let h := l.length / 2
  ((l.take h).zip (l.drop h)).map fun (x, y) =>
    match x, y with
    | some a, some b => (some (f a b).1, (f a b).2)
    | some a, none => (some a, {})
    | none, y => (y, {})

/-- The tree of R214 over 2^k lanes. -/
def treeFold (f : Nat → Nat → FRes) : Nat → List (Option Nat) → FFlags → Option Nat × FFlags
  | 0, l, fl => (l.head?.join, fl)
  | k + 1, l, fl =>
    let r := treeLevel f l
    treeFold f k (r.map (·.1)) (fl.or (flagsOf (r.map (·.2))))

/-- The lanes of w bytes that take part. -/
def State.treeLanes (s : State) (p : Option PReg) (w : Nat) (v : Vec) : List (Option Nat) :=
  (List.range (laneCount w)).map fun i => if s.activeOpt p w i then some (lane w v i) else none

/-- A float reduction by the tree, with its value when no lane is active. -/
def State.floatRed (s : State) (a : XReg) (b : VReg) (ty : FTy) (p : Option PReg) (f : Nat → Nat → FRes) (none_ : Nat) :
    State :=
  let (r, fl) := treeFold f (Nat.log2 (laneCount ty.bytes)) (s.treeLanes p ty.bytes (s.v b)) {}
  s.setMe (((s.me.setX a (word (r.getD none_))).raise fl).retire [.x a])

/-- The active integer lanes as the type reads them. -/
def State.intLanes (s : State) (p : Option PReg) (ty : ITy) (v : Vec) : List Int :=
  ((List.range (laneCount ty.bytes)).filter (s.activeOpt p ty.bytes)).map (intLane ty v)

/-- A bitwise reduction of the active lanes. -/
def State.bitsRed (s : State) (a : XReg) (b : VReg) (ty : ITy) (p : Option PReg) (f : Nat → Nat → Nat) (init : Nat) :
    State :=
  s.doneX a (word (((List.range (laneCount ty.bytes)).filter (s.activeOpt p ty.bytes)).foldl
    (fun r i => f r (lane ty.bytes (s.v b) i)) init))

/-- VRED.FSUM (R214). -/
def execVredFsum (a : XReg) (b : VReg) (ty : FTy) (p : Option PReg) (s : State) : Out :=
  .next (s.floatRed a b ty p (ty.fmt.add s.me.frmode) 0)

/-- VRED.MAX and VRED.MIN (R213). -/
def State.extremeRed (s : State) (a : XReg) (b : VReg) (ty : VTy) (p : Option PReg) (wantMax : Bool) : State :=
  match ty with
  | .flt t => s.floatRed a b t p (t.fmt.minmax wantMax) (t.fmt.infBits wantMax)
  | .int t =>
    let ls := s.intLanes p t (s.v b)
    s.doneX a (wrap64 (if wantMax then ls.foldl (fun m x => if m < x then x else m) t.lo
      else ls.foldl (fun m x => if x < m then x else m) t.hi))

/-- VRED.MAX (R213). -/
def execVredMax (a : XReg) (b : VReg) (ty : VTy) (p : Option PReg) (s : State) : Out :=
  .next (s.extremeRed a b ty p true)

/-- VRED.MIN (R213). -/
def execVredMin (a : XReg) (b : VReg) (ty : VTy) (p : Option PReg) (s : State) : Out :=
  .next (s.extremeRed a b ty p false)

/-- VRED.AND (R213). -/
def execVredAnd (a : XReg) (b : VReg) (ty : ITy) (p : Option PReg) (s : State) : Out :=
  .next (s.bitsRed a b ty p Nat.land (2 ^ (8 * ty.bytes) - 1))

/-- VRED.OR (R213). -/
def execVredOr (a : XReg) (b : VReg) (ty : ITy) (p : Option PReg) (s : State) : Out :=
  .next (s.bitsRed a b ty p Nat.lor 0)

/-- VRED.XOR (R213). -/
def execVredXor (a : XReg) (b : VReg) (ty : ITy) (p : Option PReg) (s : State) : Out :=
  .next (s.bitsRed a b ty p Nat.xor 0)

/-- VRED.SUM (R213). -/
def execVredSum (a : XReg) (b : VReg) (ty : ITy) (p : Option PReg) (s : State) : Out :=
  .next (s.doneX a (wrap64 (s.intLanes p ty (s.v b)).sum))

/-! Predicates (R219) -/

/-- The state after a head that writes a predicate. -/
def State.doneP (s : State) (r : PReg) (w : Word) : State := s.setMe ((s.me.setP r w).retire [])

/-- Bytes of the lane width code. -/
def widthOf (w : Fin 4) : Nat := 2 ^ w.val

/-- PSET (R219). -/
def execPset (a : PReg) (b : XReg) (s : State) : Out :=
  .next (s.doneP a (s.x b))

/-- PGET (R219). -/
def execPget (a : XReg) (b : PReg) (s : State) : Out :=
  .next (s.doneX a (s.p b))

/-- PAND (R219). -/
def execPand (a b c : PReg) (s : State) : Out :=
  .next (s.doneP a (s.p b &&& s.p c))

/-- POR (R219). -/
def execPor (a b c : PReg) (s : State) : Out :=
  .next (s.doneP a (s.p b ||| s.p c))

/-- PXOR (R219). -/
def execPxor (a b c : PReg) (s : State) : Out :=
  .next (s.doneP a (s.p b ^^^ s.p c))

/-- PNOT (R219). -/
def execPnot (a b : PReg) (s : State) : Out :=
  .next (s.doneP a (~~~s.p b))

/-- PCNT (R219). -/
def execPcnt (a : XReg) (b : PReg) (w : Fin 4) (s : State) : Out :=
  .next (s.doneX a (word ((List.range (laneCount (widthOf w))).countP (predLane (s.p b) (widthOf w)))))

/-- PFIRST (R219). -/
def execPfirst (a : XReg) (b : PReg) (w : Fin 4) (s : State) : Out :=
  .next (s.doneX a (match (List.range (laneCount (widthOf w))).find? (predLane (s.p b) (widthOf w)) with
    | some i => word i
    | none => BitVec.allOnes 64))

/-- PLEN (R219). -/
def execPlen (a : PReg) (b : XReg) (w : Fin 4) (s : State) : Out :=
  .next (s.doneP a (word (2 ^ (widthOf w * Nat.min (s.x b).toNat (laneCount (widthOf w))) - 1)))

end Sys2Proof.Machine
end

