-- ==== Sys2Proof/Machine/Inbox.lean ====
section
/-!
DEFINITION. Messages at a core: arrival, the spill ring, ageing and binding (13_handlers_and_messages.md R263 to R269;
07_instruction_lines.md R118; 04_vaults.md R78, R79), the forwarding of R265, and the binding of translation requests
(02_main_memory.md R42).
-/

namespace Sys2Proof.Machine

/-! The spill ring in memory (R266) -/

/-- Header, payload and span word of a message as the 128 bytes of a ring entry (R263, R265, R266). -/
def msgBytes (m : Msg) : List Byte :=
  leBytes 16 (m.wt * 2 ^ 96 + m.eline * 2 ^ 56 + m.cls * 2 ^ 54 + m.kslot * 2 ^ 48 + m.ctx * 2 ^ 32 + m.src * 2 ^ 16 +
    m.dest) ++ (m.payload.flatMap fun w => leBytes 8 w.toNat) ++
    leBytes 8 (m.spkg * 256 + m.hpkg * 16 + m.dpkg) ++ List.replicate 40 0

/-- n words of eight bytes. -/
def wordsOfBytes : Nat → List Byte → List Word
  | 0, _ => []
  | n + 1, bs => word (leNat (bs.take 8)) :: wordsOfBytes n (bs.drop 8)

/-- The message of a ring entry, with its first arrival. -/
def msgOfBytes (bs : List Byte) (arrived : Nat) : Msg :=
  let h := leNat (bs.take 16)
  let sp := leNat ((bs.drop 80).take 8)
  { wt := nfld h 96 32, eline := nfld h 56 40, cls := nfld h 54 2, kslot := nfld h 48 6, ctx := nfld h 32 16,
    src := nfld h 16 16, dest := nfld h 0 16, spkg := nfld sp 8 4, hpkg := nfld sp 4 4, dpkg := nfld sp 0 4,
    payload := wordsOfBytes 8 (bs.drop 16), arrived := arrived }

/-- The address of entry n of a core's ring of a context (R266). -/
def ringAddr (c : Context) (core n : Nat) : Nat :=
  (c.spbase + core * (128 * 2 ^ c.splg) + 128 * (n % 2 ^ c.splg)) % 2 ^ 56

/-- A translation for the network interface of a core (R266; 02_main_memory.md R40): the address, or the state in which
it waits with its request open. -/
def State.ifaceXlat (s : State) (core tsid va : Nat) (k : AKind) : Except State Nat :=
  let clus := core / 16
  match (tlbFind (s.core core).l1 tsid va).orElse (fun _ => tlbFind (s.clus clus).tlb tsid va) with
  | some e =>
    let shard := shardOf clus
    if e.permits k true && (s.slotRefusal shard (decide (k = .store)) (e.phys va)).isNone then .ok (e.phys va) else .error s
  | none =>
    if (s.clus clus).asks (.iface core) then .error s
    else .error (s.openXlat clus tsid { who := .iface core, kind := k.code, abortable := false, va := va })

/-- A line written for the network interface of a core, of a context's ring: in memory, or asked at its port (log entry
11). -/
def State.putLine (s : State) (core ctx va pa : Nat) (bs : List Byte) : State :=
  let q : PortReq := { row := shardOf (core / 16), tag := 0, src := ifaceSrc core, pa := pa, op := .store bs, posted := false,
                       replay := false, reissues := 0, va := some (word va), ctx := ctx }
  if s.linkDown pa then s else if s.mustAsk pa false then s.askUnit q else s.memDo q

/-- A line read for the network interface of a core (log entry 11). -/
def State.getLine (s : State) (pa n : Nat) : List Byte := if isRemote pa then s.freeBytes n else s.memView pa n

/-- A line of a ring cannot be written now: ingress is stopped (21_host_firmware_security.md R395), or its source has no
credit at the port (03_crossbar.md R61). -/
def State.ifaceStops (s : State) (core pa : Nat) : Bool :=
  s.fw.halted || (s.mustAsk pa false && decide (255 ≤ s.xbar.credits (shardOf (core / 16)) (tgtOf pa)))

/-- The two lines of a ring's entry written. -/
def State.putEntry (s : State) (core : Nat) (m : Msg) (va p0 p1 : Nat) : State :=
  let bs := msgBytes m
  (s.putLine core m.ctx va p0 (bs.take 64)).putLine core m.ctx ((va + 64) % 2 ^ 56) p1 (bs.drop 64)

/-- A message written at the tail of a ring whose context is running or not (R266): the state and the new ring, or the
state in which the interface waits. -/
def State.ringPut (s : State) (core : Nat) (r : Ring) (m : Msg) : Except State (State × Ring) := do
  let c := s.ctxOf m.ctx
  let va := ringAddr c core r.tail
  let p0 ← s.ifaceXlat core c.tsid va .store
  let p1 ← s.ifaceXlat core c.tsid ((va + 64) % 2 ^ 56) .store
  if s.ifaceStops core p0 || s.ifaceStops core p1 then throw s
  return (s.putEntry core m va p0 p1, { r with tail := r.tail + 1, times := r.times ++ [m.arrived] })

/-! Ageing (R267) -/

/-- The class of a message in an inbox; its age counts the cycles of its core's die (R267; 17_scheduling_and_power.md
R336). -/
def State.ageClass (s : State) (m : Msg) : Nat :=
  let lim := (s.ctxOf m.ctx).agelim
  if lim = 0 then m.cls else m.cls - (s.dieClock (dieOf m.dest) - m.arrived) / lim

/-- A message that arrives at its core now, unless it has arrived before (R267). -/
def State.stamp (s : State) (m : Msg) : Msg :=
  { m with arrived := if m.arrived = 0 then s.dieClock (dieOf m.dest) else m.arrived }

/-- A message put behind the others of a core's inbox; it is an event for the core (08_scalar_instructions.md R162). -/
def State.inboxAdd (s : State) (core : Nat) (m : Msg) : State :=
  let k := s.core core
  (s.setCore core { k with inbox := k.inbox ++ [{ msg := m, cls := s.ageClass m, since := s.dieClock (core / 1024) }] }).wakeCore core

/-- CLASS_AGEING (R267): the classes of the waiting messages of a core, as their ages stand. -/
def execClassAgeing (core : Nat) (s : State) : Out :=
  let k := s.core core
  .next (s.setCore core { k with inbox := k.inbox.map fun x => { x with cls := s.ageClass x.msg } })

/-! Arrival (R264 to R266) -/

/-- The state without the message at an index of the network. -/
def State.takeNet (s : State) (i : Nat) : State := { s with net := s.net.eraseIdx i }

/-- The earliest message from the sender of the one at an index to the same destination (R264). -/
def State.netFirst (s : State) (i : Nat) : Option (Nat × Flight) :=
  match s.net[i]? with
  | none => none
  | some x =>
    let j := s.net.findIdx fun y => y.msg.src = x.msg.src ∧ y.msg.dest = x.msg.dest ∧ y.msg.dpkg = x.msg.dpkg
    (s.net[j]?).map fun y => (j, y)

/-- A context runs on a cluster (13_handlers_and_messages.md R433). -/
def State.runsOn (s : State) (ctx clus : Nat) : Bool := (s.clus clus).ctx == some ctx

/-- The ring of a core for a context: the core's while the context runs there, else the saved one. -/
def State.ringOf (s : State) (ctx core : Nat) : Ring :=
  if s.runsOn ctx (core / 16) then (s.core core).ring else kget {} (s.save ctx (core / 16)).rings (core % 16)

/-- The state with that ring replaced. -/
def State.setRing (s : State) (ctx core : Nat) (r : Ring) : State :=
  if s.runsOn ctx (core / 16) then s.setCore core { s.core core with ring := r }
  else
    let a := s.save ctx (core / 16)
    s.setSave ctx (core / 16) { a with rings := kset a.rings (core % 16) r }

/-- Messages in a ring's memory. -/
def Ring.stored (r : Ring) : Nat := r.tail - r.head
/-- Messages in a ring. -/
def Ring.count (r : Ring) : Nat := r.stored + r.ahead.length

/-- A message delivered at a core (R266): into the inbox or the ring, or kept in the sender's interface, where it has
not arrived yet. -/
def State.deliverAt (s : State) (j core : Nat) (m : Msg) (toRing : Bool) : State :=
  let r := s.ringOf m.ctx core
  if s.runsOn m.ctx (core / 16) && (s.clus (core / 16)).switch.isNone && !toRing &&
      decide ((s.core core).inbox.length < 64) && decide (r.count = 0) then
    (s.takeNet j).inboxAdd core (s.stamp m)
  else if 2 ^ (s.ctxOf m.ctx).splg ≤ r.stored then
    { s with net := s.net.modify j fun x => { x with held := true, since := s.msgClock m } }
  else match s.ringPut core r (s.stamp m) with
    | .error t => { t with net := t.net.modify j fun x => { x with msg := s.stamp m } }
    | .ok (t, r') => (t.takeNet j).setRing m.ctx core r'

/-- An armed injection drops a message that arrives at a core (20_debug.md R380). -/
def State.dropsAt (s : State) (m : Msg) : Bool :=
  let w := (s.clus (clusOf m.dest)).inj
  bitOf w.toNat 0 && decide (fld w 4 4 = 1) && decide (fld w 32 16 = m.dest) && decide (m.wt ≠ 0)

/-- The state after an injection has dropped a message that arrived at its place: a loss notice of cause 5 (20_debug.md
R380). -/
def State.dropInjected (s : State) (m : Msg) : State :=
  (s.injFired (clusOf m.dest) m.dest 1 m.ctx m.kslot 0 (word m.wt)).loseMsg m 5 m.dest

/-- MESSAGE_ARRIVAL (R265, R266) of the earliest message of the sender and destination of the one at an index. -/
def execMessageArrival (i : Nat) (s : State) : Out :=
  .next (match s.netFirst i with
  | none => s
  | some (j, x) =>
    let m := x.msg
    if x.held || m.dpkg != s.fw.pkg || (feederOf m.dest).isSome then s
    else if !s.deliverable m then (s.takeNet j).loseMsg m 1 m.dest
    else if s.dropsAt m then (s.takeNet j).dropInjected m
    else s.deliverAt j (coreOf m.dest) m x.ring)

/-- MESSAGE_REOFFER (R266; 05_feeders.md R81): a message kept by its sender is offered again every 256 cycles. -/
def execMessageReoffer (i : Nat) (s : State) : Out :=
  .next (match s.net[i]? with
  | some x =>
    if x.held && decide (x.since + 256 ≤ s.msgClock x.msg) then
      { s with net := s.net.modify i fun y => { y with held := false } }
    else s
  | none => s)

/-- SPAN_FORWARD (R265): a message for another package leaves by the route table, or is dropped. To be sent to another
package is a release at system scope (16_ordering.md R316, R324): one of this package leaves once no write of its kernel
is unacknowledged. -/
def execSpanForward (i : Nat) (s : State) : Out :=
  .next (match s.netFirst i with
  | none => s
  | some (j, x) =>
    let m := x.msg
    let r := s.reg (.sprt m.dpkg)
    if m.dpkg = s.fw.pkg ∨ (m.spkg = s.fw.pkg ∧ s.writesOpen m.ctx m.kslot = true) then s
    else if !bitOf r.toNat 4 then (s.takeNet j).loseMsg m 1 hubPlace
    else if !(s.link (fld r 0 4)).up then (s.takeNet j).loseMsg m 3 hubPlace
    else (s.takeNet j).sendFlit (fld r 0 4) (.msg m))

/-- Messages moved from a ring into the inbox, oldest first, n at most (R266). -/
def State.refill (s : State) (core ctx : Nat) : Nat → State
  | 0 => s
  | n + 1 =>
    let r := (s.core core).ring
    match r.ahead with
    | m :: ms => ((s.setCore core { s.core core with ring := { r with ahead := ms } }).inboxAdd core m).refill core ctx n
    | [] =>
    if r.stored = 0 then s
    else
      let c := s.ctxOf ctx
      let va := ringAddr c core r.head
      match s.ifaceXlat core c.tsid va .load with
      | .error t => t
      | .ok p0 =>
        match s.ifaceXlat core c.tsid ((va + 64) % 2 ^ 56) .load with
        | .error t => t
        | .ok p1 =>
          let m := msgOfBytes (s.getLine p0 64 ++ s.getLine p1 64) (r.times.headD (s.dieClock (core / 1024)))
          let t := s.setCore core { s.core core with ring := { r with head := r.head + 1, times := r.times.drop 1 } }
          (t.inboxAdd core m).refill core ctx n

/-- INBOX_REFILL (R266). -/
def execInboxRefill (core : Nat) (s : State) : Out :=
  .next (match (s.clus (core / 16)).ctx with
  | some ctx => if (s.core core).inbox.length ≤ 48 ∧ (s.clus (core / 16)).switch = none then s.refill core ctx 16 else s
  | none => s)

/-! Binding (R268, R269, R118) -/

/-- The descriptor breaks R269. -/
def descriptorBad (d : List Word) : Bool :=
  let w (i : Nat) : Word := d.getD i 0
  let nq := fld (w 0) 8 3
  decide (fld (w 0) 11 21 ≠ 0) || decide (4 < nq) || decide (fld (w 0) 3 5 ≠ 0) ||
    (List.range 4).any (fun j => decide (fld (w 1) (16 * j + 8) 8 ≠ 0) ||
      (if j < nq then decide (fld (w 1) (16 * j + 6) 2 = 0) else decide (fld (w 1) (16 * j) 8 ≠ 0))) ||
    decide (fld (w 2) 32 32 ≠ 0) || (List.range 5).any (fun i => decide (w (3 + i) ≠ 0))

/-- A quire table entry is invalid (04_vaults.md R79). -/
def quireBad (e : Word) : Bool :=
  !bitOf e.toNat 63 || decide (fld e 58 5 ≠ 0) || decide (fld e 40 18 = 0) || decide (fld e 0 6 ≠ 0) ||
    decide (vaultEnd < fld e 0 24 + fld e 40 18 * 64)

/-- What loading the quire pointers comes to (R79): the pointers, the index of the first invalid entry, or the vault key
of an entry whose read is poisoned (18_faults_and_preemption.md R344). -/
inductive QuireRes where
  | ptrs (qs : List Word)
  | bad (ix : Nat)
  | poison (key : Nat)
deriving DecidableEq, Repr

/-- The quire table entries at the keys given read in turn for an activation at a place. -/
def State.quires (s : State) (place : Nat) (got : List Word) : List (Nat × Nat) → QuireRes × State
  | [] => (.ptrs got, s)
  | (ix, key) :: es =>
    let sl := s.slot place
    match s.vaultRead key 8 sl.ctx sl.kslot sl.pc (vaultAddr key) with
    | (true, t) => (.poison key, t)
    | (false, t) =>
      let e := t.getWord key
      if quireBad e then (.bad ix, t) else t.quires place (got ++ [word (fld e 0 40)]) es

/-- The quire table entries a descriptor names: table index and vault key (R79, R269). -/
def quireKeys (clus qtofs : Nat) (d : List Word) : List (Nat × Nat) :=
  (List.range (fld (d.getD 0 0) 8 3)).map fun j =>
    let ix := fld (d.getD 1 0) (16 * j) 6
    (ix, clus * 2 ^ 24 + qtofs + 8 * ix)

/-- The slot of an activation of a message (R118): at user privilege, or on a service core, which runs at supervisor
privilege, at that (R274; 00_scope.md R1; log entry 51). -/
def bindSlot (m : Msg) (service : Bool) (cls : Nat) (pc : Word) (act hub : Nat) : Slot :=
  { occ := true, priv := if service then .supervisor else .user, pc := pc, npc := pc,
      m := Vector.ofFn fun i : Fin 8 => m.payload.getD i.val 0,
    wt := m.wt, ctx := m.ctx, kslot := m.kslot, msrc := m.src, mcls := cls, entry := pc, spkg := m.spkg,
    hpkg := m.hpkg, act := act, msg := some m, boundAt := hub }

/-- The number of an activation bound now at a place. -/
def State.actId (s : State) (place : Nat) : Nat := s.clk.ticks * 65536 + place

/-- The state after a message was bound at a place, before its descriptor acts: counted and traced. -/
def State.bindAt (s : State) (place : Nat) (m : Msg) (cls : Nat) : State :=
  let pc := (s.ctxOf m.ctx).entry m.eline
  let t := s.setSlot place (bindSlot m (isService place) cls pc (s.actId place) (s.dieClock (dieOf place)))
  (t.trace place 1 0 m.ctx m.kslot pc (word m.wt)).count .bindings 1 place m.ctx m.kslot pc

/-- A trap of a slot before its first head (R268, R79). -/
def State.bindTrap (s : State) (place cause : Nat) (tval : Word) : State :=
  s.takeTrapAt place cause tval (s.slot place).pc false 0 false false 0

/-- A message bound with its descriptor's words (R268 steps 2 to 4). Where a named quire table entry is invalid, R79
does not say whether the valid ones are loaded ahead of the trap: none is (log entry 46, the model's choice). -/
def State.bindWith (s : State) (place : Nat) (m : Msg) (cls : Nat) (d : List Word) : State :=
  let ctx := s.ctxOf m.ctx
  let t := s.bindAt place m cls
  if descriptorBad d then t.bindTrap place 1 (word (ctx.descLine m.eline))
  else
    let sl := t.slot place
    let t := t.setSlot place { sl with budget := fld (d.getD 0 0) 32 32, regsUsed := fld (d.getD 2 0) 0 32 }
    let t := if bitOf (d.getD 0 0).toNat 1 && !isService place then
        let k := t.core (coreOf place)
        t.setCore (coreOf place) { k with mx := { k.mx with owner := some place, owned := true } }
      else t
    match t.quires place [] (quireKeys (clusOf place) ctx.qtofs d) with
    | (.bad ix, t) => t.bindTrap place 7 (word ix)
    | (.poison key, t) =>
      let u := t.logError place 5 (vaultAddr key)
      u.takeTrapAt place 5 (poisonTval (vaultAddr key)) (u.slot place).pc true 0 false false 0
    | (.ptrs qs, t) =>
      t.setSlot place { t.slot place with q := Vector.ofFn fun j : Fin 4 => qs.getD j.val 0 }

/-- What reading a descriptor comes to. -/
inductive DescRead where
  | words (d : List Word) (s : State)
  | fault (tval : Word) (s : State)
  | wait (s : State)
deriving DecidableEq

/-- A descriptor read for a free slot as a fetch at user privilege (R268 step 1). -/
def State.readDescriptor (s : State) (place ctx : Nat) (line : Nat) : DescRead :=
  let old := s.slot place
  let t := { s.setSlot place { ctx := ctx, xres := old.xres } with cur := place }
  let back (u : State) : State := { u with cur := s.cur }
  match t.fetchLine line with
  | .ok l u => .words (wordsOfBytes 8 l.bytes) (back u)
  | .wait u => .wait (back u)
  | .bad _ tv _ u => .fault tv (back u)

/-- Messages of an inbox by urgency: the class, then the arrival. -/
def mostUrgent : List (Nat × InMsg) → Option (Nat × InMsg)
  | [] => none
  | x :: xs =>
    match mostUrgent xs with
    | none => some x
    | some y => if y.2.cls < x.2.cls then some y else some x

/-- A slot of a core bound to the most urgent eligible message; messages that need the matrix unit while it has an
owner are passed over (R268, R221). -/
def State.bindBest (s : State) (place : Nat) : Nat → List (Nat × InMsg) → State
  | 0, _ => s
  | n + 1, cands =>
    match mostUrgent cands with
    | none => s
    | some (i, x) =>
      let core := coreOf place
      let take (t : State) : State := t.setCore core { t.core core with inbox := (t.core core).inbox.eraseIdx i }
      let line := (s.ctxOf x.msg.ctx).descLine x.msg.eline
      match s.readDescriptor place x.msg.ctx line with
      | .wait t => t
      | .fault tv t => ((take t).bindAt place x.msg x.cls).bindTrap place 0x15 tv
      | .words d t =>
        if bitOf (d.getD 0 0).toNat 1 && !isService place && (t.core core).mx.owner.isSome then
          t.bindBest place n (cands.filter (·.1 ≠ i))
        else (take t).bindWith place x.msg x.cls d

/-- A cluster is ready to run: not gated, not halted, and past its wake-up (17_scheduling_and_power.md R339; 20_debug.md
R372). -/
def State.clusReady (s : State) (clus : Nat) : Bool :=
  let c := s.clus clus
  !c.gated && !c.halted && decide (c.readyAt ≤ s.dieClock (clus / 64))

/-- A core is ready to run: not gated, and past its wake-up (17_scheduling_and_power.md R339). -/
def State.coreReady (s : State) (core : Nat) : Bool :=
  !(s.core core).gated && decide ((s.core core).readyAt ≤ s.dieClock (core / 1024))

/-- A slot is free and may be bound. -/
def State.canBind (s : State) (place : Nat) : Bool :=
  let sl := s.slot place
  isSlot place && !sl.occ && decide (sl.park = .run) && s.clusReady (clusOf place) && s.coreReady (coreOf place)

/-- A message is the one that a gang member was launched with (17_scheduling_and_power.md R333). -/
def gangMsg (g : Option Msg) (m : Msg) : Bool := g == some { m with arrived := 0 }

/-- A message may bind in a slot of a core that a gang may hold: the member's in slot 0, and others in slots 1 to 7
(17_scheduling_and_power.md R333). -/
def gangAdmits (g : Option Msg) (slot : Nat) (m : Msg) : Bool := g.isNone || (gangMsg g m == (slot == 0))

/-- The members of a gang can all bind now, each in slot 0 of its core (17_scheduling_and_power.md R333): its cluster
runs the context, and the units a descriptor asks for have no owner. -/
def State.gangReady (s : State) (g : List (Nat × Msg) × List Word) : Bool :=
  let matrix := bitOf (g.2.getD 0 0).toNat 1
  g.1.all fun (core, m) =>
    s.runsOn m.ctx (core / 16) && (s.clus (core / 16)).switch.isNone && s.canBind (core * 8) &&
      !(matrix && (s.core core).mx.owner.isSome)

/-- The members of a gang bound in one cycle (17_scheduling_and_power.md R333). -/
def State.bindMembers (s : State) (g : List (Nat × Msg) × List Word) : State :=
  g.1.foldl (fun t (core, m) =>
    let u := t.bindWith (core * 8) (t.stamp m) m.cls g.2
    u.setSlot (core * 8) { u.slot (core * 8) with gang := true })
    { s with front := { s.front with gangs := s.front.gangs.erase g } }

/-- The gang that waits to bind at a core. -/
def State.gangAt (s : State) (core : Nat) : Option (List (Nat × Msg) × List Word) :=
  s.front.gangs.find? fun g => g.1.any (·.1 == core)

/-- The slot of a service message with the payload words given (R263): supervisor, in physical mode, without weight; the
package is its source and its home. -/
def serviceSlot (ctx : Nat) (entry : Word) (m : Vector Word 8) (pkg act hub : Nat) : Slot :=
  { occ := true, priv := .supervisor, pmode := true, pc := entry, npc := entry, entry := entry, ctx := ctx,
    m := m, spkg := pkg, hpkg := pkg, act := act, boundAt := hub }

/-- A service message bound at a slot of a cluster's service core (R263), traced. -/
def State.bindService (s : State) (place : Nat) (m : Vector Word 8) : State :=
  let c := s.clus (clusOf place)
  let ctx := c.ctx.getD 0
  (s.setSlot place (serviceSlot ctx c.svcEntry m s.fw.pkg (s.actId place) (s.dieClock (dieOf place)))).trace place 1 0 ctx 0 c.svcEntry 0

/-- An event notice bound at a slot of a cluster's service core (R263): a service message whose payload no rule states
(log entry 49). -/
def State.bindNotice (s : State) (place : Nat) : State :=
  let c := s.clus (clusOf place)
  let n := s.clk.draws
  ({ s.setClus (clusOf place) { c with notices := c.notices - 1 } with
    clk := { s.clk with draws := n + 8 } }).bindService place (Vector.ofFn fun i : Fin 8 => Config.freeWord (n + i.val))

/-- MESSAGE_BIND (R268) at a free slot of a core, by the classes as the ages stand (R267); none of a context that is
leaving the cluster (18_faults_and_preemption.md R350). A service core's event notices bind ahead of its messages (log
entry 49). Slot 0 of a core that a gang waits for binds its member, with all the others (17_scheduling_and_power.md
R333). -/
def execMessageBind (core slot : Nat) (s : State) : Out :=
  let place := core * 8 + slot
  .next (if slot < 8 ∧ s.canBind place = true ∧ (s.clus (core / 16)).switch = none then
      if core % 16 = 8 ∧ (s.clus (core / 16)).notices ≠ 0 then s.bindNotice place
      else match (if slot = 0 then s.gangAt core else none) with
      | some g => if s.gangReady g then s.bindMembers g else s
      | none =>
      let k := s.core core
      let now := k.inbox.map fun x => { x with cls := s.ageClass x.msg }
      let cands := ((List.range k.inbox.length).zip now).filter fun x =>
        decide (x.2.since < s.dieClock (core / 1024)) && gangAdmits k.gang slot x.2.msg
      let t := s.bindBest place cands.length cands
      if (t.slot place).occ && k.gang.isSome &&
          decide (slot = 0) then t.setSlot place { t.slot place with gang := true }
      else t
    else s)

/-! Translation requests at the service core (02_main_memory.md R42) -/

/-- The place number of a requester (R42; 00_scope.md R4). No rule gives the network interface or the prefetch engine
of a core a SLOT: the model's is 0 (log entry 46). -/
def Requester.place (r : Requester) : Nat :=
  match r with
  | .slot p => p
  | .iface c => c * 8
  | .prefetch c => c * 8
  | .copy c _ ch => c * 128 + 72 + ch
  | .feeder f => feederPlace f
  | .front _ => hubPlace

/-- Word m1 of a translation request. -/
def XlatReq.info (r : XlatReq) (w : XWaiter) : Word :=
  word (r.id + w.who.place * 2 ^ 16 + r.tsid * 2 ^ 32 + w.kind * 2 ^ 44 + boolCode w.abortable * 2 ^ 48)

/-- TRANSLATION_REQUEST (02_main_memory.md R42): the oldest unbound request of a cluster binds at a free slot of its
service core. -/
def execTranslationRequest (clus slot : Nat) (s : State) : Out :=
  let place := coreIn clus 8 * 8 + slot
  let c := s.clus clus
  .next (match c.reqs.find? (fun r => !r.bound) with
  | none => s
  | some r =>
    match r.waiters with
    | [] => s
    | w :: _ =>
      if slot < 8 ∧ s.canBind place = true then
        let t := s.setClus clus { c with reqs := c.reqs.map fun x => if x.id = r.id then { x with bound := true } else x }
        (t.bindService place #v[r.addr, r.info w, 0, 0, 0, 0, 0, 0]).count .requests 1 place (c.ctx.getD 0) 0 c.svcEntry
      else s)

end Sys2Proof.Machine
end

