-- ==== Sys2Proof/Machine/Feed.lean ====
section
/-!
DEFINITION. Feeders (05_feeders.md R80 to R99): their inboxes, the records of feed lists, waits and faults. A record
whose event comes about in part waits, and acts again from its beginning when the wait is over (log entry 4).
-/

namespace Sys2Proof.Machine

/-! Translation and memory at a feeder's port (R80, R96; 02_main_memory.md R38 to R42) -/

/-- What a step of a feeder comes to: a value, a wait, or a feed fault with its failing address. -/
inductive Feed (α : Type) where
  | ok (a : α) (s : State)
  | wait (s : State)
  | fault (code : Nat) (addr : Word) (s : State)
deriving DecidableEq

/-- One step of a feeder after another. -/
def Feed.bind {α β : Type} (x : Feed α) (f : α → State → Feed β) : Feed β :=
  match x with
  | .ok a s => f a s
  | .wait s => .wait s
  | .fault c a s => .fault c a s

/-- The memory port of a feeder. -/
def portOfFeeder (f : Nat) : Nat := f / 4

/-- The partition a feeder belongs to (R80). -/
def State.feederPart (s : State) (f : Nat) : Nat := s.partOfPort (portOfFeeder f)

/-- A context is in its slice (R80, R81): it runs on every cluster of its placement. Where its clusters switch one by
one the rules do not say when it is out of its slice for its feeders: here it is from the first cluster vacated until
all of its placement run it again (log entry 46, the model's choice). -/
def State.inSlice (s : State) (ctx : Nat) : Bool :=
  let c := s.ctxOf ctx
  (c.st == .running || c.st == .broken) && c.placement.all (s.runsOn ctx)

/-- A feeder's translation of an address issued with a tag (R96; 02_main_memory.md R40, R41): kind 6 reads and kind 7
writes. -/
def State.feedXlat (s : State) (f kind va : Nat) (tag : Nat := 0) : Feed Nat :=
  let d := s.feeder f
  let tsid := (s.ctxOf d.ctx).tsid
  match tlbFind d.tlb tsid va with
  | some e =>
    let pa := e.phys va
    if !e.permits (if kind = 7 then .store else .load) true then .fault 7 (word va) s
    else if tgtOf pa ≠ portOfFeeder f then .fault 9 (word va) s
    else if 2 ^ 39 ≤ ofsOf pa then .fault 8 (word va) s
    else .ok pa s
  | none =>
    if d.xres.any (fun r => r.1 = va / 65536) then .fault 7 (word va) s
    else if s.clusters.any (fun (_, c) => c.asks (.feeder f)) then .wait (s.setFeeder f { d with st := .xlat })
    else
      let px := s.reg (.pxlate (s.ctxOf d.ctx).part)
      if !bitOf px.toNat 16 then .fault 7 (word va) s
      else
        let t := s.openXlat (clusOf (fld px 0 16)) tsid
          { who := .feeder f, kind := kind, abortable := false, va := va, issued := word (tag * 2 ^ 56 + va) }
        .wait (t.setFeeder f { d with st := .xlat })

/-- A range of virtual addresses cut at lines. -/
def lineRuns (a : Nat) : Nat → Nat → List (Nat × Nat)
  | 0, _ => []
  | _, 0 => []
  | fuel + 1, n =>
    let k := min n (64 - a % 64)
    (a, k) :: lineRuns ((a + k) % 2 ^ 56) fuel (n - k)

/-- The runs of a range, each in one line. -/
def runsOf (a n : Nat) : List (Nat × Nat) := lineRuns a (n / 64 + 2) n

/-- A run of bytes located: its virtual address, its device physical address and its length. -/
structure FeedRun where
  va : Nat
  pa : Nat
  n : Nat
deriving DecidableEq, Repr

/-- Runs located one after the other. -/
def State.feedLocate (s : State) (f kind : Nat) (tag : Nat := 0) : List (Nat × Nat) → Feed (List FeedRun)
  | [] => .ok [] s
  | (va, n) :: rs =>
    (s.feedXlat f kind va tag).bind fun pa t => (t.feedLocate f kind tag rs).bind fun ps u => .ok (⟨va, pa, n⟩ :: ps) u

/-- Located runs read. -/
def State.readRuns (s : State) (ps : List FeedRun) : List Byte := ps.flatMap fun p => s.memView p.pa p.n

/-- A run written as a store of a unit that q describes, performed or asked at its port (03_crossbar.md R60, R61,
R63). -/
def State.writeOf (s : State) (q : PortReq) (p : FeedRun) (bs : List Byte) : State :=
  let r := { q with pa := p.pa, op := .store bs, va := some (word p.va) }
  if s.linkDown p.pa then s else if s.mustAsk p.pa false then s.askUnit r else s.memDo r

/-- Located runs written in turn. -/
def State.writeRuns (s : State) (q : PortReq) : List FeedRun → List Byte → State
  | [], _ => s
  | p :: ps, bs => (s.writeOf q p (bs.take p.n)).writeRuns q ps (bs.drop p.n)

/-- A request of a unit beside the crossbar's requesters, at a place. -/
def unitReq (place : Nat) : PortReq :=
  { row := 384, tag := 0, src := place, pa := 0, op := .store [], posted := false, replay := false, reissues := 0 }

/-- The stores of the hub. -/
def hubReq : PortReq := unitReq 65536

/-- The requests of a feeder for its list: they carry the record's address, so that an answer finds the record that made
them. -/
def Feeder.req (d : Feeder) (f : Nat) : PortReq :=
    { unitReq (feederPlace f) with act := d.list, ctx := d.ctx, kslot := d.kslot }

/-- Requests of a feeder have not been answered (03_crossbar.md R61). -/
def State.feedOpen (s : State) (f : Nat) : Bool :=
  s.xbar.outstanding.any fun (q, _) => decide (q.row = 384) && decide (q.src = feederPlace f)

/-- A feeder waits for its port, unless an answer has come that is no data: then the record under way fails with it. -/
def State.feedPort {α : Type} (s : State) (f : Nat) : Feed α :=
  let d := s.feeder f
  match d.bad with
  | some (code, a) => .fault code a s
  | none => .wait (s.setFeeder f { d with st := .port })

/-- The answer of its port to a request of a feeder: the record that made it acts again when the last has come. -/
def State.feedAnswer (s : State) (f : Nat) (q : PortReq) (code : Nat) : State :=
  let d := s.feeder f
  if d.st ≠ .port ∨ d.list ≠ q.act ∨ d.ctx ≠ q.ctx ∨ d.kslot ≠ q.kslot then s
  else
    let bad := if code = 0 then d.bad else d.bad.or (some (code, q.va.getD (word q.pa)))
    s.setFeeder f { d with bad := bad, st := if s.feedOpen f then .port else .running }

/-- A range of virtual addresses read by a feeder at its port; one that gives no answer is asked, and its response is
poisoned in the end (R97; 03_crossbar.md R61, R62). -/
def State.feedRead (s : State) (f va n : Nat) (tag : Nat := 0) : Feed (List Byte) :=
  (s.feedLocate f 6 tag (runsOf va n)).bind fun ps t =>
    match ps.filter fun p => t.mustAsk p.pa true with
    | [] => .ok (t.readRuns ps) t
    | qs =>
      let d := t.feeder f
      (if d.bad.isSome then t else qs.foldl (fun u p =>
        u.askOnce { d.req f with pa := p.pa, op := .load p.n, va := some (word p.va) }) t).feedPort f

/-! Ends of records and lists -/

/-- The position and loop stack after control reaches an address (R89). -/
def loopNext : Nat → List LoopLvl → Nat × List LoopLvl
  | nxt, [] => (nxt, [])
  | nxt, l :: ls =>
    if nxt = l.first + 32 * l.count then
      (if l.left = 0 then loopNext nxt ls else (l.first, { l with left := l.left - 1 } :: ls))
    else (nxt, l :: ls)

/-- The feeder going on at an address. -/
def Feeder.goto (d : Feeder) (nxt : Nat) : Feeder :=
  let (a, ls) := loopNext nxt d.loops
  { d with list := a, loops := ls, st := .running, seen := [], row := 0, counted := 0, xres := none, wrote := 0, bad := none }

/-- The feeder idle, without a list (R94). -/
def Feeder.stopped (d : Feeder) : Feeder :=
  { inbox := d.inbox, tlb := d.tlb, overflows := d.overflows, invalids := d.invalids, saved := d.saved, away := d.away }

/-- The record after it has completed. -/
def State.feedNext (s : State) (f : Nat) : State := s.setFeeder f ((s.feeder f).goto ((s.feeder f).list + 32))

/-- A message of a feeder (R92, R97). -/
def State.feedMsg (s : State) (f wt eline cls dest : Nat) (payload : List Word) : State :=
  let d := s.feeder f
  s.post { wt := wt, eline := eline, cls := cls, kslot := d.kslot, ctx := d.ctx, src := feederPlace f, dest := dest,
           spkg := s.fw.pkg, hpkg := d.home, dpkg := s.fw.pkg, payload := payload, arrived := 0 }

/-- A feed fault (R97): one message with all of HOLD, and the list ends; rec is the record code. -/
def State.feedFault (s : State) (f code rec : Nat) (addr : Word) : State :=
  let d := s.feeder f
  let c := s.ctxOf d.ctx
  let t := s.feedMsg f d.hold c.ffeline 0 c.ffplace
    [word (code + rec * 2 ^ 8 + f * 2 ^ 16), word d.list, addr, 0, 0, 0, 0, 0]
  t.setFeeder f d.stopped

/-- The end of a step of a feeder. -/
def feedEnd (f rec : Nat) (x : Feed State) : State :=
  match x with
  | .ok t _ => t
  | .wait t => t
  | .fault c a t => t.feedFault f c rec a

/-! Messages at a feeder (R81, R82) -/

/-- FEEDER_MESSAGE_ARRIVAL (R81) of the earliest message of the sender and destination of the one at an index. -/
def execFeederMessageArrival (i : Nat) (s : State) : Out :=
  .next (match s.netFirst i with
  | none => s
  | some (j, x) =>
    match feederOf x.msg.dest with
    | none => s
    | some f =>
      if x.held || x.msg.dpkg != s.fw.pkg then s
      else if (s.ctxOf x.msg.ctx).part ≠ s.feederPart f then (s.takeNet j).loseMsg x.msg 1 x.msg.dest
      else if 16 ≤ (s.feeder f).inbox.length + (s.feeder f).away.countP (fun m => s.inSlice m.ctx) then
        { s with net := s.net.modify j fun y => { y with held := true, since := s.msgClock y.msg } }
      else
        let t := s.takeNet j
        t.setFeeder f { t.feeder f with inbox := (t.feeder f).inbox ++ [{ x.msg with arrived := s.clk.hub }] })

/-- The message a feeder takes (R81): the highest class, and the oldest within it, of a context in its slice; a message
put away with its context has the age it arrived with. -/
def State.feedChoice (s : State) : Nat → List Msg → Option (Nat × Msg)
  | _, [] => none
  | i, m :: ms =>
    let rest := s.feedChoice (i + 1) ms
    if !s.inSlice m.ctx then rest
    else match rest with
      | some (j, m') =>
        if m.cls < m'.cls ∨ (m.cls = m'.cls ∧ m'.arrived < m.arrived) then some (j, m') else some (i, m)
      | none => some (i, m)

/-- The queued messages of a context saved with it when it leaves its slice (R99). -/
def Feeder.putAway (d : Feeder) (ctx : Nat) : Feeder :=
  { d with inbox := d.inbox.filter (fun m => m.ctx ≠ ctx), away := d.away ++ d.inbox.filter fun m => m.ctx = ctx }

/-- The list of a feeder put aside when its context leaves its slice (R99): the record under way is abandoned. -/
def Feeder.pause (d : Feeder) : Feeder :=
  let st : FeedSt := match d.st with
    | .answer x => .answer x
    | _ => .running
  { d.stopped with saved := d.saved ++ [{ st := st, list := d.list, p := d.p, hold := d.hold, home := d.home, ctx := d.ctx,
                                          kslot := d.kslot, loops := d.loops, counted := d.counted }] }

/-- A list taken up again: its record starts from its beginning, and counts no conversion twice (R99). -/
def Feeder.resume (d : Feeder) (v : FeedSave) : Feeder :=
  { d.stopped with
    saved := d.saved.erase v
    st := v.st, list := v.list, p := v.p, hold := v.hold, home := v.home, ctx := v.ctx, kslot := v.kslot, loops :=
        v.loops,
    counted := v.counted }

/-- The messages of a feeder, those saved first (R81, R99). -/
def Feeder.queued (d : Feeder) : List Msg := d.away ++ d.inbox

/-- The feeder without its i-th message. -/
def Feeder.take (d : Feeder) (i : Nat) : Feeder :=
  if i < d.away.length then { d with away := d.away.eraseIdx i } else { d with inbox := d.inbox.eraseIdx (i - d.away.length) }

/-- FEEDER_START_LIST (R82, R99): a list put aside whose context is back in its slice goes first. R99 does not say
whether a restored list goes ahead of queued messages, nor what happens when the feeder runs another context's list at
the restore: here the feeder ends that list, and takes a restored list before any message (log entry 46, the model's
choice). -/
def execFeederStartList (f : Nat) (s : State) : Out :=
  let d := s.feeder f
  .next (if d.st ≠ .idle then s
    else match d.saved.find? (fun v => s.inSlice v.ctx) with
    | some v => s.setFeeder f (d.resume v)
    | none => match s.feedChoice 0 d.queued with
      | none => s
      | some (i, m) =>
        let list := fld (m.payload.getD 0 0) 0 56
        let d' : Feeder := { (d.take i).stopped with
          st := .running, list := list,
          p := Vector.ofFn fun j : Fin 7 => m.payload.getD (j.val + 1) 0,
          hold := m.wt, home := m.hpkg, ctx := m.ctx, kslot := m.kslot }
        let t := s.setFeeder f d'
        if list % 32 ≠ 0 then t.feedFault f 3 0 (word list) else t)

/-! Records (R83, R84) -/

/-- The bits of a record's words that its layout names (R85 to R94). -/
def recordNamed (code : Nat) : List Nat :=
  let bits (hi lo : Nat) : Nat := 2 ^ (hi + 1) - 2 ^ lo
  match code with
  | 1 => [bits 39 24 + bits 22 8 + bits 6 0, bits 39 0, bits 63 0, bits 47 0]
  | 2 => [bits 13 8 + bits 5 0, bits 39 0, bits 63 0, bits 47 0]
  | 3 => [bits 47 8 + bits 3 0, 0, 0, 0]
  | 4 => [bits 10 8 + bits 4 0, bits 63 0, 0, 0]
  | 5 => [bits 39 24 + bits 13 11 + bits 5 0, bits 39 0, 0, 0]
  | 6 => [bits 63 16 + bits 9 8 + bits 5 0, bits 63 0, bits 63 0, 0]
  | 7 => [bits 47 16 + bits 10 8 + bits 3 0, bits 63 0, bits 15 0, 0]
  | 8 => [bits 3 0, 0, 0, 0]
  | 9 => [bits 3 0, bits 63 0, 0, 0]
  | _ => [0, 0, 0, 0]

/-- A record has a nonzero reserved bit (R83), or a field that must be zero for the forms PUSH, DRAIN and WAITG take.
R91 does not say of WAITG, as R85 does of PUSH, that MASK is zero unless MC: here a nonzero one is code 0x02 (log entry
46, the model's choice). -/
def recordBad (w : List Word) : Bool :=
  let w0 := w.getD 0 0
  let code := fld w0 0 4
  ((w.zip (recordNamed code)).any fun (x, m) => decide (Nat.lor x.toNat m ≠ m)) ||
    (code == 1 && ((!bitOf w0.toNat 5 && decide (fld w0 24 16 ≠ 0)) ||
        (!bitOf w0.toNat 6 && decide (fld w0 14 9 ≠ 0)))) ||
    (code == 2 && !bitOf w0.toNat 4 && (decide (fld w0 11 3 ≠ 0) || decide (fld (w.getD 2 0) 40 24 ≠ 0))) ||
    (code == 5 && !bitOf w0.toNat 5 && decide (fld w0 24 16 ≠ 0))

/-- The four words of the record at a feeder's position, read at its own port (R83). -/
def State.feedRecord (s : State) (f : Nat) : Feed (List Word) :=
  (s.feedRead f (s.feeder f).list 32).bind fun bs t => .ok (wordsOfBytes 4 bs) t

/-- A parameter word (R82): index 0 names none. -/
def Feeder.param (d : Feeder) (i : Nat) : Word := d.p.toList.getD (i - 1) 0

/-- A record of one of the codes acts for a running feeder whose context is in its slice; a record of another code is
not this event's. A fault of the fetch belongs to no record (R97). -/
def State.withRecord (s : State) (f : Nat) (codes : Nat → Bool) (act : State → List Word → Feed State) : State :=
  let d := s.feeder f
  if d.st ≠ .running ∨ s.inSlice d.ctx = false then s
  else match s.feedRecord f with
    | .wait t => t
    | .fault c a t => t.feedFault f c 0 a
    | .ok w t =>
      let code := fld (w.getD 0 0) 0 4
      if codes code = false then s
      else if code = 0 ∨ 10 ≤ code then t.feedFault f 1 code 0
      else if recordBad w then t.feedFault f 2 code 0
      else feedEnd f code (act t w)

/-! Galleys a record names (R84, R86) -/

/-- A cluster a feeder may reach (R80, 04_vaults.md R72): of its partition, and running its context. -/
def State.feedReaches (s : State) (f clus : Nat) : Bool :=
  decide (s.partOfClus clus = s.feederPart f) && s.runsOn (s.feeder f).ctx clus

/-- The clusters a galley address and mask choose. -/
def galClusters (gal mask : Nat) (mc : Bool) : List Nat :=
  let clus := gal / 2 ^ 31 % 512
  if mc then ((List.range 16).filter (bitOf mask)).map fun i => clus / 16 * 16 + i else [clus]

/-- Galley records read at their banks by the galley units (04_vaults.md R71): one that is poisoned is the fault. -/
def State.feedRecords (s : State) (f ofs : Nat) : List Nat → Feed Unit
  | [] => .ok () s
  | c :: cs =>
    match s.engineRead c (feederPlace f) (s.feeder f).ctx (s.feeder f).kslot (gKey c ofs) 128 with
    | (none, t) => .fault 0x11 (vaultAddr (gKey c ofs)) t
    | (some _, t) => t.feedRecords f ofs cs

/-- The galley records a record names: the offset and the clusters. A cluster outside the partition is code 0x0A; one
inside it that runs another context has no record of this one, code 0x0D (R86, R97; R114 of 06_copy_and_galleys.md). -/
def State.feedGalleys (s : State) (f : Nat) (gal mask : Nat) (mc : Bool) : Feed (Nat × List Nat) :=
  let ofs := gal % 2 ^ 24
  let cs := galClusters gal mask mc
  let tsid := (s.ctxOf (s.feeder f).ctx).tsid
  if bitOf gal 30 then .fault 2 (word gal) s
  else if cs.isEmpty then .fault 2 (word gal) s
  else if gal / 2 ^ 24 % 64 ≠ 0 ∨ ofs % 128 ≠ 0 ∨ vaultEnd ≤ ofs then .fault 0x0D (word gal) s
  else if !cs.all (fun c => decide (s.partOfClus c = s.feederPart f)) then .fault 0x0A (word gal) s
  else if !cs.all (fun c => s.feedReaches f c && s.gActive c ofs) then .fault 0x0D (word gal) s
  else (s.feedRecords f ofs cs).bind fun _ s =>
    if !cs.all (fun c => gTsid (s.gHeader (gKey c ofs)) == tsid &&
        gSlots (s.gHeader (gKey c ofs)) == gSlots (s.gHeader (gKey (cs.headD 0) ofs))) then .fault 0x0D (word gal) s
    else .ok (ofs, cs) s

/-- Clusters whose slot is in an awaited state are seen; a slot in fault is a feed fault (R86, R91). When some are not
seen, the feeder waits. -/
def State.feedAwait (s : State) (code f ofs k : Nat) (gal : Word) (good : Nat → Bool) (cs : List Nat) : Feed Unit :=
  let d := s.feeder f
  let left := cs.filter fun c => !d.seen.contains c
  if left.any (fun c => s.gState (gKey c ofs) k = 3) then .fault 0x0D gal s
  else
    let seen := d.seen ++ left.filter fun c => good (s.gState (gKey c ofs) k)
    if cs.all seen.contains then .ok () (s.setFeeder f { d with seen := seen })
    else .wait (s.setFeeder f { d with seen := seen, st := .waiting code })

/-! PUSH (R85 to R87) -/

/-- The rounding mode of a code, when it is one (01_formats.md R23). -/
def rmOfCode (n : Nat) : Option RMode :=
  match n with
  | 0 => some .rne | 1 => some .rtz | 2 => some .rdn | 3 => some .rup | 4 => some .rna | _ => none

/-- A value of a blocked format in a plain one (01_formats.md R24 to R26). -/
def encodeValue (dst : Nat) (rm : RMode) (sat : Bool) (v : FVal) : FRes :=
  match fmtOfCode dst, intOfCode dst with
  | some fd, _ => fd.convert rm sat v
  | none, some (w, sg) => intFromFloat w sg rm v
  | none, none => (0, {})

/-- An element of a row converted (R87). -/
def rowElement (f lg dst : Nat) (rm : RMode) (sat : Bool) (heads els : SpanBytes) (j : Nat) : FRes :=
  if lg = 0 then
    convertElem f dst rm sat (spanNat els (elementSpan f lg j).1 / 2 ^ (elementAddress f lg j).2 % 2 ^ elementBits f)
  else encodeValue dst rm sat (elementValue f lg heads els j)

/-- Raw elements of b bits packed, the first lowest (01_formats.md R13). -/
def packBits (b : Nat) : List Nat → Nat
  | [] => 0
  | x :: xs => x % 2 ^ b + 2 ^ b * packBits b xs

/-- Spans of a row located and read, one after the other. -/
def State.feedSpans (s : State) (f : Nat) (x : Word) : List (Nat × Nat) → Feed SpanBytes
  | [] => .ok [] s
  | (o, n) :: sps =>
    (s.feedRead f (memAddr x o) n (tagOf x)).bind fun bs t =>
      (t.feedSpans f x sps).bind fun rest u => .ok ((o, bs) :: rest) u

/-- A converted row: its bytes, and how many conversions overflowed and were invalid (R87). -/
def State.convertRow (s : State) (f : Nat) (x : Word) (n dst : Nat) (rm : RMode) (sat : Bool) :
    Feed (List Byte × Nat × Nat) :=
  let sf := fld x 59 5
  let lg := fld x 56 3
  let js := List.range n
  if sf = 0 ∨ tagLegal sf lg = false ∨ fld x 0 56 % formatAlign sf lg ≠ 0 then .fault 0x0F (word (fld x 0 56)) s
  else
    (s.feedSpans f x (headerSpans sf lg js)).bind fun heads t =>
      (t.feedSpans f x (elementSpans sf lg js)).bind fun els u =>
        if anyHeaderBad sf heads then .fault 0x0F (word (fld x 0 56)) u
        else
          let rs := js.map (rowElement sf lg dst rm sat heads els)
          .ok (leBytes (n * elementBits dst / 8) (packBits (elementBits dst) (rs.map (·.1))),
            rs.countP (·.2.of), rs.countP (·.2.nv)) u

/-- A row as PUSH reads it: converted, or plain bytes. -/
def State.pushRow (s : State) (f : Nat) (x : Word) (n : Nat) (cv : Option (Nat × RMode × Bool)) :
    Feed (List Byte × Nat × Nat) :=
  match cv with
  | some (dst, rm, sat) => s.convertRow f x n dst rm sat
  | none => (s.feedRead f (fld x 0 56) n (tagOf x)).bind fun bs t => .ok (bs, 0, 0) t

/-- A saturating 32-bit counter raised (R87). -/
def satAdd32 (c : BitVec 32) (n : Nat) : BitVec 32 := BitVec.ofNat 32 (min (c.toNat + n) (2 ^ 32 - 1))

/-- A row of a PUSH written packed at its place in each cluster's slot, whatever it covers (log entry 27), and its
conversions counted, once (R86, R87, R99). -/
def State.putRow (s : State) (f ofs k dofs : Nat) (cs : List Nat) (i : Nat) (r : List Byte × Nat × Nat) : State :=
  let t := cs.foldl (fun t c => { t with
    vault := writeBytes t.vault (c * 2 ^ 24 + gSlotOfs (t.gHeader (gKey c ofs)) k + dofs + i * r.1.length) r.1 }) s
  let d := t.feeder f
  let e := if i < d.counted then d
    else { d with counted := i + 1, overflows := satAdd32 d.overflows r.2.1, invalids := satAdd32 d.invalids r.2.2 }
  t.setFeeder f { e with row := i + 1 }

/-- The last k rows of a PUSH from row i up, each read, converted, written and counted before the next (R86): a fault at
one leaves those before it written, and a wait goes on there. The pointer keeps its tag. -/
def State.pushRows (s : State) (f : Nat) (ptr : Word) (str : Int) (n : Nat) (cv : Option (Nat × RMode × Bool))
    (put : State → Nat → List Byte × Nat × Nat → State) : Nat → Nat → Feed Unit
  | _, 0 => .ok () s
  | i, k + 1 =>
    if i < (s.feeder f).row then s.pushRows f ptr str n cv put (i + 1) k
    else (s.pushRow f (addTagged ptr (i * str)) n cv).bind fun r t => (put t i r).pushRows f ptr str n cv put (i + 1) k

/-- Galley updates of T bytes, cluster after cluster, until one fails (R86). -/
def State.pushUpdates (s : State) (f ofs k T : Nat) (gal : Word) : List Nat → Feed State
  | [] => .ok (s.feedNext f) s
  | c :: cs =>
    let st := s.gState (gKey c ofs) k
    match s.gCycle c ofs k false none [T] 0 with
    | (t, .ok) => t.pushUpdates f ofs k T gal cs
    | (t, .fault) => .fault (if st = 3 then 0x0D else 0x0C) gal t

/-- The conversion a PUSH asks for: none without CV, or its format, rounding mode and saturation (R85, R87). -/
def pushConv (w0 : Word) (rowlen : Nat) : Option (Option (Nat × RMode × Bool)) :=
  if !bitOf w0.toNat 6 then some none
  else
    let dst := fld w0 14 5
    let b := elementBits dst
    match rmOfCode (fld w0 19 3) with
    | none => none
    | some rm =>
      if ((1 ≤ dst ∧ dst ≤ 13) ∨ (21 ≤ dst ∧ dst ≤ 25)) ∧ rowlen * b % (if b = 6 then 24 else 8) = 0 then
        some (some (dst, rm, bitOf w0.toNat 22))
      else none

/-- PUSH of a record (R86). -/
def State.push (s : State) (f : Nat) (w : List Word) : Feed State :=
  let w0 := w.getD 0 0
  let w2 := w.getD 2 0
  let gal := (w.getD 1 0).toNat
  let rows := fld w2 24 16
  let rowlen := fld w2 0 24
  let d := s.feeder f
  if rows = 0 ∨ rowlen = 0 then .fault 2 0 s
  else if fld w0 8 3 = 0 ∨ fld w0 11 3 = 0 then .fault 4 0 s
  else
    (s.feedGalleys f gal (fld w0 24 16) (bitOf w0.toNat 5)).bind fun (ofs, cs) s =>
      let h := s.gHeader (gKey (cs.headD 0) ofs)
      let k := (d.param (fld w0 11 3)).toNat % gSlots h
      match pushConv w0 rowlen with
      | none => .fault 0x0F 0 s
      | some cv =>
        let rowd := match cv with | some (dst, _, _) => rowlen * elementBits dst / 8 | none => rowlen
        let T := rows * rowd
        let dofs := fld w2 40 24
        if cs.any (fun c => decide (gSize (s.gHeader (gKey c ofs)) < dofs + T)) then .fault 0x0B 0 s
        else
          (s.feedAwait 1 f ofs k (word gal) (fun st => !bitOf w0.toNat 4 || decide (st ≤ 1)) cs).bind fun _ s =>
            (s.pushRows f (d.param (fld w0 8 3)) (intVal 48 true (fld (w.getD 3 0) 0 48)) rowlen cv
              (fun t i r => t.putRow f ofs k dofs cs i r) 0 rows).bind fun _ t => t.pushUpdates f ofs k T (word gal) cs

/-- PUSH (R86). -/
def execPush (f : Nat) (s : State) : Out := .next (s.withRecord f (· == 1) fun t w => t.push f w)

/-! DRAIN (R88) -/

/-- The rows of a DRAIN located for writing. -/
def State.drainLocate (s : State) (f : Nat) (dst : Word) (str : Int) (n : Nat) : Nat → Nat → Feed (List FeedRun)
  | _, 0 => .ok [] s
  | i, k + 1 =>
    (s.feedLocate f 7 (tagOf dst) (runsOf (memAddr dst (i * str)) n)).bind fun ps t =>
      (t.drainLocate f dst str n (i + 1) k).bind fun rest u => .ok (ps ++ rest) u

/-- Requests of a feeder under way leave it a credit of its port (03_crossbar.md R61). -/
def State.feedCredit (s : State) (f : Nat) : Bool :=
  decide (s.xbar.outstanding.countP (fun (q, _) => decide (q.row = 384) && decide (q.src = feederPlace f)) < 256)

/-- The runs of a DRAIN from number n up stored, as far as the feeder has credits; the count of runs stored is noted. -/
def State.drainWrite (s : State) (f n : Nat) : List FeedRun → List Byte → State
  | [], _ => s.setFeeder f { s.feeder f with wrote := n }
  | p :: ps, bs =>
    if s.mustAsk p.pa false && !s.feedCredit f then s.setFeeder f { s.feeder f with wrote := n }
    else (s.writeOf ((s.feeder f).req f) p (bs.take p.n)).drainWrite f (n + 1) ps (bs.drop p.n)

/-- The bytes of a DRAIN moved from a vault range; what follows acts once every byte has been performed at the memory
port (16_ordering.md R309). -/
def State.drainMove (s : State) (f key T : Nat) (w : List Word) (then_ : State → Feed State) : Feed State :=
  let d := s.feeder f
  (s.drainLocate f (d.param (fld (w.getD 0 0) 8 3)) (intVal 48 true (fld (w.getD 3 0) 0 48)) (fld (w.getD 2 0) 0 24) 0
    (fld (w.getD 2 0) 24 16)).bind fun ps t =>
      if ps.length ≤ d.wrote then if t.feedOpen f then t.feedPort f else then_ t
      else match t.engineRead (key / 2 ^ 24) (feederPlace f) d.ctx d.kslot key T with
      | (none, u) => .fault 0x11 (vaultAddr key) u
      | (some bs, u) =>
        let v := u.drainWrite f d.wrote (ps.drop d.wrote) (bs.drop ((ps.take d.wrote).map FeedRun.n).sum)
        if v.feedOpen f then v.feedPort f else if (v.feeder f).wrote < ps.length then .wait v else then_ v

/-- DRAIN of a record (R88). R97 gives code 0x0A to a cluster outside the partition and none to one that runs another
context, which has no galley here: it is 0x0A too (log entry 46, the model's choice), here and in SEND. No rule gives a
code to a vault address of GS = 0 with nonzero bits [29:24]: here it is 0x0B (log entry 46, the model's choice). Of a
galley slot in fault state R88 says neither which of 0x0E and 0x0D counts with WF = 0, nor whether the record waits
with WF = 1: the model raises 0x0D at once in both (log entry 46, the model's choice). -/
def State.drainRec (s : State) (f : Nat) (w : List Word) : Feed State :=
  let w0 := w.getD 0 0
  let w2 := w.getD 2 0
  let src := (w.getD 1 0).toNat
  let T := fld w2 24 16 * fld w2 0 24
  let d := s.feeder f
  if T = 0 then .fault 2 0 s
  else if d.bad.isSome then s.feedPort f
  else if fld w0 8 3 = 0 ∨ (bitOf w0.toNat 4 = true ∧ fld w0 11 3 = 0) then .fault 4 0 s
  else if bitOf w0.toNat 4 then
    (s.feedGalleys f src 0 false).bind fun (ofs, cs) s =>
      let c := cs.headD 0
      let h := s.gHeader (gKey c ofs)
      let k := (d.param (fld w0 11 3)).toNat % gSlots h
      if gSize h < fld w2 40 24 + T then .fault 0x0B (word src) s
      else if !bitOf w0.toNat 5 && !d.seen.contains c &&
          decide (s.gState (gKey c ofs) k ≤ 1) then .fault 0x0E (word src) s
      else
        (s.feedAwait 2 f ofs k (word src) (fun st => decide (st = 2)) [c]).bind fun _ s =>
          s.drainMove f (c * 2 ^ 24 + gSlotOfs h k + fld w2 40 24) T w fun t =>
            match t.gCycle c ofs k true none [] 0 with
            | (u, .ok) => .ok (u.feedNext f) u
            | (u, .fault) => .fault 0x0D (word src) u
  else if bitOf src 30 then .fault 2 (word src) s
  else if src / 2 ^ 24 % 64 ≠ 0 ∨ vaultEnd < src % 2 ^ 24 + T then .fault 0x0B (word src) s
  else if !s.feedReaches f (src / 2 ^ 31 % 512) then .fault 0x0A (word src) s
  else s.drainMove f (src / 2 ^ 31 % 512 * 2 ^ 24 + src % 2 ^ 24) T w fun t => .ok (t.feedNext f) t

/-- DRAIN (R88). -/
def execDrain (f : Nat) (s : State) : Out := .next (s.withRecord f (· == 2) fun t w => t.drainRec f w)

/-! Control and parameters (R89, R90, R91) -/

/-- LOOP of a record (R89). -/
def State.loopRec (s : State) (f : Nat) (w : List Word) : Feed State :=
  let d := s.feeder f
  let n := fld (w.getD 0 0) 16 32
  let k := fld (w.getD 0 0) 8 8
  let first := d.list + 32
  let past := match d.loops with
    | l :: _ => decide (l.first + 32 * l.count < first + 32 * k)
    | [] => false
  if k = 0 ∨ 4 ≤ d.loops.length ∨ past = true then .fault 5 0 s
  else .ok (s.setFeeder f (if n = 0 then d.goto (first + 32 * k)
    else { d with loops := { first := first, count := k, left := n - 1 } :: d.loops, list := first, seen := [], row := 0, counted := 0, xres := none, wrote := 0, bad := none })) s

/-- LOOP (R89). -/
def execLoopRecord (f : Nat) (s : State) : Out := .next (s.withRecord f (· == 3) fun t w => t.loopRec f w)

/-- PADD of a record (R90). -/
def State.paddRec (s : State) (f : Nat) (w : List Word) : Feed State :=
  let w0 := w.getD 0 0
  let px := fld w0 8 3
  let d := s.feeder f
  if px = 0 then .fault 4 0 s
  else
    let old := d.param px
    let add := w.getD 1 0
    let new := if bitOf w0.toNat 4 then word (fld old 56 8 * 2 ^ 56 + (fld old 0 56 + add.toNat) % 2 ^ 56) else old + add
    .ok (s.setFeeder f ({ d with p := d.p.setIfInBounds (px - 1) new }.goto (d.list + 32))) s

/-- PADD (R90). -/
def execPadd (f : Nat) (s : State) : Out := .next (s.withRecord f (· == 4) fun t w => t.paddRec f w)

/-- WAITG of a record (R91). -/
def State.waitgRec (s : State) (f : Nat) (w : List Word) : Feed State :=
  let w0 := w.getD 0 0
  let gal := (w.getD 1 0).toNat
  if fld w0 11 3 = 0 then .fault 4 0 s
  else
    (s.feedGalleys f gal (fld w0 24 16) (bitOf w0.toNat 5)).bind fun (ofs, cs) s =>
      let k := ((s.feeder f).param (fld w0 11 3)).toNat % gSlots (s.gHeader (gKey (cs.headD 0) ofs))
      (s.feedAwait 5 f ofs k (word gal) (fun st => if bitOf w0.toNat 4 then decide (st = 2) else decide (st = 0)) cs).bind
        fun _ t => .ok (t.feedNext f) t

/-- WAITG (R91). -/
def execWaitg (f : Nat) (s : State) : Out := .next (s.withRecord f (· == 5) fun t w => t.waitgRec f w)

/-! Weight (R92 to R95) -/

/-- SEND of a record (R92; 13_handlers_and_messages.md R260, R261): HOLD is unchanged by a fault. No rule gives a code
to a vault address of PV = 1 with nonzero bits [29:24]: here it is 0x0B (log entry 46, the model's choice). -/
def State.sendRec (s : State) (f : Nat) (w : List Word) : Feed State :=
  let w0 := w.getD 0 0
  let m0 := w.getD 2 0
  let d := s.feeder f
  let c := s.ctxOf d.ctx
  let dest := fld w0 48 16
  let x := fld w0 16 32
  let all := bitOf w0.toNat 4
  let pv := bitOf w0.toNat 5
  if !s.receives c.part dest then .fault 2 0 s
  else if (feederOf dest).isNone && !c.entryValid (w.getD 1 0) then .fault 2 0 s
  else if pv && (decide (fld m0 40 24 ≠ 0) || bitOf m0.toNat 30 || decide (fld m0 0 6 ≠ 0)) then .fault 2 m0 s
  else if (if all then x ≠ 0 else x = 0 ∨ d.hold ≤ x) then .fault 6 0 s
  else
    let amt := if all then d.hold else x
    let go (t : State) (payload : List Word) : Feed State :=
      let u := t.feedMsg f amt (elineOf (w.getD 1 0)) (fld w0 8 2) dest payload
      .ok (if all then u.setFeeder f d.stopped else u.setFeeder f ({ d with hold := d.hold - amt }.goto (d.list + 32))) u
    if pv then
      let clus := fld m0 31 9
      if fld m0 24 6 ≠ 0 ∨ vaultEnd ≤ fld m0 0 24 then .fault 0x0B m0 s
      else if !s.feedReaches f clus then .fault 0x0A m0 s
      else
        let key := clus * 2 ^ 24 + fld m0 0 24
        match s.engineRead clus (feederPlace f) d.ctx d.kslot key 64 with
        | (none, t) => .fault 0x11 m0 t
        | (some bs, t) => go t (wordsOfBytes 8 bs)
    else go s (m0 :: d.p.toList)

/-- SEND (R92). -/
def execSendRecord (f : Nat) (s : State) : Out := .next (s.withRecord f (· == 6) fun t w => t.sendRec f w)

/-- FARRN of a record (R93): accepted, the units are the forme's, and the feeder waits for the engine's answer. -/
def State.farrnRec (s : State) (f : Nat) (w : List Word) : Feed State :=
  let w0 := w.getD 0 0
  let d := s.feeder f
  let c := s.ctxOf d.ctx
  let x := fld w0 16 32
  let place := fld (w.getD 2 0) 0 16
  if fld w0 8 3 = 0 then .fault 4 0 s
  else if (feederOf place).isNone && !c.entryValid (w.getD 1 0) then .fault 2 0 s
  else if x = 0 ∨ d.hold ≤ x then .fault 6 0 s
  else
    let h := d.param (fld w0 8 3)
    match s.validHandle c.part h with
    | none => .fault 0x10 0 s
    | some fm =>
      match s.arrive c.part (handleNum h) fm h .plain 0
          (fun _ => .notify x place (elineOf (w.getD 1 0)) d.ctx d.kslot d.home) false with
      | .refuse _ => .fault 0x10 0 s
      | .ok t => .ok ((t.countOp (22 + fld h 40 3) c.part).setFeeder f { t.feeder f with hold := d.hold - x, st := .answer x }) t

/-- FARRN (R93). -/
def execFarrnRecord (f : Nat) (s : State) : Out := .next (s.withRecord f (· == 7) fun t w => t.farrnRec f w)

/-- STOP (R94): HOLD goes home directly (14_weight_and_quiescence.md R281). -/
def execStop (f : Nat) (s : State) : Out :=
  .next (s.withRecord f (· == 8) fun t _ =>
    let d := t.feeder f
    .ok ((t.wire (.ret d.ctx d.kslot d.home d.hold (feederPlace f))).setFeeder f d.stopped) t)

/-- CHAIN (R94): not inside a body (R89). -/
def execChain (f : Nat) (s : State) : Out :=
  .next (s.withRecord f (· == 9) fun t w =>
    let d := t.feeder f
    let a := fld (w.getD 1 0) 0 56
    if !d.loops.isEmpty then .fault 5 0 t
    else if a % 32 ≠ 0 then .fault 3 (word a) t
    else .ok (t.setFeeder f { d with list := a, loops := [], seen := [], row := 0, counted := 0, xres := none, wrote := 0, bad := none }) t)

/-- A record with a reserved code (R84). -/
def execReservedRecord (f : Nat) (s : State) : Out :=
  .next (s.withRecord f (fun c => c == 0 || decide (10 ≤ c)) fun t _ => .ok t t)

/-- The record at a feeder's position acts, whatever it is. -/
def State.feedAct (s : State) (f : Nat) : State :=
  s.withRecord f (fun _ => true) fun t w =>
    match fld (w.getD 0 0) 0 4 with
    | 1 => t.push f w
    | 2 => t.drainRec f w
    | 5 => t.waitgRec f w
    | _ => .ok t t

/-- FEEDER_WAIT_SATISFIED (R91, R86, R88): a waiting feeder runs its record again once a cluster's slot that it has not
seen is in the awaited state. -/
def execFeederWaitSatisfied (f : Nat) (s : State) : Out :=
  let d := s.feeder f
  let r := s.setFeeder f { d with st := .running }
  let t := r.feedAct f
  .next (match d.st with
  | .waiting code => if (t.feeder f).st = .waiting code ∧ (t.feeder f).seen = d.seen then s else r
  | _ => s)

end Sys2Proof.Machine
end

