-- ==== Sys2Proof/Machine/CopyEngine.lean ====
section
/-!
DEFINITION. The copy engines and the events of the galley units (06_copy_and_galleys.md R100 to R108, R114, R115;
12_way_back.md R257).
-/

namespace Sys2Proof.Machine

/-! Starting (R104) -/

/-- A transfer's SER bit. -/
def Transfer.ser (t : Transfer) : Bool := bitOf (t.regs.get 5).toNat 6

/-- The oldest transfer of the inbox that may start: one with SER waits for those its slot launched earlier. -/
def startable (chans copies : List Transfer) : Option Transfer :=
  copies.find? fun t => !(t.ser && (chans ++ copies).any fun u => decide (u.place = t.place) && decide (u.seq < t.seq))

/-- A free channel of four. -/
def freeChan (chans : List Transfer) : Option Nat := (List.range 4).find? fun k => chans.all fun t => t.chan != k

/-- A launched transfer that waited for room enters the inbox, and its CPGO has its result (R103). -/
def State.enterInbox (s : State) (clus : Nat) : State :=
  let c := s.clus clus
  match c.entering with
  | [] => s
  | (t, pc, a) :: es =>
    if 64 ≤ c.copies.length then s
    else
      let u := s.setClus clus { c with copies := c.copies ++ [t], entering := es }
      if (u.slot t.place).act = t.act then u.answerOut t.place pc (.ok [.x a (word t.id)] {}) else u

/-- A switch saves the queued transfers and matrix commands of a cluster as they are: no more start
(18_faults_and_preemption.md R350, R351; 11_matrix_unit.md R222). A drain lets its
activations run to END, and their transfers with them, up to its deadline. -/
def State.saves (s : State) (clus : Nat) : Bool :=
  match (s.clus clus).switch with
  | none => false
  | some w => w.mode != .drain ||
      decide (w.at_ + fld (s.reg (.precfg (s.ctxOf w.ctx).part)) 0 32 ≤ s.dieClock (clus / 64))

/-- TRANSFER_START (R104): a frozen engine starts nothing (20_debug.md R372). -/
def execTransferStart (clus : Nat) (s : State) : Out :=
  let c := s.clus clus
  .next (if c.frozen || s.saves clus then s
    else
    let s := s.enterInbox clus
    let c := s.clus clus
    match freeChan c.chans, startable c.chans c.copies with
      | some k, some t =>
        (s.setClus clus { c with
          copies := c.copies.filter (fun u => u.id ≠ t.id), chans := c.chans ++
              [{ t with chan := k }] }).enterInbox clus
      | _, _ => s)

/-! Moving bytes (R102) -/

/-- A run of bytes of one space: memory by virtual and device physical address and whether its shard's cache may hold
it, a vault by key, a buffer of a worker core. -/
inductive Run where
  | mem (va pa n : Nat) (sc : Bool)
  | vault (key n : Nat)
  | buf (core ofs n : Nat)
deriving DecidableEq, Repr

/-- What a step of a transfer comes to. -/
inductive Copy (α : Type) where
  | ok (a : α) (s : State)
  | wait (s : State)
  | fail (code : Nat) (addr : Word)
deriving DecidableEq

/-- One step after another. -/
def Copy.bind {α β : Type} (x : Copy α) (f : α → State → Copy β) : Copy β :=
  match x with
  | .ok a s => f a s
  | .wait s => .wait s
  | .fail c a => .fail c a

/-- The place of a transfer's channel (00_scope.md R4). -/
def Transfer.chanPlace (t : Transfer) (clus : Nat) : Nat := clus * 128 + 72 + t.chan

/-- The request of a transfer at an address; it carries the transfer's identifier. -/
def Transfer.req (t : Transfer) (clus va pa : Nat) (op : PortOp) : PortReq :=
  { row := shardOf clus, tag := 0, src := t.chanPlace clus, pa := pa, op := op, posted := false, replay := false,
      reissues := 0,
    va := some (word va), act := t.id, ctx := t.ctx, kslot := t.kslot }

/-- What its port answered to a read of a transfer. -/
def Transfer.answered (t : Transfer) (pa n : Nat) : Option RemRes :=
  (t.rans.find? fun a => a.pa = pa ∧ a.op = .load n).map (·.res)

/-- A read of a transfer is past ingress, and is not checked again (03_crossbar.md R55). -/
def State.copyPast (s : State) (clus : Nat) (t : Transfer) (va pa n : Nat) : Bool :=
  (t.answered pa n).isSome || s.askedFor (t.req clus va pa (.load n))

/-- A translation of a copy transfer for n bytes (R104; 02_main_memory.md R38 to R42, R32; 03_crossbar.md R54). -/
def State.copyXlat (s : State) (clus : Nat) (t : Transfer) (store : Bool) (va n tag : Nat) : Copy Phys :=
  match tlbFind (s.clus clus).ctlb t.tsid va with
  | some e =>
    if !e.permits (if store then .store else .load) true then .fail 3 (word va)
    else match if !store && s.copyPast clus t va (e.phys va) n then none else s.portRefusal (shardOf clus) (e.phys va) with
      | some 5 => .fail 0x0A (word va)
      | some _ => .fail 4 (word va)
      | none => .ok ⟨e.phys va, e.sc, pageSize e.size⟩ s
  | none =>
    if t.xres.any (fun r => r.1 = va / 65536) then .fail 3 (word va)
    else
      let u := if (s.clus clus).asks (.copy clus t.id t.chan) then s
        else s.openXlat clus t.tsid { who := .copy clus t.id t.chan, kind := if store then 5 else 4, abortable := false, va := va,
                                      issued := word (tag * 2 ^ 56 + va) }
      .wait (u.setClus clus { u.clus clus with chans := (u.clus clus).chans.map fun x =>
        if x.id = t.id then { x with waits := true } else x })

/-- The runs of a range of memory. -/
def State.copyMem (s : State) (clus : Nat) (t : Transfer) (store : Bool) (tag : Nat) : List (Nat × Nat) → Copy (List Run)
  | [] => .ok [] s
  | (va, n) :: rs =>
    (s.copyXlat clus t store va n tag).bind fun p u =>
      (u.copyMem clus t store tag rs).bind fun ps v => .ok (.mem va p.pa n p.sc :: ps) v

/-- The run of a range of a vault (04_vaults.md R68, R72): bounds, partition and context. -/
def State.copyVault (s : State) (clus : Nat) (t : Transfer) (a : Int) (n : Nat) : Copy (List Run) :=
  let an := a.toNat
  if a < 0 ∨ 2 ^ 40 ≤ an ∨ an / 2 ^ 24 % 64 ≠ 0 ∨ vaultEnd < an % 2 ^ 24 + n then .fail 5 (wrap64 a)
  else
    let key := vaultKey clus an
    match s.vaultGate clus t.ctx (key / 2 ^ 24) with
    | some _ => .fail 4 (word an)
    | none => .ok [.vault key n] s

/-- A signed field of 32 bits of a stride register (R101). -/
def strideOf (w : Word) (lo : Nat) : Int := intVal 32 true (fld w lo 32)

/-- CopyAddress of the first byte of row r of plane p (R102). -/
def copyAddress (base : Nat) (str : Word) (p r : Nat) : Int := base + p * strideOf str 32 + r * strideOf str 0

/-- The runs of one row at one end of a transfer: kind 0 memory, 1 vault, 2 a matrix buffer (row number i). -/
def State.copyRow (s : State) (clus : Nat) (t : Transfer) (store : Bool) (kind p r i : Nat) : Copy (List Run) :=
  let rb := fld (t.regs.get 2) 0 24
  let r1 := t.regs.get 1
  let base := if store then r1 else t.regs.get 0
  let str := if store then t.regs.get 4 else t.regs.get 3
  match kind with
  | 0 => s.copyMem clus t store (tagOf base) (runsOf ((copyAddress (fld base 0 56) str p r) % (2 ^ 56 : Nat)).toNat rb)
  | 1 => s.copyVault clus t (copyAddress (fld base 0 40) str p r) rb
  | _ => .ok [.buf (coreIn clus (fld r1 0 3)) ((fld r1 3 1 * 4 + fld r1 4 2) * 2048 + fld r1 16 11 + i * rb) rb] s

/-- The rows of a transfer, as planes and rows. -/
def copyRows (t : Transfer) : List (Nat × Nat) :=
  let rows := fld (t.regs.get 2) 24 16
  (List.range (fld (t.regs.get 2) 40 16 * rows)).map fun i => (i / rows, i % rows)

/-- The rows of a transfer located at both ends: those that pass, and the failure of the first that does not. -/
def State.copyLocate (s : State) (clus : Nat) (t : Transfer) (sk dk : Nat) :
    Nat → List (Nat × Nat) → Copy (List (List Run × List Run) × Option (Nat × Word))
  | _, [] => .ok ([], none) s
  | i, (p, r) :: rs =>
    match (s.copyRow clus t false sk p r i).bind fun a u => (u.copyRow clus t true dk p r i).bind fun b v =>
        .ok (a, b) v with
    | .wait u => .wait u
    | .fail c a => .ok ([], some (c, a)) s
    | .ok x u => (u.copyLocate clus t sk dk (i + 1) rs).bind fun (xs, f) v => .ok (x :: xs, f) v

/-- The code of R105 of an answer that is no data. -/
def RemRes.copyCode (r : RemRes) : Nat :=
  match r with
  | .data _ => 0
  | .refused => 4
  | .poisoned => 8
  | .addressError => 0x0A

/-- A copy met poison at an address: its cluster's error log has it (18_faults_and_preemption.md R344). -/
def State.copyPoison (s : State) (clus : Nat) (t : Transfer) (va : Nat) : State :=
  s.logAt clus (t.chanPlace clus) 5 (word va)

/-- A run read for a transfer: its bytes, or the code and address of a failure. A line that its shard's cache may hold
is looked up there (04_vaults.md R64). -/
def State.readRun (s : State) (clus : Nat) (t : Transfer) (r : Run) : Except (Nat × Word) (List Byte) × State :=
  match r with
  | .mem va pa n sc =>
    match t.answered pa n with
    | some (.data bs) => (.ok bs, s)
    | some r => (.error (r.copyCode, word va), s)
    | none =>
      if s.linkDown pa then (.error (8, word va), s.copyPoison clus t va)
      else (.ok (s.memView pa n), if sc then s.shardRead (shardOf clus) pa false else s)
  | .vault key n =>
    match s.engineRead clus (t.chanPlace clus) t.ctx t.kslot key n with
    | (some bs, u) => (.ok bs, u)
    | (none, u) => (.error (8, vaultAddr key), u)
  | .buf core ofs n => (.ok (readBytes (s.core core).mx.bufs ofs n), s)

/-- The runs of a row read in turn. -/
def State.readRow (s : State) (clus : Nat) (t : Transfer) : List Run → Except (Nat × Word) (List Byte) × State
  | [] => (.ok [], s)
  | r :: rs =>
    match s.readRun clus t r with
    | (.error e, u) => (.error e, u)
    | (.ok bs, u) =>
      match u.readRow clus t rs with
      | (.error e, v) => (.error e, v)
      | (.ok cs, v) => (.ok (bs ++ cs), v)

/-- A store of a transfer in memory: performed, or made at its port (03_crossbar.md R61, R63). -/
def State.copyStore (s : State) (clus : Nat) (t : Transfer) (va pa : Nat) (bs : List Byte) : State :=
  let q := t.req clus va pa (.store bs)
  if s.mustAsk pa false then s.askUnit q else s.memDo q

/-- A run written for a transfer, whatever it covers: R113 speaks of plain stores only, and a copy's bytes that land on
an active galley record are written (log entry 27, the model's choice). The state, the stores that wait for a credit,
and the failure of a write that fails beyond replay (R105; 03_crossbar.md R61, R62). -/
def State.writeRun (s : State) (clus : Nat) (t : Transfer) (todo : List (Nat × Nat × List Byte)) (r : Run) (bs : List Byte) :
    Option (Nat × Word) × List (Nat × Nat × List Byte) × State :=
  match r with
  | .mem va pa _ _ =>
    if s.linkDown pa then (some (8, word va), todo, s.copyPoison clus t va)
    else if s.mustAsk pa false && (!todo.isEmpty || s.noCredit (shardOf clus) pa) then (none, todo ++ [(va, pa, bs)], s)
    else (none, todo, s.copyStore clus t va pa bs)
  | .vault key _ => (none, todo, { s with vault := writeBytes s.vault key bs })
  | .buf core ofs _ =>
    let k := s.core core
    (none, todo, s.setCore core { k with mx := { k.mx with
      bufs := writeBytes k.mx.bufs ofs bs
      mix := (List.range bs.length).foldl (fun m j => kset m (ofs + j) (t.id, 0)) k.mx.mix } })

/-- Bytes of a run. -/
def Run.len (r : Run) : Nat :=
  match r with
  | .mem _ _ n _ => n
  | .vault _ n => n
  | .buf _ _ n => n

/-- Two runs of one space share a byte. -/
def Run.meets (a b : Run) : Bool :=
  match a, b with
  | .mem _ p n _, .mem _ q m _ => decide (p < q + m) && decide (q < p + n)
  | .vault p n, .vault q m => decide (p < q + m) && decide (q < p + n)
  | .buf c p n, .buf d q m => decide (c = d) && decide (p < q + m) && decide (q < p + n)
  | _, _ => false

/-- The byte at a place of a run, as a run. -/
def Run.byte (r : Run) (i : Nat) : Run :=
  match r with
  | .mem _ p _ _ => .mem 0 (p + i) 1 false
  | .vault p _ => .vault (p + i) 1
  | .buf c p _ => .buf c (p + i) 1

/-- The place in a run of a byte that it covers. -/
def Run.placeOf (r b : Run) : Nat :=
  match r, b with
  | .mem _ p _ _, .mem _ q _ _ => q - p
  | .vault p _, .vault q _ => q - p
  | .buf _ p _, .buf _ q _ => q - p
  | _, _ => 0

/-- A run of a destination, the number of its first byte among the transfer's bytes, and the bytes it takes. -/
structure OutRun where
  run : Run
  ofs : Nat
  bs : List Byte
deriving DecidableEq, Repr

/-- What runs bring to one byte: the number of the byte moved there, and the byte. -/
def bytesAt (all : List OutRun) (b : Run) : List (Nat × Byte) :=
  (all.filter fun o => o.run.meets b).map fun o =>
    let i := o.run.placeOf b
    (o.ofs + i, o.bs.getD i 0)

/-- The bytes of a run of a destination as they stand once the transfer has moved all its bytes (R102; log entry 10):
free where a source covers them; where runs of the destination share a byte, that of the one performed last there. -/
def State.standing (s : State) (srcs : List Run) (all : List OutRun) (o : OutRun) : List Byte :=
  if srcs.any o.run.meets || decide (1 < (all.filter fun x => x.run.meets o.run).length) then
    ((List.range o.bs.length).zip o.bs).map fun (i, b) =>
      let at_ := o.run.byte i
      if srcs.any (Run.meets at_) then Config.freeByte s.clk.draws (o.ofs + i)
      else match bytesAt all at_ with
        | (n, x) :: xs => (((n, x) :: xs).getD (Config.performedLast s.clk.draws n % (xs.length + 1)) (n, x)).2
        | [] => b
  else o.bs

/-- Runs of a destination written one after the other, up to the first failure. -/
def State.writeAll (s : State) (clus : Nat) (t : Transfer) (srcs : List Run) (all : List OutRun)
    (todo : List (Nat × Nat × List Byte)) : List OutRun → Option (Nat × Word) × List (Nat × Nat × List Byte) × State
  | [] => (none, todo, s)
  | o :: os =>
    match s.writeRun clus t todo o.run (s.standing srcs all o) with
    | (some e, l, u) => (some e, l, u)
    | (none, l, u) => u.writeAll clus t srcs all l os

/-- The runs of a row's destination with the bytes they take; ofs is the number of the first. -/
def outRuns (ofs : Nat) : List Run → List Byte → List OutRun
  | [], _ => []
  | r :: rs, bs => ⟨r, ofs, bs.take r.len⟩ :: outRuns (ofs + r.len) rs (bs.drop r.len)

/-- The sources of rows read (R102: before any is written, so that only bytes of a destination that overlaps are
unpredictable): the bytes of the rows that could be read, with their destinations, and the first failure. -/
def State.readRows (s : State) (clus : Nat) (t : Transfer) :
    List (List Run × List Run) → (List (Nat × List Run × List Byte) × Option (Nat × Word)) × State :=
  go s 0
where
  /-- From row i on. -/
  go (s : State) (i : Nat) : List (List Run × List Run) → (List (Nat × List Run × List Byte) × Option (Nat × Word)) × State
    | [] => (([], none), s)
    | (src, dst) :: rows =>
      match s.readRow clus t src with
      | (.ok bs, u) =>
        let ((xs, f), v) := go u (i + 1) rows
        (((i, dst, bs) :: xs, f), v)
      | (.error e, u) =>
        let ((xs, _), v) := go u (i + 1) rows
        ((xs, some e), v)

/-- The located rows of a transfer moved: the failure that stopped it, with the one found in locating them, and the
stores that wait for a credit. Where it fails, the rows performed before it stopped are a free choice (R102, R105; log
entry 10). -/
def State.moveRows (s : State) (clus : Nat) (t : Transfer) (bad : Option (Nat × Word)) (rows : List (List Run × List Run)) :
    Option (Nat × Word) × List (Nat × Nat × List Byte) × State :=
  let ((got, f), u) := s.readRows clus t rows
  let fail := f.or bad
  let done := if fail.isNone then got else got.filter fun (i, _) => Config.copied s.clk.draws i
  let outs := done.flatMap fun (i, dst, bs) => outRuns (i * bs.length) dst bs
  let (g, todo, v) := u.writeAll clus t (rows.flatMap (·.1)) outs [] outs
  (fail.or g, todo, v)

/-! Galley updates of transfers (R104, R105, R114) -/

/-- The galley slot a transfer counts into: cluster, record offset and slot, when GU is set. -/
def Transfer.galley (t : Transfer) (clus : Nat) : Option (Nat × Nat × Nat) :=
  let r5 := t.regs.get 5
  if bitOf r5.toNat 7 then
    some (vaultKey clus (fld (t.regs.get 1) 0 40) / 2 ^ 24, fld r5 24 17 * 128, fld r5 44 4)
  else none

/-- What the galley unit finds of a record that a transfer with GU counts into, and of the range it writes (R105). -/
def State.copyGalleyCode (s : State) (c ofs k0 : Nat) (t : Transfer) (dst : List Run) : Option Nat :=
  let h := s.gHeader (gKey c ofs)
  if !s.gActive c ofs || gTsid h != t.tsid then some 9
  else
    let lo := gKey c (gSlotOfs h (k0 % gSlots h))
    if dst.all fun r => match r with
      | .vault key n => decide (lo ≤ key) && decide (key + n ≤ lo + gSize h)
      | _ => false
    then none else some 5

/-- The record and the range of a transfer with GU are checked before it moves (R105), once the galley unit has read the
record at its banks (04_vaults.md R71). -/
def State.copyGalleyBad (s : State) (clus : Nat) (t : Transfer) (dst : List Run) : Option Nat × State :=
  match t.galley clus with
  | none => (none, s)
  | some (c, ofs, k0) =>
    match s.engineRead clus (t.chanPlace clus) t.ctx t.kslot (gKey c ofs) 128 with
    | (none, u) => (some 8, u)
    | (some _, u) => (u.copyGalleyCode c ofs k0 t dst, u)

/-- The update of a transfer with GU: the state and its fault code, or 0. -/
def State.copyUpdate (s : State) (clus : Nat) (t : Transfer) : State × Nat :=
  match t.galley clus with
  | none => (s, 0)
  | some (c, ofs, k0) =>
    let k := k0 % gSlots (s.gHeader (gKey c ofs))
    let n := fld (t.regs.get 2) 40 16 * fld (t.regs.get 2) 24 16 * fld (t.regs.get 2) 0 24
    match s.gCycle c ofs k false none [n] 0 with
    | (u, .ok) => (u, 0)
    | (u, .fault) => (u, 7)

/-! Completing (R104 to R108) -/

/-- The state with a transfer of a cluster's channels replaced. -/
def State.setTransfer (s : State) (clus : Nat) (t : Transfer) : State :=
  s.setClus clus { s.clus clus with chans := (s.clus clus).chans.map fun x => if x.id = t.id then t else x }

/-- Requests of a transfer are at their ports, and not answered. -/
def State.copyOpen (s : State) (clus : Nat) (t : Transfer) : Bool :=
  s.xbar.outstanding.any fun (q, _) => decide (q.src = t.chanPlace clus) && decide (q.act = t.id)

/-- The reads of a transfer that have yet to be asked for at their ports: at another package, or at a port that gives no
answer. -/
def State.copyAsks (s : State) (clus : Nat) (t : Transfer) (srcs : List Run) : List PortReq :=
  srcs.filterMap fun r => match r with
    | .mem va pa n _ =>
      if s.mustAsk pa true && !s.linkDown pa &&
          (t.answered pa n).isNone then some (t.req clus va pa (.load n)) else none
    | _ => none

/-- The answer of its port to a request of a transfer (03_crossbar.md R54, R62): a failed write is the transfer's
status; it goes on when no request of its is out. -/
def State.copyAnswer (s : State) (q : PortReq) (res : RemRes) : State :=
  let clus := clusOf q.src
  match (s.clus clus).chans.find? fun t => t.chanPlace clus = q.src ∧ t.id = q.act with
  | none => s
  | some t =>
    let s := if res = .poisoned then s.copyPoison clus t (q.va.getD (word q.pa)).toNat else s
    s.setTransfer clus { t with
      rans := t.rans ++ [⟨q.pa, q.op, res⟩]
      waits := s.copyOpen clus t
      status := if t.sent && t.status == 0 then res.copyCode else t.status
      faddr := if t.sent && t.status == 0 && res.copyCode != 0 then q.va.getD (word q.pa) else t.faddr }

/-- Step 2 of R104 and the count of the bytes, once every byte has been performed; or the failure found. -/
def State.copyEnd (s : State) (clus : Nat) (t : Transfer) : State :=
  if t.status ≠ 0 then s.setTransfer clus { t with moved := true, xres := none }
  else
    let (w, c) := s.copyUpdate clus t
    let n := fld (t.regs.get 2) 40 16 * fld (t.regs.get 2) 24 16 * fld (t.regs.get 2) 0 24
    (w.count .copyBytes n t.place t.ctx t.kslot 0).setTransfer clus
      { t with moved := true, status := c, faddr := if c = 0 then 0 else t.regs.get 1, xres := none }

/-- The stores of a transfer that waited for a credit, as far as credits go (03_crossbar.md R61): each is checked as it
enters ingress (R55), and one that fails is the transfer's status. -/
def State.copyMore (s : State) (clus : Nat) (t : Transfer) : List (Nat × Nat × List Byte) → State × Transfer
  | [] => (s, { t with todo := [] })
  | (va, pa, bs) :: ws =>
    let bad (u : State) (code : Nat) : State × Transfer :=
      u.copyMore clus { t with status := if t.status = 0 then code else t.status,
                               faddr := if t.status = 0 then word va else t.faddr } ws
    if (s.portRefusal (shardOf clus) pa).isSome then bad s 4
    else if s.linkDown pa then bad (s.copyPoison clus t va) 8
    else if s.mustAsk pa false && s.noCredit (shardOf clus) pa then (s, { t with todo := (va, pa, bs) :: ws })
    else (s.copyStore clus t va pa bs).copyMore clus t ws

/-- A transfer whose bytes are written, but for stores that wait for a credit and for answers that are out: it goes on
to its end when neither is left. -/
def State.copySent (s : State) (clus : Nat) (t : Transfer) : State :=
  let (u, t) := s.copyMore clus t t.todo
  if !t.todo.isEmpty then u.setTransfer clus t
  else if u.copyOpen clus t then u.setTransfer clus { t with waits := true }
  else u.copyEnd clus t

/-- Steps 1 and 2 of R104: every byte performed and the galley update applied, or the failure found. What must be asked
for at a port waits for its answer (03_crossbar.md R51, R61 to R63). -/
def State.moveTransfer (s : State) (clus : Nat) (t : Transfer) : State :=
  let r5 := t.regs.get 5
  let fail (u : State) (code : Nat) (a : Word) : State :=
    u.setTransfer clus { t with moved := true, status := code, faddr := a, xres := none }
  if t.sent then s.copySent clus t
  else match s.copyLocate clus t (fld r5 0 2) (fld r5 2 2) 0 (copyRows t) with
  | .wait u => u
  | .fail c a => fail s c a
  | .ok (rows, bad) u =>
    match u.copyGalleyBad clus t (rows.flatMap (·.2)) with
    | (some c, u) => fail u c (t.regs.get 1)
    | (none, u) =>
      match u.copyAsks clus t (rows.flatMap (·.1)) with
      | q :: qs =>
        let v := (q :: qs).foldl State.askOnce u
        v.setTransfer clus { t with waits := v.copyOpen clus t }
      | [] =>
        let (f, todo, v) := u.moveRows clus t bad rows
        let v := { v with clk := { v.clk with draws := v.clk.draws + 1 } }
        match f with
        | some (c, a) => fail v c a
        | none => v.copySent clus { t with sent := true, todo := todo }

/-- An event-queue record (R106). -/
def Transfer.record (t : Transfer) : Word × Word :=
  (t.regs.get 6, word (t.id + t.place * 2 ^ 16 + t.status * 2 ^ 32 + t.kslot * 2 ^ 40))

/-- The weight withheld for an activation returned once its last transfer is done (R108). -/
def State.releaseWithheld (s : State) (clus act : Nat) : State :=
  let c := s.clus clus
  if c.flightsOf act ≠ 0 then s
  else
    let t := s.setClus clus { c with withheld := c.withheld.filter fun w => w.act ≠ act }
    ((c.withheld.filter fun w => w.act = act).foldl (fun u w => u.returnWeight clus w.ctx w.kslot w.hpkg w.wt) t).releaseWaits
      clus fun _ => false

/-- The last steps of a transfer: its record, its fault log entry, its token and its share of weight (R104, R105, R108,
R257); its cluster may be idle from now on (17_scheduling_and_power.md R339); a failure after its activation's END is
reported (18_faults_and_preemption.md R345). -/
def State.finishTransfer (s : State) (clus : Nat) (t : Transfer) : State :=
  let c := s.clus clus
  let rec_ := bitOf (t.regs.get 5).toNat 4 || decide (t.status ≠ 0)
  let ended := c.withheld.any fun w => w.act = t.act
  let u := s.setClus clus { c with
    chans := c.chans.filter fun x => x.id ≠ t.id
    kept := keepNewest 256 ((t.id, t.status) :: c.kept)
    evq := if rec_ then c.evq ++ [t.record] else c.evq
    notices := if rec_ then c.notices + 1 else c.notices
    flog := if t.status = 0 then c.flog else c.flog ++ [(t.id, t.status)]
    idleSince := s.dieClock (clus / 64) }
  let v := if rec_ then u.wakeCore (coreIn clus 8) else u
  let v := if ended ∧ t.status ≠ 0 then v.report t.ctx t.kslot 0x10 t.faddr t.place else v
  let w := v.settleClusTokens clus fun src => match src with
    | .copy id => if id = t.id then some (if t.status = 0 then none else some t.status) else none
    | _ => none
  w.releaseWithheld clus t.act

/-- TRANSFER_COMPLETE (R104): a transfer of a channel moves its bytes, or waits for a translation; once moved it
completes when the event queue has room for its record. -/
def execTransferComplete (clus id : Nat) (s : State) : Out :=
  let c := s.clus clus
  .next (match c.chans.find? (fun t => t.id = id) with
  | none => s
  | some t =>
    if c.frozen || t.waits || s.fw.halted then s
    else
      let u := if t.moved then s else s.moveTransfer clus t
      match (u.clus clus).chans.find? (fun t => t.id = id) with
      | none => u
      | some t' =>
        if !t'.moved then u
        else if (bitOf (t'.regs.get 5).toNat 4 || decide (t'.status ≠ 0)) &&
            decide (256 ≤ (u.clus clus).evq.length) then u
        else u.finishTransfer clus t')

/-- GALLEY_UPDATE (R114, R115): the events of one cycle that reach a slot of an active record. -/
def execGalleyUpdate (clus ofs k : Nat) (release : Bool) (exp : Option (Nat × Nat)) (bytes : List Nat) (arrivals : Nat)
    (s : State) : Out :=
  let h := s.gHeader (gKey clus ofs)
  let expBad := match exp with
    | some (a, b) => decide (63 < a) || decide (gSize h < b) || decide (a + b = 0)
    | none => false
  .next (if s.gActive clus ofs && decide (k < gSlots h) &&
      !expBad then (s.gCycle clus ofs k release exp bytes arrivals).1
    else s)

end Sys2Proof.Machine
end

