-- ==== Sys2Proof/Machine/Crossbar.lean ====
section
/-!
DEFINITION. Requests at the crossbar's ports, connection rows, guaranteed minima, memory ports in and out of service
(02_main_memory.md R33; 03_crossbar.md R50 to R63), shard-cache fills (04_vaults.md R65), remote accesses at an owning
core and returned tagged requests (04_vaults.md R72 to R77). A slot's and an engine's own accesses are performed where
they are issued (log entry 6), but for those their port holds; these events carry the requests of every port as they
stand in the crossbar.
-/

namespace Sys2Proof.Machine

/-! Signed records (19_tenants_and_metering.md R366; 03_crossbar.md R57) -/

/-- A record of eight words: its 64 bytes, then, where the device has its attestation key, the signature over them. -/
def State.signedRecord (s : State) (ws : List Nat) : List Byte :=
  let b := ws.flatMap fun w => leBytes 8 w
  if s.fw.key then b ++ (Config.sign b).toList else b

/-- The next sequence number of a partition, and the metering unit that has used it (R366). -/
def Meter.nextSeq (m : Meter) (part : Nat) : Nat × Meter :=
  let n := kget 0 m.seqs part + 1
  (n, { m with seqs := kset m.seqs part n })

/-- An entry of the monitor's event log. -/
def State.log (s : State) (ws : List Nat) : State := { s with host := { s.host with log := s.host.log ++ [ws] } }

/-! Ingress (R54, R61) -/

/-- The sub-port of the host a row is. -/
def hostFn (row : Nat) : Option Nat := if 32 ≤ row ∧ row < 96 then some (row - 32) else none
/-- The Odnerlink port a row belongs to. -/
def linkPort (row : Nat) : Option Nat := if 96 ≤ row ∧ row < 384 then some ((row - 96) / 24) else none

/-- A bit of a function's uncorrectable error status set (21_host_firmware_security.md R382; log entry 53): 20 for an
unsupported request, 12 for poison. -/
def State.aerSet (s : State) (fn bit : Nat) : State :=
  { s with host := { s.host with aer := kset s.host.aer fn (sinsert (kget [] s.host.aer fn) bit) } }

/-- A source has used up its credits at the port of an address: 256 at a memory-side port (R61), and 768 non-posted
requests of all sources at the host (21_host_firmware_security.md R382). -/
def State.spent (s : State) (row pa : Nat) : Bool :=
  s.noCredit row pa ||
    (tgtOf pa == 24 && decide (768 ≤ s.xbar.outstanding.countP fun (q, _) => tgtOf q.pa == 24))

/-- A posted request that is refused is discarded: one of the host is counted for its virtual function and logged, one
of another package goes back there as a refusal flit (R54). -/
def State.refusePosted (s : State) (q : PortReq) : State :=
  match hostFn q.row, linkPort q.row with
  | some f, _ =>
    { s.aerSet f 20 with xbar := { s.xbar with refusedCnt := kset s.xbar.refusedCnt f (kget 0 s.xbar.refusedCnt f + 1) } }.log
      [54, f, q.pa]
  | none, some p => s.answerFlit p q (.memRefuse q.tag)
  | none, none => s

/-- Two attempts of one request: the same source and tag at one port (R61). -/
def sameReq (p q : PortReq) : Bool := decide (p.row = q.row) && decide (p.tag = q.tag) &&
    decide (tgtOf p.pa = tgtOf q.pa)

/-- A request enters the crossbar (R54): one beyond its source's credits (R61), or at a port whose ingress is stopped
(21_host_firmware_security.md R395), stays with its requester. R61 does not say whether a posted request, which awaits
no response, takes a credit: here it takes none, is given no response and is never issued again (log entry 46, the
model's choice). A reissue that another package sends on is no new request. -/
def State.enterPort (s : State) (q : PortReq) : State :=
  if s.fw.halted && decide (q.row < 96) then s
  else if !rowAllows (s.row q.row) (tgtOf q.pa) then
    if q.posted then s.refusePosted q else { s with xbar := { s.xbar with refusals := s.xbar.refusals ++ [q] } }
  else if q.posted || (q.replay && s.xbar.outstanding.any fun y => sameReq y.1 q) then
    { s with xbar := { s.xbar with reqs := s.xbar.reqs ++ [q] } }
  else if s.spent q.row q.pa then s
  else { s with xbar := { s.xbar with
      reqs := s.xbar.reqs ++ [q]
      outstanding := s.xbar.outstanding ++ [(q, s.rowClock q.row)] } }

/-- CROSSBAR_INGRESS (R54). -/
def execCrossbarIngress (q : PortReq) (s : State) : Out := .next (s.enterPort q)

/-! Responses (R54, R58, R59, R61 to R63) -/

/-- A request of a unit beside the crossbar's requesters, which awaits no answer: a feeder or the hub. -/
def isUnitReq (q : PortReq) : Bool := decide (q.row = 384) && (decide (q.src = 65536) || (feederOf q.src).isSome)

/-- The trap cause of a slot whose request ends without data. -/
def RemRes.cause (r : RemRes) : Nat :=
  match r with
  | .refused => 7
  | _ => 5

/-- The feed fault of such a request (05_feeders.md R97). -/
def RemRes.feedCode (r : RemRes) : Nat :=
  match r with
  | .refused => 7
  | .poisoned => 0x11
  | _ => 8

/-- The completion of such a request (R54; 18_faults_and_preemption.md R344). -/
def RemRes.compl (r : RemRes) : ComplSt :=
  match r with
  | .data _ => .good
  | .refused => .unsupported
  | .poisoned => .poisoned
  | .addressError => .addressError

/-- Its data. -/
def RemRes.bytes (r : RemRes) : List Byte :=
  match r with
  | .data bs => bs
  | _ => []

/-- The address TVAL holds for a request: its virtual address, or its device physical address where it had none (R54).
-/
def reqAddr (q : PortReq) : Word := q.va.getD (word q.pa)

/-- A request of a slot fails with a cause: a store or reduction of an activation that has gone on traps it before its
next head, wherever it is, or is reported when it has ended (R187, R345); any other traps at the head that made it. -/
def State.slotFailed (s : State) (q : PortReq) (r : RemRes) : State :=
  let p : Piece := ⟨(reqAddr q), false, q.pa, portBytes q.op, false⟩
  let poison := r == .poisoned
  let tv := if poison then poisonTval (reqAddr q) else (reqAddr q)
  let t := s.addDelay (coreOf q.src) (if r = .refused then 63 else lacIndex p)
  let t := if poison then t.logError q.src 5 (reqAddr q) else t
  let late := match q.op with
    | .red .. => true
    | _ => !(t.slot q.src).made q
  if late then t.redFailed q r.cause tv else t.trapIn q.src r.cause tv poison

/-- The slot with an answer, going on if it waits for one. -/
def Slot.gotAnswer (sl : Slot) (a : RemAns) : Slot :=
  { sl with rans := sl.rans ++ [a], park := if sl.park = .remote then .run else sl.park }

/-- An answer given to the activation that asked, where it is, live or spilled; none where it has ended. -/
def State.slotAnswer (s : State) (q : PortReq) (res : RemRes) : State :=
  let a := s.save q.ctx (clusOf q.src)
  let put (sl : Slot) : Slot := sl.gotAnswer ⟨q.pa, q.op, res⟩
  if (s.slot q.src).made q then s.setSlot q.src (put (s.slot q.src))
  else if (kget {} a.slots q.src).made q then
    s.setSave q.ctx (clusOf q.src) { a with slots := kset a.slots q.src (put (kget {} a.slots q.src)) }
  else s

/-- The answer to a request of a core: of its prefetch engine, which takes the line or drops it; of its network
interface, of which only poison counts, for the error log (18_faults_and_preemption.md R344); of a slot, where a
reduction, whose head has gone on, has its delay or its failure (09_memory_instructions.md R187), and any other access
is answered to the head that waits for it. -/
def State.coreAnswer (s : State) (q : PortReq) (r : RemRes) : State :=
  match prefetchOf q.src, ifaceOf q.src with
  | some core, _ => s.setCore core { s.core core with pans := some ⟨q.pa, q.op, r⟩ }
  | _, some core => if r = .poisoned then s.logAt (core / 16) (core * 8) 5 (reqAddr q) else s
  | none, none =>
    if isPortRed q.op then
      match r with
      | .data _ => s.addDelay (coreOf q.src) (lacIndex ⟨0, false, q.pa, 1, false⟩)
      | _ => s.slotFailed q r
    else s.slotAnswer q r

/-- How a request ends, at its requester (R54; 02_main_memory.md R32; 18_faults_and_preemption.md R344). R54 gives no
effect of a refusal for a firmware complex and for the debug port: they get a completion as the host does (log entry 46,
the model's choice). -/
def State.finish (s : State) (q : PortReq) (r : RemRes) : State :=
  match linkPort q.row with
  | some p => s.answerFlit p q (match r with
    | .data bs => .memResp q.tag bs
    | .poisoned => .memPoison q.tag
    | .addressError => .memError q.tag
    | .refused => .memRefuse q.tag)
  | none =>
    if isUnitReq q then
      match feederOf q.src with
      | some f => s.feedAnswer f q r.feedCode
      | none => s
    else if 32 ≤ q.row then
      let t := match hostFn q.row, r with
        | some f, .refused => s.aerSet f 20
        | some f, .poisoned => s.aerSet f 12
        | _, _ => s
      { t with host := { t.host with completions := t.host.completions ++ [⟨q.row, q.tag, r.compl, r.bytes⟩] } }
    else if isSlot q.src || decide (2 ^ 17 ≤ q.src) then s.coreAnswer q r
    else s.copyAnswer q r

/-- A request is no longer outstanding. -/
def Xbar.settled (x : Xbar) (q : PortReq) : Xbar :=
    { x with outstanding := x.outstanding.filter fun y => !sameReq y.1 q }

/-- REFUSAL_RESPONSE (R54). -/
def execRefusalResponse (i : Nat) (s : State) : Out :=
  .next (match s.xbar.refusals[i]? with
  | some q => { s with xbar := { s.xbar with refusals := s.xbar.refusals.eraseIdx i }.settled q }.finish q .refused
  | none => s)

/-- What a response brings. -/
def PortResp.res (r : PortResp) : RemRes :=
  if r.addrError then .addressError else if r.poison then .poisoned else .data r.data

/-- RESPONSE_ARRIVAL (R58, R59, R61 to R63): a response whose request is answered already is discarded; a hold response
restarts the requester's timeout and its count of reissues. -/
def execResponseArrival (i : Nat) (s : State) : Out :=
  .next (match s.xbar.resps[i]? with
  | none => s
  | some r =>
    let q := r.req
    let x := { s.xbar with resps := s.xbar.resps.eraseIdx i }
    if !x.outstanding.any (fun y => sameReq y.1 q) then { s with xbar := x }
    else if r.hold && (linkPort q.row).isSome then { s with xbar := x }.answerFlit ((linkPort q.row).getD 0) q (.memHold q.tag)
    else if r.hold then
      let again (y : PortReq × Nat) : PortReq × Nat :=
          if sameReq y.1 q then ({ y.1 with reissues := 0 }, s.rowClock q.row) else y
      { s with xbar := { x with outstanding := x.outstanding.map again } }
    else { s with xbar := x.settled q }.finish q r.res)

/-! Memory-side ports (R60 to R63) -/

/-- The state without a request past ingress. -/
def State.dropPortReq (s : State) (i : Nat) : State := { s with xbar := { s.xbar with reqs := s.xbar.reqs.eraseIdx i } }

/-- A response put on its way. -/
def State.answerPort (s : State) (q : PortReq) (data : List Byte) (poison hold addrError : Bool) : State :=
  if q.posted then s
  else { s with xbar := { s.xbar with resps := s.xbar.resps ++ [⟨q, data, poison, hold, addrError⟩] } }

/-- The bytes of a store cut at lines. -/
def lineCut (pa : Nat) (bs : List Byte) : List (Nat × List Byte) :=
  (linesOf pa bs.length).map fun l =>
    let a := max pa (64 * l)
    (a, (bs.drop (a - pa)).take (64 * l + 64 - a))

/-- A request as its port takes it, by line (R60): a store of more than one line is one of each, and the last of them is
the one answered. -/
def lineReqs (q : PortReq) : List PortReq :=
  match q.op with
  | .store bs =>
    let cut := lineCut q.pa bs
    ((List.range cut.length).zip cut).map fun (i, a, b) =>
      { q with pa := a, op := .store b, posted := q.posted || decide (i + 1 ≠ cut.length) }
  | _ => [q]

/-- A request of one line performed at its memory port, or held there (R60, R63). -/
def State.takeReq (s : State) (q : PortReq) : State :=
  if !isPortLoad q.op && s.xbar.busy (tgtOf q.pa) then { s with xbar := { s.xbar with ingress := s.xbar.ingress ++ [q] } }
  else s.portDo q

/-- A request performed at its port, or held there (R60, R63); in configuration space a register is read or written (log
entry 45); one for another package is sent to it (R51). -/
def State.performPort (s : State) (q : PortReq) : State :=
  let t := tgtOf q.pa
  if t < 24 then (lineReqs q).foldl State.takeReq s
  else if t = 24 then s.portDo q
  else if isRemote q.pa then if s.linkDown q.pa then s.answerPort q [] true false false else s.askRemote q
  else match q.op with
    | .load n => { s with xbar := s.xbar.respond q (s.cfgRead (ofsOf q.pa) n) }
    | .store bs => { s.cfgWrite (ofsOf q.pa) bs with xbar := s.xbar.respond q [] }
    | _ => s.answerPort q (s.freeBytes (portBytes q.op)) false false false

/-- A request is applied, and not answered yet: in a write queue. -/
def State.pendingReq (s : State) (q : PortReq) : Bool := s.xbar.wq.any fun e => e.asked.any (sameReq · q)

/-- A request is in its port's replay filter (R61). -/
def State.appliedReq (s : State) (q : PortReq) : Bool :=
  s.xbar.applied.any fun a => decide (a.port = tgtOf q.pa) && decide (a.row = q.row) && decide (a.tag = q.tag)

/-- A request of this package that an Odnerlink port has sent to another one, and that is not answered yet. -/
def State.sentReq (s : State) (q : PortReq) : Option RemReq := (s.link (portTo q.pa)).asked.find? fun r => sameReq r.q q

/-- A request at its port (R32, R61, R63): a reissue of one the port has applied is answered from its filter, of one it
holds with a hold response, and of one pending there not at all, since the original is answered; a reissue for another
package is sent there with its tag and the replay bit. -/
def State.atPort (s : State) (q : PortReq) : State :=
  let port := tgtOf q.pa
  if port < 24 ∧ 2 ^ 39 ≤ ofsOf q.pa then s.answerPort q [] false false true
  else if !q.replay then s.performPort q
  else match s.xbar.applied.find? (fun a => a.port = port ∧ a.row = q.row ∧ a.tag = q.tag) with
    | some a => s.answerPort q a.data false false false
    | none =>
      if s.xbar.ingress.any (sameReq · q) then s.answerPort q [] false true false
      else if s.pendingReq q then s
      else match if isRemote q.pa && !s.linkDown q.pa then s.sentReq q else none with
        | some r => s.sendFlit (portTo q.pa) (.memReq (s.remoteReq r.q r.tag true))
        | none => s.performPort q

/-- MEMORY_PORT_REQUEST (R60, R61, R63): attempts of one request are taken in order, so that a reissue never passes its
original; a port that answers nothing (log entry 52) takes the request and is silent. -/
def execMemoryPortRequest (i : Nat) (s : State) : Out :=
  .next (match s.xbar.reqs[i]? with
  | none => s
  | some q =>
    if (s.xbar.reqs.take i).any fun p => sameReq p q && !p.posted && !q.posted then s
    else if s.xbar.silent.contains (tgtOf q.pa) then s.dropPortReq i
    else (s.dropPortReq i).atPort q)

/-- An Odnerlink port no longer awaits the answer to a request. -/
def State.forgetSent (s : State) (q : PortReq) : State :=
  if isRemote q.pa then
    let l := s.link (portTo q.pa)
    s.setLink (portTo q.pa) { l with asked := l.asked.filter fun r => !sameReq r.q q }
  else s

/-- REQUEST_TIMEOUT (R55, R61, R62): reissued up to eight times, each checked at ingress as a new request is, then
poisoned, with the port's log entry. -/
def execRequestTimeout (i : Nat) (s : State) : Out :=
  .next (match s.xbar.outstanding[i]? with
  | none => s
  | some (q, since) =>
    if s.rowClock q.row < since + 4096 ∨ (s.fw.halted = true ∧ q.row < 96) then s
    else if q.reissues < 8 then
      let q' := { q with replay := true, reissues := q.reissues + 1 }
      let x := { s.xbar with outstanding := s.xbar.outstanding.set i (q', s.rowClock q.row) }
      { s with xbar := if rowAllows (s.row q.row) (tgtOf q.pa) then { x with reqs := x.reqs ++ [q'] }
                       else { x with refusals := x.refusals ++ [q'] } }
    else
      let t := { s with xbar := { s.xbar with
        outstanding := s.xbar.outstanding.eraseIdx i
        unresolved := s.xbar.unresolved ++ [(tgtOf q.pa, q.tag, s.appliedReq q)] } }
      (t.forgetSent q).finish q .poisoned)

/-- Held requests that none held before them keeps back: no earlier one is of the same source, and none touches a line
of theirs, so that each line's requests are performed in arrival order (R60, R63; 16_ordering.md R310; log entry
23). -/
def freeHeld : List PortReq → List PortReq → List PortReq
  | _, [] => []
  | before, q :: qs =>
    let kept := before.any fun p => decide (p.row = q.row) || (linesOf q.pa (portBytes q.op)).any (reqTouches p)
    if kept then freeHeld (before ++ [q]) qs else q :: freeHeld (before ++ [q]) qs

/-- The held request of a port that enters its write queue next: sources in turn after the last served (R63). -/
def Xbar.nextHeld (x : Xbar) (port : Nat) : Option PortReq :=
  let mine := freeHeld [] (x.ingress.filter fun q => tgtOf q.pa = port)
  let last := kget 0 x.lastSrc port
  let rank (q : PortReq) : Nat := (q.row + 387 - last - 1) % 387
  mine.foldl (fun best q => match best with
    | none => some q
    | some b => if rank q < rank b then some q else some b) none

/-- WRITE_QUEUE_DRAIN (R63): the oldest entry of a port's queue is applied to the array, and a waiting request takes
the freed entry. -/
def execWriteQueueDrain (port : Nat) (s : State) : Out :=
  let t := s.drainOne port
  .next (match t.xbar.nextHeld port with
  | none => t
  | some q =>
    if 256 ≤ t.xbar.queued port then t
    else
      { t with xbar := { t.xbar with
        ingress := t.xbar.ingress.erase q, lastSrc := kset t.xbar.lastSrc port q.row } }.portDo q)

/-- SHARD_CACHE_FILL (04_vaults.md R65): allocated unless it was invalidated in flight. -/
def execShardCacheFill (i : Nat) (s : State) : Out :=
  .next (match s.xbar.fills[i]? with
  | none => s
  | some f =>
    let x := { s.xbar with fills := s.xbar.fills.eraseIdx i }
    { s with xbar := if f.stale then x else x.allocate f.shard f.line })

/-! Connection rows (R52, R53) -/

/-- The partition the row of a sub-port must have, if it is one (R53). -/
def State.rowOwner (s : State) (row : Nat) : Option Nat :=
  match hostFn row, linkPort row with
  | some f, _ => some (fld (s.reg (.vfcfg f)) 8 5)
  | none, some _ => some ((row - 96) % 24)
  | none, none => none

/-- A row write is discarded with the matrix error status (R52, R53). -/
def State.rowBad (s : State) (row : Nat) (v : Word) : Bool :=
  let part := rowPart v
  let bits := (List.range 24).filter fun t => bitOf v.toNat t
  decide (fld v 45 19 ≠ 0) || decide (fld v 38 2 ≠ 0) || (decide (24 ≤ part) && decide (part ≠ 31)) ||
    bits.any (fun t => s.xbar.rows.any (fun (k, w) => decide (k ≠ row) && decide (rowPart w ≠ part) &&
        bitOf w.toNat t)) ||
    bits.any s.xbar.outOfService.contains ||
    (bitOf v.toNat 37 && decide (row ≠ 386)) ||
    (decide (part = 31) && decide (fld v 0 38 ≠ 0)) ||
    (s.rowOwner row).any (· != part)

/-- A shard's cache emptied before it moves to another partition (04_vaults.md R65). -/
def Xbar.emptyShard (x : Xbar) (shard : Nat) : Xbar :=
  { x with
    caches := x.caches.filter fun c => c.1 ≠ shard
    fills := x.fills.map fun f => if f.shard = shard then { f with stale := true } else f }

/-- CONNECTION_ROW_WRITE (R52, R53): by the monitor; the firmware rows ignore it. -/
def execConnectionRowWrite (row : Nat) (v : Word) (s : State) : Out :=
  .next (if row = 384 ∨ row = 385 ∨ 387 ≤ row then s
    else if s.rowBad row v then { s with xbar := { s.xbar with matrixErr := true } }
    else
      let x := if row < 32 ∧ rowPart v ≠ rowPart (s.row row) then s.xbar.emptyShard row else s.xbar
      { s with xbar := { x with rows := kset x.rows row v } })

/-! Minima (R56, R57) -/

/-- Capacity of a partition in cluster-slots. -/
def State.sliceCap (s : State) (part : Nat) : Nat :=
  1024 * ((List.range 512).countP fun c => decide (s.partOfClus c = part) && !s.xbar.retired.contains c)

/-- Capacity of a partition in GB/s. -/
def State.bwCap (s : State) (part : Nat) : Nat :=
  448 * ((List.range 24).countP fun t => decide (s.partOfPort t = part) && !s.xbar.outOfService.contains t)

/-- The virtual functions of a partition. -/
def State.fnsOf (s : State) (part : Nat) : List Nat := (List.range 64).filter fun v => fld (s.reg (.vfcfg v)) 8 5 = part

/-- A minimum of a virtual function: in cluster-slots, or in GB/s. -/
def State.minimum (s : State) (slice : Bool) (v : Nat) : Nat :=
  if slice then fld (s.reg (.vfcfg v)) 32 16 else fld (s.reg (.vfcfg v)) 48 16

/-- The capacity of a kind. -/
def State.capacity (s : State) (slice : Bool) (part : Nat) : Nat := if slice then s.sliceCap part else s.bwCap part

/-- The state with a minimum replaced. -/
def State.setMinimum (s : State) (slice : Bool) (v m : Nat) : State :=
  s.setReg (.vfcfg v) (putFld (s.reg (.vfcfg v)) (if slice then 32 else 48) 16 m)

/-- The sum of a partition's minima of a kind. -/
def State.minSum (s : State) (slice : Bool) (part : Nat) : Nat := ((s.fnsOf part).map (s.minimum slice)).sum

/-- Minima that exceed a partition's capacity (R56). -/
def State.minBad (s : State) (part : Nat) : Bool :=
  decide (s.capacity true part < s.minSum true part) || decide (s.capacity false part < s.minSum false part)

/-- MINIMA_WRITE (R56). -/
def execMinimaWrite (vf slices bw : Nat) (s : State) : Out :=
  let t := (s.setMinimum true vf slices).setMinimum false vf bw
  .next (if 64 ≤ vf ∨ 65536 ≤ slices ∨ 65536 ≤ bw ∨ t.minBad (fld (s.reg (.vfcfg vf)) 8 5) = true then
      { s with xbar := { s.xbar with minErr := true } }
    else t)

/-- A partition's minima of a kind reduced where its capacity is below their sum (R57): a signed event for each
function whose minimum was reduced, then the host's interrupt. R366 gives the details of such an event offsets 8 to 47
of the record and no order there: word 1 holds the kind and the sequence number, words 2 to 5 hold S, C, the old and
the new minimum (log entry 46, the model's choice). A device without its attestation key signs none, and uses up no
sequence number (R366). -/
def State.reduceMinima (s : State) (slice : Bool) (part : Nat) : State :=
  let c := s.capacity slice part
  let sum := s.minSum slice part
  if sum ≤ c then s
  else
    let one (t : State) (v : Nat) : State :=
      let m := s.minimum slice v
      let t := t.setMinimum slice v (m * c / sum)
      if !t.fw.key then t else
      let (n, mt) := t.meter.nextSeq part
      let t := { t with meter := mt }
      t.log ((t.signedRecord [2 + 1 * 2 ^ 8 + part * 2 ^ 16 + v * 2 ^ 24 + boolCode t.meter.gap * 2 ^ 32,
        boolCode (!slice) + n * 2 ^ 8, sum, c, m, m * c / sum, 0, 0]).map (·.toNat))
    ((s.fnsOf part).foldl one s).irq 64 0 [57, part, boolCode (!slice), sum, c]

/-- A memory port removed from every row (02_main_memory.md R33). -/
def State.portOut (s : State) (port : Nat) : State :=
  { s with xbar := { s.xbar with
      outOfService := sinsert s.xbar.outOfService port
      rows := s.xbar.rows.map fun (k, w) => (k, w &&& ~~~(word (2 ^ port))) } }

/-- A memory port leaves service, and its partition's bandwidth minima follow (R57). -/
def State.losePort (s : State) (port : Nat) : State :=
  let part := s.partOfPort port
  if part < 24 then (s.portOut port).reduceMinima false part else s.portOut port

/-- A cluster is retired, and its partition's slice minima follow (R57). -/
def State.loseCluster (s : State) (clus : Nat) : State :=
  let part := s.partOfClus clus
  let t := { s with xbar := { s.xbar with retired := sinsert s.xbar.retired clus } }
  if part < 24 then t.reduceMinima true part else t

/-- PORT_OUT_OF_SERVICE (R57; 02_main_memory.md R33). -/
def execPortOutOfService (port : Nat) (s : State) : Out := .next (if port < 24 then s.losePort port else s)

/-- PORT_RETURN_TO_SERVICE (02_main_memory.md R33): the rows stay as they are until the monitor writes them. -/
def execPortReturnToService (port : Nat) (s : State) : Out :=
  .next { s with xbar := { s.xbar with outOfService := sremove s.xbar.outOfService port } }

/-! Vault accesses from another cluster (04_vaults.md R72 to R75) -/

/-- Permissions an access needs (R74). -/
def vaultNeed (op : VaultOp) : WinNeed :=
  match op with
  | .load _ => ⟨true, false, false⟩
  | .store _ => ⟨false, true, false⟩
  | .tagRead => ⟨true, false, false⟩
  | .tagWrite _ _ => ⟨false, true, false⟩
  | .atomic _ _ _ => ⟨true, true, true⟩

/-- Bytes an access touches. -/
def vaultBytes (op : VaultOp) : Nat :=
  match op with
  | .load n => n
  | .store bs => bs.length
  | .tagRead => 8
  | .tagWrite _ _ => 8
  | .atomic _ d8 _ => atomBytes d8

/-- An access reads its word at the bank (04_vaults.md R71). -/
def vaultReads (op : VaultOp) : Bool :=
  match op with
  | .store _ => false
  | .tagWrite _ _ => false
  | _ => true

/-- An admitted access performed at its bank. -/
def State.vaultPerform (s : State) (key : Nat) (op : VaultOp) : State :=
  match op with
  | .load _ => s
  | .store bs => { s with vault := writeBytes s.vault key bs }
  | .tagRead => s
  | .tagWrite d full => ((match d with | some w => s.putWord key w | none => s).setTag key full).tagChanged (key / 2 ^ 24)
  | .atomic op d8 c =>
    let n := atomBytes d8
    { s with vault := writeBytes s.vault key (leBytes n (amoNew op d8 (leNat (readBytes s.vault key n)) c)) }

/-- An admitted access of a slot at its bank: a store into an active galley's record is discarded and traps
(06_copy_and_galleys.md R113); a poisoned read traps (18_faults_and_preemption.md R344). -/
def State.vaultServe (s : State) (src : Nat) (p : Piece) (op : VaultOp) : State :=
  let sl := s.slot src
  let got (t : State) : State := t.addDelay (coreOf src) (lacIndex p)
  if !vaultReads op then
    if (match op with | .store _ => s.inGalley p.at_ p.n | _ => false) then (got s).trapIn src 0x0F p.tval false
    else (got s).vaultPerform p.at_ op
  else match s.vaultRead p.at_ p.n sl.ctx sl.kslot sl.pc p.tval with
    | (true, t) => ((got t).logError src 5 p.tval).trapIn src 5 (poisonTval p.tval) true
    | (false, t) => (got t).vaultPerform p.at_ op

/-- REMOTE_VAULT_ACCESS (R68, R72): a request of a slot at the core that owns the addressed share; a refusal traps the
sender, and leaves the owner as it was. -/
def execRemoteVaultAccess (src : Nat) (va : Word) (op : VaultOp) (s : State) : Out :=
  let sl := s.slot src
  .next (if !isSlot src || !sl.occ then s
    else match vaultOperand va 0 (vaultBytes op) (vaultBytes op) with
      | .bad c tv => s.trapIn src c tv false
      | .ok a =>
        let key := vaultKey (clusOf src) a
        match s.vaultRefusal (clusOf src) sl.ctx key (vaultNeed op) with
        | some c => (s.addDelay (coreOf src) 63).trapIn src c (word a) false
        | none => s.vaultServe src ⟨word a, true, key, vaultBytes op, false⟩ op)

/-- TAGGED_REQUEST_REISSUE (R77): after 64 cycles a returned request is offered to its bank again, behind the others. -/
def execTaggedRequestReissue (clus i : Nat) (s : State) : Out :=
  let c := s.clus clus
  .next (match c.held[i]? with
  | some h =>
    if !h.returned || decide (s.dieClock (clus / 64) < h.since + 64) then s
    else (s.setClus clus { c with held := c.held.eraseIdx i }).offer clus h
  | none => s)

end Sys2Proof.Machine
end

