-- ==== Sys2Proof/Machine/Switch.lean ====
section
/-!
DEFINITION. Slice ends, saving and restoring a context on a cluster (18_faults_and_preemption.md R347 to R354;
11_matrix_unit.md R222; 05_feeders.md R99; 07_instruction_lines.md R135; 13_handlers_and_messages.md R259, R433). The
bytes of a save area are the monitor's; State.saved holds what they mean.
-/

namespace Sys2Proof.Machine

/-! Vault allocations (R347, R353) -/

/-- The vault offsets of a context's allocation, from the first up to the second. -/
def State.alloc (s : State) (ctx : Nat) : Nat × Nat :=
  let v := s.reg (.valloc ctx)
  (fld v 0 8 * 65536, (fld v 8 8 + 1) * 65536)

/-- What two ranges share. -/
def rangeMeet (a b : Nat × Nat) : Nat × Nat := (max a.1 b.1, min a.2 b.2)

/-- Bytes of a range. -/
def rangeLen (r : Nat × Nat) : Nat := r.2 - r.1

/-- The offset of a vault key of a cluster, when it lies in a range. -/
def inRange (clus : Nat) (r : Nat × Nat) (key : Nat) : Bool :=
  decide (clus * 2 ^ 24 + r.1 ≤ key) && decide (key < clus * 2 ^ 24 + r.2)

/-- A range of a cluster's vault read at its banks by a save (04_vaults.md R71): single-bit errors are corrected and
counted; the words with a double-bit error, by offset / 8, are logged as poisoned (18_faults_and_preemption.md R344). -/
def State.bankSweep (s : State) (clus : Nat) (r : Nat × Nat) : List Nat × State :=
  let hit := s.flaws.filter fun (w, _) => inRange clus r (w * 8)
  let single := (hit.filter fun e => !e.2).map (·.1)
  let bad := (hit.filter (·.2)).map (·.1)
  let c := s.clus clus
  let t := { s.setClus clus { c with eccCount := c.eccCount + single.length } with flaws := single.foldl kdel s.flaws }
  (bad.map (· - clus * 2 ^ 21), bad.foldl (fun u w => u.logAt clus (coreIn clus 8 * 8) 5 (vaultAddr (w * 8))) t)

/-- The save area with a range of a cluster's vault and its tags; a word with a double-bit error stays one in the save
area (log entry 52, the model's choice). -/
def State.saveVault (s : State) (ctx clus : Nat) (r : Nat × Nat) : State :=
  let a := s.save ctx clus
  let (bad, t) := s.bankSweep clus r
  t.setSave ctx clus { a with
    vault := (s.vault.filter fun (k, _) => inRange clus r k).map fun (k, b) => (k - clus * 2 ^ 24, b)
    empty := (s.empty.filter fun w => inRange clus r (w * 8)).map fun w => w - clus * 2 ^ 21
    poison := bad
    range := r }

/-- A range of a cluster's vault scrubbed: zero data and full tags (04_vaults.md R76). -/
def State.scrubVault (s : State) (clus : Nat) (r : Nat × Nat) : State :=
  { s with vault := s.vault.filter fun (k, _) => !inRange clus r k
           empty := s.empty.filter fun w => !inRange clus r (w * 8)
           flaws := s.flaws.filter fun (w, _) => !inRange clus r (w * 8) }

/-- The saved range of a context written back with its tags. -/
def State.loadVault (s : State) (ctx clus : Nat) : State :=
  let a := s.save ctx clus
  let t := s.scrubVault clus a.range
  { t with vault := a.vault.foldl (fun m (k, b) => writeByte m (clus * 2 ^ 24 + k) b) t.vault
           empty := a.empty.foldl (fun m w => sinsert m (clus * 2 ^ 21 + w)) t.empty
           flaws := a.poison.foldl (fun m w => kset m (clus * 2 ^ 21 + w) true) t.flaws }

/-! Estimates (R348) -/

/-- Bits of a number of w bits that are set. -/
def bitCount (n w : Nat) : Nat := (List.range w).countP (bitOf n)

/-- Image of an occupied slot, in bytes. -/
def Slot.image (sl : Slot) : Nat :=
  256 + 8 * bitCount sl.regsUsed 16 + 64 * bitCount (sl.regsUsed / 2 ^ 16) 8 + 8 * bitCount (sl.regsUsed / 2 ^ 24) 4 +
    8 * bitCount (sl.regsUsed / 2 ^ 28) 4 + 96 * sl.cbuf.length

/-- A slot is parked (04_vaults.md R77; 15_formes.md R296): at a bank, or for its phase. -/
def Park.parked : Park → Bool
  | .bank | .forme _ | .woken _ _ | .deleted | .answer (.wait _) => true
  | _ => false

/-- A slot's access is stalled: its page was answered absent (R343). -/
def State.stalled (s : State) (place : Nat) : Bool :=
  (s.clus (clusOf place)).reqs.any fun r => r.faulted && r.waiters.any fun w => decide (w.who = .slot place)

/-- A slot waits for a tagged request held at a bank for a window that has closed: it is parked
(09_memory_instructions.md R172). -/
def State.heldClosed (s : State) (place : Nat) (sl : Slot) : Bool :=
  s.clusters.any fun (_, c) => c.held.any fun h =>
    decide (h.place = place) && h.inWin && sl.outs.any fun r => r.pc == h.pc && r.val == .waiting && r.left == 0

/-- The cycles of its die that a slot is expected to run yet (R348); none is unbounded. -/
def State.remaining (s : State) (place : Nat) (sl : Slot) : Option Nat :=
  if sl.budget = 0 ∨ sl.park.parked = true ∨ sl.halted = true ∨ s.stalled place = true ∨
      s.heldClosed place sl = true then none
  else some (max 1 (sl.budget - (s.dieClock (dieOf place) - sl.boundAt)))

/-- The occupied slots of a cluster. -/
def State.occupied (s : State) (clus : Nat) : List (Nat × Slot) := s.slots.filter fun (k, sl) =>
    decide (clusOf k = clus) && sl.occ

/-- The cores of a cluster: eight worker cores and the service core. -/
def coresOf (clus : Nat) : List Nat := (List.range 9).map (coreIn clus)

/-- Bytes of a copy transfer. -/
def Transfer.bytes (t : Transfer) : Nat := fld (t.regs.get 2) 40 16 * fld (t.regs.get 2) 24 16 * fld (t.regs.get 2) 0 24

/-- Rest: what a save writes beside the slots. -/
def State.rest (s : State) (clus ctx : Nat) (incoming : Option Nat) : Nat :=
  let shared := match incoming with
    | some b => rangeLen (rangeMeet (s.alloc ctx) (s.alloc b))
    | none => 0
  128 * ((coresOf clus).map fun c => (s.core c).inbox.length).sum +
    24576 * ((coresOf clus).countP fun c => (s.core c).mx.owned) + shared * 65 / 64 +
    (((s.clus clus).chans.filter fun t => !t.moved).map Transfer.bytes).sum

/-- The longest of the remaining times; unbounded when one is. -/
def longest : List (Option Nat) → Option Nat
  | [] => some 0
  | none :: _ => none
  | some n :: rs => (longest rs).map (max n)

/-- n over d, rounded up. -/
def ceilDiv (n d : Nat) : Nat := (n + d - 1) / d

/-- Drain, spill and discard estimates. -/
def State.estimates (s : State) (clus ctx : Nat) (incoming : Option Nat) : Option Nat × Nat × Nat :=
  let bw := fld (s.reg (.precfg (s.ctxOf ctx).part)) 32 8
  let rest := s.rest clus ctx incoming
  let sls := (s.occupied clus).map (·.2)
  ((longest ((s.occupied clus).map fun (p, sl) => s.remaining p sl)).map fun m => m + ceilDiv rest bw + 1024,
   ceilDiv (rest + (sls.map Slot.image).sum) bw + 1024,
   ceilDiv (rest + (sls.map fun sl => if sl.irrev then sl.image else 128).sum) bw + 1024)

/-- DEADLINE of a context's partition. -/
def State.deadline (s : State) (ctx : Nat) : Nat := fld (s.reg (.precfg (s.ctxOf ctx).part)) 0 32

/-! Spill rings (R350, R351) -/

/-- A message put ahead of a ring's contents: in the ring's memory, or beside it where the ring is full or its lines are
not translated, or cannot be written now. -/
def State.ringAhead (s : State) (core : Nat) (r : Ring) (m : Msg) : State × Ring :=
  let c := s.ctxOf m.ctx
  if !r.ahead.isEmpty || decide (2 ^ c.splg ≤ r.stored) then (s, { r with ahead := m :: r.ahead })
  else
    let r' := if r.head = 0 then { r with head := 2 ^ 20, tail := r.tail + 2 ^ 20 } else r
    let n := r'.head - 1
    let va := ringAddr c core n
    match s.ifaceXlat core c.tsid va .store, s.ifaceXlat core c.tsid ((va + 64) % 2 ^ 56) .store with
    | .ok p0, .ok p1 =>
      if s.ifaceStops core p0 || s.ifaceStops core p1 then (s, { r with ahead := m :: r.ahead })
      else (s.putEntry core m va p0 p1, { r' with head := n, times := m.arrived :: r'.times })
    | _, _ => (s, { r with ahead := m :: r.ahead })

/-- Messages put ahead of a core's ring, the first of them foremost. -/
def State.ringAheadAll (s : State) (core : Nat) (ms : List Msg) : State :=
  let (t, r) := ms.reverse.foldl (fun (t, r) m => State.ringAhead t core r m) (s, (s.core core).ring)
  t.setCore core { t.core core with ring := r }

/-- The inbox of a core written to its ring ahead of the contents, oldest first. -/
def State.inboxToRing (s : State) (core : Nat) : State :=
  let t := s.ringAheadAll core ((s.core core).inbox.map (·.msg))
  t.setCore core { t.core core with inbox := [] }

/-! Saving -/

/-- A slot as it is saved (R351): every outstanding result has returned but for those of stalled accesses and of
requests held at banks, which are issued again, and a phase result on its way is written. -/
def Slot.toSave (sl : Slot) : Slot :=
  let home (r : OutRes) : OutRes := if r.val = .waiting ∨ r.val = .deferred then r else { r with back := true }
  let s1 := { sl with outs := sl.outs.map home, xres := none }
  match s1.park with
  | .xlat => { s1 with park := .run }
  | .bank => { s1 with park := .run }
  | .woken a w => { (s1.setX a w).retire [.x a] with park := .run, skipBp := false }
  | _ => s1

/-- Transfers that wait for room in the inbox of a cluster's copy engine enter it, and their heads have their results
(R350, R351). -/
def State.enterAll (s : State) (clus : Nat) : State :=
  let c := s.clus clus
  let t := s.setClus clus { c with copies := c.copies ++ c.entering.map (·.1), entering := [] }
  c.entering.foldl (fun u e =>
    if (u.slot e.1.place).act = e.1.act then u.answerOut e.1.place e.2.1 (.ok [.x e.2.2 (word e.1.id)] {}) else u) t

/-- Requests of a cluster's slots held at banks for an outstanding result, each with the cluster of its bank. -/
def State.heldOf (s : State) (clus : Nat) : List (Nat × HeldReq) :=
  s.clusters.flatMap fun (k, c) => (c.held.filter fun h => decide (clusOf h.place = clus) && h.inWin).map fun h =>
      (k, h)

/-- A spilled slot: its requests withdrawn, its state in the save area, the slot free. One that a step runs is halted
again, and the step reports nothing: no rule says what such a step reports (20_debug.md R374, R375; log entry 32, the
model's choice). -/
def State.spillSlot (s : State) (ctx : Nat) (place : Nat) : State :=
  let clus := clusOf place
  let sl := s.slot place
  let t := (s.withdrawHeld place).closeXlat clus (.slot place)
  let stepped := (s.clus clus).stepping.any fun x => x.1 == place && x.2.1 != 6
  let t := if stepped then t.setClus clus { t.clus clus with stepping := none } else t
  let t := match sl.park with
    | .woken _ _ => t.count .heads 1 place sl.ctx sl.kslot sl.pc
    | _ => t
  let a := t.save ctx clus
  (t.setSave ctx clus { a with slots := kset a.slots place { sl.toSave with halted := sl.halted || stepped } }).freeSlot place

/-- Pins of a context released (07_instruction_lines.md R135). -/
def dropPins (ctx : Nat) (l : List CacheLine) : List CacheLine :=
  l.map fun c => if c.pinned = some ctx then { c with pinned := none } else c

/-- A core without the context's state. -/
def CoreSt.clear (k : CoreSt) (ctx : Nat) : CoreSt :=
  { k with
    mx := {}
    win := Vector.replicate 8 0
    ring := {}
    gang := none
    icache := dropPins ctx k.icache
    prefetch := k.prefetch.filter fun r => r.ctx ≠ ctx }

/-- An entry of a combiner may be flushed: every write of its kernel has been performed, and acknowledged where it is at
another package, so that the flush is the release at system scope that R256 asks for (14_weight_and_quiescence.md R281;
16_ordering.md R309, R324). -/
def State.canFlush (s : State) (e : Combine) : Bool := !s.writesOpen e.ctx e.kslot

/-- Returns of a context in a shard's combiner sent on to the home (14_weight_and_quiescence.md R281). -/
def State.flushShard (s : State) (shard ctx : Nat) : State :=
  let hit (e : Combine) : Bool := decide (e.shard = shard) && decide (e.ctx = ctx) && s.canFlush e
  { s with home := { s.home with
      combiners := s.home.combiners.filter fun e => !hit e
      wires := s.home.wires ++ (s.home.combiners.filter hit).map fun e => .ret e.ctx e.kslot e.hpkg e.sum hubPlace } }

/-- What a cluster holds of a context beside its slots, put in the save area and cleared (R351). -/
def State.saveCluster (s : State) (ctx clus : Nat) (incoming : Option Nat) : State :=
  let c := s.clus clus
  let per {α : Type} (f : CoreSt → α) : KMap α := (List.range 9).map fun u => (u, f (s.core (coreIn clus u)))
  let a := s.save ctx clus
  let s1 := s.setSave ctx clus { a with
    fwait := c.fwait
    matrices := per (·.mx)
    wins := per (·.win)
    rings := per (·.ring)
    copies := c.copies
    withheld := c.withheld
    evq := c.evq
    notices := c.notices
    galleys := c.galleys
    gangs := (List.range 9).filterMap fun u => (s.core (coreIn clus u)).gang.map fun g => (u, g) }
  let s2 := match incoming with
    | some b =>
      let r := rangeMeet (s.alloc ctx) (s.alloc b)
      ((s1.saveVault ctx clus r).scrubVault clus r).tagChanged clus
    | none => s1
  let left := if incoming.isNone then some ctx else none
  let s3 := s2.setClus clus { s2.clus clus with
    ctx := none, fwait := [], copies := [], withheld := [], evq := [], notices := 0, galleys := [], switch := none,
        left := left
    icache := dropPins ctx c.icache }
  ((coresOf clus).foldl (fun t k => t.setCore k { (t.core k).clear ctx with idleSince := t.dieClock (k / 1024) }) s3).flushShard (shardOf clus) ctx

/-- A translation request of a discarded service activation is unbound again (02_main_memory.md R42). -/
def State.unbindReq (s : State) (place : Nat) : State :=
  let sl := s.slot place
  let clus := clusOf place
  if isService place && sl.msg.isNone then
    let again (r : XlatReq) : XlatReq := if r.id = fld (sl.m.get 1) 0 16 then { r with bound := false } else r
    s.setClus clus { s.clus clus with reqs := (s.clus clus).reqs.map again }
  else s

/-- Slots discarded (R350): each aborted, and its message at the head of its core's ring. -/
def State.discardSlots (s : State) : List Nat → State
  | [] => s
  | p :: ps =>
    let t := s.discardSlots ps
    let u := (t.unbindReq p).abortSlot p
    match (t.slot p).msg with
    | some m => u.ringAheadAll (coreOf p) [m]
    | none => u

/-- A requester's translation requests closed wherever they are (02_main_memory.md R40 to R42). -/
def State.closeXlats (s : State) (who : Requester) : State :=
  s.clusters.foldl (fun t (c, k) => if k.asks who then t.closeXlat c who else t) s

/-- Feeders put aside what they do for a context and its messages, once a cluster of its placement has left its slice
(05_feeders.md R99). -/
def State.pauseFeeders (s : State) (ctx : Nat) : State :=
  s.feeders.foldl (fun t (f, d) =>
    let d := d.putAway ctx
    if d.st ≠ .idle ∧ d.ctx = ctx then (t.closeXlats (.feeder f)).setFeeder f d.pause else t.setFeeder f d) s

/-- A cluster of a context has left its slice: its feeders pause, and once no cluster runs it the context is saved, or
stopped where it is broken and an activation touched a reported page (R356). -/
def State.leftSlice (s : State) (ctx : Nat) : State :=
  let t := s.pauseFeeders ctx
  let c := t.ctxOf ctx
  if t.clusters.any (fun (_, k) => k.ctx == some ctx) then t
  else match c.st with
    | .running => t.setCtx ctx { c with st := .saved }
    | .broken => if c.touched then (t.setCtx ctx { c with st := .stopped, slicing := false }).irq 64 0 (ctx :: c.pages) else t
    | _ => t

/-- Hub cycles of a microsecond (00_scope.md R5). -/
def cyclesOfMicros (us : Nat) : Nat := us * 1750

/-- Time of a cluster, in hub cycles, counted against a function's cluster-slots of the period, that of its switches
with it (19_tenants_and_metering.md R362; log entry 56). -/
def State.chargeRun (s : State) (ctx n : Nat) : State :=
  let c := s.ctxOf ctx
  let p := s.part c.part
  s.setPart c.part { p with ran := kset p.ran c.vf (kget 0 p.ran c.vf + n) }

/-- The slots of a cluster that a switch discards (R350): before their commit point, and not halted. -/
def State.dropped (s : State) (clus : Nat) (w : Switch) : List (Nat × Slot) :=
  if w.mode = .discard then (s.occupied clus).filter fun (_, sl) => !sl.irrev && !sl.halted else []

/-- A requester of a halted cluster waits for a translation, which its service core will not give while it is halted: a
halt does not hold back a slice end (20_debug.md R374), so the access is issued again after the restore, as a stalled
one is (log entry 30, the model's choice). -/
def State.haltedXlat (s : State) (clus : Nat) (who : Requester) : Bool := (s.clus clus).halted && (s.clus clus).asks who

/-- A slot that is to be spilled waits for a result: of a translation that has not been answered, or of its ports
(R350); a stalled access is not waited for. -/
def State.spillWaits (s : State) (p : Nat × Slot) : Bool :=
  !s.stalled p.1 && !s.haltedXlat (clusOf p.1) (.slot p.1) && (p.2.park == .xlat || p.2.park == .remote || p.2.defers)

/-- A started transfer of a halted cluster waits for a translation, and has moved nothing. -/
def State.unstarted (s : State) (clus : Nat) (t : Transfer) : Bool := s.haltedXlat clus (.copy clus t.id t.chan)

/-- Such transfers put back ahead of the queued ones, in the order of their identifiers' launch, unstarted. -/
def State.unstart (s : State) (clus : Nat) : State :=
  let c := s.clus clus
  let back := c.chans.filter (s.unstarted clus)
  let t := back.foldl (fun u x => u.closeXlat clus (.copy clus x.id x.chan)) s
  t.setClus clus { t.clus clus with
    chans := c.chans.filter fun x => !s.unstarted clus x
    copies := back.map (fun x => { x with waits := false, rans := [], xres := none, chan := 0 }) ++ c.copies }

/-- What must come to its end before a cluster is vacated: started transfers, running matrix commands, and the results
that slots to be spilled wait for (R350, R351; 11_matrix_unit.md R222). -/
def State.switchWaits (s : State) (clus : Nat) (w : Switch) : Bool :=
  !(s.clus clus).chans.all (s.unstarted clus) || (coresOf clus).any (fun c => (s.core c).mx.runs) ||
    ((s.occupied clus).filter fun p => !(s.dropped clus w).contains p).any s.spillWaits

/-- A cluster vacated: its inboxes go to the rings, slots before their commit point are discarded where the mode says
so, the rest are spilled, and PRESTAT tells of it (R349 to R354). -/
def State.vacate (s : State) (clus : Nat) (w : Switch) (ovr : Bool) : State :=
  let s1 := (coresOf clus).foldl State.inboxToRing ((s.unstart clus).enterAll clus)
  let drop := (s1.dropped clus w).map (·.1)
  let s2 := s1.discardSlots drop
  let held := s2.heldOf clus
  let s3 := ((s2.occupied clus).map (·.1)).foldl (fun t p => t.spillSlot w.ctx p) s2
  let a := s3.save w.ctx clus
  let s4 := (s3.setSave w.ctx clus { a with held := held }).saveCluster w.ctx clus w.incoming
  let took := s.dieClock (clus / 64) - w.at_
  let act := min took (2 ^ 24 - 1)
  let miss := w.miss || decide (s.deadline w.ctx < took)
  let mode := match w.mode with | .drain => 0 | .spill => 1 | .discard => 2
  let stat := act * 2 ^ 40 + w.est * 2 ^ 16 + drop.length * 2 ^ 8 + boolCode ovr * 16 + boolCode miss * 8 + mode
  let s5 := s4.setClus clus { s4.clus clus with prestat := word stat }
  (if miss then s5.irq 64 0 [354, clus, stat] else s5).leftSlice w.ctx

/-- A switch goes on (R350, R351): a drain ends when no slot is occupied, or spills the rest at its deadline. -/
def State.trySwitch (s : State) (clus : Nat) : State :=
  match (s.clus clus).switch with
  | none => s
  | some w =>
    let late := decide (w.at_ + s.deadline w.ctx ≤ s.dieClock (clus / 64))
    let done := (s.occupied clus).isEmpty
    if w.mode = .drain ∧ done = false ∧ late = false then s
    else if s.switchWaits clus w then s
    else s.vacate clus w (w.mode == .drain && !done)

/-! Waking for a switch (17_scheduling_and_power.md R339) -/

/-- A gated core is awake again 200 cycles later; its translations are gone already (02_main_memory.md R47). -/
def State.wakeGated (s : State) (core : Nat) : State :=
  let k := s.core core
  if k.gated then
    s.setCore core { k with
      gated := false, l1 := [], icache := [], readyAt := s.dieClock (core / 1024) + 200, idleSince :=
          s.dieClock (core / 1024) }
  else s

/-- A core without translations and instruction lines (02_main_memory.md R47). -/
def State.flushCore (s : State) (core : Nat) : State := s.setCore core { s.core core with l1 := [], icache := [] }

/-- A gated cluster is ready again 2,000 cycles later; its service core's translations are gone with its own
(02_main_memory.md R47). -/
def State.wakeGatedCluster (s : State) (clus : Nat) : State :=
  let c := s.clus clus
  if c.gated then
    (s.setClus clus { c with
      gated := false, tlb := [], ctlb := [], icache := [], readyAt := s.dieClock (clus / 64) + 2000,
      idleSince := s.dieClock (clus / 64) }).flushCore (coreIn clus 8)
  else s

/-- Every gated core of a cluster, and the cluster. -/
def State.wakeAll (s : State) (clus : Nat) : State := ((coresOf clus).foldl State.wakeGated s).wakeGatedCluster clus

/-! Events (R349, R350) -/

/-- The mode a cluster chooses, its estimate, and whether it misses its deadline by that (R349). -/
def chooseMode (deadline : Nat) (e : Option Nat × Nat × Nat) : SwMode × Nat × Bool :=
  let sat (n : Nat) : Nat := min n (2 ^ 24 - 1)
  if e.1.any (fun d => decide (d ≤ deadline)) then (.drain, sat (e.1.getD 0), false)
  else if e.2.1 ≤ deadline then (.spill, sat e.2.1, false)
  else (.discard, sat e.2.2, !decide (e.2.2 ≤ deadline))

/-- SLICE_END_SIGNAL (R348 to R350; 20_debug.md R374); a broken context that touched a reported page leaves by spilling
(R356). -/
def execSliceEndSignal (clus : Nat) (incoming : Option Nat) (s : State) : Out :=
  let c := s.clus clus
  .next (match c.ctx, c.switch with
  | some ctx, none =>
    let e := s.estimates clus ctx incoming
    let (mode, est, miss) := if (s.ctxOf ctx).touched then (.spill, min e.2.1 (2 ^ 24 - 1), false) else chooseMode (s.deadline ctx) e
    let t := (s.wakeAll clus).wakeCluster clus
    let w : Switch := { ctx := ctx, incoming := incoming, mode := mode, at_ := s.dieClock (clus / 64), est := est, miss := miss }
    (t.setClus clus { t.clus clus with switch := some w, frozen := false, ends := false }).trySwitch clus
  | _, _ => s)

/-- DRAIN_DEADLINE (R350): a switch under way goes on, and at its deadline a drain spills the rest. -/
def execDrainDeadline (clus : Nat) (s : State) : Out := .next (s.trySwitch clus)

/-! Restoring (R259, R352, R433) -/

/-- A context record has a nonzero reserved bit or a field outside its limits (R259). -/
def Context.bad (c : Context) : Bool :=
  decide (fld (c.w 0) 58 6 ≠ 0) || decide (fld (c.w 0) 13 23 ≠ 0) || decide (fld (c.w 0) 6 2 ≠ 0) ||
    decide (23 < c.part) || decide (fld (c.w 1) 24 40 ≠ 0) || decide (c.qtofs % 64 ≠ 0) ||
        decide (0xBFFE00 < c.qtofs) ||
    decide (fld (c.w 2) 56 8 ≠ 0) || decide (c.ttab % 2048 ≠ 0) || decide (c.omsz = 0) || decide (4096 < c.omsz) ||
    decide (fld (c.w 3) 0 48 % 2 ≠ 0) || decide (fld (c.w 4) 56 8 ≠ 0) || decide (fld (c.w 5) 56 8 ≠ 0) ||
    bitOf (c.w 5).toNat 5 || decide (20 < c.splg) || decide (fld (c.w 6) 32 32 ≠ 0) || decide (c.w 7 ≠ 0)

/-- The owner map in main memory (R259). -/
def State.readOwners (s : State) (c : Context) : KMap Nat :=
  (List.range c.omsz).map fun i => (i, leNat (s.getLine ((fld (c.w 3) 0 48 + 2 * i) % 2 ^ 48) 2))

/-- An owner-map entry names a worker core of the placement, or a feeder of the partition, with SLOT 0 (R259). -/
def State.ownerOk (s : State) (c : Context) (e : Nat) : Bool :=
  (isSlot e && !isService e && decide (e % 8 = 0) && c.placement.contains (clusOf e)) ||
    (match feederOf e with
     | some f => decide (s.feederPart f = c.part)
     | none => false)

/-- A context may be restored: its record and its owner map are good, and its placement lies in its partition. -/
def State.restorable (s : State) (c : Context) (owners : KMap Nat) : Bool :=
  !c.bad && !c.placement.isEmpty && c.placement.all (fun k => s.partOfClus k = c.part) && owners.all fun e =>
      s.ownerOk c e.2

/-- The units of a cluster written from the save area, after its vault (R352); a matrix unit of which nothing is saved
reads as zero (11_matrix_unit.md R222). -/
def State.loadUnits (s : State) (ctx clus : Nat) : State :=
  let a := s.save ctx clus
  (List.range 9).foldl (fun t u =>
    let core := coreIn clus u
    let k := t.core core
    let m := kget { ({} : Matrix) with done := 0 } a.matrices u
    let g := (a.gangs.find? (·.1 = u)).map (·.2)
    t.setCore core { k with
      mx := { m with owned := m.owner.isSome }
      win := kget (Vector.replicate 8 0) a.wins u
      ring := kget {} a.rings u
      gang := g }) s

/-- The slots of a save area put back. -/
def State.loadSlots (s : State) : List (Nat × Slot) → State
  | [] => s
  | (p, sl) :: ps => (s.setSlot p sl).loadSlots ps

/-- What a tagged form needs of a window (04_vaults.md R74). -/
def TagForm.need (f : TagForm) : WinNeed :=
  match f with
  | .ldf => ⟨true, false, false⟩
  | .ldfe => ⟨true, true, false⟩
  | .ste => ⟨false, true, false⟩

/-- Requests held at banks issued again (R351): each is checked as a new access (04_vaults.md R75). -/
def State.holdAgain (s : State) : List (Nat × HeldReq) → State
  | [] => s
  | (c, h) :: hs =>
    (match s.vaultRefusal (clusOf h.place) (s.slot h.place).ctx (c * 2 ^ 24 + h.ofs) h.form.need with
      | some cause => (s.addDelay (coreOf h.place) 63).answerOut h.place h.pc (.bad cause h.tval false)
      | none => s.offer c h).holdAgain hs

/-- What a context left on a cluster restored there (R351 to R353): vault, matrix units, windows, fault-wait list,
slots, event queue. -/
def State.restoreCluster (s : State) (ctx clus : Nat) : State :=
  let s0 := match (s.clus clus).left with
    | some o =>
      let r := rangeMeet (s.alloc o) (s.alloc ctx)
      if o = ctx then s else ((s.saveVault o clus r).scrubVault clus r).tagChanged clus
    | none => s
  let s1 := if (s.clus clus).left = some ctx then s0 else (s0.loadVault ctx clus).tagChanged clus
  let a := s1.save ctx clus
  let c := s1.clus clus
  let s2 := (s1.loadUnits ctx clus).setClus clus { c with
    ctx := some ctx, left := none, ends := false, fwait := a.fwait, evq := a.evq, notices := a.notices, copies :=
        a.copies, withheld := a.withheld,
    galleys := a.galleys }
  ({ (s2.loadSlots a.slots) with saved := kdel s2.saved (ctx * 512 + clus) }).holdAgain a.held

/-- CONTEXT_RESTORE (R259, R352): a context whose record is refused is reported to the host. -/
def execContextRestore (ctx clus : Nat) (s : State) : Out :=
  let c := s.ctxOf ctx
  let k := s.clus clus
  .next (if !khas s.ctxs ctx || !c.slicing || !(c.st == .saved || c.st == .refused || c.st == .broken) ||
      !c.placement.contains clus || k.ctx.isSome || k.switch.isSome then s
    else
      let owners := s.readOwners c
      if !s.restorable c owners then (s.setCtx ctx { c with st := .refused }).irq 64 0 [259, ctx]
      else
        let t := (s.wakeAll clus).restoreCluster ctx clus
        let all := c.placement.all fun p => t.runsOn ctx p
        t.setCtx ctx { c with owners := owners, st := if c.st = .broken then .broken else if all then .running else .saved })

end Sys2Proof.Machine
end

