-- ==== Sys2Proof/Machine/Home.lean ====
section
/-!
DEFINITION. Kernel records and the home (14_weight_and_quiescence.md R276 to R287; 11_matrix_unit.md R252;
12_way_back.md R256): the record's words, what the home and the front end write, the tests and the damage steps, and
the conditions of the watchdog.
-/

namespace Sys2Proof.Machine

/-! Accesses of the hub (02_main_memory.md R31) -/

/-- A range of device physical addresses as the hub's runs, line by line. -/
def hubRuns (pa n : Nat) : List FeedRun := (runsOf pa n).map fun (a, k) => ⟨a, a, k⟩

/-- Bytes written by the hub for a partition at a device physical address, line by line. -/
def State.hubWrite (s : State) (part pa : Nat) (bs : List Byte) : State :=
  if (tgtOf pa < 24 ∧ 2 ^ 39 ≤ ofsOf pa) ∨ 36 < tgtOf pa then s
  else s.writeRuns { hubReq with act := part } (hubRuns pa bs.length) bs

/-- Writes of the hub for a partition have not been performed, or not acknowledged by another package (16_ordering.md
R309, R324). -/
def State.hubOpen (s : State) (part : Nat) : Bool :=
  s.xbar.outstanding.any fun (q, _) => decide (q.row = 384) && decide (q.src = 65536) && decide (q.act = part)

/-- Bytes read by the hub, free where no rule gives them (log entry 11). -/
def State.hubRead (s : State) (pa n : Nat) : List Byte × State :=
  if 24 < tgtOf pa ∨ (tgtOf pa < 24 ∧ 2 ^ 39 ≤ ofsOf pa) ∨ s.xbar.silent.contains (tgtOf pa) = true then
    (s.freeBytes n, { s with clk := { s.clk with draws := s.clk.draws + 1 } })
  else (s.readRuns (hubRuns pa n), s)

/-- n bytes of host memory at a bus address. -/
def State.hostRead (s : State) (bus n : Nat) : List Byte := s.readRuns (hubRuns (hostBase + bus) n)

/-- Bytes written to host memory at a bus address. -/
def State.hostWrite (s : State) (bus : Nat) (bs : List Byte) : State :=
    s.writeRuns hubReq (hubRuns (hostBase + bus) bs.length) bs

/-! The record (R277) -/

/-- CYCLE[31:0] of the home. -/
def State.homeCycle (s : State) : Nat := s.clk.hub % 2 ^ 32

/-! Fences (R279, 17_scheduling_and_power.md R326) -/

/-- Queues whose FENCEW waits at an address read their word in the next hub cycle. -/
def State.kickFences (s : State) (pa : Nat) : State :=
  { s with front := { s.front with queues := s.front.queues.map fun (k, q) =>
      (k, if q.headSt = .fenceWait ∧ q.head.any (fun w => fld (w.get 1) 0 48 = pa) = true then { q with pollAt := s.clk.hub }
          else q) } }

/-- A fence word written, with its error bit. -/
def State.writeFence (s : State) (part pa val : Nat) (err : Bool) : State :=
  if pa = 0 then s else (s.hubWrite part pa (leBytes 8 (boolCode err * 2 ^ 63 + val))).kickFences pa

/-! Statistics (11_matrix_unit.md R252) -/

/-- A 32-bit counter that saturates. -/
def satAdd (a b : Nat) : Nat := min (a + b) (2 ^ 32 - 1)

/-- Counts added to a list of counters. -/
def statAdd (l : List StatCnt) (c : StatCnt) : List StatCnt :=
  match l.find? (·.sid = c.sid) with
  | some d => l.map fun x => if x.sid = c.sid then
      { x with sat := satAdd d.sat c.sat, flush := satAdd d.flush c.flush, nan := satAdd d.nan c.nan } else x
  | none => l ++ [c]

/-- The statistics block: 64 entries of 16 bytes. -/
def statBlock (l : List StatCnt) : List Byte :=
  (List.range 64).flatMap fun i =>
    let c := (l.find? (·.sid = i)).getD ⟨i, 0, 0, 0⟩
    leBytes 8 (c.sat + c.flush * 2 ^ 32) ++ leBytes 8 c.nan

/-- The statistics block written, where the record names one. -/
def State.writeStats (s : State) (ctx kslot : Nat) : State :=
  let k := s.kernel ctx kslot
  if k.sblk = 0 then s else s.hubWrite (s.ctxOf ctx).part k.sblk (statBlock k.stats)

/-! Damage and the test (R278, R279) -/

/-- The Odnerlink port by which another package is reached, when the route is valid and the link is up
(13_handlers_and_messages.md R265). -/
def State.routeTo (s : State) (pkg : Nat) : Option Nat :=
  let r := s.reg (.sprt pkg)
  if bitOf r.toNat 4 && (s.link (fld r 0 4)).up then some (fld r 0 4) else none

/-- Another package is told that a kernel's members leave: a flit for its route, kept until the link trains again where
it is down. -/
def State.sendLeave (s : State) (ctx kslot hpkg pkg : Nat) : State :=
  let r := s.reg (.sprt pkg)
  if bitOf r.toNat 4 then s.sendFlit (fld r 0 4) (.leave pkg ctx kslot hpkg) else s

/-- A record leaves running: the members its kernel joined leave their formes (15_formes.md R301), in this package, and
in the others of the span, which R301 does not say how they hear of it: each is sent a flit (log entry 40, the model's
choice). -/
def State.leaveRunning (s : State) (ctx kslot : Nat) (st : KSt) : State :=
  let t := (s.setKernel ctx kslot { s.kernel ctx kslot with st := st }).leaveKernel ctx kslot s.fw.pkg
  (t.fw.span.filter (· ≠ t.fw.pkg)).foldl (fun u p => u.sendLeave ctx kslot t.fw.pkg p) t

/-- The state with the step noted that a record's completion or damage has taken. -/
def State.toStage (s : State) (ctx kslot n : Nat) : State :=
    s.setKernel ctx kslot { s.kernel ctx kslot with stage := n }

/-- The steps of a completion or a damage from where a record stands: the statistics block, the fence, the rest. Each is
performed before the next begins (R279). -/
def State.completionSteps (s : State) (ctx kslot : Nat) (err : Bool) (rest : State → Nat → Nat → State) : State :=
  let part := (s.ctxOf ctx).part
  let fenced (t : State) : State := if t.hubOpen part then t else rest t ctx kslot
  let counted (t : State) : State :=
    if t.hubOpen part then t
    else
      let k := t.kernel ctx kslot
      fenced ((t.writeFence part k.faddr k.fval err).toStage ctx kslot 2)
  match (s.kernel ctx kslot).stage with
  | 0 => counted ((s.writeStats ctx kslot).toStage ctx kslot 1)
  | 1 => counted s
  | _ => fenced s

/-- The last damage step: the host is told. -/
def State.damageEnd (s : State) (ctx kslot : Nat) : State :=
  let t := s.toStage ctx kslot 0
  let k := t.kernel ctx kslot
  t.irq (s.ctxOf ctx).vf 1 [279, ctx, kslot, k.w, k.h, k.l]

/-- The damage steps. -/
def State.damage (s : State) (ctx kslot : Nat) : State :=
  (s.leaveRunning ctx kslot .damaged).completionSteps ctx kslot true State.damageEnd

/-- The test of a running record. -/
def State.testKernel (s : State) (ctx kslot : Nat) : State :=
  let k := s.kernel ctx kslot
  if k.st ≠ .running then s
  else if k.h = k.w then s.leaveRunning ctx kslot .completing
  else if k.h + k.l = k.w ∧ 0 < k.l then s.damage ctx kslot
  else s

/-- A conservation error (R284): nothing is applied, and the monitor gets an error record, which names the event: 0 a
return, 1 a loss notice, 2 a borrow. -/
def State.conservation (s : State) (event ctx kslot amt src : Nat) : State :=
  let k := s.kernel ctx kslot
  let t := if k.st = .running ∨ k.st = .damaged then s.setKernel ctx kslot { k with xs := true } else s
  { t with home := { t.home with errors := t.home.errors ++ [(event, ctx, kslot, amt, src)] } }.log
    [284, event, ctx, kslot, amt, src]

/-- A return or a loss notice reaches its record (R278, R284). -/
def State.comeHome (s : State) (ctx kslot amt src : Nat) (lost : Bool) : State :=
  let k := s.kernel ctx kslot
  if k.st ≠ .running ∨ k.w < k.h + k.l + amt then s.conservation (boolCode lost) ctx kslot amt src
  else
    let k' := { k with last := s.homeCycle, stall := false, quiet := 0 }
    (s.setKernel ctx kslot (if lost then { k' with l := k.l + amt } else { k' with h := k.h + amt })).testKernel ctx kslot

/-! The watchdog's conditions (R286) -/

/-- A message belongs to a kernel. -/
def msgOf (m : Msg) (ctx kslot : Nat) : Bool := decide (m.ctx = ctx) && decide (m.kslot = kslot)

/-- Every message queue of a context is empty. -/
def State.noMessages (s : State) (ctx : Nat) : Bool :=
  s.net.all (fun x => x.msg.ctx != ctx) && s.cores.all (fun (_, k) => k.inbox.all fun x => x.msg.ctx != ctx) &&
    s.feeders.all (fun (_, d) => d.queued.all fun m => m.ctx != ctx) &&
    s.front.gangs.all (fun g => g.1.all fun (_, m) => m.ctx != ctx) &&
    (s.ctxOf ctx).placement.all fun c => (coresOf c).all fun core => (s.ringOf ctx core).count == 0

/-- No activation of a context is resident or spilled. -/
def State.noActivation (s : State) (ctx : Nat) : Bool :=
  s.slots.all (fun (_, sl) => !(sl.occ && sl.ctx == ctx)) && s.saved.all fun (k, a) => k / 512 != ctx || a.slots.isEmpty

/-- No copy transfer of a kernel is in flight. -/
def State.noCopies (s : State) (ctx kslot : Nat) : Bool :=
  let other (t : Transfer) : Bool := !(t.ctx == ctx && t.kslot == kslot)
  s.clusters.all (fun (_, c) => c.transfers.all other) && s.saved.all fun (_, a) => a.copies.all other

/-- Feeders that hold weight of a kernel are idle or wait in WAITG; so does every list put aside (05_feeders.md R99). -/
def State.feedersQuiet (s : State) (ctx kslot : Nat) : Bool :=
  let holds (c k hold : Nat) : Bool := c == ctx && k == kslot && hold != 0
  s.feeders.all fun (_, d) =>
    (!holds d.ctx d.kslot d.hold || d.st == .idle || d.st == .waiting 5) &&
      d.saved.all fun v => !holds v.ctx v.kslot v.hold || v.st == .waiting 5

/-- A flit carries a message, a return, a grant or a loss notice of a kernel of a home. -/
def flitHolds (b : FlitBody) (ctx kslot home : Nat) : Bool :=
  match b with
  | .msg m => msgOf m ctx kslot && m.hpkg == home
  | .ret c k h _ => c == ctx && k == kslot && h == home
  | .grant _ c k h _ _ _ => c == ctx && k == kslot && h == home
  | .loss c k h _ _ _ => c == ctx && k == kslot && h == home
  | .stats c k h _ => c == ctx && k == kslot && h == home
  | _ => false

/-- No message of a kernel waits for a page, and no flit that an Odnerlink port keeps holds weight of it. -/
def State.noneWaiting (s : State) (ctx kslot : Nat) : Bool :=
  s.clusters.all (fun (_, c) => c.fwait.all fun w => !msgOf w.msg ctx kslot) &&
    s.saved.all (fun (_, a) => a.fwait.all fun w => !msgOf w.msg ctx kslot) &&
    s.links.all fun (_, l) => (l.unacked ++ l.entering).all fun f => !flitHolds f.body ctx kslot s.fw.pkg

/-- The conditions of R286 on a running record. -/
def State.stallHolds (s : State) (ctx kslot : Nat) : Bool :=
  let k := s.kernel ctx kslot
  decide (k.h + k.l < k.w) && s.noActivation ctx && s.noMessages ctx && s.noCopies ctx kslot &&
      s.feedersQuiet ctx kslot &&
    s.noneWaiting ctx kslot

/-- The watchdog's counts after d hub cycles: time outside the slice does not count (R286). -/
def State.watch (s : State) (d : Nat) : State :=
  let one (e : Nat × Kernel) : Nat × Kernel :=
    let ctx := e.1 / 64
    if e.2.st = .running ∧ e.2.wto ≠ 0 ∧ s.inSlice ctx = true then
      (e.1, { e.2 with quiet := if s.stallHolds ctx (e.1 % 64) then e.2.quiet + d else 0 })
    else e
  { s with home := { s.home with kernels := s.home.kernels.map one } }

end Sys2Proof.Machine
end

