-- ==== Sys2Proof/Machine/Queue.lean ====
section
/-!
DEFINITION. Command queues, the launch front end and admission (17_scheduling_and_power.md R325 to R334;
14_weight_and_quiescence.md R277, R279, R285, R287; 18_faults_and_preemption.md R355).
-/

namespace Sys2Proof.Machine

/-! Registers of a queue (R325) -/

/-- A virtual function is enabled (19_tenants_and_metering.md R361). -/
def State.fnEnabled (s : State) (vf : Nat) : Bool := bitOf (s.reg (.vfcfg vf)).toNat 0

/-- A virtual function and a queue of it exist. -/
def isQueue (vf q : Nat) : Bool := decide (vf < 64) && decide (q < 8)

/-- QPROD_WRITE (R325). -/
def execQprodWrite (vf q : Nat) (v : Word) (s : State) : Out :=
  .next (if isQueue vf q then s.setQueue vf q { s.queue vf q with prod := BitVec.ofNat 32 (fld v 0 32) } else s)

/-- QCTL_WRITE (R325): a reserved bit discards the write; SZLG is taken while EN is 0, and setting EN clears ERR. -/
def execQctlWrite (vf q : Nat) (v : Word) (s : State) : Out :=
  let c := s.queue vf q
  .next (if !isQueue vf q || decide (fld v 16 48 ≠ 0) || decide (fld v 0 8 ≠ 0) then s
    else
      let en := bitOf v.toNat 8
      s.setQueue vf q { c with
        szlg := if c.en then c.szlg else fld v 12 4
        prio := fld v 10 2
        en := en
        err := c.err && !en })

/-! Commands and completions (R326, R329) -/

/-- The command at a queue's head completes (R329, 21_host_firmware_security.md R384). -/
def State.complete (s : State) (vf q status detail : Nat) : State :=
  let c := s.queue vf q
  let n := c.cons.toNat
  let code := match c.head with | some w => fld (w.get 0) 0 8 | none => 0
  let t := s.hostWrite (c.cbase * 16 + 16 * (n % 2 ^ c.szlg))
    (leBytes 8 (status + code * 2 ^ 8 + detail % 2 ^ 48 * 2 ^ 16) ++ leBytes 8 0)
  (t.setQueue vf q { c with cons := c.cons + 1, head := none, headSt := .read, desc := [] }).irq vf 0 [q, n, status]

/-- The command at the head of a queue, when it is of one of the codes: it is read from the ring unless it has been
(R325, R326), once the host's writes before QPROD's are past the crossbar (16_ordering.md R324); a paused front end
reads none (21_host_firmware_security.md R391, R395). -/
def State.withCommand (s : State) (vf q : Nat) (is : Nat → Bool) (k : State → Vector Word 8 → State) : State :=
  let c := s.queue vf q
  match c.head with
  | some w => if is (fld (w.get 0) 0 8) then k s w else s
  | none =>
    if !isQueue vf q || !s.fnEnabled vf || !c.en || c.err || decide (c.szlg < 4) || c.prod == c.cons ||
        s.front.paused ||
        s.fw.halted || s.xbar.reqs.any (fun r => decide (r.row = 32 + vf) && !isPortLoad r.op) then s
    else
      let ws := wordsOfBytes 8 (s.hostRead (c.base * 64 + 64 * (c.cons.toNat % 2 ^ c.szlg)) 64)
      let w := Vector.ofFn fun i : Fin 8 => ws.getD i.val 0
      if is (fld (w.get 0) 0 8) then
        k (s.setQueue vf q { c with head := some w, headSt := .read, since := s.clk.hub, desc := [] }) w
      else s

/-- A word has a bit set outside those named. -/
def outside (w : Word) (named : Nat) : Bool := decide (Nat.lor w.toNat named ≠ named)

/-- The words of a command name bits that its code does not (R326). -/
def commandBad (w : Vector Word 8) : Bool :=
  let low (n : Nat) : Nat := 2 ^ n - 1
  let ks := low 14 - low 8
  let cx := low 32 - low 16
  let named := match fld (w.get 0) 0 8 with
    | 2 => [low 8, low 48, low 63]
    | 3 => [low 8, low 48, low 63]
    | 4 => [low 8 + cx]
    | 5 => [low 8 + cx]
    | 6 => [low 8 + ks + cx]
    | _ => [low 8 + ks + cx, low 48]
  (List.range 8).any fun i => outside (w.toList.getD i 0) (named.getD i 0)

/-- CTX of a command. -/
def cmdCtx (w : Vector Word 8) : Nat := fld (w.get 0) 16 16
/-- KSLOT of a command. -/
def cmdSlot (w : Vector Word 8) : Nat := fld (w.get 0) 8 6
/-- The address of a command. -/
def cmdAddr (w : Vector Word 8) : Nat := fld (w.get 1) 0 48

/-- A context belongs to a virtual function, and was not refused at restore (R326, R329). -/
def State.ownCtx (s : State) (vf ctx : Nat) : Bool :=
  khas s.ctxs ctx && decide ((s.ctxOf ctx).vf = vf) && (s.ctxOf ctx).st != .refused

/-- The partition of a virtual function. -/
def State.fnPart (s : State) (vf : Nat) : Nat := fld (s.reg (.vfcfg vf)) 8 5

/-! FENCEW, FENCES, QUERY (R326) -/

/-- A FENCEW reads its word: it completes, or waits for its next read. -/
def State.pollFence (s : State) (vf q : Nat) (w : Vector Word 8) : State :=
  let (bs, t) := s.hubRead (cmdAddr w) 8
  let v := word (leNat bs)
  if fld (w.get 2) 0 63 ≤ fld v 0 63 then
    if bitOf v.toNat 63 then t.complete vf q 8 (fld v 0 63) else t.complete vf q 0 0
  else t.setQueue vf q { t.queue vf q with headSt := .fenceWait, pollAt := s.clk.hub + 4096 }

/-- A command that names an address: status 2 for a bit it does not name or a misaligned address, status 3 for a target
that the partition's rows do not allow. -/
def State.withAddress (s : State) (vf q : Nat) (w : Vector Word 8) (align part : Nat) (k : State) : State :=
  if commandBad w || decide (cmdAddr w % align ≠ 0) then s.complete vf q 2 0
  else if !s.partAllows part (tgtOf (cmdAddr w)) then s.complete vf q 3 0
  else k

/-- FENCEW (R326). -/
def execFencew (vf q : Nat) (s : State) : Out :=
  .next (s.withCommand vf q (· == 2) fun s w =>
    if (s.queue vf q).headSt = .fenceWait then s
    else s.withAddress vf q w 8 (s.fnPart vf) (s.pollFence vf q w))

/-- FENCEW_POLL (R326). -/
def execFencewPoll (vf q : Nat) (s : State) : Out :=
  let c := s.queue vf q
  .next (match c.head with
  | some w => if c.headSt = .fenceWait then s.pollFence vf q w else s
  | none => s)

/-- A command that has written completes once its write is performed, and acknowledged where it is at another package
(R329; 16_ordering.md R309, R324). -/
def State.completeWritten (s : State) (vf q : Nat) : State :=
  if s.hubOpen (s.fnPart vf) then s.setQueue vf q { s.queue vf q with headSt := .wrote } else s.complete vf q 0 0

/-- FENCES (R326). -/
def execFences (vf q : Nat) (s : State) : Out :=
  .next (s.withCommand vf q (· == 3) fun s w =>
    if (s.queue vf q).headSt = .wrote then s.completeWritten vf q
    else s.withAddress vf q w 8 (s.fnPart vf)
      (((s.hubWrite (s.fnPart vf) (cmdAddr w) (leBytes 8 (fld (w.get 2) 0 63))).kickFences (cmdAddr w)).completeWritten vf q))

/-- QUERY (R326, R277). -/
def execQuery (vf q : Nat) (s : State) : Out :=
  .next (s.withCommand vf q (· == 7) fun s w =>
    if (s.queue vf q).headSt = .wrote then s.completeWritten vf q
    else if !s.ownCtx vf (cmdCtx w) then s.complete vf q 6 0
    else s.withAddress vf q w 64 (s.fnPart vf)
      ((s.hubWrite (s.fnPart vf) (cmdAddr w) ((s.kernel (cmdCtx w) (cmdSlot w)).words.flatMap (leBytes 8))).completeWritten vf q))

/-- RESERVED_QUEUE_COMMAND (R326). -/
def execReservedQueueCommand (vf q : Nat) (s : State) : Out :=
  .next (s.withCommand vf q (fun c => c == 0 || decide (7 < c)) fun s _ =>
    s.setQueue vf q { s.queue vf q with err := true, head := none })

/-! ACKLOSS, SAVE, MOVE (R285, R287; 18_faults_and_preemption.md R355) -/

/-- A wire that carries weight of a kernel of this package's home. -/
def Wire.ofKernel (w : Wire) (ctx ks home : Nat) : Bool :=
  match w with
  | .combine _ c k h _ => c == ctx && k == ks && h == home
  | .ret c k h _ _ => c == ctx && k == ks && h == home
  | .grant _ c k h _ _ _ => c == ctx && k == ks && h == home
  | .loss c k h _ _ _ => c == ctx && k == ks && h == home
  | .stats c k h _ => c == ctx && k == ks && h == home
  | .borrow .. => false
  | .refuse .. => false

/-- A phase without the weight of a kernel's notify arrivals. -/
def Phase.forget (p : Phase) (ctx ks home : Nat) : Phase :=
  { p with arr := p.arr.map fun a => match a.how with
      | .notify _ _ _ c k h => if c = ctx ∧ k = ks ∧ h = home then { a with how := .lost } else a
      | _ => a }

/-- A feeder without a kernel's lists, running or put aside. -/
def Feeder.forget (d : Feeder) (ctx ks home : Nat) : Feeder :=
  let mine (c k h : Nat) : Bool := c == ctx && k == ks && h == home
  let d := if d.st ≠ .idle ∧ mine d.ctx d.kslot d.home = true then d.stopped else d
  { d with saved := d.saved.filter fun v => !mine v.ctx v.kslot v.home }

/-- A flit without a message, a return or a grant of a kernel. -/
def forgetFlit (ctx ks home : Nat) (f : Flit) : Flit :=
  if flitHolds f.body ctx ks home then { f with body := .void } else f

/-- Whatever still holds weight of a kernel that ACKLOSS frees is gone: no later kernel of its slot receives any
(R287). -/
def State.forgetWeight (s : State) (ctx ks : Nat) : State :=
  let home := s.fw.pkg
  let part := (s.ctxOf ctx).part
  { s with
    feeders := s.feeders.map fun (f, d) => (f, d.forget ctx ks home)
    formes := s.formes.map fun (k, f) =>
      if k / 65536 = part then (k, { f with cur := f.cur.forget ctx ks home, nxt := f.nxt.forget ctx ks home }) else (k, f)
    links := s.links.map fun (p, l) => (p, { l with
      unacked := l.unacked.map (forgetFlit ctx ks home), entering := l.entering.map (forgetFlit ctx ks home) })
    home := { s.home with
      wires := s.home.wires.filter fun w => !w.ofKernel ctx ks home
      combiners := s.home.combiners.filter fun e => !(e.ctx == ctx && e.kslot == ks && e.hpkg == home) } }

/-- ACKLOSS (R287). -/
def execAckloss (vf q : Nat) (s : State) : Out :=
  .next (s.withCommand vf q (· == 6) fun s w =>
    let ctx := cmdCtx w
    let ks := cmdSlot w
    let k := s.kernel ctx ks
    if !s.ownCtx vf ctx then s.complete vf q 6 0
    else if commandBad w then s.complete vf q 2 0
    else if k.st = .damaged then ((s.setKernel ctx ks {}).forgetWeight ctx ks).complete vf q 0 0
    else if k.st = .running ∧ k.stall = true ∧ s.stallHolds ctx ks = true then
      ((((s.setKernel ctx ks { k with l := k.w - k.h }).damage ctx ks).setKernel ctx ks {}).forgetWeight ctx ks).complete vf q 0 0
    else s.complete vf q 7 0)

/-- The detail of a context that is not quiescent (R285, R329): its first kernel slot in use, or a pending launch. -/
def State.notQuiet (s : State) (ctx : Nat) : Option Nat :=
  match (List.range 64).find? fun k => (s.kernel ctx k).st ≠ .free with
  | some k => some k
  | none =>
    if s.front.queues.any (fun (_, c) => c.head.any fun w => decide (fld (w.get 0) 0 8 = 1) &&
        decide (cmdCtx w = ctx)) ||
        s.front.conts.any (fun c => decide (cmdCtx c.image = ctx)) then some 0xFFFF
    else none

/-- A context's clusters leave it without an incoming one (R285, 18_faults_and_preemption.md R351): a cluster whose
started transfers are not done stays. -/
def State.saveContext (s : State) (ctx : Nat) : State :=
  (s.ctxOf ctx).placement.foldl (fun t clus =>
    let c := t.clus clus
    if c.ctx ≠ some ctx then t
    else
      let w : Switch := { ctx := ctx, incoming := none, mode := .spill, at_ := t.dieClock (clus / 64), est := 0, miss := false }
      let u := t.wakeAll clus
      (if c.switch.isNone then u.setClus clus { u.clus clus with switch := some w } else u).trySwitch clus) s

/-- No cluster runs a context. -/
def State.vacated (s : State) (ctx : Nat) : Bool := s.clusters.all fun (_, c) => c.ctx != some ctx

/-- An accepted SAVE: the context's clusters leave it, and then it completes (R285). -/
def State.saveOn (s : State) (vf q ctx : Nat) : State :=
  let t := s.saveContext ctx
  if t.vacated ctx then t.complete vf q 0 0 else t.setQueue vf q { t.queue vf q with headSt := .saving }

/-- SAVE (R285): once accepted it is not refused any more. -/
def execSave (vf q : Nat) (s : State) : Out :=
  .next (s.withCommand vf q (· == 4) fun s w =>
    let ctx := cmdCtx w
    if (s.queue vf q).headSt = .saving then s.saveOn vf q ctx
    else if !s.ownCtx vf ctx then s.complete vf q 6 0
    else if commandBad w then s.complete vf q 2 0
    else match s.notQuiet ctx with
      | some d => s.complete vf q 4 d
      | none => s.saveOn vf q ctx)

/-- What a save area holds of a cluster, as MOVE carries it: all but its slots (log entry 36). -/
def SaveArea.image (a : SaveArea) : ClusImage :=
  { lo := a.range.1, hi := a.range.2, bytes := a.vault, empty := a.empty, poison := a.poison, wins := a.wins
    rings := a.rings.map fun (u, r) => ⟨u, r.head, r.tail, r.times, r.ahead⟩
    copies := a.copies.map fun t => ⟨t.id, t.place % 128, t.act, t.regs, t.tsid, t.ctx, t.kslot, t.seq⟩
    waits := a.fwait.map fun w => ⟨w.core % 16, w.msg, w.tsid, w.addr, w.act, w.covered⟩
    returns := a.withheld.map fun w => ⟨w.act, w.ctx, w.kslot, w.hpkg, w.wt⟩
    notices := a.notices
    bufs := a.matrices.map fun (u, m) => (u, m.bufs), accs := a.matrices.map fun (u, m) => (u, m.accs)
    events := a.evq, galleys := a.galleys }

/-- A moved context's save area on a cluster of its new placement. -/
def clusArea (c : ClusImage) (clus : Nat) : SaveArea :=
  { vault := c.bytes, empty := c.empty, poison := c.poison, range := (c.lo, c.hi), wins := c.wins, evq := c.events
    galleys := c.galleys, notices := c.notices
    rings := c.rings.map fun r => (r.core, { head := r.head, tail := r.tail, times := r.times, ahead := r.ahead })
    copies := c.copies.map fun t =>
      { id := t.id, place := clus * 128 + t.place, act := t.act, regs := t.regs, tsid := t.tsid, ctx := t.ctx
        kslot := t.kslot, status := 0, waits := false, seq := t.seq, xres := none }
    fwait := c.waits.map fun w => ⟨coreIn clus w.core, w.msg, w.tsid, w.addr, w.act, w.covered⟩
    withheld := c.returns.map fun w => ⟨w.act, w.ctx, w.kslot, w.hpkg, w.wt⟩
    matrices := c.bufs.map fun (u, b) => (u, { ({} : Matrix) with done := 0, bufs := b, accs := kget [] c.accs u }) }

/-- The registers of a queue. -/
def CmdQueue.image (c : CmdQueue) (q : Nat) : QueueImage :=
  { q := q, base := c.base, cbase := c.cbase, szlg := c.szlg, prio := c.prio, err := c.err, en := c.en, prod := c.prod,
    cons := c.cons }

/-- A counter of a session. -/
def ProfCnt.image (c : ProfCnt) (cix : Nat) : CounterImage :=
  { cix := cix, evt := c.evt, count := c.count, armed := c.armed, per := c.per, left := c.left }

/-- The pages that pre-copy sends: what the memory ports of the context's partition hold, every page of the context
among it, since the context's own mapping is its runtime's (log entry 36). -/
def State.pagesOf (s : State) (part : Nat) : List Host.Cell :=
  s.mem.filter fun (a, _) => decide (tgtOf a < 24) && decide (s.partOfPort (tgtOf a) = part)

/-- The state of a context that MOVE sends (18_faults_and_preemption.md R355; 19_tenants_and_metering.md R369). -/
def State.ctxImage (s : State) (ctx : Nat) (d : MigDesc) : CtxImage :=
  let c := s.ctxOf ctx
  let vf := c.vf
  let se := kget {} s.host.sessions vf
  let l := kget {} s.host.latches vf
  { desc := d, vf := vf, words := c.words, owners := c.owners
    queues := (List.range 8).map fun q => (s.queue vf q).image q
    clusters := c.placement.map fun k => (s.save ctx k).image
    latch := if l.valid then some (l.off, l.val) else none
    isOpen := se.isOpen, st := se.st, ring := s.reg (.psring vf), prod := se.prod, absents := se.absents
    counters := se.cnts.map fun (i, x) => x.image i
    pages := if d.postCopy then [] else s.pagesOf c.part }

/-- What is not in the save area of a context's bytes and tags of a cluster saved, beside what is (R353, R355): where
another context has run since, only the bytes that both allocations hold were saved. -/
def State.saveRest (s : State) (ctx clus : Nat) : State :=
  let a := s.save ctx clus
  let all := s.alloc ctx
  let (lo, hi) := if a.range.1 < a.range.2 then a.range else (all.1, all.1)
  let t := s.saveVault ctx clus (all.1, lo)
  let below := t.save ctx clus
  let u := t.saveVault ctx clus (hi, all.2)
  let above := u.save ctx clus
  u.setSave ctx clus { a with
    vault := below.vault ++ a.vault ++ above.vault
    empty := below.empty ++ a.empty ++ above.empty
    poison := below.poison ++ a.poison ++ above.poison
    range := all }

/-- The vault bytes of every cluster saved, and the context's state sent to its destination (R355). -/
def State.sendContext (s : State) (ctx port : Nat) (d : MigDesc) : State :=
  let t := (s.ctxOf ctx).placement.foldl (fun t clus =>
    let u := if (t.clus clus).left = some ctx then t.setClus clus { t.clus clus with left := none } else t
    u.saveRest ctx clus) s
  { t with front := { t.front with moving := kset t.front.moving ctx true } }.sendFlit port (.context (t.ctxImage ctx d))

/-- A flit carries a moved context. -/
def FlitBody.moves (b : FlitBody) (ctx : Nat) : Bool :=
  match b with
  | .context c => c.desc.ctx == ctx
  | _ => false

/-- A context's state is sent, and the destination has accepted it (R355). -/
def State.moveAccepted (s : State) (ctx : Nat) : Bool :=
  kget false s.front.moving ctx && s.links.all fun (_, l) => l.unacked.all fun f => !FlitBody.moves f.body ctx

/-- What a moved context leaves behind here that may hold weight of kernels homed in other packages: its spilled
activations, and its lists and messages in feeders. A flit of the model carries none of them, so they are killed, with
loss notices of cause 4 (log entry 36, the model's choice). -/
def State.leaveBehind (s : State) (ctx : Nat) : State :=
  let slots := s.saved.flatMap fun (k, a) => if k / 512 = ctx then a.slots else []
  let t := slots.foldl (fun t (p, sl) => if sl.occ then t.lose sl.ctx sl.kslot sl.hpkg (sl.wt + bufferedWeight sl.cbuf) 4 p else t) s
  t.feeders.foldl (fun u (f, d) =>
    let p := feederPlace f
    let lists := d.saved.filter fun v => v.ctx = ctx
    let u := lists.foldl (fun u v => u.lose v.ctx v.kslot v.home v.hold 4 p) u
    let u := (d.away.filter fun m => m.ctx = ctx).foldl (fun u m => u.loseMsg m 4 p) u
    u.setFeeder f { d with saved := d.saved.filter fun v => v.ctx ≠ ctx, away := d.away.filter fun m => m.ctx ≠ ctx }) t

/-- A moved context freed at its source (R355). -/
def State.freeContext (s : State) (ctx : Nat) (d : MigDesc) : State :=
  let s := s.leaveBehind ctx
  { s with
    ctxs := kdel s.ctxs ctx
    saved := s.saved.filter fun (k, _) => k / 512 ≠ ctx
    front := { s.front with moving := kdel s.front.moving ctx }
    fw := { s.fw with pending := s.fw.pending.filter (·.ctx ≠ ctx), moved := s.fw.moved ++ [(d, s.clk.hub)] } }

/-- MOVE (18_faults_and_preemption.md R355): refused without a migration descriptor, with a status no rule states (log
entry 14). Once accepted it stops admission for the context, vacates its clusters, sends its state when the destination
can be reached, and completes when the destination has accepted it. -/
def execMove (vf q : Nat) (s : State) : Out :=
  .next (s.withCommand vf q (· == 5) fun s w =>
    let ctx := cmdCtx w
    if khas s.front.moving ctx then
      match s.fw.pending.find? (·.ctx = ctx) with
      | none => s
      | some d =>
        let r := s.reg (.sprt d.pkg)
        if s.moveAccepted ctx then (s.freeContext ctx d).complete vf q 0 0
        else if kget false s.front.moving ctx then s
        else
          let t := s.saveContext ctx
          if t.vacated ctx && bitOf r.toNat 4 && (t.link (fld r 0 4)).up then t.sendContext ctx (fld r 0 4) d else t
    else if !s.ownCtx vf ctx then s.complete vf q 6 0
    else if commandBad w then s.complete vf q 2 0
    else match s.notQuiet ctx, s.fw.pending.find? (·.ctx = ctx) with
      | some d, _ => s.complete vf q 4 d
      | none, none =>
        { s with clk := { s.clk with draws := s.clk.draws + 1 } }.complete vf q
          (1 + (Config.freeWord s.clk.draws).toNat % 9) 0
      | none, some _ =>
        { s with front := { s.front with moving := kset s.front.moving ctx false } }.saveContext ctx)

/-- A moved context arrives with its state: saved, for the placement its descriptor names, with its vault bytes at the
same offsets in those clusters in their order (R355). Events that this package lacks are absent from its session on
(19_tenants_and_metering.md R369). -/
def State.arriveContext (s : State) (im : CtxImage) : State :=
  let ctx := im.desc.ctx
  let lack := (im.counters.filterMap (·.evt)).filter fun e => decide (0x8000 ≤ e) && !Config.hasEvent e
  let queues := im.queues.foldl (fun m x => kset m (im.vf * 8 + x.q)
    ({ base := x.base, cbase := x.cbase, szlg := x.szlg, prio := x.prio, err := x.err, en := x.en, prod := x.prod,
       cons := x.cons } : CmdQueue)) s.front.queues
  let cnts := im.counters.foldl (fun m x => kset m x.cix
    ({ evt := x.evt, count := x.count, armed := x.armed && !x.evt.any (lack.contains ·), per := x.per,
        left := x.left } : ProfCnt)) []
  let se : Session := { isOpen := im.isOpen, st := im.st, prod := im.prod, cnts := cnts, absents := im.absents ++ lack }
  let l : ReadLatch := match im.latch with
    | some (off, v) => { off := off, val := v, valid := true }
    | none => {}
  let s := im.pages.foldl (fun t (a, b) => t.memStore a [b] []) s
  let t := { s with
    ctxs := kset s.ctxs ctx { words := im.words, placement := im.desc.placement, owners := im.owners }
    saved := (im.desc.placement.zip im.clusters).foldl (fun m (k, c) => kset m (ctx * 512 + k) (clusArea c k)) s.saved
    front := { s.front with queues := queues }
    host := { s.host with
      latches := kset s.host.latches im.vf l
      sessions := kset s.host.sessions im.vf se } }
  t.setReg (.psring im.vf) im.ring

/-! LAUNCH (R327, R328) -/

/-- k of a LAUNCH. -/
def gangSize (w : Vector Word 8) : Nat := 2 ^ fld (w.get 1) 43 2
/-- ELINE of a LAUNCH. -/
def launchLine (w : Vector Word 8) : Nat := fld (w.get 1) 0 40
/-- PADDR. -/
def launchPaddr (w : Vector Word 8) : Nat := fld (w.get 3) 0 48

/-- A reserved bit, a zero weight or a misaligned address (check 2 of R328). -/
def launchBad (w : Vector Word 8) : Bool :=
  decide (fld (w.get 0) 0 8 ≠ 1) || decide (fld (w.get 1) 45 3 ≠ 0) || decide (fld (w.get 1) 40 3 ≠ 0) ||
    decide (fld (w.get 2) 56 8 ≠ 0) || decide (fld (w.get 4) 48 16 ≠ 0) || bitOf (w.get 5).toNat 63 ||
    decide (fld (w.get 6) 48 16 ≠ 0) || decide (fld (w.get 7) 48 16 ≠ 0) || decide (fld (w.get 0) 32 32 = 0) ||
    decide (fld (w.get 4) 0 3 ≠ 0) || decide (fld (w.get 6) 0 6 ≠ 0) || decide (fld (w.get 7) 0 10 ≠ 0) ||
    decide (launchPaddr w % 64 ≠ 0)

/-- Checks 1 to 5 of R328: the status and detail of the first failure. The record given counts as free (R279). -/
def State.launchCheck (s : State) (vf : Nat) (w : Vector Word 8) (free : Option (Nat × Nat)) : Option (Nat × Nat) :=
  let ctx := cmdCtx w
  let part := (s.ctxOf ctx).part
  let named := [fld (w.get 4) 0 48, fld (w.get 6) 0 48, fld (w.get 7) 0 48].filter (· ≠ 0)
  if !s.ownCtx vf ctx then some (6, 0)
  else if launchBad w then some (2, 0)
  else if (s.kernel ctx (cmdSlot w)).st ≠ .free ∧ free ≠ some (ctx, cmdSlot w) then some (1, cmdSlot w)
  else if (launchPaddr w :: named).any fun a => !s.partAllows part (tgtOf a) then some (3, 0)
  else if fld (w.get 0) 32 32 < gangSize w then some (5, 0)
  else none

/-- What reading a handler descriptor comes to. -/
inductive FrontDesc where
  | words (d : List Word) (s : State)
  | wait (s : State)
  | fail (s : State)
deriving DecidableEq

/-- The front end of a partition has its translation request open, with whichever service core received it
(02_main_memory.md R40, R41). -/
def State.frontOpen (s : State) (part : Nat) : Bool := s.clusters.any fun (_, c) => c.asks (.front part)

/-- The front end of a partition asks for a translation for the LAUNCH of a key, or is done asking. -/
def State.setAsking (s : State) (part : Nat) (key : Option Nat) : State :=
  { s with front := { s.front with
      answers := kdel s.front.answers part
      asking := match key with | some k => kset s.front.asking part k | none => kdel s.front.asking part } }

/-- The descriptor of a LAUNCH, read through the partition's translation cluster as requester 0xFFFF with kind 8 (R328;
02_main_memory.md R41, R42); the key tells the LAUNCH. The partition's front end is one requester: a LAUNCH waits while
it asks for another. -/
def State.frontDesc (s : State) (key : Nat) (w : Vector Word 8) : FrontDesc :=
  let c := s.ctxOf (cmdCtx w)
  let part := c.part
  let va := c.descLine (launchLine w)
  let px := s.reg (.pxlate part)
  let ask (t : State) : FrontDesc :=
    if t.frontOpen part then .wait t
    else if !bitOf px.toNat 16 then .fail (t.setAsking part none)
    else .wait ((t.setAsking part (some key)).openXlat (clusOf (fld px 0 16)) c.tsid
      { who := .front part, kind := 8, abortable := false, va := va })
  if khas s.front.asking part && kget 0 s.front.asking part != key then .wait s
  else if !khas s.front.answers part then ask s
  else
    let t := s.setAsking part none
    match kget none s.front.answers part with
    | none => .fail t
    | some e =>
      let pa := e.phys va
      if !e.covers c.tsid va then ask t
      else if !e.permits .fetch true || !s.partAllows part (tgtOf pa) || s.linkDown pa ||
          s.xbar.silent.contains (tgtOf pa) ||
          (decide (tgtOf pa < 24) && decide (2 ^ 39 ≤ ofsOf pa)) then .fail t
      else
        let (bs, u) := t.hubRead pa 64
        .words (wordsOfBytes 8 bs) u

/-- Check 7 of R328: the GANG flag does not fit the gang's size. -/
def gangBad (w : Vector Word 8) (d : List Word) : Bool := bitOf (d.getD 0 0).toNat 2 != decide (2 ≤ gangSize w)

/-- The key of a queue's descriptor request. -/
def queueKey (vf q : Nat) : Nat := vf * 8 + q

/-- LAUNCH (R328): its checks, then its descriptor; then it waits for admission. -/
def execLaunch (vf q : Nat) (s : State) : Out :=
  .next (s.withCommand vf q (· == 1) fun s w =>
    match (s.queue vf q).headSt with
    | .launchReady => s
    | st =>
      match (if st = .read then s.launchCheck vf w none else none) with
      | some (code, d) => s.complete vf q code d
      | none =>
        match s.frontDesc (queueKey vf q) w with
        | .wait t => t.setQueue vf q { t.queue vf q with headSt := .launchXlat }
        | .fail t => t.complete vf q 9 0
        | .words d t =>
          if gangBad w d then t.complete vf q 5 0
          else t.setQueue vf q { t.queue vf q with headSt := .launchReady, desc := d })

/-! Continuations (14_weight_and_quiescence.md R279) -/

/-- A continuation refused: the host is told. -/
def State.contRefused (s : State) (ctx kslot status : Nat) : State := s.irq (s.ctxOf ctx).vf 1 [328, ctx, kslot, status]

/-- The key of a continuation's descriptor request. -/
def contKey (c : Contn) : Nat := 512 + c.since

/-- Checks 6 and 7 of a continuation that has not passed them. -/
def State.contStep (s : State) (c : Contn) : State :=
  let drop (t : State) : State := { t with front := { t.front with conts := t.front.conts.filter (· ≠ c) } }
  if c.desc.isSome then s
  else match s.frontDesc (contKey c) c.image with
    | .wait t => t
    | .fail t => (drop t).contRefused c.ctx c.kslot 9
    | .words d t =>
      if gangBad c.image d then (drop t).contRefused c.ctx c.kslot 5
      else
        let put (x : Contn) : Contn := if x = c then { x with desc := some d } else x
        { t with front := { t.front with conts := t.front.conts.map put } }

/-- The continuation of a completed kernel submitted (step 3 of R279). -/
def State.submitCont (s : State) (ctx kslot : Nat) : State :=
  let k := s.kernel ctx kslot
  if k.cont = 0 then s
  else
    let (bs, t) := s.hubRead k.cont 64
    let ws := wordsOfBytes 8 bs
    let w := Vector.ofFn fun i : Fin 8 => ws.getD i.val 0
    match t.launchCheck (s.ctxOf ctx).vf w (some (ctx, kslot)) with
    | some (code, _) => t.contRefused ctx kslot code
    | none =>
      let c : Contn := { ctx := ctx, kslot := kslot, image := w, since := s.clk.hub, desc := none }
      { t with front := { t.front with conts := t.front.conts ++ [c] } }.contStep c

/-! Placing (R333) -/

/-- A die is hot (R335). -/
def State.hot (s : State) (die : Nat) : Bool :=
  let r := s.reg (.dpctl die)
  decide ((s.die die).step = fld r 40 5) && decide (fld r 32 8 ≤ (s.die die).temp)

/-- Headroom of a die (R335). -/
def State.headroom (s : State) (die : Nat) : Nat := fld (s.reg (.dpctl die)) 32 8 - (s.die die).temp

/-- A core is free for a gang. -/
def State.gangFree (s : State) (core : Nat) : Bool := (s.core core).gang.isNone && !(s.slot (core * 8)).occ

/-- The cores of a block. -/
def blockCores (clus j k : Nat) : List Nat := (List.range k).map fun i => coreIn clus (j * k + i)

/-- The offered blocks of a gang: cluster and number. -/
def State.blocks (s : State) (c : Context) (k : Nat) : List (Nat × Nat) :=
  (c.placement.flatMap fun clus => (List.range (8 / k)).map fun j => (clus, j)).filter fun (clus, j) =>
    !s.hot (clus / 64) && (blockCores clus j k).all s.gangFree

/-- One block goes before another: headroom, the die of the owner-map entry, the cluster, the number. -/
def State.blockBefore (s : State) (die : Nat) (a b : Nat × Nat) : Bool :=
  let ha := s.headroom (a.1 / 64)
  let hb := s.headroom (b.1 / 64)
  let da := decide (a.1 / 64 = die)
  let db := decide (b.1 / 64 = die)
  if ha ≠ hb then decide (hb < ha) else if da != db then da else if a.1 ≠ b.1 then decide (a.1 < b.1) else decide (a.2 < b.2)

/-- The best of several blocks. -/
def State.bestBlock (s : State) (die : Nat) : List (Nat × Nat) → Option (Nat × Nat)
  | [] => none
  | b :: bs =>
    match s.bestBlock die bs with
    | none => some b
    | some x => some (if s.blockBefore die x b then x else b)

/-- Where a launch goes: to an owner-map entry, or to a block. -/
inductive Placed where
  | one (place : Nat)
  | block (clus j : Nat)
deriving DecidableEq

/-- Place (R333). -/
def State.placeLaunch (s : State) (w : Vector Word 8) : Option Placed :=
  let c := s.ctxOf (cmdCtx w)
  let dest := c.owner (w.get 2)
  let k := gangSize w
  if k = 1 then
    if isSlot dest && s.hot (dieOf dest) then none else some (.one dest)
  else (s.bestBlock (dieOf dest) (s.blocks c k)).map fun b => .block b.1 b.2

/-! Energy (R334) -/

/-- The estimate of a launch, in mJ. -/
def State.launchEnergy (s : State) (part : Nat) (w : Vector Word 8) : Nat :=
  let e := fld (w.get 3) 48 16
  (if e = 0 then fld (s.reg (.pebud part)) 0 16 else e) * 16

/-- BUDGET of a partition. -/
def State.budgetOf (s : State) (part : Nat) : Nat := fld (s.reg (.pebud part)) 32 32

/-- EnergyOK. -/
def State.energyOk (s : State) (part : Nat) (w : Vector Word 8) : Bool :=
  let b := s.budgetOf part
  let r := (s.part part).rem
  decide (b = 0) || decide (s.launchEnergy part w ≤ r) || decide (r = b)

/-- ENERGY_INTERVAL_START (R334). -/
def execEnergyIntervalStart (part : Nat) (s : State) : Out :=
  .next (if part < 24 then s.setPart part { s.part part with rem := s.budgetOf part, used := 0 } else s)

/-! Admission (R330, R331) -/

/-- A launch candidate: its queue, or its continuation; the LAUNCH, its age's start, its priority, its descriptor. -/
structure Cand where
  queue : Option (Nat × Nat)
  cont : Option Contn
  image : Vector Word 8
  since : Nat
  prio : Nat
  desc : List Word
deriving DecidableEq, Repr

/-- A candidate put in its place among those of the queues: PRIO ascending, then age descending. -/
def candInsert (a : Cand) : List Cand → List Cand
  | [] => [a]
  | b :: bs => if a.prio < b.prio ∨ (a.prio = b.prio ∧ a.since < b.since) then a :: b :: bs else b :: candInsert a bs

/-- A SAVE of a context has been accepted and goes on (14_weight_and_quiescence.md R285). -/
def State.saving (s : State) (ctx : Nat) : Bool :=
  s.front.queues.any fun (_, c) => c.headSt == .saving && c.head.any fun w => cmdCtx w == ctx

/-- A context of a partition may be admitted now (R330; one that is broken, moving or being saved may not:
14_weight_and_quiescence.md R285; 18_faults_and_preemption.md R355, R356). -/
def State.admits (s : State) (part ctx : Nat) : Bool :=
  decide ((s.ctxOf ctx).part = part) && decide ((s.ctxOf ctx).st = .running) && !khas s.front.moving ctx &&
      !s.saving ctx

/-- Candidates of a partition in the order of R331: continuations, then the heads of enabled queues of enabled
functions. -/
def State.candidates (s : State) (part : Nat) : List Cand :=
  let conts := s.front.conts.filterMap fun c =>
    if s.admits part (cmdCtx c.image) then c.desc.map fun d => (⟨none, some c, c.image, c.since, 0, d⟩ : Cand) else none
  let heads := s.front.queues.filterMap fun (k, c) =>
    match c.head with
    | some w =>
      if c.headSt = .launchReady ∧ c.en = true ∧ s.fnEnabled (k / 8) = true ∧ s.admits part (cmdCtx w) = true then
        some (⟨some (k / 8, k % 8), none, w, c.since, c.prio, c.desc⟩ : Cand)
      else none
    | none => none
  conts ++ heads.foldl (fun l c => candInsert c l) []

/-- A candidate's refusal at its start: its queue's completion, or the host's event (R277, R279). -/
def State.endCand (s : State) (c : Cand) (status detail : Nat) : State :=
  match c.queue, c.cont with
  | some (vf, q), _ => s.complete vf q status detail
  | none, some x =>
    let t := { s with front := { s.front with conts := s.front.conts.filter (· ≠ x) } }
    if status = 0 then t else t.contRefused x.ctx x.kslot status
  | none, none => s

/-- A launch message (R328). -/
def State.launchMsg (s : State) (w : Vector Word 8) (wt dest : Nat) (payload : List Word) : Msg :=
  { wt := wt, eline := launchLine w, cls := fld (w.get 0) 14 2, kslot := cmdSlot w, ctx := cmdCtx w, src := hubPlace,
    dest := dest, spkg := s.fw.pkg, hpkg := s.fw.pkg, dpkg := s.fw.pkg, payload := payload, arrived := 0 }

/-- The messages of a gang as they arrive at their cores: one that an armed injection drops is lost (20_debug.md R380).
-/
def State.gangArrives (s : State) : List (Nat × Msg) → List (Nat × Msg) × State
  | [] => ([], s)
  | (core, m) :: ms =>
    if s.dropsAt m then (s.dropInjected m).gangArrives ms
    else
      let (l, t) := s.gangArrives ms
      ((core, m) :: l, t)

/-- A gang's cores hold its members and wake; the members bind in slot 0 of every core in one cycle, now or in the first
cycle in which each of them can (R333). -/
def State.bindGang (s : State) (clus : Nat) (ms : List (Nat × Msg)) (d : List Word) : State :=
  let (ms, s) := s.gangArrives ms
  let held := ms.foldl (fun t (core, m) => (t.setCore core { t.core core with gang := some m }).wakeGated core)
    (s.wakeGatedCluster clus)
  let t := { held with front := { held.front with gangs := held.front.gangs ++ [(ms, d)] } }
  if t.gangReady (ms, d) then t.bindMembers (ms, d) else t

/-- Start (R328, R331): the record, REM, and the launch messages. -/
def State.startLaunch (s : State) (part : Nat) (c : Cand) (pl : Placed) : State :=
  let w := c.image
  let ctx := cmdCtx w
  let ks := cmdSlot w
  if (s.kernel ctx ks).st ≠ .free then s.endCand c 1 ks
  else
    let (bs, t) := s.hubRead (launchPaddr w) 64
    let payload := wordsOfBytes 8 bs
    let wt := fld (w.get 0) 32 32
    let wto := fld (w.get 1) 48 16
    let k : Kernel := {
      st := .running, w := wt, faddr := fld (w.get 4) 0 48, fval := fld (w.get 5) 0 63, cont := fld (w.get 6) 0 48,
      sblk := fld (w.get 7) 0 48, last := s.homeCycle
      wto := if wto = 0 then fld (s.reg (.padm part)) 48 16 else if wto = 0xFFFF then 0 else wto }
    let p := t.part part
    let u := (t.setKernel ctx ks k).setPart part { p with rem := p.rem - s.launchEnergy part w }
    let v := match pl with
      | .one dest => u.post (u.launchMsg w wt dest payload)
      | .block clus j =>
        let n := gangSize w
        let cores := blockCores clus j n
        u.bindGang clus ((List.range n).zip cores |>.map fun (i, core) =>
          (core, u.launchMsg w (wt / n + (if i < wt % n then 1 else 0)) (core * 8) payload)) c.desc
    v.endCand c 0 0

/-- The first candidate that may start, of those given. -/
def State.startFirst (s : State) (part k : Nat) : List Cand → State
  | [] => s
  | c :: cs =>
    if gangSize c.image < k ∧ s.energyOk part c.image = true then
      match s.placeLaunch c.image with
      | some pl => s.startLaunch part c pl
      | none => s.startFirst part k cs
    else s.startFirst part k cs

/-- Admit (R331). -/
def State.admitPart (s : State) (part : Nat) : State :=
  match s.candidates part with
  | [] => s
  | h :: rest =>
    match (if s.energyOk part h.image then s.placeLaunch h.image else none) with
    | some pl => s.startLaunch part h pl
    | none =>
      if fld (s.reg (.padm part)) 0 32 < s.clk.hub - h.since then s
      else s.startFirst part (gangSize h.image) rest

/-- ADMISSION_RUN (R331): every 64 hub cycles; continuations whose descriptors have not been read try again first. -/
def execAdmissionRun (part : Nat) (s : State) : Out :=
  .next (if s.fw.halted || decide (24 ≤ part) || (khas s.front.lastRun part &&
      decide (s.clk.hub < kget 0 s.front.lastRun part + 64)) then s
    else
      let t := { s with front := { s.front with lastRun := kset s.front.lastRun part s.clk.hub } }
      ((t.front.conts.filter fun c => decide ((t.ctxOf (cmdCtx c.image)).part = part)).foldl State.contStep t).admitPart part)

end Sys2Proof.Machine
end

