-- ==== Sys2Proof/Machine/Weight.lean ====
section
/-!
DEFINITION. Weight, loss notices, borrows and statistics on their way home, the shard combiners, completion and the
watchdog's event (14_weight_and_quiescence.md R278 to R286; 11_matrix_unit.md R252; 21_host_firmware_security.md R387).
-/

namespace Sys2Proof.Machine

/-- The state without the wire at an index. -/
def State.dropWire (s : State) (i : Nat) : State := { s with home := { s.home with wires := s.home.wires.eraseIdx i } }

/-- A wire ahead of the one at an index satisfies a test. -/
def State.wireAhead (s : State) (i : Nat) (f : Wire → Bool) : Bool := (s.home.wires.take i).any f

/-- Statistics counts of a kernel. -/
def Wire.isStats (w : Wire) (ctx ks hpkg : Nat) : Bool :=
  match w with
  | .stats c k h _ => c == ctx && k == ks && h == hpkg
  | _ => false

/-- A return to a kernel's record. -/
def Wire.isRet (w : Wire) (ctx ks hpkg : Nat) : Bool :=
  match w with
  | .ret c k h _ _ => c == ctx && k == ks && h == hpkg
  | _ => false

/-- Weight stays behind its kernel's statistics counts, so that every count reaches the home before it
(11_matrix_unit.md R252). -/
def State.statsAhead (s : State) (i ctx ks hpkg : Nat) : Bool := s.wireAhead i fun w => w.isStats ctx ks hpkg

/-- WEIGHT_RETURN (R278, R283): a return for another package's home leaves by its route, or is dropped with a loss
notice. It releases at system scope the writes of the work whose weight it returns, and of the work that passed weight
on to it (12_way_back.md R256): it leaves once this package has no unacknowledged write of its kernel. -/
def execWeightReturn (i : Nat) (s : State) : Out :=
  .next (match s.home.wires[i]? with
  | some (.ret ctx ks hpkg amt src) =>
    let t := s.dropWire i
    if s.statsAhead i ctx ks hpkg || s.writesOpen ctx ks then s
    else if hpkg = s.fw.pkg then t.comeHome ctx ks amt src false
    else match s.routeTo hpkg with
      | some p => t.sendFlit p (.ret ctx ks hpkg amt)
      | none => t.lose ctx ks hpkg amt 3 src
  | _ => s)

/-- LOSS_NOTICE (R278, R283): a notice that cannot be delivered is lost. -/
def execLossNotice (i : Nat) (s : State) : Out :=
  .next (match s.home.wires[i]? with
  | some (.loss ctx ks hpkg amt cause place) =>
    let t := s.dropWire i
    if s.statsAhead i ctx ks hpkg then s
    else if hpkg = s.fw.pkg then t.comeHome ctx ks amt place true
    else match s.routeTo hpkg with
      | some p => t.sendFlit p (.loss ctx ks hpkg amt cause place)
      | none => t
  | _ => s)

/-- BORROW_REQUEST (R278, R280, R284): a borrow follows the returns of its key that left before it (R281). -/
def execBorrowRequest (i : Nat) (s : State) : Out :=
  .next (match s.home.wires[i]? with
  | some (.borrow ctx ks hpkg amt place spkg act) =>
    let t := s.dropWire i
    if s.wireAhead i (fun w => w.isRet ctx ks hpkg) then s
    else if hpkg = s.fw.pkg then
      let k := s.kernel ctx ks
      if k.st ≠ .running then (t.conservation 2 ctx ks amt place).wire (.refuse spkg ctx ks place amt act)
      else if k.h < amt then t.wire (.refuse spkg ctx ks place amt act)
      else (t.setKernel ctx ks { k with h := k.h - amt }).wire (.grant spkg ctx ks hpkg place amt act)
    else match s.routeTo hpkg with
      | some p => t.sendFlit p (.borrow ctx ks hpkg amt place spkg act)
      | none => t.wire (.refuse spkg ctx ks place amt act)
  | _ => s)

/-- The activation of a slot waits for a grant of an amount of its kernel's weight. -/
def Slot.waitsGrant (sl : Slot) (ctx ks amt act : Nat) : Bool :=
  sl.occ && sl.park == .grant amt && decide (sl.ctx = ctx) && decide (sl.kslot = ks) && decide (sl.act = act)

/-- The slot of a context at a place, live or spilled, in which an activation waits for a grant of a kernel's weight:
the slot, and the state with another in its stead. -/
def State.grantWaiter (s : State) (ctx ks place amt act : Nat) : Option (Slot × (Slot → State)) :=
  let a := s.save ctx (clusOf place)
  if (s.slot place).waitsGrant ctx ks amt act then some (s.slot place, fun x => s.setSlot place x)
  else if khas a.slots place && (kget {} a.slots place).waitsGrant ctx ks amt act then
    some (kget {} a.slots place, fun x => s.setSave ctx (clusOf place) { a with slots := kset a.slots place x })
  else none

/-- The slot with a granted amount, its WBOR retired. -/
def Slot.granted (sl : Slot) (amt : Nat) : Slot :=
    { sl.retire [] with wt := sl.wt + amt, park := .run, skipBp := false }

/-- BORROW_GRANT (R280): the grant reaches the slot, live or spilled; units for a slot that has been killed are lost to
their home (13_handlers_and_messages.md R265). -/
def execBorrowGrant (i : Nat) (s : State) : Out :=
  .next (match s.home.wires[i]? with
  | some (.grant pkg ctx ks hpkg place amt act) =>
    let t := s.dropWire i
    if pkg ≠ s.fw.pkg then
      match s.routeTo pkg with
      | some p => t.sendFlit p (.grant pkg ctx ks hpkg place amt act)
      | none => t.lose ctx ks hpkg amt 3 hubPlace
    else match t.grantWaiter ctx ks place amt act with
      | some (sl, put) => put (sl.granted amt)
      | none => t.lose ctx ks hpkg amt 4 place
  | _ => s)

/-- BORROW_REFUSAL (R280): the slot traps with cause 0x0A. -/
def execBorrowRefusal (i : Nat) (s : State) : Out :=
  .next (match s.home.wires[i]? with
  | some (.refuse pkg ctx ks place amt act) =>
    let t := s.dropWire i
    if pkg ≠ s.fw.pkg then
      match s.routeTo pkg with
      | some p => t.sendFlit p (.refuse pkg ctx ks place amt act)
      | none => t
    else match t.grantWaiter ctx ks place amt act with
      | some (sl, put) =>
        let u := put (sl.takeTrap (t.ctxOf sl.ctx).ttab 0x0A (word amt) sl.pc false 0 false false 0)
        { u with clk := { u.clk with traps := u.clk.traps + 1 } }
      | none => t
  | _ => s)

/-- STATISTICS_COUNT_ARRIVAL (11_matrix_unit.md R252): counts for another package's home leave by its route. -/
def execStatisticsCountArrival (i : Nat) (s : State) : Out :=
  .next (match s.home.wires[i]? with
  | some (.stats ctx ks hpkg cnt) =>
    let t := s.dropWire i
    if hpkg ≠ s.fw.pkg then
      match s.routeTo hpkg with
      | some p => t.sendFlit p (.stats ctx ks hpkg cnt)
      | none => t
    else
    let k := t.kernel ctx ks
    t.setKernel ctx ks { k with stats := cnt.foldl statAdd k.stats }
  | _ => s)

/-! Combiners (R281) -/

/-- An entry's key is that of a return. -/
def Combine.hits (e : Combine) (shard ctx ks hpkg : Nat) : Bool :=
  decide (e.shard = shard) && decide (e.ctx = ctx) && decide (e.kslot = ks) && decide (e.hpkg = hpkg)

/-- An entry flushed: one return of its sum to the home. -/
def State.flushEntry (s : State) (e : Combine) : State :=
  { s with home := { s.home with combiners := s.home.combiners.erase e } }.wire (.ret e.ctx e.kslot e.hpkg e.sum hubPlace)

/-- A return put into its combiner: merged, or in a new entry, for which the oldest of 32 that may be is flushed; none
where no entry may be flushed yet, and the return waits. -/
def State.combine (s : State) (shard ctx ks hpkg amt : Nat) : Option State :=
  let new (t : State) : Option State :=
    let mine := t.home.combiners.filter fun e => e.shard = shard
    let room := if mine.length < 32 then some t else (mine.find? t.canFlush).map t.flushEntry
    room.map fun u =>
      { u with home := { u.home with combiners := u.home.combiners ++ [⟨shard, ctx, ks, hpkg, amt, u.dieClock (shard / 4)⟩] } }
  match s.home.combiners.find? (fun e => e.hits shard ctx ks hpkg) with
  | none => new s
  | some e =>
    if 2 ^ 32 - 1 < e.sum + amt then (if s.canFlush e then new (s.flushEntry e) else none)
    else
      let put (x : Combine) : Combine := if x = e then { x with sum := x.sum + amt } else x
      some { s with home := { s.home with combiners := s.home.combiners.map put } }

/-- COMBINER_RETURN (R281). -/
def execCombinerReturn (i : Nat) (s : State) : Out :=
  .next (match s.home.wires[i]? with
  | some (.combine shard ctx ks hpkg amt) => ((s.dropWire i).combine shard ctx ks hpkg amt).getD s
  | _ => s)

/-- COMBINER_FLUSH (R281): the i-th entry of a shard, 256 cycles after its first return. -/
def execCombinerFlush (shard i : Nat) (s : State) : Out :=
  .next (match (s.home.combiners.filter fun e => e.shard = shard)[i]? with
  | some e => if e.since + 256 ≤ s.dieClock (shard / 4) ∧ s.canFlush e = true then s.flushEntry e else s
  | none => s)

/-! Completion and stall (R279, R286) -/

/-- A matrix unit holds statistics counts for a kernel slot that are those of a slot's activation: its owner, of a
kernel whose record is here, has given its weight away. -/
def State.holdsStats (s : State) (ctx ks : Nat) (m : Matrix) (slot : Nat → Slot) : Bool :=
  m.owner.any fun p =>
    let sl := slot p
    sl.ctx == ctx && sl.kslot == ks && sl.hpkg == s.fw.pkg && !(kget [] m.stats ks).isEmpty

/-- A matrix unit, live or saved with its owner, holds statistics counts for a kernel. -/
def State.statsHeld (s : State) (ctx ks : Nat) : Bool :=
  s.cores.any (fun (_, k) => s.holdsStats ctx ks k.mx s.slot) ||
    s.saved.any fun (_, a) => a.matrices.any fun (_, m) => s.holdsStats ctx ks m fun p => kget {} a.slots p

/-- Statistics counts of a kernel are on their way, or have not left. -/
def State.statsOut (s : State) (ctx ks : Nat) : Bool :=
  s.home.wires.any (fun w => w.isStats ctx ks s.fw.pkg) || s.statsHeld ctx ks

/-- A flit that makes a kernel's members leave at another package has not been retired. -/
def State.leavesOut (s : State) (ctx ks : Nat) : Bool :=
  s.links.any fun (_, l) => l.unacked.any fun f => match f.body with
    | .leave _ c k h => c == ctx && k == ks && h == s.fw.pkg
    | _ => false

/-- The last steps of a completion: the continuation, and the slot free, once the leaves of the kernel's members at
other packages have been taken there (15_formes.md R301). -/
def State.completeEnd (s : State) (ctx ks : Nat) : State :=
  if s.leavesOut ctx ks then s else
  let t := s.submitCont ctx ks
  let k := t.kernel ctx ks
  (t.setKernel ctx ks { k with
    st := .free, stall := false, xs := false, w := 0, l := 0, h := 0, last := 0, wto := 0, quiet := 0, stats := [],
        stage := 0 }).irq
    (s.ctxOf ctx).vf 0 [279, ctx, ks]

/-- KERNEL_COMPLETION (R279): the completion steps of a completing record, once every count is in; each is performed
before the next begins, and so are the damage steps of a record that waits for one. -/
def execKernelCompletion (ctx ks : Nat) (s : State) : Out :=
  let k := s.kernel ctx ks
  .next (if k.st = .completing then
      if k.stage = 0 ∧ s.statsOut ctx ks = true then s else s.completionSteps ctx ks false State.completeEnd
    else if k.st = .damaged ∧ k.stage ≠ 0 then s.completionSteps ctx ks true State.damageEnd
    else s)

/-- WEIGHT_STALL (R286): once per stall. -/
def execWeightStall (ctx ks : Nat) (s : State) : Out :=
  let k := s.kernel ctx ks
  .next (if k.st = .running ∧ k.stall = false ∧ k.wto ≠ 0 ∧ k.wto * 4096 ≤ k.quiet ∧ s.stallHolds ctx ks = true then
      (s.setKernel ctx ks { k with stall := true }).irq (s.ctxOf ctx).vf 1 [286, ctx, ks, k.w, k.h, k.l]
    else s)

end Sys2Proof.Machine
end

