-- ==== Sys2Proof/Machine/Debug.lean ====
section
/-!
DEFINITION. The debug modules and profiling sessions (20_debug.md R370 to R381).
-/

namespace Sys2Proof.Machine

/-! Halting (R371, R372) -/

/-- A debug request reaches a cluster: an event for WFI (08_scalar_instructions.md R162), and one that wakes its gated
cores and the cluster (17_scheduling_and_power.md R339). -/
def State.debugRequest (s : State) (clus : Nat) : State := (s.wakeAll clus).wakeCluster clus

/-- A cluster halted by request. -/
def State.debugHalt (s : State) (clus : Nat) : State := (s.debugRequest clus).haltCluster clus 1

/-- DEBUG_HALT (R372). -/
def execDebugHalt (clus : Nat) (s : State) : Out := .next (s.debugHalt clus)

/-- A halted slot goes on at its next head, which is not matched again (R376). -/
def Slot.unhalt (sl : Slot) : Slot := if sl.halted then { sl with halted := false, skipBp := true } else sl

/-- Every halted slot of a cluster goes on, and the freeze lifts; a step under way reports nothing any more: no rule
says what becomes of it (log entry 32, the model's choice). -/
def State.debugResume (s : State) (clus : Nat) : State :=
  let s := s.debugRequest clus
  let t := { s with slots := s.slots.map fun (k, sl) => if clusOf k = clus then (k, Slot.unhalt sl) else (k, sl) }
  let c := t.clus clus
  t.setClus clus { c with
    halted := false, frozen := false, stepping := none, stepst := if c.stepping.isSome then 0 else c.stepst }

/-- DEBUG_RESUME (R372). -/
def execDebugResume (clus : Nat) (s : State) : Out := .next (s.debugResume clus)

/-! Stepping (R375) -/

/-- A step of a halted slot begins: it may issue while its count of retired heads is the one noted. -/
def State.debugStep (s : State) (clus core slot : Nat) : State :=
  let place := coreIn clus core * 8 + slot
  let sl := s.slot place
  let c := s.clus clus
  if c.stepping.isSome || decide (8 < core) || decide (7 < slot) || !sl.halted || !sl.occ then s
  else
    (s.setSlot place { sl.unhalt with stepTrap := false }).setClus clus
      { c with stepping := some (place, 0, sl.heads.toNat), stepAct := (sl.ctx, sl.kslot, sl.pc), stepst := 1, frozen := false }

/-- DEBUG_STEP (R375): discarded while a step runs, or when the slot is not halted or holds no activation. -/
def execDebugStep (clus core slot : Nat) (s : State) : Out := .next (s.debugStep clus core slot)

/-- What a stepped head still waits for: nothing, its own completion, a copy transfer, a matrix command, messages in its
interface, its result, the i-th outstanding one, or the reductions of an activation that has ended. -/
inductive StepWait where
  | none_ | retire | copy (id : Nat) | command (seq : Nat) | messages | result (i : Nat) | reductions (act : Nat)
deriving DecidableEq, Repr

/-- The numbers a cluster keeps of it. -/
def StepWait.code (w : StepWait) : Nat × Nat :=
  match w with
  | .none_ => (1, 0)
  | .retire => (0, 0)
  | .copy id => (2, id)
  | .command q => (3, q)
  | .messages => (4, 0)
  | .result i => (5, i)
  | .reductions act => (6, act)

/-- A stepped slot's head has issued and retired: the slot halts again, and the step awaits what the head started. -/
def State.stepIssued (s : State) (place : Nat) (w : StepWait) : State :=
  let clus := clusOf place
  let t := s.setSlot place { s.slot place with halted := (s.slot place).occ }
  t.setClus clus { t.clus clus with stepping := some (place, w.code.1, w.code.2) }

/-- The end of a step: the copy engine is frozen again with FRZ, but for a slice end under way (R374). -/
def State.stepOver (s : State) (clus st : Nat) : State :=
  let c := s.clus clus
  s.setClus clus { c with stepping := none, stepst := BitVec.ofNat 8 st, frozen := c.frz && c.switch.isNone }

/-- The end of a step of an activation that goes on: its slot is halted. -/
def State.stepHalt (s : State) (place st : Nat) : State :=
  let sl := s.slot place
  (s.setSlot place { sl with halted := sl.occ }).stepOver (clusOf place) st

/-- A step reports with a status, for the head of an activation at a PC (R378). -/
def State.stepDone (s : State) (place st ctx kslot : Nat) (pc : Word) : State :=
  (s.stepHalt place st).trace place 5 st ctx kslot pc 0

/-- A step whose head trapped reports, with the head's PC. -/
def State.stepTrapped (s : State) (place : Nat) : State :=
  let (ctx, kslot, pc) := (s.clus (clusOf place)).stepAct
  s.stepDone place 4 ctx kslot pc

/-- A slot's head is parked or stalled (04_vaults.md R77; 09_memory_instructions.md R172; 15_formes.md R296;
18_faults_and_preemption.md R343; 08_scalar_instructions.md R162), or waits for a grant. -/
def State.headStalls (s : State) (place : Nat) : Bool :=
  match (s.slot place).park with
  | .run => s.heldClosed place (s.slot place)
  | .sdown => false
  | .remote => false
  | .xlat => s.stalled place
  | _ => true

/-- STEPST 3: the head waits. -/
def State.stepWaits (s : State) (clus : Nat) : State := s.setClus clus { s.clus clus with stepst := 3 }

/-- Reductions of an activation that were made at their ports have not been performed, here or at another package
(16_ordering.md R309). -/
def State.actReds (s : State) (place act : Nat) : Bool :=
  s.xbar.outstanding.any fun (q, _) =>
    decide (q.row < 32) && decide (q.src = place) && decide (q.act = act) && isPortRed q.op

/-- What a stepped head that has retired started is still under way. A message has left its sender's interface when its
target has taken it (13_handlers_and_messages.md R266). -/
def State.stepBusy (s : State) (place kind n : Nat) : Bool :=
  match kind with
  | 2 => (s.clus (clusOf place)).transfers.any (·.id = n)
  | 3 => (s.core (coreOf place)).mx.queue.any (fun q => q.seq = n)
  | 4 => s.net.any (fun x => decide (x.msg.src = place) && decide (x.msg.arrived = 0))
  | 6 => s.actReds place n
  | _ => false

/-- The report of a long-latency head, when its result has returned and is held (R373); one that failed is trapped when
every result has returned (07_instruction_lines.md R133), and reported after its trap (R377). -/
def State.stepResult (s : State) (place n : Nat) : State :=
  let sl := s.slot place
  let c := s.clus (clusOf place)
  match sl.outs[n]? with
  | none => s.stepDone place 2 c.stepAct.1 c.stepAct.2.1 c.stepAct.2.2
  | some r =>
    if r.val = .waiting ∨ (r.val = .deferred ∧ s.stalled place = true) then s.stepWaits (clusOf place)
    else if !r.settled then s
    else if !r.failed then s.stepDone place 2 c.stepAct.1 c.stepAct.2.1 c.stepAct.2.2
    else if !sl.outs.all OutRes.settled then s
    else match firstFailure sl.outs with
      | some (f, second) => s.lateTrap place f second
      | none => s

/-- STEP_REPORT (R375): when what the head started has drained; a head that parks or stalls sets STEPST to 3. -/
def execStepReport (clus : Nat) (s : State) : Out :=
  let c := s.clus clus
  .next (match c.stepping with
  | none => s
  | some (place, kind, n) =>
    let sl := s.slot place
    if kind = 6 then
      if s.stepBusy place kind n then s
      else (s.stepOver clus 2).trace place 5 2 c.stepAct.1 c.stepAct.2.1 c.stepAct.2.2 0
    else if sl.stepTrap then s.stepTrapped place
    else if kind = 0 then
      if !sl.occ || decide (sl.heads.toNat ≠ n) then s.stepDone place 2 c.stepAct.1 c.stepAct.2.1 c.stepAct.2.2
      else if s.headStalls place then s.stepWaits clus
      else s
    else if kind = 5 then s.stepResult place n
    else if s.stepBusy place kind n then s
    else s.stepDone place 2 c.stepAct.1 c.stepAct.2.1 c.stepAct.2.2)

/-! Breakpoints (R376) -/

/-- A breakpoint register matches a slot. -/
def bpMatches (dbpctx : BitVec 12) (sl : Slot) (d : Word) : Bool :=
  bitOf d.toNat 63 && decide (fld d 1 55 = fld sl.pc 1 55) && (!bitOf d.toNat 62 || decide (dbpctx.toNat = sl.ctx))

/-- A slot is about to issue a head at a breakpoint. -/
def State.atBreakpoint (s : State) (place : Nat) : Bool :=
  let sl := s.slot place
  let c := s.clus (clusOf place)
  sl.occ && !sl.halted && !sl.skipBp && sl.park == .run && c.dbp.toList.any (bpMatches c.dbpctx sl)

/-- BREAKPOINT_HIT (R376): the slot halts before its head has any effect. -/
def execBreakpointHit (place : Nat) (s : State) : Out :=
  .next (if s.atBreakpoint place then s.haltSlot place 3 else s)

/-! Injection (R380) -/

/-- Bits of INJ that are reserved. -/
def injReserved : Nat := (2 ^ 64 - 2 ^ 48) + (2 ^ 32 - 2 ^ 25) + (2 ^ 16 - 2 ^ 8) + (2 ^ 4 - 2)

/-- INJ_WRITE (R370, R380). -/
def execInjWrite (clus : Nat) (v : Word) (s : State) : Out :=
  let c := s.clus clus
  .next (if Nat.land v.toNat injReserved ≠ 0 then s.setClus clus { c with dbgErr := true }
    else if fld v 4 4 = 0 ∨ 3 < fld v 4 4 then s
    else s.setClus clus { c with inj := v })

/-! Profiling sessions (R381; 19_tenants_and_metering.md R369) -/

/-- A function's session. -/
def State.session (s : State) (vf : Nat) : Session := kget {} s.host.sessions vf
/-- The state with a session replaced. -/
def State.setSession (s : State) (vf : Nat) (x : Session) : State :=
  { s with host := { s.host with sessions := kset s.host.sessions vf x } }
/-- A command ends with a status. -/
def State.psDone (s : State) (vf st : Nat) : State := s.setSession vf { s.session vf with st := st }

/-- A command on a counter of an open session: its fields are checked. -/
def State.withCounter (s : State) (vf cix : Nat) (k : ProfCnt → State) : State :=
  if 64 ≤ vf then s
  else if !(s.session vf).isOpen then s.psDone vf 1
  else if 8 ≤ cix then s.psDone vf 5
  else k (kget {} (s.session vf).cnts cix)

/-- The state with a counter replaced, status 0. -/
def State.setCounter (s : State) (vf cix : Nat) (c : ProfCnt) : State :=
  let x := s.session vf
  s.setSession vf { x with cnts := kset x.cnts cix c, st := 0 }

/-- A session opened (R381). -/
def State.psOpen (s : State) (vf : Nat) : State :=
  if 64 ≤ vf then s
  else if (s.session vf).isOpen then s.psDone vf 2
  else s.setSession vf { isOpen := true }

/-- A counter configured (R381): events 1 to 8 exist; from 0x8000 on the monitor's map tells, and an event that a move
made absent stays so for the session (19_tenants_and_metering.md R369). -/
def State.psConfigure (s : State) (vf cix evt : Nat) : State :=
  s.withCounter vf cix fun _ =>
    if 65536 ≤ evt then s.psDone vf 5
    else if 1 ≤ evt ∧ evt ≤ 8 then s.setCounter vf cix { evt := some evt }
    else if evt < 0x8000 then s.psDone vf 4
    else if Config.hasEvent evt && !(s.session vf).absents.contains evt then s.setCounter vf cix { evt := some evt }
    else s.psDone vf 3

/-- A counter's event is absent since a move (19_tenants_and_metering.md R369). -/
def Session.lacks (x : Session) (c : ProfCnt) : Bool := c.evt.any x.absents.contains

/-- Sampling armed (R381): every per-th occurrence is sampled. -/
def State.psArm (s : State) (vf cix per : Nat) : State :=
  s.withCounter vf cix fun c =>
    if per = 0 ∨ 2 ^ 32 ≤ per then s.psDone vf 5
    else if (s.session vf).lacks c then s.psDone vf 3
    else s.setCounter vf cix { c with armed := true, per := per, left := per }

/-- Sampling disarmed (R381). -/
def State.psDisarm (s : State) (vf cix : Nat) : State :=
  s.withCounter vf cix fun c => s.setCounter vf cix { c with armed := false }

/-- A session closed (R381). -/
def State.psClose (s : State) (vf : Nat) : State :=
  if 64 ≤ vf then s
  else if !(s.session vf).isOpen then s.psDone vf 1
  else s.setSession vf { s.session vf with isOpen := false, cnts := [], st := 0 }

/-- PROFILE_OPEN (R381). -/
def execProfileOpen (vf : Nat) (s : State) : Out := .next (s.psOpen vf)

/-- PROFILE_CONFIGURE (R381). -/
def execProfileConfigure (vf cix evt : Nat) (s : State) : Out := .next (s.psConfigure vf cix evt)

/-- PROFILE_ARM (R381). -/
def execProfileArm (vf cix per : Nat) (s : State) : Out := .next (s.psArm vf cix per)

/-- PROFILE_DISARM (R381). -/
def execProfileDisarm (vf cix : Nat) (s : State) : Out := .next (s.psDisarm vf cix)

/-- PROFILE_CLOSE (R381). -/
def execProfileClose (vf : Nat) (s : State) : Out := .next (s.psClose vf)

end Sys2Proof.Machine
end

