-- ==== Sys2Proof/Machine/Metering.lean ====
section
/-!
DEFINITION. Energy counters, readings and persist records (19_tenants_and_metering.md R364 to R368;
17_scheduling_and_power.md R334).
-/

namespace Sys2Proof.Machine

/-- One counter after a millisecond with an energy in microjoules. -/
def Meter.charge (m : Meter) (i uj : Nat) : Meter :=
  let recent := (uj :: kget [] m.recent i).take 1000
  { m with
    cnt := kset m.cnt i (min (kget 0 m.cnt i + uj) (2 ^ 64 - 1))
    recent := kset m.recent i recent
    epk := kset m.epk i (recent.foldl max 0) }

/-- REM of a partition after a millisecond (R334). -/
def State.chargeRem (s : State) (part uj : Nat) : State :=
  let p := s.part part
  let used := p.used + uj
  s.setPart part { p with used := used, rem := min p.rem (s.budgetOf part - used / 1000) }

/-! Attribution (R365): microjoules by partition, index 24 UNATTR -/

/-- The index of a partition: UNATTR for none. -/
def unattr (part : Nat) : Nat := if part < 24 then part else 24

/-- Energy added to an index. -/
def addEnergy (m : KMap Nat) (i uj : Nat) : KMap Nat := kset m i (kget 0 m i + uj)

/-- Energy measured of units, each charged whole to its owner. -/
def ownEnergy (owner : Nat → Nat) (l : List (Nat × Nat)) (m : KMap Nat) : KMap Nat :=
  l.foldl (fun m (u, uj) => addEnergy m (unattr (owner u)) uj) m

/-- A block's energy: count times coefficient for each partition, scaled down where together they exceed what the block
drew, and the remainder to UNATTR; fractions of a microjoule fall into the remainder (log entry 54). -/
def blockEnergy (m : KMap Nat) (b : BlockUse) : KMap Nat :=
  let want := b.counts.map fun (p, n) => (p, n * Config.coefficient b.block / 10 ^ 6)
  let total := (want.map (·.2)).sum
  let got := if total ≤ b.measured then want else want.map fun (p, uj) => (p, uj * b.measured / total)
  addEnergy (ownEnergy id got m) 24 (b.measured - (got.map (·.2)).sum)

/-- PESHARE of a partition. -/
def State.share (s : State) (part : Nat) : Nat := fld (s.reg (.peshare part)) 0 16

/-- Static power of shared blocks: SHARE / 65,536 of it to each partition, the rest to UNATTR. -/
def State.staticEnergy (s : State) (uj : Nat) (m : KMap Nat) : KMap Nat :=
  let got := (List.range 24).map fun p => (p, uj * s.share p / 65536)
  addEnergy (ownEnergy id got m) 24 (uj - (got.map (·.2)).sum)

/-- The model counts a block's flits or operations itself: of the Odnerlink ports and the forme engines; of the others
the update brings the counts (log entry 54). -/
def countsBlock (b : Nat) : Bool := (decide (2 ≤ b) && decide (b ≤ 13)) || (decide (22 ≤ b) && decide (b ≤ 29))

/-- What a block drew, with the counts of its partitions. -/
def State.countedUse (s : State) (b : BlockUse) : BlockUse :=
  if countsBlock b.block then
    { b with counts := (List.range 24).map fun p => (p, kget 0 s.meter.ops (b.block * 32 + p)) }
  else b

/-- The energies of a millisecond attributed: a cluster to the partition that owns its shard, a shard cache as its
clusters, a memory port to the partition that owns it. -/
def State.attributed (s : State) (use : EnergyUse) : KMap Nat :=
  let m := ownEnergy s.partOfPort use.ports (ownEnergy (fun i => rowPart (s.row i)) use.shards (ownEnergy s.partOfClus use.clusters []))
  s.staticEnergy use.static ((use.blocks.map s.countedUse).foldl blockEnergy m)

/-- METERING_UPDATE (R364, R365): all 25 counters in one step. -/
def execMeteringUpdate (use : EnergyUse) (s : State) : Out :=
  let e := s.attributed use
  let m := (List.range 25).foldl (fun m i => m.charge i (kget 0 e i)) s.meter
  let t := { s with meter := { m with resumed := true, at_ := s.clk.hub, ops := [] } }
  .next ((List.range 24).foldl (fun t p => t.chargeRem p (kget 0 e p)) t)

/-- A function's reading mailbox; 64 is the physical function's. -/
def State.box (s : State) (fn : Nat) : Mailbox := kget {} s.host.boxes fn
/-- The state with a mailbox replaced. -/
def State.setBox (s : State) (fn : Nat) (b : Mailbox) : State :=
  { s with host := { s.host with boxes := kset s.host.boxes fn b } }

/-- ENONCE_WRITE (R367). -/
def execEnonceWrite (fn : Nat) (nonce : Word) (s : State) : Out :=
  let b := s.box fn
  .next (if b.busy || decide (64 < fn) then s else s.setBox fn { b with nonce := nonce, done := false, busy := true })

/-- Nanoseconds of the monitor's clock for hub cycles: seven cycles take four (00_scope.md R5). -/
def nanos (cycles : Nat) : Nat := cycles * 4 / 7

/-- An energy reading of a counter (R366). -/
def State.reading (s : State) (fn i : Nat) (nonce : Word) : List Byte × State :=
  let (n, m) := s.meter.nextSeq i
  let part := if i = 24 then 0xFF else i
  let by_ := if fn = 64 then 0xFF else fn
  (s.signedRecord [1 + 1 * 2 ^ 8 + part * 2 ^ 16 + by_ * 2 ^ 24 + boolCode m.gap * 2 ^ 32, kget 0 m.cnt i,
      kget 0 m.unc i,
     m.boot, n, nanos (m.at_ - m.bootAt), nonce.toNat, 0], { s with meter := m })

/-- The counter a mailbox reads, or the code of its failure (R367, R368). -/
def State.readCode (s : State) (fn : Nat) : Except Nat Nat :=
  let sel := fld (s.reg .epsel) 0 5
  let part := s.fnPart fn
  if fn < 64 ∧ (s.fnEnabled fn = false ∨ 24 ≤ part) then .error 3
  else if fn = 64 ∧ 24 ≤ sel ∧ sel ≠ 31 then .error 4
  else if !s.fw.key then .error 2
  else if !s.meter.resumed then .error 1
  else .ok (if fn < 64 then part else if sel = 31 then 24 else sel)

/-- READING_COMPLETE (R367). -/
def execReadingComplete (fn : Nat) (s : State) : Out :=
  let b := s.box fn
  .next (if !b.busy then s
    else match s.readCode fn with
      | .error code => s.setBox fn { b with code := code, done := true, busy := false }
      | .ok i =>
        let (r, t) := s.reading fn i b.nonce
        t.setBox fn { b with code := 0, record := r, done := true, busy := false })

/-- PERSIST_RECORD (R368): the two slots in turn. -/
def execPersistRecord (s : State) : Out :=
  let m := s.meter
  let rec_ := (List.range 25).map fun i => (kget 0 m.cnt i, kget 0 m.unc i, kget 0 m.epk i)
  .next { s with meter :=
    if m.newerA then { m with slotB := some rec_, newerA := false } else { m with slotA := some rec_, newerA := true } }

end Sys2Proof.Machine
end

