-- ==== Sys2Proof/Machine/Power.lean ====
section
/-!
DEFINITION. Clock steps and power gating (17_scheduling_and_power.md R335, R336, R339; 02_main_memory.md R47).
-/

namespace Sys2Proof.Machine

/-! Clock steps (R336) -/

/-- The step a die decides on. -/
def nextStep (cur minStep tlim plim temp watts : Nat) : Nat :=
  if tlim ≤ temp ∨ plim < watts then max (cur - 1) minStep
  else if temp + 5 ≤ tlim ∧ 20 * watts ≤ 19 * plim then min (cur + 1) 16
  else cur

/-- DIE_STEP_DECISION (R336): a change stops issue on the die until STEP_CHANGE_EFFECT. -/
def execDieStepDecision (die temp watts : Nat) (s : State) : Out :=
  let r := s.reg (.dpctl die)
  let d := s.die die
  let cur := d.pending.getD d.step
  let n := nextStep cur (fld r 40 5) (fld r 32 8) (s.reg .plim).toNat temp watts
  .next (if 8 ≤ die then s
    else s.setDie die { d with temp := temp, watts := watts, pending := if n = cur then d.pending else some n })

/-- STEP_CHANGE_EFFECT (R336). -/
def execStepChangeEffect (die : Nat) (s : State) : Out :=
  let d := s.die die
  .next (match d.pending with
  | some n => s.setDie die { d with step := n, pending := none }
  | none => s)

/-! Gating (R339) -/

/-- A completion is due to a slot of a core that an activation has left (R339): of a copy it launched, or of a phase
that a token of its waits for. -/
def State.completionDue (s : State) (core : Nat) : Bool :=
  (s.clus (core / 16)).transfers.any (fun t => decide (coreOf t.place = core)) ||
    s.formes.any fun (_, f) => f.waiters.any fun w => decide (coreOf w.place = core)

/-- A worker core is idle: no activation or gang member holds it, and nothing waits for it, or is due to its slots. -/
def State.coreIdle (s : State) (core : Nat) : Bool :=
  let k := s.core core
  !s.completionDue core &&
  s.slots.all (fun (p, sl) => decide (coreOf p ≠ core) || !sl.occ) && k.inbox.isEmpty && decide (k.ring.count = 0) &&
    k.mx.queue.isEmpty && k.gang.isNone && decide (core % 16 < 8)

/-- CORE_GATE (R339): the L1 TLB and the core's instruction cache lose their contents. -/
def execCoreGate (core : Nat) (s : State) : Out :=
  let k := s.core core
  let r := s.reg (.dpgate (core / 1024))
  .next (if bitOf r.toNat 32 && !k.gated && s.coreIdle core &&
      decide (k.idleSince + fld r 0 16 * 64 ≤ s.dieClock (core / 1024)) then
      let c := s.clus (core / 16)
      (s.setCore core { k with gated := true, l1 := [], icache := [] }).setClus (core / 16) { c with idleSince := s.dieClock (core / 1024) }
    else s)

/-- CORE_WAKE (R339): a message in its inbox or a gang member for it, or a world switch of its cluster. A debug request
wakes it where it is made (20_debug.md R372). -/
def execCoreWake (core : Nat) (s : State) : Out :=
  let k := s.core core
  .next (if k.gated && (!k.inbox.isEmpty || k.gang.isSome ||
      (s.clus (core / 16)).switch.isSome) then s.wakeGated core else s)

/-- A cluster is idle. -/
def State.clusterIdle (s : State) (clus : Nat) : Bool :=
  let c := s.clus clus
  (List.range 8).all (fun u => (s.core (coreIn clus u)).gated) &&
    s.slots.all (fun (p, sl) => decide (coreOf p ≠ coreIn clus 8) || !sl.occ) && c.reqs.isEmpty &&
        c.transfers.isEmpty &&
    c.notices == 0 && c.evq.isEmpty && c.fwait.isEmpty

/-- CLUSTER_GATE (R339): the galley state stands in the records already; its service core loses its translations with it
(02_main_memory.md R47). -/
def execClusterGate (clus : Nat) (s : State) : Out :=
  let c := s.clus clus
  let r := s.reg (.dpgate (clus / 64))
  .next (if bitOf r.toNat 33 && !c.gated && s.clusterIdle clus &&
      decide (c.idleSince + fld r 16 16 * 1024 ≤ s.dieClock (clus / 64)) then
      (s.setClus clus { c with gated := true, tlb := [], ctlb := [], icache := [] }).flushCore (coreIn clus 8)
    else s)

/-- CLUSTER_WAKE (R339): an event for any of its units. -/
def execClusterWake (clus : Nat) (s : State) : Out :=
  let c := s.clus clus
  .next (if c.gated && (c.switch.isSome || !c.reqs.isEmpty || !c.copies.isEmpty ||
      (coresOf clus).any fun k => !(s.core k).inbox.isEmpty) then s.wakeGatedCluster clus
    else s)

end Sys2Proof.Machine
end

