-- ==== Sys2Proof/Machine/Preempt.lean ====
section
/-!
DEFINITION. Kills, resets and terminations, broken contexts, slice periods, host reads of counters, and fatal errors
(18_faults_and_preemption.md R346, R356 to R360; 19_tenants_and_metering.md R362, R363; 21_host_firmware_security.md
R385; 04_vaults.md R76).
-/

namespace Sys2Proof.Machine

/-! Kills (R346) -/

/-- KILL (R346). -/
def execKill (place : Nat) (s : State) : Out := .next (s.kill place)

/-- A core after its cluster's reset: what the rules give a value at core reset (07_instruction_lines.md R120;
11_matrix_unit.md R223), and no translation or instruction line. -/
def State.resetCore (s : State) (core : Nat) : State :=
  let k := s.core core
  s.setCore core { k with
    l1 := [], icache := [], prefetch := [], pxres := none, pans := none, lac := Vector.replicate 64 0,
    win := Vector.replicate 8 0, pfail := 0, pcap := 0, mx := {}, cycle := 0 - word (s.dieClock (core / 1024)), gang :=
        none }

/-- CLUSTER_RESET (04_vaults.md R76; R346): the activations are killed, every tag is full, which requests
held at the banks see (R77), and galley records are inactive. -/
def execClusterReset (clus : Nat) (s : State) : Out :=
  .next (if 512 ≤ clus then s
    else
      let t := ((s.occupied clus).map (·.1)).foldl State.killNow s
      let u := (coresOf clus).foldl State.resetCore t
      let v := { u with empty := u.empty.filter fun w => w / 2 ^ 21 ≠ clus }
      (v.setClus clus { v.clus clus with tlb := [], ctlb := [], icache := [], galleys := [], stepping := none }).tagChanged clus)

/-! Termination of a context (R346, R356; 21_host_firmware_security.md R385) -/

/-- The loss notice of a killed message. -/
def killedMsg (place : Nat) (m : Msg) : Wire := .loss m.ctx m.kslot m.hpkg m.wt 4 place

/-- The loss notice of a killed slot: its weight, with that of the sends its buffer held. -/
def killedSlot (place : Nat) (sl : Slot) : Wire :=
    .loss sl.ctx sl.kslot sl.hpkg (sl.wt + bufferedWeight sl.cbuf) 4 place

/-- The loss notice of a return that was withheld. -/
def killedReturn (place : Nat) (w : Withheld) : Wire := .loss w.ctx w.kslot w.hpkg w.wt 4 place

/-- The loss notices of a phase's notify arrivals. -/
def Phase.killed (p : Phase) : List Wire :=
  p.arr.filterMap fun a => match a.how with
    | .notify wt _ _ c k h => some (.loss c k h wt 4 hubPlace)
    | _ => none

/-- The loss notices of a feeder's lists and messages. -/
def Feeder.killed (d : Feeder) (place : Nat) : List Wire :=
  d.queued.map (killedMsg place) ++ (if d.st = .idle then [] else [.loss d.ctx d.kslot d.home d.hold 4 place]) ++
    d.saved.map fun v => .loss v.ctx v.kslot v.home v.hold 4 place

/-- The messages of a core's ring: those in its memory of which the lines are translated, and those ahead of them. -/
def State.ringMsgs (s : State) (ctx core : Nat) : List Msg :=
  let r := s.ringOf ctx core
  let c := s.ctxOf ctx
  r.ahead ++ (List.range r.stored).filterMap fun i =>
    let va := ringAddr c core (r.head + i)
    match s.ifaceXlat core c.tsid va .load, s.ifaceXlat core c.tsid ((va + 64) % 2 ^ 56) .load with
    | .ok p0, .ok p1 => some (msgOfBytes (s.getLine p0 64 ++ s.getLine p1 64) 0)
    | _, _ => none

/-- The loss notices of what a save area holds on a cluster. -/
def SaveArea.killed (a : SaveArea) (clus : Nat) : List Wire :=
  a.slots.map (fun (p, sl) => killedSlot p sl) ++ a.fwait.map (fun w => killedMsg (w.core * 8) w.msg) ++
    a.withheld.map (killedReturn (coreIn clus 9 * 8))

/-- The loss notices of a flit that its port has not retired. -/
def Flit.killed (f : Flit) : List Wire :=
  match f.body with
  | .msg m => [killedMsg hubPlace m]
  | _ => []

/-- A wire belongs to a context. -/
def Wire.ofCtx (w : Wire) (ctx : Nat) : Bool :=
  match w with
  | .combine _ c _ _ _ => c == ctx
  | .ret c _ _ _ _ => c == ctx
  | .borrow c _ _ _ _ _ _ => c == ctx
  | .grant _ c _ _ _ _ _ => c == ctx
  | .refuse _ c _ _ _ _ => c == ctx
  | .loss c _ _ _ _ _ => c == ctx
  | .stats c _ _ _ => c == ctx

/-- The loss notices of every holder of a context's weight: slots, messages wherever they stand, returns withheld,
feeders, notify arrivals. -/
def State.holders (s : State) (ctx : Nat) : List Wire :=
  (s.slots.filter (·.2.occ) |>.map (fun (p, sl) => killedSlot p sl)) ++
      s.net.map (fun x => killedMsg x.msg.src x.msg) ++
    s.cores.flatMap (fun (k, c) => c.inbox.map fun x => killedMsg (k * 8) x.msg) ++
    (s.ctxOf ctx).placement.flatMap (fun c => (coresOf c).flatMap fun k => (s.ringMsgs ctx k).map (killedMsg (k * 8))) ++
    s.clusters.flatMap (fun (k, c) => c.fwait.map (fun w => killedMsg (w.core * 8) w.msg) ++
      c.withheld.map (killedReturn (coreIn k 9 * 8))) ++
    s.saved.flatMap (fun (k, a) => if k / 512 = ctx then a.killed (k % 512) else []) ++
    s.feeders.flatMap (fun (f, d) => d.killed (feederPlace f)) ++
    s.formes.flatMap (fun (_, f) => f.cur.killed ++ f.nxt.killed) ++
    s.links.flatMap (fun (_, l) => l.unacked.flatMap Flit.killed) ++
    s.front.gangs.flatMap fun g => g.1.map fun (_, m) => killedMsg hubPlace m

/-- A wire after its context's holders in this package were killed: what is on its way to a record here goes to that
record at once, what was for a slot here is lost, and the rest stays. -/
def Wire.afterKill (w : Wire) (ctx home : Nat) : Option Wire :=
  match w with
  | .combine _ c _ h _ => if c = ctx ∧ h = home then none else some w
  | .ret c _ h _ _ => if c = ctx ∧ h = home then none else some w
  | .loss c _ h _ _ _ => if c = ctx ∧ h = home then none else some w
  | .stats c _ h _ => if c = ctx ∧ h = home then none else some w
  | .borrow c _ _ _ _ p _ => if c = ctx ∧ p = home then none else some w
  | .refuse p c _ _ _ _ => if c = ctx ∧ p = home then none else some w
  | .grant p c k h place x _ =>
    if c = ctx ∧ p = home then (if h = home then none else some (.loss c k h x 4 place)) else some w

/-- A loss notice that has to travel: it carries weight, and its home is another package. -/
def Wire.abroad (w : Wire) (home : Nat) : Bool :=
  match w with
  | .loss _ _ h x _ _ => h != home && x != 0
  | _ => false

/-- The counts of statistics wires of a context for records of this package counted there (11_matrix_unit.md R252). -/
def State.countsIn (s : State) (ctx : Nat) : State :=
  s.home.wires.foldl (fun t w => match w with
    | .stats c k h cnt =>
      if c = ctx ∧ h = t.fw.pkg then
        t.setKernel c k { t.kernel c k with stats := cnt.foldl statAdd (t.kernel c k).stats }
      else t
    | _ => t) s

/-- A phase without the weight of a context's notify arrivals. -/
def Phase.killWeight (p : Phase) (ctx : Nat) : Phase :=
  { p with arr := p.arr.map fun a => match a.how with
      | .notify _ _ _ c _ _ => if c = ctx then { a with how := .lost } else a
      | _ => a }

/-- A feeder without a context's lists and messages. -/
def Feeder.killCtx (d : Feeder) (ctx : Nat) : Feeder :=
  let d' := if d.st ≠ .idle ∧ d.ctx = ctx then d.stopped else d
  { d' with
    inbox := d'.inbox.filter (fun m => m.ctx ≠ ctx), away := d'.away.filter (fun m => m.ctx ≠ ctx),
    saved := d'.saved.filter fun v => v.ctx ≠ ctx }

/-- A cluster without a context's transfers, withheld returns and waiting messages. -/
def ClusSt.killCtx (c : ClusSt) (ctx : Nat) : ClusSt :=
  let c' := { c with
    copies := c.copies.filter (fun t => t.ctx ≠ ctx), chans := c.chans.filter (fun t => t.ctx ≠ ctx),
    entering := c.entering.filter (fun e => e.1.ctx ≠ ctx),
    withheld := c.withheld.filter (fun w => w.ctx ≠ ctx), fwait := c.fwait.filter fun w => w.msg.ctx ≠ ctx }
  if c.ctx = some ctx then { c' with ctx := none, switch := none, evq := [], notices := 0, galleys := [] } else c'

/-- A core without a context's messages; its own state goes with the context it runs. -/
def CoreSt.killCtx (k : CoreSt) (ctx : Nat) (runs : Bool) : CoreSt :=
  let k' := { k with inbox := k.inbox.filter fun x => x.msg.ctx ≠ ctx }
  if runs then k'.clear ctx else k'

/-- A link whose unretired messages of a context are void. -/
def Link.killCtx (l : Link) (ctx : Nat) : Link :=
  { l with unacked := l.unacked.map fun f => match f.body with
      | .msg m => if m.ctx = ctx then { f with body := .void } else f
      | _ => f }

/-- A waiter that belongs to a context that is being terminated: a slot, a copy transfer, a prefetch engine or a feeder
of it (02_main_memory.md R42). -/
def State.waiterOf (s : State) (ctx : Nat) (w : XWaiter) : Bool :=
  match w.who with
  | .slot p => (s.slot p).occ && (s.slot p).ctx == ctx
  | .copy c id _ => (s.clus c).transfers.any fun t => t.id == id && t.ctx == ctx
  | .prefetch k => (s.core k).prefetch.head?.any (·.ctx == ctx)
  | .feeder f => (s.feeder f).st != .idle && (s.feeder f).ctx == ctx
  | .iface _ => false
  | .front _ => false

/-- Translation requests without the waiters of a context; those without waiters close. -/
def State.dropWaiters (s : State) (ctx : Nat) : State :=
  { s with clusters := s.clusters.map fun (k, c) => (k, { c with
      reqs := (c.reqs.map fun r => { r with waiters := r.waiters.filter fun w => !s.waiterOf ctx w }).filter fun r =>
        !r.waiters.isEmpty }) }

/-- A LAUNCH of a key stands at a queue's head or among the continuations. -/
def State.asksFor (s : State) (key : Nat) : Bool :=
  (decide (key < 512) && (s.queue (key / 8) (key % 8)).head.isSome) || s.front.conts.any fun c => contKey c == key

/-- Descriptor requests of the front end for a LAUNCH that is gone close. -/
def State.dropAsks (s : State) : State :=
  s.front.asking.foldl (fun t (p, key) => if t.asksFor key then t else (t.closeXlats (.front p)).setAsking p none) s

/-- Every holder of a context's weight killed (R346): loss notices of cause 4 go to the homes in other packages, and
records of this package have them at once (log entry 24). -/
def State.killHolders (s : State) (ctx : Nat) : State :=
  let home := s.fw.pkg
  let lost := (s.holders ctx).filter fun w => w.ofCtx ctx && w.abroad home
  let mine := (s.slots.filter fun (_, sl) => sl.occ && sl.ctx == ctx).map (·.1)
  let s1 := mine.foldl (fun t p => ((((t.statsHome p).withdrawHeld p).loseMatrix p).gangDone p).freeSlot p) (s.dropWaiters ctx)
  let s1 := s1.countsIn ctx
  let runs (core : Nat) : Bool := s1.runsOn ctx (core / 16)
  let part := (s.ctxOf ctx).part
  let t : State := { s1 with
      cores := s1.cores.map fun (k, c) => (k, c.killCtx ctx (runs k))
      clusters := s1.clusters.map fun (k, c) => (k, c.killCtx ctx)
      saved := s1.saved.filter fun (k, _) => k / 512 ≠ ctx
      net := s1.net.filter fun x => x.msg.ctx ≠ ctx
      feeders := s1.feeders.map fun (k, d) => (k, d.killCtx ctx)
      formes := s1.formes.map fun (k, f) =>
        if k / 65536 = part then (k, { f with cur := f.cur.killWeight ctx, nxt := f.nxt.killWeight ctx }) else (k, f)
      sdowns := s1.sdowns.filter fun d => d.ctx ≠ ctx
      links := s1.links.map fun (p, l) => (p, l.killCtx ctx)
      front := { s1.front with
        conts := s1.front.conts.filter fun c => c.ctx ≠ ctx ∧ cmdCtx c.image ≠ ctx
        gangs := s1.front.gangs.filter fun g => g.1.all fun (_, m) => m.ctx != ctx
        moving := kdel s1.front.moving ctx }
      home := { s1.home with
        wires := s1.home.wires.filterMap (fun w => w.afterKill ctx home) ++ lost
        combiners := s1.home.combiners.filter fun e => e.ctx ≠ ctx ∨ e.hpkg ≠ home } }
  t.dropAsks

/-- Every running kernel of a context ends damaged: its weight is lost or home. -/
def State.damageAll (s : State) (ctx : Nat) : State :=
  (List.range 64).foldl (fun t ks =>
    let k := t.kernel ctx ks
    if k.st = .running then (t.setKernel ctx ks { k with l := k.w - k.h }).damage ctx ks else t) s

/-- A context terminated; nothing of it is left on any cluster. -/
def State.terminate (s : State) (ctx : Nat) : State :=
  let t := (s.killHolders ctx).damageAll ctx
  t.setCtx ctx { t.ctxOf ctx with st := .saved, pages := [], touched := false, slicing := true }

/-! Broken contexts (R356) -/

/-- PAGE_UNOBTAINABLE (R356): of a context that has its slices, between two of them or in one. -/
def execPageUnobtainable (ctx va : Nat) (s : State) : Out :=
  let c := s.ctxOf ctx
  let page := va / 65536 * 65536
  .next (if c.st = .running ∨ c.st = .broken ∨
      (c.st = .saved ∧ khas s.ctxs ctx = true) then s.setCtx ctx { c with st := .broken, pages := sinsert c.pages page } else s)

/-- Waiting messages of a save area whose pages are there now arrive again (R356), but for those of an activation whose
transfers are queued, which arrive when these have finished (R342). -/
def SaveArea.released (a : SaveArea) (pages : List Nat) : SaveArea × List Msg :=
  let marked := a.fwait.map fun w => { w with covered := w.covered || pages.contains (w.addr / 65536 * 65536) }
  let free (w : FaultWait) : Bool := w.covered && !a.copies.any fun t => t.act = w.act
  ({ a with fwait := marked.filter fun w => !free w }, (marked.filter free).map (·.msg))

/-- HOST_RESUME_CONTEXT (R356): a stopped context is given slices again. -/
def execHostResumeContext (ctx : Nat) (s : State) : Out :=
  let c := s.ctxOf ctx
  .next (if c.st ≠ .stopped then s
    else
      let t := s.setCtx ctx { c with st := .saved, slicing := true, pages := [], touched := false }
      c.placement.foldl (fun t clus =>
        let (a, ms) := (t.save ctx clus).released c.pages
        if khas t.saved (ctx * 512 + clus) then ms.foldl State.post (t.setSave ctx clus a) else t) t)

/-- HOST_TERMINATE_CONTEXT (R356). -/
def execHostTerminateContext (ctx : Nat) (s : State) : Out :=
  .next (if (s.ctxOf ctx).st = .stopped then s.terminate ctx else s)

/-! Resets of functions (21_host_firmware_security.md R385) -/

/-- A function reset. -/
def State.resetFunction (s : State) (vf : Nat) : State :=
  let ctxs := (s.ctxs.filter fun (_, c) => decide (c.vf = vf)).map (·.1)
  let freeAll (t : State) (ctx : Nat) : State :=
    (List.range 64).foldl (fun u ks => if (u.kernel ctx ks).st = .damaged then u.setKernel ctx ks {} else u) t
  let s1 := { s with front := { s.front with queues := s.front.queues.filter fun (k, _) => k / 8 ≠ vf } }
  let s2 := ctxs.foldl (fun t c => freeAll (t.terminate c) c) s1
  let h := s2.host
  ((({ s2 with host := { h with latches := kdel h.latches vf, boxes := kdel h.boxes vf, sessions := kdel h.sessions vf } }).setReg
    (.psring vf) 0).setReg (.pscmd vf) 0).dropAsks

/-- FUNCTION_LEVEL_RESET (R385). -/
def execFunctionLevelReset (vf : Nat) (s : State) : Out := .next (if vf < 64 then s.resetFunction vf else s)

/-- PF_RESET (R385): every function, then the monitor's host mailbox. -/
def execPfReset (s : State) : Out :=
  let t := (List.range 64).foldl State.resetFunction s
  .next ({ t with host := { t.host with boxes := kdel t.host.boxes 64 } }.setReg .epsel 0)

/-! Host reads of a function's base address register (R357, R358; 21_host_firmware_security.md R383) -/

/-- The 64-bit counter at an offset of a function's configuration space (20_debug.md R381). -/
def State.counterAt (s : State) (vf off : Nat) : Option Word :=
  if 0x3040 ≤ off ∧ off < 0x3080 ∧ off % 8 = 0 then
    let x := s.session vf
    let c := kget {} x.cnts ((off - 0x3040) / 8)
    some (word (boolCode (x.lacks c) * 2 ^ 63 + (if x.lacks c then 0 else c.count)))
  else none

/-- A queue's register at an offset of its 64 bytes (17_scheduling_and_power.md R325). -/
def CmdQueue.readAt (c : CmdQueue) (ofs : Nat) : Nat :=
  match ofs / 8 with
  | 0 => c.base * 64
  | 1 => c.cbase * 16
  | 2 => c.szlg * 2 ^ 12 + c.prio * 2 ^ 10 + boolCode c.err * 2 ^ 9 + boolCode c.en * 2 ^ 8
  | 3 => c.prod.toNat
  | 4 => c.cons.toNat
  | _ => 0

/-- A reading mailbox at an offset (19_tenants_and_metering.md R367): ENONCE, ESTAT, EPSEL of the physical function,
ERECORD. -/
def State.boxAt (s : State) (fn ofs : Nat) : Nat :=
  let b : Mailbox := kget {} s.host.boxes fn
  if ofs = 0 then b.nonce.toNat
  else if ofs = 8 then b.code * 2 ^ 8 + boolCode b.done * 2 + boolCode b.busy
  else if ofs = 0x10 ∧ fn = 64 then (s.reg .epsel).toNat
  else if 0x40 ≤ ofs then leNat ((b.record.drop (ofs - 0x40)).take 8)
  else 0

/-- A register of a session (20_debug.md R381). -/
def State.sessionAt (s : State) (vf ofs : Nat) : Nat :=
  let x := s.session vf
  match ofs with
  | 0 => (s.reg (.pscmd vf)).toNat
  | 8 => boolCode x.isOpen * 2 ^ 8 + x.st
  | 0x10 => (s.reg (.psring vf)).toNat
  | 0x18 => x.prod.toNat
  | _ => 0

/-- The 8 bytes at an aligned offset of a function's base address register (R383): reserved offsets read as zero; those
of the physical function beside its mailbox have no layout (log entry 55), and read a free value, but for the
coefficients (19_tenants_and_metering.md R365), which the model puts at 0x4000 (log entry 54). -/
def State.barRead (s : State) (fn off : Nat) : Word :=
  if 0x2000 ≤ off ∧ off < 0x20C0 then word (s.boxAt fn (off - 0x2000))
  else if fn = 64 ∧ 0x4000 ≤ off ∧ off < 0x4100 then word (Config.coefficient ((off - 0x4000) / 8))
  else if 64 ≤ fn then Config.freeWord s.clk.draws
  else match s.counterAt fn off with
    | some w => w
    | none =>
      if off = 0 then word (boolCode (s.fnEnabled fn))
      else if 0x1000 ≤ off ∧ off < 0x1200 then word ((s.queue fn ((off - 0x1000) / 64)).readAt (off % 64))
      else if 0x3000 ≤ off ∧ off < 0x3040 then word (s.sessionAt fn (off - 0x3000))
      else 0

/-- An answer to the host; a draw is used up, in case the value was free. -/
def State.answerRead (s : State) (r : HostRead) : State :=
  { s with host := { s.host with reads := s.host.reads ++ [r] }, clk := { s.clk with draws := s.clk.draws + 1 } }

/-- A 4-byte read at an 8-byte offset + 0 (R358): the low half; of a counter it latches the high half. -/
def State.readLow (s : State) (fn off : Nat) : State :=
  let w := s.barRead fn off
  let l : ReadLatch := { off := off, val := BitVec.ofNat 32 (fld w 32 32), valid := true }
  let t := if (s.counterAt fn off).isSome &&
      decide (fn < 64) then { s with host := { s.host with latches := kset s.host.latches fn l } }
    else s
  t.answerRead ⟨fn, off, false, word (fld w 0 32)⟩

/-- A 4-byte read at an 8-byte offset + 4 (R358): the high half, latched or live. -/
def State.readHigh (s : State) (fn off : Nat) : State :=
  let l := kget {} s.host.latches fn
  let live := fld (s.barRead fn off) 32 32
  s.answerRead ⟨fn, off + 4, false, word (if l.valid && decide (l.off = off) &&
      decide (fn < 64) then l.val.toNat else live)⟩

/-- COUNTER_LOW_READ (R357, R358): a read by the host at an 8-byte offset, of its low half or of all 8 bytes at once.
One of another offset has no meaning. -/
def execCounterLowRead (vf : Nat) (rd : CntRead) (s : State) : Out :=
  .next (match rd with
  | .half off => if 64 < vf ∨ off % 8 ≠ 0 then s else s.readLow vf off
  | .whole off => if 64 < vf ∨ off % 8 ≠ 0 then s else s.answerRead ⟨vf, off, true, s.barRead vf off⟩)

/-- COUNTER_HIGH_READ (R358) of the counter, or other register, at an 8-byte offset. -/
def execCounterHighRead (vf off : Nat) (s : State) : Out :=
  .next (if 64 < vf ∨ off % 8 ≠ 0 then s else s.readHigh vf off)

/-! Slice periods (19_tenants_and_metering.md R362, R363) -/

/-- A function has work: a launch candidate, an activation, a queued message or a fault-wait entry. -/
def State.hasWork (s : State) (vf : Nat) : Bool :=
  let mine (ctx : Nat) : Bool := khas s.ctxs ctx && decide ((s.ctxOf ctx).vf = vf)
  s.front.queues.any (fun (k, c) =>
      decide (c.headSt = .launchReady) && c.en && s.fnEnabled (k / 8) && c.head.any fun w => mine (cmdCtx w)) ||
    s.front.conts.any (fun c => mine (cmdCtx c.image)) || s.slots.any (fun (_, sl) => sl.occ && mine sl.ctx) ||
    s.net.any (fun x => mine x.msg.ctx) || s.cores.any (fun (_, k) => k.inbox.any fun x => mine x.msg.ctx) ||
    s.feeders.any (fun (_, d) => d.queued.any fun m => mine m.ctx) ||
    s.front.gangs.any (fun g => g.1.any fun (_, m) => mine m.ctx) ||
    s.clusters.any (fun (_, c) => c.fwait.any (fun w => mine w.msg.ctx) || (c.ctx.any mine && decide (c.ctx.any fun x =>
      (s.ctxOf x).placement.any fun k => (coresOf k).any fun core => (s.ringOf x core).count != 0))) ||
    s.saved.any fun (k, a) => mine (k / 512) && (!a.slots.isEmpty || !a.fwait.isEmpty ||
        a.rings.any fun (_, r) => r.count != 0)

/-- Cluster-slots of a list of grants. -/
def grantSum (l : List (Nat × Nat)) : Nat := (l.map (·.2)).sum

/-- Equal shares of n cluster-slots among functions, in order of function number (R363). -/
def equalShares (n : Nat) (fns : List Nat) : List (Nat × Nat) :=
  (List.range fns.length).zip fns |>.map fun (i, v) => (v, n / fns.length + (if i < n % fns.length then 1 else 0))

/-- A policy image is in force for a function (R363). -/
def State.usesImage (s : State) (vf : Nat) : Bool := khas s.fw.policy vf && !s.fw.fallback.contains vf

/-- A grant added to those of its function. -/
def addGrant (m : KMap Nat) (e : Nat × Nat) : KMap Nat := kset m e.1 (kget 0 m e.1 + e.2)

/-- The enabled functions of a partition. -/
def State.enabledFns (s : State) (part : Nat) : List Nat := (s.fnsOf part).filter s.fnEnabled

/-- The choices of a partition's policy images that stand: of its enabled functions that run one (R363). -/
def State.ownChoices (s : State) (part : Nat) (spare : List PolicyChoice) : List PolicyChoice :=
  spare.filter fun c => (s.enabledFns part).contains c.fn && s.usesImage c.fn

/-- Cluster-slots chosen, each cut at what those before it leave of n. -/
def cutShares (n : Nat) : List (Nat × Nat) → List (Nat × Nat)
  | [] => []
  | (v, k) :: l => (v, min n k) :: cutShares (n - min n k) l

/-- The grants of a period (R362, R363): minima to the functions that have work, then of the spare what the policy
images choose, as far as it goes; what they leave goes in equal shares to the functions that have work and run the
default policy. -/
def State.grants (s : State) (part : Nat) (spare : List PolicyChoice) : KMap Nat :=
  let work := (s.enabledFns part).filter s.hasWork
  let mins := work.map fun v => (v, s.minimum true v)
  let left := s.capacity true part - grantSum mins
  let chosen := cutShares left ((s.ownChoices part spare).map fun c => (c.fn, c.slots))
  let rest := equalShares (left - grantSum chosen) (work.filter fun v => !s.usesImage v)
  rest.foldl addGrant (chosen.foldl addGrant (mins.foldl addGrant []))

/-- A function put in its place among those before whose turns it comes. -/
def orderInsert (e : Nat × Nat) : List (Nat × Nat) → List (Nat × Nat)
  | [] => [e]
  | x :: l => if e.1 < x.1 ∨ (e.1 = x.1 ∧ e.2 < x.2) then e :: x :: l else x :: orderInsert e l

/-- The order of a period's slices (R363): where its policy image chooses one a function has that turn, else by its
number. The CONTEXT_RESTORE events that start the slices are the monitor's. -/
def State.sliceOrder (s : State) (part : Nat) (spare : List PolicyChoice) : List Nat :=
  let turn (v : Nat) : Nat := (((s.ownChoices part spare).find? (·.fn = v)).bind (·.turn)).getD v
  (((s.enabledFns part).map fun v => (turn v, v)).foldl (fun l e => orderInsert e l) []).map (·.2)

/-- A policy image sets priorities of its own function's queues (R363; 17_scheduling_and_power.md R334). -/
def State.setPrios (s : State) (part : Nat) (c : PolicyChoice) : State :=
  if (s.enabledFns part).contains c.fn && s.usesImage c.fn then
    c.prio.foldl (fun t (q, p) => if q < 8 ∧ p < 4 then t.setQueue c.fn q { t.queue c.fn q with prio := p } else t) s
  else s

/-- A partition's slice period, in hub cycles, has passed, or none has begun. -/
def State.periodOver (s : State) (part : Nat) : Bool :=
  (s.part part).since.all fun t0 => decide (t0 + cyclesOfMicros (s.reg (.pslice part)).toNat ≤ s.clk.hub)

/-- The slices that run in a partition end with the period (R362). -/
def State.endSlices (s : State) (part : Nat) : State :=
  { s with clusters := s.clusters.map fun (k, c) =>
      if c.switch.isNone && c.ctx.any fun x => (s.ctxOf x).part == part then (k, { c with ends := true }) else (k, c) }

/-- SLICE_PERIOD (R362, R363): a period begins, and with it the slices of the one before end; functions that fell back
to the default policy have their images again. -/
def execSlicePeriod (part : Nat) (spare : List PolicyChoice) (s : State) : Out :=
  .next (if 24 ≤ part ∨ s.periodOver part = false then s
    else
      let t := { s with fw := { s.fw with fallback := s.fw.fallback.filter fun v => !(s.enabledFns part).contains v } }
      let u := t.setPart part { t.part part with
        granted := t.grants part spare, ran := [], since := some t.clk.hub, choices := spare, order :=
            t.sliceOrder part spare }
      spare.foldl (fun u c => u.setPrios part c) (if (s.part part).since.isSome then u.endSlices part else u))

/-- A function's cluster-slots of the period are used up: n of them are n of the 1,024 parts of a cluster's time in it
(R362; 03_crossbar.md R56; log entry 56). -/
def State.sliceSpent (s : State) (ctx : Nat) : Bool :=
  let c := s.ctxOf ctx
  let p := s.part c.part
  p.since.isSome && decide (kget 0 p.granted c.vf * cyclesOfMicros (s.reg (.pslice c.part)).toNat ≤ 1024 * kget 0 p.ran c.vf)

/-! Fatal errors (R359, R360) -/

/-- The last 64 trace records of a cluster, core by core, then slot by slot (R360). -/
def State.lastTrace (s : State) (clus : Nat) : List Byte :=
  let k := s.clus clus
  let slots := 2 ^ (fld k.trccfg 12 4 + 5)
  let n := min k.trccount.toNat (min 64 slots)
  let recs := (List.range n).map fun i =>
    readBytes s.vault (clus * 2 ^ 24 + fld k.trccfg 16 18 * 64 + 32 * ((k.trccount.toNat - n + i) % slots)) 32
  (List.range 128).flatMap fun p => (recs.filter fun r => leNat ((r.drop 8).take 2) % 128 = p).flatten

/-- Error registers of a cluster: single-bit errors, its debug module's, its error log, its copy engine's log. -/
def ClusSt.errorWords (c : ClusSt) : List Nat :=
  [c.eccCount, boolCode c.dbgErr, c.errlog.length] ++ c.errlog.flatMap (fun (p, k, a) => [p, k, a.toNat]) ++
    [c.flog.length] ++ c.flog.flatMap fun (i, st) => [i, st]

/-- Error registers of the crossbar and its ports: the matrix and minima errors, ports out of service, requests that
failed beyond replay, refused posted requests, parity errors of the shard caches. -/
def Xbar.errorWords (x : Xbar) : List Nat :=
  [boolCode x.matrixErr, boolCode x.minErr, x.outOfService.length] ++ x.outOfService ++
    [x.unresolved.length] ++ x.unresolved.flatMap (fun (p, t, a) => [p, t, boolCode a]) ++
    [x.refusedCnt.length] ++ x.refusedCnt.flatMap (fun (f, n) => [f, n]) ++
    [x.parity.length] ++ x.parity.flatMap fun (i, n) => [i, n]

/-- Error registers of every die, port and engine (log entry 12). -/
def State.errorWords (s : State) : List Nat :=
  s.xbar.errorWords ++ s.links.flatMap (fun (p, l) => [p, boolCode l.up, l.resends]) ++
    s.host.aer.flatMap (fun (f, bs) => f :: bs) ++ s.formeErr ++
    s.feeders.flatMap (fun (f, d) => [f, d.overflows.toNat, d.invalids.toNat]) ++
    s.home.errors.flatMap (fun (e, c, k, x, p) => [e, c, k, x, p]) ++
    s.dies.flatMap (fun (d, x) => [d, x.temp, x.step]) ++ s.clusters.flatMap fun (c, k) => c :: k.errorWords

/-- The four sections of a dump (R360): error registers, trace records, partitions, kernel records. -/
def State.dumpSections (s : State) : List (List Byte) :=
  let ws (l : List Nat) : List Byte := l.flatMap (leBytes 8)
  [ws s.errorWords,
   s.clusters.flatMap fun (c, _) => s.lastTrace c,
   (List.range 24).flatMap fun p =>
     ws ((s.xbar.rows.filter fun (_, w) => rowPart w = p).map (fun (_, w) => w.toNat) ++
       (s.fnsOf p).map (fun v => (s.reg (.vfcfg v)).toNat) ++ [(s.reg (.pebud p)).toNat, (s.reg (.precfg p)).toNat]),
   (s.home.kernels.filter fun (_, k) => k.st ≠ .free).flatMap fun (k, r) => ws ((k / 64) :: r.words)]

/-- Offsets of consecutive sections from an address up. -/
def sectionTable : Nat → Nat → List (List Byte) → List Byte
  | _, _, [] => []
  | kind, ofs, b :: bs => leBytes 4 kind ++ leBytes 4 ofs ++ leBytes 8 b.length ++
      sectionTable (kind + 1) (ofs + b.length) bs

/-- A dump (R360). -/
def State.dump (s : State) (cause place status : Nat) : List Byte :=
  let secs := s.dumpSections
  let body := secs.flatMap id
  let len := 40 + 64 + body.length + 64
  let b := leBytes 8 (1 + len * 2 ^ 32) ++ leBytes 8 s.meter.boot ++ leBytes 8 (s.clk.hub * 4 / 7) ++
    leBytes 8 (cause % 256 + place % 65536 * 2 ^ 16 + status % 2 ^ 32 * 2 ^ 32) ++ leBytes 8 (40 + 4 * 2 ^ 32) ++
    sectionTable 1 (40 + 64) secs ++ body
  b ++ (Config.sign (Config.sha512 b).toList).toList

/-- A fatal error (R359): the package is frozen with its dump in the reserved area until a reset; the dump stands in
storage as well, and the host is signalled. -/
def State.fail (s : State) (cause place status : Nat) : State :=
  let d := s.dump cause place status
  { s with fatal := some d, fw := { s.fw with dumps := s.fw.dumps ++ [d] } }.irq 64 1 [cause, place, status]

/-- FATAL_ERROR (R359). -/
def execFatalError (cause place status : Nat) (s : State) : Out :=
  .next (if cause = 0 ∨ 4 < cause then s else s.fail cause place status)

end Sys2Proof.Machine
end

