-- ==== Sys2Proof/Machine/Firmware.lean ====
section
/-!
DEFINITION. Boot, live update, takeover, attestation, alarms, provisioning, loss of power (21_host_firmware_security.md
R387 to R395; 19_tenants_and_metering.md R363, R368), migration descriptors (18_faults_and_preemption.md R355),
uncorrectable errors of buffers (14_weight_and_quiescence.md R283) and writes of configuration registers.
-/

namespace Sys2Proof.Machine

/-! Images and boot (R389, R390) -/

/-- The bytes of an image's header that must be zero are so: the reserved ones, and in any image but a monitor's the
range of table versions (R389). -/
def imageZeros (img : Image) : Bool :=
  img.reserved.length == 40 && img.reserved.all (· == 0) && (img.kind == 2 || (img.lowTable == 0 && img.highTable == 0))

/-- The 128 bytes of an image's header (R389). -/
def imageHeader (img : Image) : List Byte :=
  leBytes 4 img.kind ++ leBytes 4 img.length ++ leBytes 4 img.version ++ leBytes 4 img.level ++
      leBytes 4 img.lowTable ++
    leBytes 4 img.highTable ++ img.reserved ++ img.signature

/-- An image of a kind verifies (R389): the key is the vendor's, whose hash the security element holds, and accepts its
signature; its reserved bytes are zero, and its rollback level is no less than the counter. -/
def Firmware.verifies (f : Firmware) (kind : Nat) (img : Image) : Bool :=
  decide (img.kind = kind) && decide (img.keyHash = f.vendorHash) && img.signatureGood && imageZeros img &&
    decide ((imageHeader img).length = 128) && decide (kget 0 f.rollback kind ≤ img.level)

/-- The first-stage image that boots, and whether complex B's copy was taken. -/
def Firmware.firstStage (f : Firmware) (src : BootSource) : Option (Image × Bool) :=
  if f.verifies 1 src.stageA then some (src.stageA, false)
  else if f.verifies 1 src.stageB then some (src.stageB, true)
  else none

/-- The monitor image that runs: the one in storage, or the one retained; each is verified (R388, R390). -/
def Firmware.bootMonitor (f : Firmware) (src : BootSource) : Option Image :=
  (src.monitor.filter (f.verifies 2)).orElse fun _ => f.retained.filter (f.verifies 2)

/-- Metering at boot (19_tenants_and_metering.md R368): the count rises, and the counters resume from the newer
record. -/
def Meter.resume (m : Meter) (resetTenths : Nat) : Meter :=
  let rec_ := if m.newerA then m.slotA.orElse fun _ => m.slotB else m.slotB.orElse fun _ => m.slotA
  let tenths := 1 + if m.powerLost then 0 else resetTenths
  let base : Meter := { slotA := m.slotA, slotB := m.slotB, newerA := m.newerA, boot := m.boot + 1 }
  match rec_ with
  | none => base
  | some l =>
    let rows := (List.range 25).zip l
    { base with
      cnt := rows.foldl (fun k e => kset k e.1 e.2.1) []
      unc := rows.foldl (fun k e => kset k e.1 (e.2.2.1 + e.2.2.2 * 100 * tenths)) []
      gap := true }

/-- What a reset leaves: host memory, main memory and vault bytes, what the host has received, the metering unit's
and the complexes' flash, storage with its dumps and policy images, and the security element (log entry 16). -/
def State.resetKeeping (s : State) : State :=
  { State.reset with
    agenda := s.agenda
    clk := { s.clk with hub := 0 }
    mem := s.mem
    vault := s.vault
    host := { irqs := s.host.irqs, reads := s.host.reads, completions := s.host.completions }
    meter := { slotA := s.meter.slotA, slotB := s.meter.slotB, newerA := s.meter.newerA, boot := s.meter.boot,
               powerLost := s.meter.powerLost }
    fw := { vendorHash := s.fw.vendorHash, clock := s.fw.clock, retained := s.fw.retained, key := s.fw.key
            rollback := s.fw.rollback, attest := s.fw.attest, store := s.fw.store, dumps := s.fw.dumps } }

/-- The span that boot's management configuration names (R387): at most 16 packages of 4-bit numbers, this one among
them. One that is not so names none, and the package is a span of one. -/
def bootSpan (src : BootSource) : Nat × List Nat :=
  let l := src.span.eraseDups
  if l.length ≤ 16 ∧ l.all (· < 16) = true ∧ l.contains src.pkg = true then (src.pkg, l) else (0, [])

/-- BOOT (R390): the first stage, then the monitor; the boot count rises, and the standby complex runs the same image.
The monitor writes the rollback counters of the images it booted (log entry 16). -/
def execBoot (src : BootSource) (s : State) : Out :=
  let t := s.resetKeeping
  .next (match s.fw.firstStage src, s.fw.bootMonitor src with
  | some (stage, b), some mon =>
    { t with
      meter := s.meter.resume src.resetTenths
      fw := { t.fw with
        activeB := b, stage := some stage, monitor := some mon, standby := some mon, retained := some mon, mirrored :=
            true
        tableVer := mon.highTable
        pkg := (bootSpan src).1
        span := (bootSpan src).2
        clock := t.fw.clock + src.resetTenths * 175000000
        store := src.policies
        rollback := kset (kset t.fw.rollback 1 (max (kget 0 t.fw.rollback 1) stage.level)) 2
          (max (kget 0 t.fw.rollback 2) mon.level) } }
  | _, _ => { t with fw := { t.fw with bootFailed := true } })

/-- POWER_LOSS (19_tenants_and_metering.md R368): flash and the host's memory stay. -/
def execPowerLoss (s : State) : Out :=
  let t := s.resetKeeping
  .next { t with
    mem := t.mem.filter fun c => hostBase ≤ c.1
    vault := []
    meter := { t.meter with powerLost := true }
    fw := { t.fw with clock := 0 } }

/-! Live update (R391) -/

/-- The front end reads commands again. -/
def State.unpause (s : State) : State := { s with front := { s.front with paused := false } }

/-- A live update refused: the standby runs the old image. -/
def State.refuseUpdate (s : State) : State :=
  { s.unpause with fw := { s.fw with standby := s.fw.monitor, mirrored := true, upd := .idle } }

/-- UPDATE_COMMAND (R391). -/
def execUpdateCommand (img : Image) (s : State) : Out :=
  .next (if s.fw.upd = .idle then { s with fw := { s.fw with standby := none, mirrored := false, upd := .loading img } } else s)

/-- STANDBY_READY (R391): the image is verified, and the table's version compared with its range. -/
def execStandbyReady (s : State) : Out :=
  .next (match s.fw.upd with
  | .loading img =>
    if s.fw.verifies 2 img && decide (img.lowTable ≤ s.fw.tableVer) && decide (s.fw.tableVer ≤ img.highTable) then
      { s with fw := { s.fw with upd := .pausing img, mirrored := true }, front := { s.front with paused := true } }
    else s.refuseUpdate
  | _ => s)

/-- PAUSE_DRAINED (R391): every command read stands at its queue's head (R326). -/
def execPauseDrained (s : State) : Out :=
  .next (match s.fw.upd with
  | .pausing img => { s with fw := { s.fw with upd := .switching img } }
  | _ => s)

/-- UPDATE_PAUSE_TIMEOUT (R391). -/
def execUpdatePauseTimeout (s : State) : Out :=
  .next (match s.fw.upd with
  | .pausing _ => s.refuseUpdate
  | _ => s)

/-- The policy image of a function loaded (19_tenants_and_metering.md R363): that of POLVER in storage; where it is
missing or fails verification the default policy runs, and the host is signalled; version 0 is the default policy. -/
def State.loadPolicy (s : State) (vf : Nat) : State :=
  let ver := fld (s.reg (.vfcfg vf)) 16 16
  let none_ : State := { s with fw := { s.fw with policy := kdel s.fw.policy vf } }
  if ver = 0 then none_
  else if s.fw.store.any fun i => decide (i.version = ver) && s.fw.verifies 3 i then
    { s with fw := { s.fw with policy := kset s.fw.policy vf ver } }
  else none_.irq 64 0 [363, vf]

/-- The standby becomes active with an image; what the other complex then runs is given (R391, R392). -/
def State.switchTo (s : State) (img : Image) (standby : Option Image) : State :=
  { s.unpause with fw := { s.fw with
      activeB := !s.fw.activeB, monitor := some img, standby := standby, mirrored := standby.isSome, upd := .idle
      retained := some img, tableVer := img.highTable } }

/-- IMPORT_DONE (R391). -/
def execImportDone (s : State) : Out :=
  .next (match s.fw.upd with
  | .switching img => s.switchTo img (some img)
  | _ => s)

/-! Takeover (R392) -/

/-- Commands at the heads of the queues are run again, but for a SAVE that is under way, and a MOVE, whose progress
stands in the record of moves (R392). -/
def State.rerunHeads (s : State) : State :=
  { s with front := { s.front with queues := s.front.queues.map fun (k, c) =>
      (k, if c.headSt = .saving then c else { c with headSt := .read, desc := [] }) } }

/-- The failure is fatal (R359). -/
def State.firmwareFatal (s : State) : State := s.fail 4 hubPlace 0

/-- A takeover (R392): commands at the heads run again, and the policy images of the enabled functions are loaded
(19_tenants_and_metering.md R363); a live update keeps those in force. -/
def State.takeOver (s : State) (img : Image) : State :=
  let t := (s.switchTo img none).rerunHeads
  ((List.range 64).filter t.fnEnabled).foldl State.loadPolicy t

/-- HEARTBEAT_TIMEOUT (R392). -/
def execHeartbeatTimeout (s : State) : Out :=
  .next (match s.fw.upd with
  | .idle =>
    match s.fw.standby with
    | some img => if s.fw.mirrored then s.takeOver img else s.firmwareFatal
    | none => s.firmwareFatal
  | .loading _ => s.firmwareFatal
  | .pausing img => if s.fw.mirrored then s.takeOver img else s.firmwareFatal
  | .switching img => s.takeOver img)

/-! Attestation, provisioning, alarms (R393 to R395) -/

/-- Version and hash of an image that may be absent. -/
def imageWords (kind : Nat) (img : Option Image) : List Nat :=
  match img with
  | some i => [i.version, (Config.imageHash kind i.version).toNat]
  | none => [0, 0]

/-- ATTESTATION_REQUEST (R394): signed by the attestation key, so none is returned without it. -/
def execAttestationRequest (nonce : Word) (s : State) : Out :=
  let f := s.fw
  let r := s.signedRecord ([Config.deviceId.toNat] ++ imageWords 1 f.stage ++ imageWords 2 f.monitor ++
    [kget 0 f.rollback 1, kget 0 f.rollback 2, kget 0 f.rollback 3, s.meter.boot, nonce.toNat])
  .next (if f.key then { s with fw := { f with attest := f.attest ++ [r] } } else s)

/-- PROVISIONING_COMMAND (R393). -/
def execProvisioningCommand (vendorSigned : Bool) (s : State) : Out :=
  .next (if vendorSigned then { s with fw := { s.fw with key := true } } else s)

/-- The level of what a sensor finds (R395); 0 is in its range. -/
def sensedLevel (c : Sensed) : Nat :=
  match c with
  | .supply d => if 100 < d then 2 else if 50 < d then 1 else 0
  | .temperature _ t => if 120 < t then 2 else if 110 < t then 1 else 0
  | .clockGlitch => 1
  | .clockLoss _ => 2
  | .meshBreak unpowered => if unpowered then 3 else 2

/-- SECURITY_ALARM (R395): each level includes those below it; the third of level 2 in a boot is one of level 3. -/
def execSecurityAlarm (c : Sensed) (s : State) : Out :=
  let level := sensedLevel c
  let t := ({ s with fw := { s.fw with outAt := s.clk.hub } }.log [395, level]).irq 64 2 [level]
  let n := s.fw.level2 + boolCode (level == 2)
  .next (if level = 0 then s
    else if level = 1 then t
    else { t with fw := { t.fw with level2 := n, halted := true, key := t.fw.key && decide (level ≠ 3) && decide (n < 3) } })

/-- ALARM_RESUME (R395): by the physical function, once the sensors have stayed in range for 1 s. -/
def execAlarmResume (s : State) : Out :=
  .next (if s.clk.hub < s.fw.outAt + cyclesOfMicros 1000000 then s else { s with fw := { s.fw with halted := false } })

/-! Policies, migration, buffers -/

/-- POLICY_IMAGE_OVERRUN (19_tenants_and_metering.md R363): the default policy takes over for the function for the rest
of the period, whose spare cluster-slots are shared out anew; the choices of the other functions' images stand. -/
def execPolicyImageOverrun (vf : Nat) (s : State) : Out :=
  let t := { s with fw := { s.fw with fallback := sinsert s.fw.fallback vf } }.irq 64 0 [363, vf]
  let part := s.fnPart vf
  .next (if 64 ≤ vf then s
    else if part < 24 ∧ (s.part part).since.isSome = true then
      let l := (t.part part).choices
      t.setPart part { t.part part with granted := t.grants part l, order := t.sliceOrder part l }
    else t)

/-- MIGRATION_DESCRIPTOR_PLACEMENT (18_faults_and_preemption.md R355): a later one for a context replaces an earlier. -/
def execMigrationDescriptorPlacement (d : MigDesc) (s : State) : Out :=
  .next { s with fw := { s.fw with pending := s.fw.pending.filter (·.ctx ≠ d.ctx) ++ [d] } }

/-- A wire whose buffer has an uncorrectable error: weight on it is lost (14_weight_and_quiescence.md R283). -/
def State.wireError (s : State) (i : Nat) : State :=
  match s.home.wires[i]? with
  | some (.combine _ ctx ks h x) => (s.dropWire i).lose ctx ks h x 2 hubPlace
  | some (.ret ctx ks h x src) => (s.dropWire i).lose ctx ks h x 2 src
  | some (.grant _ ctx ks h _ x _) => (s.dropWire i).lose ctx ks h x 2 hubPlace
  | _ => s

/-- The i-th message of a core's inbox is lost, when it carries weight. -/
def State.inboxError (s : State) (core i : Nat) : State :=
  let k := s.core core
  match k.inbox[i]? with
  | some x => if x.msg.wt = 0 then s else (s.setCore core { k with inbox := k.inbox.eraseIdx i }).loseMsg x.msg 2 (core * 8)
  | none => s

/-- The i-th message that a feeder queues is lost, when it carries weight. -/
def State.feederError (s : State) (f i : Nat) : State :=
  let d := s.feeder f
  match d.queued[i]? with
  | some m => if m.wt = 0 then s else (s.setFeeder f (d.take i)).loseMsg m 2 (feederPlace f)
  | none => s

/-- Every message of an inbox or a feeder, as what loses it. -/
def State.queuedErrors (s : State) : List (State → State) :=
  (s.cores.flatMap fun (c, k) => (List.range k.inbox.length).map fun j t => State.inboxError t c j) ++
    s.feeders.flatMap fun (f, d) => (List.range d.queued.length).map fun j t => State.feederError t f j

/-- BUFFER_UNCORRECTABLE_ERROR (14_weight_and_quiescence.md R283): the i-th of the messages under way, the wires to and
from the home, and the messages in inboxes and feeders is dropped, when it carries weight. -/
def execBufferUncorrectableError (i : Nat) (s : State) : Out :=
  let n := s.net.length
  let w := s.home.wires.length
  .next (match s.net[i]? with
  | some x => if x.msg.wt = 0 then s else { s with net := s.net.eraseIdx i }.loseMsg x.msg 2 x.msg.src
  | none => if i < n + w then s.wireError (i - n) else (s.queuedErrors.getD (i - n - w) id) s)

/-! Configuration registers (the rules of each: INVENTORY.md, Host interface) -/

/-- A field of n bits from bit lo of a written value is zero. -/
def zeroAt (v : Word) (lo n : Nat) : Bool := decide (fld v lo n = 0)

/-- A register written, or the write discarded. -/
def State.putIf (s : State) (ok : Bool) (r : CReg) (v : Word) : State := if ok then s.setReg r v else s

/-- A place names slot 0 of a service core in a cluster of a partition (02_main_memory.md R41). -/
def State.servesPart (s : State) (place part : Nat) : Bool :=
  isSlot place && isService place && decide (place % 8 = 0) && decide (s.partOfClus (clusOf place) = part)

/-- An engine's error status set (15_formes.md R289). -/
def State.formeError (s : State) (die : Nat) : State := { s with formeErr := sinsert s.formeErr die }

/-- FRMQUOTA (15_formes.md R289): LIVE is read only. -/
def State.writeQuota (s : State) (die part : Nat) (v : Word) : State :=
  let others := ((List.range 24).filter (· ≠ part)).map fun p => fld (s.reg (.frmquota die p)) 0 13
  if zeroAt v 29 35 && zeroAt v 13 3 && decide (fld v 0 13 + others.sum ≤ 4096) then
    s.setReg (.frmquota die part) (word (fld v 0 13))
  else s.formeError die

/-- FRMAREA (15_formes.md R289): once per partition, so a reserved value sets every engine's error status. -/
def State.writeArea (s : State) (part : Nat) (v : Word) : State :=
  if zeroAt v 48 16 && zeroAt v 5 11 && decide (fld v 0 5 ≤ 20) then s.setReg (.frmarea part) v
  else (List.range 8).foldl State.formeError s

/-- No cluster runs a context, and none is being switched to it (13_handlers_and_messages.md R259). -/
def State.isSaved (s : State) (ctx : Nat) : Bool :=
  s.clusters.all fun (_, c) => c.ctx != some ctx && c.switch.all fun w => w.incoming != some ctx

/-- VFCFG (19_tenants_and_metering.md R361, R363; 03_crossbar.md R56): a change of PART waits for every context of the
function to be saved; enabling the function loads its policy image. -/
def State.writeVfcfg (s : State) (vf : Nat) (v : Word) : State :=
  let p := fld v 8 5
  let moved := decide (p ≠ s.fnPart vf) && s.ctxs.any fun (k, c) => decide (c.vf = vf) && !s.isSaved k
  if !(zeroAt v 13 3 && zeroAt v 1 7 && (decide (p < 24) || decide (p = 31))) || moved then s
  else
    let t := s.setReg (.vfcfg vf) v
    if p < 24 ∧ t.minBad p = true then { s with xbar := { s.xbar with minErr := true } }
    else if bitOf v.toNat 0 && !s.fnEnabled vf then t.loadPolicy vf
    else t

/-- PESHARE (19_tenants_and_metering.md R365). -/
def State.writeShare (s : State) (part : Nat) (v : Word) : State :=
  let others := ((List.range 24).filter (· ≠ part)).map fun p => fld (s.reg (.peshare p)) 0 16
  s.putIf (decide (fld v 0 16 + others.sum ≤ 65536)) (.peshare part) (word (fld v 0 16))

/-- A debug register's cluster after a write with a reserved bit (20_debug.md R370). -/
def State.debugError (s : State) (clus : Nat) : State := s.setClus clus { s.clus clus with dbgErr := true }

/-- DBGCTL (20_debug.md R371): the fields, then RES, HALT and STEP. -/
def State.writeDbgctl (s : State) (clus : Nat) (v : Word) : State :=
  if !(zeroAt v 25 39 && zeroAt v 15 1 && zeroAt v 3 3) || decide (8 < fld v 8 4) then s.debugError clus
  else
    let t := s.setClus clus { s.clus clus with
      hob := BitVec.ofNat 9 (fld v 16 9), sslot := BitVec.ofNat 3 (fld v 12 3), score := BitVec.ofNat 4 (fld v 8 4)
      xt := bitOf v.toNat 7, frz := bitOf v.toNat 6 }
    let t := if bitOf v.toNat 1 then t.debugResume clus else t
    let t := if bitOf v.toNat 0 then t.debugHalt clus else t
    if bitOf v.toNat 2 then t.debugStep clus (fld v 8 4) (fld v 12 3) else t

/-- DBPn (20_debug.md R376). -/
def State.writeDbp (s : State) (clus n : Nat) (v : Word) : State :=
  let c := s.clus clus
  if h : n < 4 then
    if zeroAt v 56 6 && zeroAt v 0 1 then s.setClus clus { c with dbp := c.dbp.set n v h } else s.debugError clus
  else s

/-- TRCCFG (20_debug.md R377): BASE is aligned to the ring's size of 16 << SZLG lines. -/
def State.writeTrccfg (s : State) (clus : Nat) (v : Word) : State :=
  if !(zeroAt v 34 30 && zeroAt v 9 3) then s.debugError clus
  else if 10 < fld v 12 4 ∨ fld v 16 18 % (16 * 2 ^ fld v 12 4) ≠ 0 then s
  else s.setClus clus { s.clus clus with trccfg := v }

/-- PSCMD (20_debug.md R381): a reserved op or a nonzero reserved bit ends with status 5, before all else (log entry
13); any other does what the session's event of its op does. -/
def State.writePscmd (s : State) (vf : Nat) (v : Word) : State :=
  let t := s.setReg (.pscmd vf) v
  let cix := fld v 8 3
  if !zeroAt v 11 5 then t.psDone vf 5
  else match fld v 0 8 with
    | 1 => t.psOpen vf
    | 2 => t.psConfigure vf cix (fld v 16 16)
    | 3 => t.psArm vf cix (fld v 32 32)
    | 4 => t.psDisarm vf cix
    | 5 => t.psClose vf
    | _ => t.psDone vf 5

/-- QBASE and QCBASE (17_scheduling_and_power.md R325): while EN is 0. -/
def State.writeQueueBase (s : State) (vf q : Nat) (compl : Bool) (v : Word) : State :=
  let c := s.queue vf q
  if !isQueue vf q || c.en then s
  else if compl then if zeroAt v 0 4 then s.setQueue vf q { c with cbase := v.toNat / 16 } else s
  else if zeroAt v 0 6 then s.setQueue vf q { c with base := v.toNat / 64 } else s

/-- A word of a context record, written while the context is saved (13_handlers_and_messages.md R259). -/
def State.writeCtxWord (s : State) (ctx w : Nat) (v : Word) : State :=
  let c := s.ctxOf ctx
  if h : w < 8 then
    if ctx < 4096 ∧ (c.st = .saved ∨ c.st = .refused) ∧ s.isSaved ctx = true then
      s.setCtx ctx { c with words := c.words.set w v h, st := .saved }
    else s
  else s

/-- A cluster put into a context's placement, or taken out, before its first restore
(13_handlers_and_messages.md R433). -/
def State.writePlacement (s : State) (ctx clus : Nat) (v : Word) : State :=
  let c := s.ctxOf ctx
  if ctx < 4096 ∧ clus < 512 ∧ (c.st = .saved ∨ c.st = .refused) ∧ c.owners.isEmpty = true ∧ s.isSaved ctx = true then
    s.setCtx ctx { c with placement := if v = 0 then c.placement.filter (· ≠ clus) else sinsert c.placement clus }
  else s

/-- REGISTER_WRITE: each register with its rule's reserved values, which discard the write; a register index that does
not exist changes nothing. -/
def execRegisterWrite (r : CReg) (v : Word) (s : State) : Out :=
  .next (match r with
  | .pxlate p => s.putIf (decide (p < 24) && zeroAt v 17 47 && (!bitOf v.toNat 16 || s.servesPart (fld v 0 16) p)) r v
  | .sprt n => s.putIf (decide (n < 16) && zeroAt v 5 59 && decide (fld v 0 4 ≤ 11) &&
      (!bitOf v.toNat 4 || decide (1 < s.fw.span.length))) r v
  | .frmquota d p => if d < 8 ∧ p < 24 then s.writeQuota d p v else s
  | .frmarea p => if p < 24 then s.writeArea p v else s
  | .padm p => s.putIf (decide (p < 24) && zeroAt v 32 16 && !zeroAt v 0 32) r v
  | .pebud p => s.putIf (decide (p < 24) && !zeroAt v 16 16) r v
  | .perem _ => s
  | .dpctl d => s.putIf (decide (d < 8) && zeroAt v 45 19 && decide (8 ≤ fld v 40 5) && decide (fld v 40 5 ≤ 16)) r
      (word (fld v 32 13 * 2 ^ 32))
  | .plim => s.setReg r v
  | .dpgate d => s.putIf (decide (d < 8) && zeroAt v 34 30) r v
  | .precfg p => s.putIf (decide (p < 24) && zeroAt v 40 24 && !zeroAt v 32 8 && !zeroAt v 0 32) r v
  | .valloc c => s.putIf (decide (c < 4096) && zeroAt v 16 48 && decide (fld v 0 8 ≤ 0xBF) &&
      decide (fld v 8 8 ≤ 0xBF)) r v
  | .vfcfg f => if f < 64 then s.writeVfcfg f v else s
  | .pslice p => s.putIf (decide (p < 24) && decide (100 ≤ v.toNat) && decide (v.toNat ≤ 1000000)) r v
  | .peshare p => if p < 24 then s.writeShare p v else s
  | .dbgctl c => if c < 512 then s.writeDbgctl c v else s
  | .dbp c n => if c < 512 then s.writeDbp c n v else s
  | .dbpctx c =>
    if 512 ≤ c then s
    else if zeroAt v 12 52 then s.setClus c { s.clus c with dbpctx := BitVec.ofNat 12 (fld v 0 12) } else s.debugError c
  | .trccfg c => if c < 512 then s.writeTrccfg c v else s
  | .qbase f q => s.writeQueueBase f q false v
  | .qcbase f q => s.writeQueueBase f q true v
  | .pscmd f => if f < 64 then s.writePscmd f v else s
  | .psring f => s.putIf (decide (f < 64) && zeroAt v 4 8) r v
  | .epsel => s.setReg r (word (fld v 0 5))
  | .svcEntry c => if c < 512 then s.setClus c { s.clus c with svcEntry := v } else s
  | .ctxWord c w => s.writeCtxWord c w v
  | .placement c k => s.writePlacement c k v)

end Sys2Proof.Machine
end

