-- ==== Sys2Proof/Machine/FormeAnswer.lean ====
section
/-!
DEFINITION. Answers and wakes of the forme engines as they reach slots and feeders (15_formes.md R293, R296, R302;
05_feeders.md R93).
-/

namespace Sys2Proof.Machine

/-- The slot whose head completes with values for registers and a handle. -/
def Slot.formeDone (sl : Slot) (vals : List RegVal) (hdest : Option (HReg × Word)) : Slot :=
  let s1 := if sl.rex.any (·.2) then sl else vals.foldl Slot.putVal sl
  let s2 := match hdest with
    | some (h, w) => s1.setH h w
    | none => s1
  { s2.retire (vals.map RegVal.dest) with park := .run }

/-- FORME_ENGINE_ANSWER (R293, R303): the form completes, traps, or waits on for its phase; a feeder goes on with its
next record (05_feeders.md R93). -/
def execFormeEngineAnswer (place : Nat) (s : State) : Out :=
  let sl := s.slot place
  .next (match sl.park with
  | .answer (.done vals hdest) => s.setSlot place (sl.formeDone vals hdest)
  | .answer (.refuse c tv) => s.trapIn place c tv false
  | .answer (.wait a) => s.setSlot place { sl with park := .forme a }
  | _ =>
    match feederOf place with
    | some f =>
      match (s.feeder f).st with
      | .answer _ => s.feedNext f
      | _ => s
    | none => s)

/-- FORME_WAKE (R296, R302): the result of the phase is written, or a deletion traps with cause 0x0C and code 8. -/
def execFormeWake (place : Nat) (s : State) : Out :=
  let sl := s.slot place
  .next (match sl.park with
  | .woken a r => s.setSlot place (sl.formeDone [.x a r] none)
  | .deleted => s.trapIn place 0x0C 8 false
  | _ => s)

end Sys2Proof.Machine
end

