-- ==== Sys2Proof/Machine/Link.lean ====
section
/-!
DEFINITION. Odnerlink ports (21_host_firmware_security.md R386, R387; 03_crossbar.md R51, R62;
14_weight_and_quiescence.md R283).
-/

namespace Sys2Proof.Machine

/-- Flits not acknowledged after an acknowledgement of a sequence number: every flit up to it has arrived. -/
def ackFlits (n : Nat) (l : List Flit) : List Flit :=
  if l.any (fun f => f.seq = n) then (l.dropWhile fun f => f.seq ≠ n).drop 1 else l

/-! Answers to requests at other packages (R51, R54, R62) -/

/-- The answer to a request of this package at another one, at its requester: a unit's, at once; of a port of the
crossbar by a response, or a refusal; of a posted request only a refusal counts (R54). -/
def State.remoteAnswer (s : State) (q : PortReq) (res : RemRes) : State :=
  if q.posted then if res = .refused then s.refusePosted q else s
  else if q.row < 32 ∨ isUnitReq q then { s with xbar := s.xbar.settled q }.finish q res
  else match res with
    | .data bs => { s with xbar := s.xbar.respond q bs }
    | .poisoned => s.answerPort q [] true false false
    | .addressError => s.answerPort q [] false false true
    | .refused => { s with xbar := s.xbar.settled q }.finish q .refused

/-- An answer that arrives at a port: to the request of its tag that is noted there; one whose request is answered
already is discarded (R61). -/
def State.portAnswer (s : State) (port tag : Nat) (res : RemRes) : State :=
  let l := s.link port
  match l.asked.find? (·.tag = tag) with
  | some r => (s.setLink port { l with asked := l.asked.erase r }).remoteAnswer r.q res
  | none =>
    match res with
    | .data _ => s
    | _ => s.log [51, port, tag]

/-- A hold response from another package restarts the timeout and the count of reissues of its request (R63). -/
def State.portHold (s : State) (port tag : Nat) : State :=
  match (s.link port).asked.find? (·.tag = tag) with
  | some r =>
    let again (y : PortReq × Nat) : PortReq × Nat :=
      if sameReq y.1 r.q then ({ y.1 with reissues := 0 }, s.rowClock y.1.row) else y
    { s with xbar := { s.xbar with outstanding := s.xbar.outstanding.map again } }
  | none => s

/-! What flits bring -/

/-- What a flit brings to this package: requests, answers, messages, weight, counts and contexts. What is not for this
package goes on by its route (14_weight_and_quiescence.md; log entry 11). R51 does not say which sub-port of the port
takes a request of a firmware complex or the debug port, whose partition is 31: it is 31 mod 24, sub-port 7 (log entry
11, the model's choice). -/
def State.takeFlit (s : State) (port : Nat) (f : Flit) : State :=
  match f.body with
  | .msg m => s.post m
  | .memReq q => s.enterPort { q with row := 96 + 24 * port + q.row % 24, src := hubPlace }
  | .memResp tag data => s.portAnswer port tag (.data data)
  | .memRefuse tag => s.portAnswer port tag .refused
  | .memPoison tag => s.portAnswer port tag .poisoned
  | .memError tag => s.portAnswer port tag .addressError
  | .memHold tag => s.portHold port tag
  | .ret ctx ks hpkg amt => s.wire (.ret ctx ks hpkg amt hubPlace)
  | .borrow ctx ks hpkg amt place spkg act => s.wire (.borrow ctx ks hpkg amt place spkg act)
  | .grant pkg ctx ks hpkg place amt act => s.wire (.grant pkg ctx ks hpkg place amt act)
  | .refuse pkg ctx ks place amt act => s.wire (.refuse pkg ctx ks place amt act)
  | .loss ctx ks hpkg amt cause place => s.wire (.loss ctx ks hpkg amt cause place)
  | .stats ctx ks hpkg cnt => s.wire (.stats ctx ks hpkg cnt)
  | .context c => s.arriveContext c
  | .leave pkg ctx ks hpkg => if pkg = s.fw.pkg then s.leaveKernel ctx ks hpkg else s.sendLeave ctx ks hpkg pkg
  | .void => s
  | .ack _ => s
  | .resend _ => s
  | .retired _ => s

/-- What a flit brings enters only once its sender has retired it (R283): all but memory requests and their answers. -/
def flitEnters (b : FlitBody) : Bool :=
  match b with
  | .msg _ => true
  | .ret .. => true
  | .borrow .. => true
  | .grant .. => true
  | .refuse .. => true
  | .loss .. => true
  | .stats .. => true
  | .context _ => true
  | .leave .. => true
  | _ => false

/-- The port beyond has retired a flit: it and those before it that wait for this enter. -/
def State.flitsEnter (s : State) (port n : Nat) : State :=
  let l := s.link port
  if l.entering.any fun f => f.seq = n then
    let now := l.entering.takeWhile (fun f => f.seq ≠ n) ++ ((l.entering.dropWhile fun f => f.seq ≠ n).take 1)
    now.foldl (fun t f => t.takeFlit port f) (s.setLink port { l with entering := l.entering.drop now.length })
  else s

/-- A flit in its order, acknowledged. Flits received before a failure of the link that their sender is not known to
have retired are discarded with the first that is taken afterwards (log entry 11). -/
def State.flitTaken (s : State) (port : Nat) (f : Flit) : State :=
  let l := s.link port
  let before := if l.fresh then [] else l.entering
  let l' := { l with expect := (l.expect + 1) % 4096, reply := some (f.seq, true), fresh := false, entering := before }
  if !s.fw.span.contains f.src then (s.setLink port l').log [387, port, f.src]
  else if flitEnters f.body then s.setLink port { l' with entering := before ++ [f] }
  else (s.setLink port l').takeFlit port f

/-- What a flit that a port drops held: weight of a message, a return or a grant becomes a loss notice of cause 3, a
borrow is refused, a context that was moving and word of leaves stay to be sent again (14_weight_and_quiescence.md
R283). -/
def State.dropFlit (s : State) (f : Flit) : State :=
  match f.body with
  | .msg m => s.loseMsg m 3 hubPlace
  | .ret ctx ks hpkg amt => s.lose ctx ks hpkg amt 3 hubPlace
  | .grant _ ctx ks hpkg _ amt _ => s.lose ctx ks hpkg amt 3 hubPlace
  | .borrow ctx ks _ amt place spkg act => s.wire (.refuse spkg ctx ks place amt act)
  | .context c => { s with front := { s.front with moving := kset s.front.moving c.desc.ctx false } }
  | .leave pkg ctx ks hpkg => s.sendLeave ctx ks hpkg pkg
  | _ => s

/-- Requests of the port's far side that await their answer here fail with the link (R62): the memory port logs the tag
and whether the request was applied, and one not applied yet never is. -/
def State.failIncoming (s : State) (port : Nat) : State :=
  let mine (q : PortReq) : Bool := linkPort q.row == some port && !q.posted
  let out := s.xbar.outstanding.filter fun y => mine y.1
  let applied (q : PortReq) : Bool := s.pendingReq q || s.appliedReq q
  { s with xbar := { s.xbar with
      outstanding := s.xbar.outstanding.filter fun y => !mine y.1
      reqs := s.xbar.reqs.filter fun q => !mine q
      ingress := s.xbar.ingress.filter fun q => !mine q
      unresolved := s.xbar.unresolved ++ out.map fun y => (tgtOf y.1.pa, y.1.tag, applied y.1) } }

/-- A link that fails beyond replay (R386; 03_crossbar.md R62): its unretired flits are dropped, and every request
outstanding on it fails at once: one of this package is answered with poison and logged, and the memory port that may
have applied it is at the other package. -/
def State.failLink (s : State) (port : Nat) : State :=
  let l := s.link port
  let t := (s.setLink port { l with unacked := [], resends := 0, up := false, asked := [] }).failIncoming port
  let t := l.unacked.foldl State.dropFlit t
  l.asked.foldl (fun t r => (t.log [62, port, r.tag]).remoteAnswer r.q .poisoned) t

/-- The oldest flit is sent again; after 32 resends of one flit the link has failed beyond replay. -/
def State.resendFlits (s : State) (port : Nat) : State :=
  let l := s.link port
  if l.resends < 32 then s.setLink port { l with resends := l.resends + 1, sentAt := s.clk.hub } else s.failLink port

/-- ODNERLINK_FLIT_RECEIVE (R386, R387): a flit is acknowledged; one with a CRC error is asked for again, and one out of
its order is not taken. One from outside the span is discarded and logged. -/
def execOdnerlinkFlitReceive (port : Nat) (flit : Flit) (s : State) : Out :=
  let l := s.link port
  .next (if 12 ≤ port ∨ l.up = false then s
    else if flit.crcGood = false then s.setLink port { l with reply := some (l.expect, false) }
    else match flit.body with
      | .ack n =>
        let left := ackFlits n l.unacked
        if left = l.unacked then s
        else s.setLink port { l with unacked := left, resends := 0, sentAt := s.clk.hub, told := some n }
      | .resend n => if l.unacked.any fun f => f.seq = n then s.resendFlits port else s
      | .retired n => s.flitsEnter port n
      | _ =>
        if flit.seq ≠ l.expect then s.setLink port { l with reply := some ((l.expect + 4095) % 4096, true) }
        else s.flitTaken port flit)

/-- ODNERLINK_RESEND_TIMEOUT (R386): after 2,048 cycles; what comes to a retired port is dropped. -/
def execOdnerlinkResendTimeout (port : Nat) (s : State) : Out :=
  let l := s.link port
  .next (if l.unacked.isEmpty then s
    else if l.retired then s.failLink port
    else if !l.up || decide (s.clk.hub < l.sentAt + 2048) then s
    else s.resendFlits port)

/-- Flits numbered from 0. -/
def renumber (l : List Flit) : List Flit := ((List.range l.length).zip l).map fun (n, f) => { f with seq := n }

/-- LINK_RETRAIN (R386): a link that trains again numbers its flits from 0, those queued since it failed first. -/
def execLinkRetrain (port : Nat) (trained : Bool) (s : State) : Out :=
  let l := s.link port
  .next (if 12 ≤ port ∨ l.up = true ∨ l.retired = true ∨ trained = false then s
    else s.setLink port { l with
      up := true, resends := 0, sentAt := s.clk.hub, unacked := renumber l.unacked, nextSeq := l.unacked.length
      expect := 0, fresh := true })

/-- The monitor retires an Odnerlink port (R386): the link is trained no more. -/
def State.retireLink (s : State) (port : Nat) : State :=
  let t := s.failLink port
  t.setLink port { t.link port with retired := true }

/-- BLOCK_RETIREMENT (R57; 21_host_firmware_security.md R386) of a cluster, of a memory port, or of an Odnerlink port by
the number of its memory-side port, 25 to 36. -/
def execBlockRetirement (isCluster : Bool) (idx : Nat) (s : State) : Out :=
  .next (if isCluster then if idx < 512 then s.loseCluster idx else s
    else if idx < 24 then s.losePort idx
    else if 25 ≤ idx ∧ idx ≤ 36 then s.retireLink (idx - 25) else s)

end Sys2Proof.Machine
end

