-- ==== Sys2Proof/Machine/MatrixUnit.lean ====
section
/-!
DEFINITION. The commands of the matrix units (11_matrix_unit.md R220 to R252): checks, operands, multiplication, the
other commands, ring latches, retirement and faults. A command acts in one step once every earlier one of its queue
has (log entry 4).
-/

namespace Sys2Proof.Machine

/-! Records (R232 to R236) -/

/-- A word of a command record. -/
def MCmd.w (c : MCmd) (i : Nat) : Word := c.words.toList.getD i 0
/-- CODE. -/
def MCmd.code (c : MCmd) : Nat := fld (c.w 0) 0 8
/-- ACC. -/
def MCmd.acc (c : MCmd) : Nat := fld (c.w 0) 8 2
/-- AF. -/
def MCmd.af (c : MCmd) : Nat := fld (c.w 0) 10 5
/-- BF. -/
def MCmd.bf (c : MCmd) : Nat := fld (c.w 0) 15 5
/-- ACCF is INT32. -/
def MCmd.int (c : MCmd) : Bool := decide (fld (c.w 0) 20 2 = 1)
/-- A bit of W0. -/
def MCmd.bit (c : MCmd) (i : Nat) : Bool := bitOf (c.w 0).toNat i
/-- RM. -/
def MCmd.rm (c : MCmd) : RMode := (rmOfCode (fld (c.w 0) 28 3)).getD .rne
/-- SID. -/
def MCmd.sid (c : MCmd) : Nat := fld (c.w 0) 32 6
/-- K of the operands. -/
def MCmd.k (c : MCmd) : Nat := fld (c.w 2) 8 16
/-- LG of A. -/
def MCmd.la (c : MCmd) : Nat := fld (c.w 2) 5 3
/-- LG of B. -/
def MCmd.lb (c : MCmd) : Nat := fld (c.w 4) 5 3
/-- N. -/
def MCmd.n (c : MCmd) : Nat := fld (c.w 4) 0 5

/-- The bits of W0 above CODE and below TAG that a command may use (R236). -/
def usedBits (code : Nat) : Nat :=
  let bits (hi lo : Nat) : Nat := 2 ^ (hi + 1) - 2 ^ lo
  match code with
  | 1 => bits 30 8 + bits 37 32
  | 2 => bits 23 8 + bits 31 27 + bits 37 32
  | 3 => bits 9 8 + bits 21 20 + bits 37 32
  | 4 => bits 9 8 + bits 21 20 + bits 31 28 + bits 37 32
  | 5 => bits 9 8 + bits 21 20
  | 7 => bits 26 25
  | _ => 0

/-- The words from W1 that a command may use (R236). -/
def usedWords (code : Nat) : List Nat :=
  match code with
  | 1 => [1, 2, 3, 4]
  | 2 => [1, 2, 4, 5, 6, 7]
  | 3 => [5, 6]
  | 4 => [5, 6]
  | 8 => [1, 3, 5, 6]
  | _ => []

/-- A format is blocked (R239). -/
def isBlocked (f : Nat) : Bool := decide (14 ≤ f) && decide (f ≤ 20)

/-- An operand reference breaks R233. -/
def refBad (w : Word) : Bool :=
  decide (fld w 43 21 ≠ 0) || (if bitOf w.toNat 42 then decide (fld w 11 29 ≠ 0) else decide (fld w 40 2 ≠ 0))

/-- A region's words break R235; grouped is MMAG. -/
def regionBad (w5 w6 : Word) (grouped : Bool) : Bool :=
  let rows := fld w6 0 5
  let cols := fld w6 5 5
  decide (fld w5 45 19 ≠ 0) || decide (fld w6 10 14 ≠ 0) || decide (cols = 0) || decide (16 < cols) ||
    (if grouped then decide (rows ≠ 0) else decide (rows = 0) || decide (16 < rows))

/-- A blocked operand breaks R239. -/
def blockShapeBad (f : Nat) (w : Word) : Bool :=
  isBlocked f && (decide (1 < fld w 24 16) || decide (fld w 8 16 % (if f ≤ 18 then 32 else 2 ^ fld w 5 3) ≠ 0))

/-- The fields of MMA or MMAG are outside their limits (R234, R236, R240, R244, R245). -/
def MCmd.mulBad (c : MCmd) : Bool :=
  let grouped := decide (c.code = 2)
  let m := fld (c.w 2) 0 5
  let br := !grouped && c.bit 25
  decide (c.af = 0) || decide (20 < c.af) || decide (c.bf = 0) || decide (20 < c.bf) ||
    decide (c.k = 0) || decide (8192 < c.k) || decide (fld (c.w 4) 8 16 ≠ c.k) || decide (c.n = 0) ||
        decide (16 < c.n) ||
    (if grouped then decide (m ≠ 0) else decide (m = 0) || decide (16 < m)) || refBad (c.w 1) || refBad (c.w 3) ||
    (br && (decide (c.w 3 ≠ 0) || decide (fld (c.w 4) 24 40 ≠ 0))) || blockShapeBad c.af (c.w 2) ||
        blockShapeBad c.bf (c.w 4) ||
    (grouped && (bitOf (c.w 1).toNat 42 || regionBad (c.w 5) (c.w 6) true || decide (fld (c.w 6) 5 5 ≠ c.n) ||
      decide (fld (c.w 7) 40 24 ≠ 0)))

/-- The fields of MBLD are outside their limits (R235, R247). -/
def MCmd.loadBad (c : MCmd) : Bool :=
  let r := if c.w 1 = 0 then c.w 3 else c.w 1
  decide ((c.w 1 = 0) = (c.w 3 = 0)) || refBad r || !bitOf r.toNat 42 || decide (fld (c.w 5) 40 24 ≠ 0) ||
    decide (fld (c.w 6) 12 52 ≠ 0) || decide (fld (c.w 6) 0 12 = 0) || decide (2048 < fld (c.w 6) 0 12)

/-- Check 2 of R237. -/
def MCmd.fieldsBad (c : MCmd) : Bool :=
  decide (Nat.lor (fld (c.w 0) 8 40 * 256) (usedBits c.code) ≠ usedBits c.code) ||
    (List.range 7).any (fun i => !(usedWords c.code).contains (i + 1) && decide (c.w (i + 1) ≠ 0)) ||
    decide (4 < fld (c.w 0) 28 3) || decide (1 < fld (c.w 0) 20 2) ||
    (match c.code with
     | 1 => c.mulBad
     | 2 => c.mulBad
     | 3 => regionBad (c.w 5) (c.w 6) false
     | 4 => regionBad (c.w 5) (c.w 6) false
     | 7 => !(c.bit 25 && c.bit 26)
     | 8 => c.loadBad
     | _ => false)

/-! Combinations (R244) -/

/-- 8-bit and narrower unblocked floats. -/
def isF8 (f : Nat) : Bool := decide (4 ≤ f) && decide (f ≤ 8)
/-- MX formats. -/
def isMx (f : Nat) : Bool := decide (14 ≤ f) && decide (f ≤ 18)
/-- Integers of matrix operands. -/
def isMInt (f : Nat) : Bool := decide (9 ≤ f) && decide (f ≤ 13)
/-- Affine formats. -/
def isAff (f : Nat) : Bool := f == 19 || f == 20

/-- The rounding unit of a combination, or none where it is not implemented (R244). -/
def combination (a b : Nat) (int zp : Bool) (la lb : Nat) : Option Nat :=
  if isAff a || isAff b then
    if !zp || int then none
    else if isAff a && isAff b then (if la = lb then some (2 ^ la) else none)
    else
      let o := if isAff a then b else a
      let g := if isAff a then 2 ^ la else 2 ^ lb
      if o = 2 ∨ o = 3 ∨ o = 4 ∨ o = 5 then some g else none
  else if zp then none
  else if isMInt a && isMInt b then
    if !int then none
    else if a = 13 ∨ b = 13 then some 2
    else if (a = 11 ∨ a = 12) ∧ (b = 11 ∨ b = 12) then some 16
    else some 8
  else if int then none
  else if a = 1 ∧ b = 1 then some 1
  else if a = b ∧ (a = 2 ∨ a = 3) then some 4
  else if isF8 a && isF8 b then some (if a = 8 ∧ b = 8 then 16 else 8)
  else if isMx a && isMx b then some (if a = 18 ∧ b = 18 then 16 else 8)
  else none

/-- Formats MST and MMAG store in (R246). -/
def storeFmt (f : Nat) : Bool := (decide (1 ≤ f) && decide (f ≤ 13)) || (decide (21 ≤ f) && decide (f ≤ 25))
/-- Formats MLD loads (R246). -/
def loadFmt (int : Bool) (f : Nat) : Bool := if int then f == 9 || f == 13 || f == 21 else f == 1 || f == 2 || f == 3

/-- Check 4 of R237. -/
def MCmd.comboBad (c : MCmd) : Bool :=
  match c.code with
  | 1 => (combination c.af c.bf c.int (c.bit 27) c.la c.lb).isNone
  | 2 => (combination c.af c.bf c.int (c.bit 27) c.la c.lb).isNone || !storeFmt (fld (c.w 5) 40 5)
  | 3 => !loadFmt c.int (fld (c.w 5) 40 5)
  | 4 => !storeFmt (fld (c.w 5) 40 5)
  | _ => false

/-! Operands (R233, R234, R238) -/

/-- Where an operand lies: the own cluster's vault, a buffer (A-buffers 0 to 3, B-buffers 4 to 7), or a tile. -/
inductive MSrc where
  | vault
  | buf (i at_ : Nat)     -- read by a command queued at a step
  | tile (bytes : List Byte)
deriving DecidableEq, Repr

/-- An operand: place, first byte, line stride, element stride, elements per line, lines, format and LG. -/
structure Opnd where
  src : MSrc
  base : Nat
  lstr : Nat
  estr : Nat
  k : Nat
  lines : Nat
  f : Nat
  lg : Nat
deriving DecidableEq, Repr

/-- The operand of a reference and a shape; off is 0 for A-buffers and 4 for B-buffers. -/
def opndOf (wa ws : Word) (f off at_ : Nat) : Opnd :=
  { src := if bitOf wa.toNat 42 then .buf (off + fld wa 40 2) at_ else .vault,
    base := if bitOf wa.toNat 42 then fld wa 0 11 else fld wa 0 24,
    lstr := fld ws 40 24, estr := max (fld ws 24 16) 1, k := fld ws 8 16, lines := fld ws 0 5, f := f, lg :=
        fld ws 5 3 }

/-- Operand A of a command. -/
def MCmd.opA (c : MCmd) : Opnd := opndOf (c.w 1) (c.w 2) c.af 0 c.at_
/-- Operand B of a command that does not take it from a latch. -/
def MCmd.opB (c : MCmd) : Opnd := opndOf (c.w 3) (c.w 4) c.bf 4 c.at_
/-- The region of W5 and W6 (R235), as an operand of its rows. -/
def MCmd.region (c : MCmd) : Opnd :=
  { src := .vault, base := fld (c.w 5) 0 24, lstr := fld (c.w 6) 40 24, estr := max (fld (c.w 6) 24 16) 1,
    k := fld (c.w 6) 5 5, lines := fld (c.w 6) 0 5, f := fld (c.w 5) 40 5, lg := 0 }

/-- The first byte of a line. -/
def Opnd.line (o : Opnd) (l : Nat) : Nat := o.base + l * o.lstr

/-- The element indexes of a line. -/
def Opnd.idx (o : Opnd) : List Nat := (List.range o.k).map (· * o.estr)

/-- The end of the bytes of a line (R20, R238). -/
def Opnd.lineEnd (o : Opnd) (l : Nat) : Nat :=
  let sp := elementSpan o.f o.lg ((o.k - 1) * o.estr)
  o.line l + sp.1 + sp.2

/-- A line base is misaligned (R21, R239). -/
def Opnd.misaligned (o : Opnd) : Bool :=
  (isBlocked o.f && decide (o.lstr % 4 ≠ 0)) ||
    (List.range o.lines).any fun l => decide (o.line l % formatAlign o.f o.lg ≠ 0)

/-- Some byte of an operand lies outside the vault or its buffer (R237 step 6); hi is the bits [29:24] of its
address. -/
def Opnd.outside (o : Opnd) (hi : Nat) : Bool :=
  let limit := match o.src with | .vault => vaultEnd | _ => 2048
  (o.src == .vault && decide (hi ≠ 0)) || (List.range o.lines).any fun l => decide (limit < o.lineEnd l)

/-- A vault address lies in a cluster as the unit requires (R237 step 5). -/
def ownCluster (clus : Nat) (a : Nat) : Bool := bitOf a 30 || decide (a / 2 ^ 31 % 512 = clus)

/-- Bytes of a packed line (R240). -/
def packedLine (f lg k : Nat) : Nat :=
  if lg ≠ 0 then k / 2 ^ lg * blockBytes f lg
  else if elementBits f = 6 then 3 * ((k + 3) / 4)
  else (k * elementBits f + 7) / 8

/-- Bits [29:24] of a vault address. -/
def hiBits (w : Word) : Nat := fld w 24 6

/-- The lines an operand or region of MMAG may have: all those from its base on, at its stride (R245 defers their
bounds to the blocks, and not their alignment). -/
def Opnd.everyLine (o : Opnd) : Opnd := { o with lines := 2 }

/-- Checks 5 to 7 of R237: 0, or the fault code. -/
def MCmd.placeCheck (c : MCmd) (clus : Nat) : Nat :=
  let own (w : Word) : Bool := bitOf w.toNat 42 || ownCluster clus (fld w 0 40)
  match c.code with
  | 1 =>
    let br := c.bit 25
    if !own (c.w 1) || (!br && !own (c.w 3)) then 6
    else if c.opA.outside (hiBits (c.w 1)) || (!br && c.opB.outside (hiBits (c.w 3))) ||
        (c.bit 26 && !br && decide (2048 < c.n * packedLine c.bf c.lb c.k)) then 4
    else if c.opA.misaligned || (!br && c.opB.misaligned) then 7
    else 0
  | 2 =>
    if !(ownCluster clus (fld (c.w 1) 0 40) && ownCluster clus (fld (c.w 5) 0 40) &&
        ownCluster clus (fld (c.w 7) 0 40)) then 6
    else if hiBits (c.w 7) ≠ 0 ∨ vaultEnd < fld (c.w 7) 0 24 + 8 then 4
    else if fld (c.w 7) 0 3 ≠ 0 ∨ c.opA.everyLine.misaligned = true ∨ c.region.everyLine.misaligned = true then 7
    else 0
  | 3 =>
    if !ownCluster clus (fld (c.w 5) 0 40) then 6
    else if c.region.outside (hiBits (c.w 5)) then 4
    else if c.region.misaligned then 7 else 0
  | 4 =>
    if !ownCluster clus (fld (c.w 5) 0 40) then 6
    else if c.region.outside (hiBits (c.w 5)) then 4
    else if c.region.misaligned then 7 else 0
  | 8 =>
    let r := if c.w 1 = 0 then c.w 3 else c.w 1
    if !ownCluster clus (fld (c.w 5) 0 40) then 6
    else if hiBits (c.w 5) ≠ 0 ∨ vaultEnd < fld (c.w 5) 0 24 + fld (c.w 6) 0 12 ∨
        2048 < fld r 0 11 + fld (c.w 6) 0 12 then 4
    else 0
  | _ => 0

/-- The checks of a command as it starts (R237): 0, or the fault code of the first that fails. -/
def MCmd.check (c : MCmd) (clus : Nat) : Nat :=
  if c.code = 0 ∨ 8 < c.code then 1
  else if c.fieldsBad then 2
  else if (c.code = 1 ∨ c.code = 2) ∧ (tagLegal c.af c.la && tagLegal c.bf c.lb) = false then 5
  else if c.comboBad then 3
  else c.placeCheck clus

/-! Reading (R238) -/

/-- A byte of a core's operand buffers that a command queued at a step may not read as it stands: a copy into it is
under way, or was not observed complete before the command was queued (R251; 06_copy_and_galleys.md R107). -/
def State.mixed (s : State) (core at_ a : Nat) : Bool :=
  (khas (s.core core).mx.mix a && (decide ((kget (0, 0) (s.core core).mx.mix a).2 = 0) ||
      decide (at_ < (kget (0, 0) (s.core core).mx.mix a).2))) ||
    (s.clus (core / 16)).chans.any fun t =>
      let r1 := t.regs.get 1
      let r2 := t.regs.get 2
      let lo := (fld r1 3 1 * 4 + fld r1 4 2) * 2048 + fld r1 16 11
      decide (fld (t.regs.get 5) 2 2 = 2) && decide (coreIn (core / 16) (fld r1 0 3) = core) && !t.moved &&
        decide (lo ≤ a) && decide (a < lo + fld r2 40 16 * fld r2 24 16 * fld r2 0 24)

/-- n bytes of a source, as a number. -/
def State.mread (s : State) (core : Nat) (src : MSrc) (a n : Nat) : Nat :=
  match src with
  | .vault => leNat (readBytes s.vault (core / 16 * 2 ^ 24 + a) n)
  | .buf i at_ =>
    let bs := readBytes (s.core core).mx.bufs (i * 2048 + a) n
    leNat (((List.range n).zip bs).map fun (j, b) =>
      if s.mixed core at_ (i * 2048 + a + j) then Config.mixedByte s.clk.ticks (core * 2 ^ 14 + i * 2048 + a + j) else b)
  | .tile bs => leNat ((bs.drop a).take n)

/-- A data fault of a command that runs: poison in a range of a vault, or a code. -/
inductive MFault where
  | poison (key n : Nat)
  | code (n : Nat)
deriving DecidableEq, Repr

/-- The first spans of a source at offsets whose read would be poisoned (R237; 04_vaults.md R71; 20_debug.md R380). -/
def State.mpoison (s : State) (core : Nat) (src : MSrc) (spans : List (Nat × Nat)) : Option MFault :=
  let bad (sp : Nat × Nat) : Bool :=
    let key := core / 16 * 2 ^ 24 + sp.1
    (s.armedIn key sp.2).isSome || (s.bankRead key sp.2).1
  match src with
  | .vault => (spans.find? bad).map fun sp => .poison (core / 16 * 2 ^ 24 + sp.1) sp.2
  | _ => none

/-- The state after spans of a source were read at their banks (04_vaults.md R71). -/
def State.mtouch (s : State) (core : Nat) (src : MSrc) (spans : List (Nat × Nat)) : State :=
  match src with
  | .vault => spans.foldl (fun t sp => (t.bankRead (core / 16 * 2 ^ 24 + sp.1) sp.2).2) s
  | _ => s

/-- The spans of a line of an operand: its headers and its elements (R238). -/
def Opnd.lineSpans (o : Opnd) (l : Nat) : List (Nat × Nat) :=
  (headerSpans o.f o.lg o.idx ++ elementSpans o.f o.lg o.idx).map fun sp => (o.line l + sp.1, sp.2)

/-- The spans of every line of an operand. -/
def Opnd.spans (o : Opnd) : List (Nat × Nat) := (List.range o.lines).flatMap o.lineSpans

/-- The values of a line (R238), or the fault of its data. -/
def State.lineValues (s : State) (core : Nat) (o : Opnd) (l : Nat) : Except MFault (List FVal) :=
  let at_ := o.line l
  let heads := headerSpans o.f o.lg o.idx
  match s.mpoison core o.src (o.lineSpans l) with
  | some e => .error e
  | none =>
    if heads.any fun h => headerBad o.f (s.mread core o.src (at_ + h.1) 4) then .error (.code 5)
    else .ok (o.idx.map fun i =>
      let sp := elementSpan o.f o.lg i
      let raw := s.mread core o.src (at_ + sp.1) sp.2 / 2 ^ (elementAddress o.f o.lg i).2 % 2 ^ elementBits o.f
      decodeValue o.f (if o.lg = 0 then 0 else s.mread core o.src (at_ + headerOffset o.f o.lg i) 4) raw)

/-- The values of every line of an operand. -/
def State.opndValues (s : State) (core : Nat) (o : Opnd) : Except MFault (List (List FVal)) :=
  (List.range o.lines).mapM (s.lineValues core o)

/-! Sums (R242) and accumulation (R243) -/

/-- An exact sum: not a number, an infinity, or n × 2^e. -/
inductive MSum where
  | nan
  | inf (neg : Bool)
  | fin (n : Int) (e : Int)
deriving DecidableEq, Repr

/-- A product of two values, negated where asked. -/
def mprod (neg : Bool) (a b : FVal) : MSum :=
  match a, b with
  | .nan .., _ => .nan
  | _, .nan .. => .nan
  | .inf n, .inf m => .inf ((n != m) != neg)
  | .inf n, .fin m k _ => if k = 0 then .nan else .inf ((n != m) != neg)
  | .fin n k _, .inf m => if k = 0 then .nan else .inf ((n != m) != neg)
  | .fin n k e, .fin m j d => .fin (if (n != m) != neg then -((k * j : Nat) : Int) else (k * j : Nat)) (e + d)

/-- Two exact sums together. -/
def MSum.add (a b : MSum) : MSum :=
  match a, b with
  | .nan, _ => .nan
  | _, .nan => .nan
  | .inf n, .inf m => if n = m then .inf n else .nan
  | .inf n, .fin .. => .inf n
  | .fin .., .inf m => .inf m
  | .fin n e, .fin m d =>
    if n = 0 then .fin m d
    else if m = 0 then .fin n e
    else
      let q := min e d
      .fin (n * 2 ^ (e - q).toNat + m * 2 ^ (d - q).toNat) q

/-- The sum of a rounding unit. -/
def unitSum (neg : Bool) (ps : List (FVal × FVal)) : MSum :=
  ps.foldl (fun t p => t.add (mprod neg p.1 p.2)) (.fin 0 0)

/-- What a step of the unit counts (R252). -/
inductive MStat where
  | sat | flush | nan
deriving DecidableEq, Repr

/-- A value of FP32 as an exact sum. -/
def sumOfBits (b : BitVec 32) : MSum :=
  match fp32.decode b.toNat with
  | .nan .. => .nan
  | .inf n => .inf n
  | .fin n m e => .fin (if n then -(m : Int) else m) e

/-- The bits of k × 2^q with k of 24 significant bits and the leading one at 2^top. -/
def bits24 (neg : Bool) (k : Nat) (top : Int) : BitVec 32 :=
  BitVec.ofNat 32 (boolCode neg * 2 ^ 31 + (top + 127).toNat * 2 ^ 23 + k * 2 ^ 23 / 2 ^ Nat.log2 k % 2 ^ 23)

/-- An exact finite sum rounded once to 24 significant bits (R243). -/
def round24 (rm : RMode) (n e : Int) : BitVec 32 × List MStat :=
  if n = 0 then (0, [])
  else
    let neg := decide (n < 0)
    let m := n.natAbs
    let q := e + (Nat.log2 m : Int) - 23
    let k := (roundQ rm neg m e false q).1
    let top := q + (Nat.log2 k : Int)
    if 127 < top then (BitVec.ofNat 32 (boolCode neg * 2 ^ 31 + 0x7F7FFFFF), [.sat])
    else if top < -126 then (0, [.flush])
    else (bits24 neg k top, [])

/-- The bits of an infinity. -/
def infBits32 (neg : Bool) : BitVec 32 := BitVec.ofNat 32 (fp32.infBits neg)

/-- Accumulate (R243): the new bits and what is counted. -/
def accumulate (int : Bool) (rm : RMode) (acc : BitVec 32) (x : MSum) : BitVec 32 × List MStat :=
  if int then
    match x with
    | .fin n e => (BitVec.ofInt 32 (acc.toInt + n * 2 ^ e.toNat), [])
    | _ => (acc, [])
  else
    let a := sumOfBits acc
    match a.add x with
    | .nan => (0x7FC00000, if a = .nan then [] else [.nan])
    | .inf n => (infBits32 n, [])
    | .fin n e => round24 rm n e

/-- Units of a line pair, one after the other. -/
def accumUnits (int neg : Bool) (rm : RMode) (unit : Nat) : Nat → List (FVal × FVal) → BitVec 32 → BitVec 32 × List MStat
  | 0, _, acc => (acc, [])
  | _, [], acc => (acc, [])
  | fuel + 1, ps, acc =>
    let (a, c) := accumulate int rm acc (unitSum neg (ps.take unit))
    let (b, d) := accumUnits int neg rm unit fuel (ps.drop unit) a
    (b, c ++ d)

/-! Accumulators and statistics -/

/-- An element of an accumulator. -/
def Matrix.el (m : Matrix) (acc i j : Nat) : BitVec 32 := kget 0 m.accs (acc * 256 + i * 16 + j)

/-- An accumulator with elements replaced. -/
def Matrix.putEls (m : Matrix) (acc : Nat) (els : List ((Nat × Nat) × BitVec 32)) : Matrix :=
  { m with accs := els.foldl (fun a e => kset a (acc * 256 + e.1.1 * 16 + e.1.2) e.2) m.accs }

/-- A counter raised, saturating (R252). -/
def satInc32 (n : Nat) : Nat := min (n + 1) (2 ^ 32 - 1)

/-- A counter of statistics with one event counted. -/
def countStat (c : StatCnt) (x : MStat) : StatCnt :=
  match x with
  | .sat => { c with sat := satInc32 c.sat }
  | .flush => { c with flush := satInc32 c.flush }
  | .nan => { c with nan := satInc32 c.nan }

/-- The counters of a kernel slot with one event counted under an identifier. -/
def countIn (l : List StatCnt) (sid : Nat) (x : MStat) : List StatCnt :=
  if l.any (·.sid = sid) then l.map fun c => if c.sid = sid then countStat c x else c
  else l ++ [countStat { sid := sid, sat := 0, flush := 0, nan := 0 } x]

/-- The unit with events counted against its owner's kernel slot (R252). -/
def State.mcount (s : State) (core sid : Nat) (xs : List MStat) : State :=
  match (s.core core).mx.owner with
  | none => s
  | some p =>
    let k := s.core core
    let ks := k.mx.leaving.getD (s.slot p).kslot
    if xs.isEmpty then s
    else s.setCore core { k with mx := { k.mx with
      stats := kset k.mx.stats ks (xs.foldl (fun l x => countIn l sid x) (kget [] k.mx.stats ks)) } }

/-! Multiplication (R241) -/

/-- The elements of a product of line values, with what is counted: every element of the accumulator that the command
writes. -/
def mulElements (c : MCmd) (m : Matrix) (ad : Bool) (unit : Nat) (as bs : List (List FVal)) :
    List (((Nat × Nat) × BitVec 32) × List MStat) :=
  (List.range 16).flatMap fun i => (List.range 16).filterMap fun j =>
    match as[i]?, bs[j]? with
    | some a, some b =>
      let r := accumUnits c.int (c.bit 22 != c.bit 23) c.rm unit (a.length + 1) (a.zip b) (if ad then 0 else m.el c.acc i j)
      some (((i, j), r.1), r.2)
    | _, _ => if ad then some (((i, j), 0), []) else none

/-- The rounding unit of a command that passed its checks. -/
def MCmd.unit (c : MCmd) : Nat := (combination c.af c.bf c.int (c.bit 27) c.la c.lb).getD 1

/-- The state after a multiplication of two operands into the command's accumulator. -/
def State.multiply (s : State) (core : Nat) (c : MCmd) (ad : Bool) (a b : Opnd) : Except MFault State := do
  let as ← s.opndValues core a
  let bs ← s.opndValues core b
  let m := (s.core core).mx
  let els := mulElements c m ad c.unit as bs
  let t := (s.mtouch core a.src a.spans).mtouch core b.src b.spans
  return (t.setMx core (m.putEls c.acc (els.map (·.1)))).mcount core c.sid (els.flatMap (·.2))

/-- The core whose incoming latch is a core's outgoing one (R220). -/
def nextCore (core : Nat) : Nat := core / 16 * 16 + (core % 16 + 1) % 8

/-- A raw element put into packed bytes, as a number. -/
def putRaw (acc : Nat) (f k raw : Nat) : Nat :=
  let (o, b) := elementAddress f 0 k
  acc + raw * 2 ^ (8 * o + b)

/-- A line of an operand packed with no gaps (R240). -/
def State.packLine (s : State) (core : Nat) (o : Opnd) (l : Nat) : List Byte :=
  let n := packedLine o.f o.lg o.k
  if o.lg ≠ 0 then leBytes n (s.mread core o.src (o.line l) n)
  else leBytes n (((List.range o.k).zip o.idx).foldl (fun acc (k, i) =>
    let sp := elementSpan o.f 0 i
    putRaw acc o.f k (s.mread core o.src (o.line l + sp.1) sp.2 / 2 ^ (elementAddress o.f 0 i).2 % 2 ^ elementBits o.f)) 0)

/-- An operand packed as a tile (R240). -/
def State.tileOf (s : State) (core : Nat) (o : Opnd) : Tile :=
  { bytes := (List.range o.lines).flatMap (s.packLine core o), bf := o.f, lg := o.lg, k := o.k, n := o.lines }

/-- The operand that a tile is (R240). -/
def Tile.opnd (t : Tile) : Opnd :=
  { src := .tile t.bytes, base := 0, lstr := packedLine t.bf t.lg t.k, estr := 1, k := t.k, lines := t.n, f := t.bf,
      lg := t.lg }

/-- The state with a core's incoming latch replaced. -/
def State.setLatch (s : State) (core : Nat) (t : Option Tile) : State :=
    s.setMx core { (s.core core).mx with latch := t }

/-- The latches a command waits for are ready (R240, R247). -/
def State.latchReady (s : State) (core : Nat) (c : MCmd) : Bool :=
  (!c.bit 25 || (s.core core).mx.latch.isSome) && (!c.bit 26 || (s.core (nextCore core)).mx.latch.isNone)

/-- What running a command comes to. -/
inductive MRes where
  | ok (s : State)
  | wait
  | fault (f : MFault) (s : State)
deriving DecidableEq

/-- An outcome of data reads as an outcome of the command: bytes written before a fault stand. -/
def mres (s : State) (x : Except MFault State) : MRes :=
  match x with
  | .ok t => .ok t
  | .error e => .fault e s

/-- The operands of a command that has read them (25_program_complex_product.md R425). -/
def MCmd.taken (c : MCmd) : List Tile := if c.st = .queued then [] else c.caps

/-- The start-up of a multiplication whose steps wait: it reads its operands, the one from a latch apart (R240,
R425). -/
def State.readOpnds (s : State) (core : Nat) (c : MCmd) : Except MFault (State × List Tile) := do
  let ops := if c.bit 25 then [c.opA] else [c.opA, c.opB]
  let _ ← ops.mapM (s.opndValues core)
  return (ops.foldl (fun t o => t.mtouch core o.src o.spans) s, ops.map (s.tileOf core))

/-- MMA of a command that passed its checks, on operands it has read before or reads now (R240, R241). -/
def State.runMma (s : State) (core : Nat) (c : MCmd) : MRes :=
  if !s.latchReady core c then .wait
  else
    let pass (t : State) (tile : Tile) : State := if c.bit 26 then t.setLatch (nextCore core) (some tile) else t
    let a := (c.taken[0]?).elim c.opA Tile.opnd
    let b := (c.taken[1]?).elim c.opB Tile.opnd
    if c.bit 25 then
      match (s.core core).mx.latch with
      | none => .wait
      | some tile =>
        if tile.bf ≠ c.bf ∨ tile.lg ≠ c.lb ∨ tile.k ≠ c.k ∨ tile.n ≠ c.n then .fault (.code 2) s
        else mres s ((s.multiply core c (c.bit 24) a tile.opnd).map fun t => pass (t.setLatch core none) tile)
    else mres s ((s.multiply core c (c.bit 24) a b).map fun t => pass t (s.tileOf core b))

/-! MST and MLD (R246) -/

/-- What storing an accumulator element counts. -/
def storeStats (int : Bool) (f : Nat) (x : Nat) (r : FRes) : List MStat :=
  let sat : Bool :=
    if int then
      match intOfCode f with
      | some (w, sg) => let n := intVal 32 true x; decide ((clampInt w sg n).1 ≠ n)
      | none => r.2.of
    else
      match fp32.decode x with
      | .nan .. => false
      | .inf _ => match fmtOfCode f with | some ff => !ff.inf | none => true
      | .fin .. => if (intOfCode f).isSome then r.2.nv else r.2.of
  let nan : Bool := match fmtOfCode f with | some ff => (ff.decode r.1).isNaN | none => false
  (if sat then [.sat] else []) ++ (if nan then [.nan] else [])

/-- An element stored at its place in a row: sub-byte elements merge (01_formats.md R13). -/
def State.storeEl (s : State) (core : Nat) (o : Opnd) (row col raw : Nat) : Except MFault State :=
  let sp := elementSpan o.f 0 (col * o.estr)
  let a := o.line row + sp.1
  let key := core / 16 * 2 ^ 24 + a
  if elementBits o.f < 8 then
    match s.mpoison core .vault [(a, sp.2)] with
    | some e => .error e
    | none => .ok { s.mtouch core .vault [(a, sp.2)] with vault := writeBytes s.vault key (leBytes sp.2
        (mergeBits (s.mread core .vault a sp.2) (elementAddress o.f 0 (col * o.estr)).2 (elementBits o.f) raw)) }
  else .ok { s with vault := writeBytes s.vault key (leBytes sp.2 raw) }

/-- Elements stored one after the other: those before a fault stand. -/
def State.storeEls (s : State) (core : Nat) (c : MCmd) (o : Opnd) (acc : Nat → Nat → BitVec 32) : List (Nat × Nat) → MRes
  | [] => .ok s
  | (i, j) :: es =>
    let x := (acc i j).toNat
    let r := convertElem (if c.int then 21 else 1) o.f c.rm (c.bit 31) x
    match s.storeEl core o i j r.1 with
    | .error e => .fault e s
    | .ok t => (t.mcount core c.sid (storeStats c.int o.f x r)).storeEls core c o acc es

/-- Row and column pairs in row order. -/
def gridOf (rows cols : Nat) : List (Nat × Nat) := (List.range rows).flatMap fun i => (List.range cols).map fun j =>
    (i, j)

/-- MST (R246). -/
def State.runMst (s : State) (core : Nat) (c : MCmd) : MRes :=
  let m := (s.core core).mx
  s.storeEls core c c.region (fun i j => m.el c.acc i j) (gridOf c.region.lines c.region.k)

/-- A loaded value as an accumulator element (R246). -/
def loadEl (int : Bool) (f raw : Nat) : BitVec 32 × List MStat :=
  if int then
    match intOfCode f with
    | some (w, sg) => (BitVec.ofInt 32 (intVal w sg raw), [])
    | none => (0, [])
  else match decodeValue f 0 raw with
    | .nan .. => (0x7FC00000, [.nan])
    | .inf n => (infBits32 n, [])
    | .fin n m e => round24 .rne (if n then -(m : Int) else m) e

/-- MLD (R246). -/
def State.runMld (s : State) (core : Nat) (c : MCmd) : MRes :=
  let o := c.region
  let m := (s.core core).mx
  let cells := gridOf o.lines o.k
  let spans := cells.map fun (i, j) => let sp := elementSpan o.f 0 (j * o.estr); (o.line i + sp.1, sp.2)
  match s.mpoison core .vault spans with
  | some e => .fault e s
  | none =>
    let els := cells.map fun (i, j) =>
      let sp := elementSpan o.f 0 (j * o.estr)
      ((i, j), loadEl c.int o.f (s.mread core .vault (o.line i + sp.1) sp.2))
    let zeros := (gridOf 16 16).map fun p => (p, (0 : BitVec 32))
    .ok (((s.mtouch core .vault spans).setMx core ((m.putEls c.acc zeros).putEls c.acc (els.map fun e => (e.1, e.2.1)))).mcount core c.sid
      (els.flatMap (·.2.2)))

/-! MMAG (R245) -/

/-- The entries of a group table: B address and rows, or none where it is invalid. -/
def State.groupTable (s : State) (core at_ : Nat) : Option (List (Nat × Nat)) :=
  let h := s.mread core .vault at_ 8
  let g := h % 128
  let es := (List.range g).map fun i => s.mread core .vault (at_ + 8 + 8 * i) 8
  if h / 128 ≠ 0 ∨ 64 < g ∨ vaultEnd < at_ + 8 + 8 * g ∨ es.any (fun e => e / 2 ^ 56 != 0) = true ∨
      es.any (fun e => !ownCluster (core / 16) (e / 2 ^ 16 % 2 ^ 40)) = true ∨
          65535 < (es.map (· % 65536)).sum then none
  else some (es.map fun e => (e / 2 ^ 16 % 2 ^ 40, e % 65536))

/-- One block of a group (R245): m rows from row r0 on. -/
def State.runBlock (s : State) (core : Nat) (c : MCmd) (baddr r0 m : Nat) : MRes :=
  let a := { c.opA with base := c.opA.line r0, lines := m }
  let b := { opndOf (word baddr) (c.w 4) c.bf 4 c.at_ with src := .vault, base := baddr % 2 ^ 24 }
  let d := { c.region with base := c.region.line r0, lines := m }
  if a.outside (hiBits (c.w 1)) || b.outside (baddr / 2 ^ 24 % 64) || d.outside (hiBits (c.w 5)) then .fault (.code 4) s
  else if b.misaligned then .fault (.code 7) s
  else match s.multiply core c true a b with
    | .error e => .fault e s
    | .ok t =>
      let mx := (t.core core).mx
      t.storeEls core c d (fun i j => mx.el c.acc i j) (gridOf m d.k)

/-- The blocks of a group, from block blk on. -/
def State.runBlocks (s : State) (core : Nat) (c : MCmd) (baddr base rows : Nat) : Nat → Nat → MRes
  | 0, _ => .ok s
  | n + 1, blk =>
    if rows ≤ 16 * blk then .ok s
    else match s.runBlock core c baddr (base + 16 * blk) (min 16 (rows - 16 * blk)) with
      | .ok t => t.runBlocks core c baddr base rows n (blk + 1)
      | r => r

/-- The groups of a table. -/
def State.runGroups (s : State) (core : Nat) (c : MCmd) : Nat → List (Nat × Nat) → MRes
  | _, [] => .ok s
  | base, (baddr, rows) :: gs =>
    match s.runBlocks core c baddr base rows (rows / 16 + 1) 0 with
    | .ok t => t.runGroups core c (base + rows) gs
    | r => r

/-- MMAG (R245). -/
def State.runMmag (s : State) (core : Nat) (c : MCmd) : MRes :=
  let at_ := fld (c.w 7) 0 24
  let g := s.mread core .vault at_ 8 % 128
  let span := (at_, min (8 + 8 * g) (vaultEnd - at_))
  match s.mpoison core .vault [span] with
  | some e => .fault e s
  | none =>
    let t := s.mtouch core .vault [span]
    match t.groupTable core at_ with
    | none => .fault (.code 0x0A) t
    | some gs => t.runGroups core c 0 gs

/-! The other commands (R246, R247) -/

/-- MPASS (R247). -/
def State.runMpass (s : State) (core : Nat) (c : MCmd) : MRes :=
  if !s.latchReady core c then .wait
  else .ok ((s.setLatch (nextCore core) (s.core core).mx.latch).setLatch core none)

/-- MBLD (R247). -/
def State.runMbld (s : State) (core : Nat) (c : MCmd) : MRes :=
  let isA := decide (c.w 1 ≠ 0)
  let r := if isA then c.w 1 else c.w 3
  let n := fld (c.w 6) 0 12
  let at_ := fld (c.w 5) 0 24
  match s.mpoison core .vault [(at_, n)] with
  | some e => .fault e s
  | none =>
    let m := (s.core core).mx
    let base := ((if isA then 0 else 4) + fld r 40 2) * 2048 + fld r 0 11
    let b := writeBytes m.bufs base (leBytes n (s.mread core .vault at_ n))
    .ok ((s.mtouch core .vault [(at_, n)]).setMx core { m with
      bufs := b, mix := (List.range n).foldl (fun x j => kdel x (base + j)) m.mix })

/-- MZERO (R246). -/
def State.runMzero (s : State) (core : Nat) (c : MCmd) : MRes :=
  .ok (s.setMx core ((s.core core).mx.putEls c.acc ((gridOf 16 16).map fun p => (p, 0))))

/-- A command that passed its checks runs. -/
def State.runCmd (s : State) (core : Nat) (c : MCmd) : MRes :=
  match c.code with
  | 1 => s.runMma core c
  | 2 => s.runMmag core c
  | 3 => s.runMld core c
  | 4 => s.runMst core c
  | 5 => s.runMzero core c
  | 7 => s.runMpass core c
  | 8 => s.runMbld core c
  | _ => .ok s

/-! Starting, faults and retirement (R223, R237, R249) -/

/-- The state with a queued command's progress changed. -/
def State.setCmd (s : State) (core i : Nat) (st : CmdSt) (since : Nat) : State :=
  let m := (s.core core).mx
  s.setMx core { m with queue := m.queue.modify i fun c => { c with st := st, since := since } }

/-- A command that names an accumulator. -/
def MCmd.namesAcc (c : MCmd) : Bool := decide (1 ≤ c.code) && decide (c.code ≤ 5)

/-- A data fault of a running command (R237): its accumulator is free (log entry 9), and poison is logged. -/
def State.dataFault (s : State) (core : Nat) (c : MCmd) (f : MFault) : State × Nat :=
  let t := if c.namesAcc then s.setMx core ((s.core core).mx.freeAcc c.acc s.clk.ticks) else s
  match f with
  | .code n => (t, n)
  | .poison key n =>
    let p := (s.core core).mx.owner.getD (core * 8)
    ((t.engineRead (core / 16) p (s.slot p).ctx (s.slot p).kslot key n).2, 8)

/-- The owner of a core's unit has given it up, or ends as soon as its running command has finished (R221). -/
def State.givenUp (s : State) (core : Nat) : Bool :=
  let m := (s.core core).mx
  m.leaving.isSome || m.owner.any fun p => (s.slot p).dying.isSome

/-- What waited for the last running command of a core's unit (R221): an owner that was to end ends, and a unit that its
owner gave up is cleared of its commands and of the counts that owner has no weight left for. -/
def State.settleUnit (s : State) (core : Nat) : State :=
  let m := (s.core core).mx
  if m.runs then s
  else match m.leaving with
    | some ks =>
      let u := s.discardQueue core
      let n := (u.core core).mx
      u.setMx core { n with owner := none, leaving := none, stats := kdel n.stats ks }
    | none =>
      match m.owner with
      | none => s
      | some p =>
        match (s.slot p).dying with
        | none => s
        | some .kill => s.killNow p
        | some (.abort addr) => s.abortNow p addr

/-- A command ends, run or faulted. From a fault on, a later one that had started stops, and none starts (R249). -/
def State.endCmd (s : State) (core i : Nat) (st : CmdSt) : State :=
  let t := s.setCmd core i st (s.dieClock (core / 1024))
  let m := (t.core core).mx
  let stopped (q : MCmd) : MCmd := if q.st = .read ∨ q.st = .started then { q with st := .queued, caps := [] } else q
  let u := match st with
    | .faulted _ => t.setMx core { m with queue := m.queue.take (i + 1) ++ (m.queue.drop (i + 1)).map stopped }
    | _ => t
  u.settleUnit core

/-- The wait of a command for a latch has passed 2^20 cycles of its die (R240). -/
def State.latchLate (s : State) (core : Nat) (c : MCmd) : Bool :=
  decide (c.st = .started) && decide (c.since + 2 ^ 20 < s.dieClock (core / 1024))

/-- A command faults for its latch wait, and neither latch changes (R240). -/
def State.latchFault (s : State) (core i : Nat) (c : MCmd) : State :=
  let (t, k) := s.dataFault core c (.code 9)
  t.endCmd core i (.faulted k)

/-- The oldest command of a queue that has not run, when none before it faulted. -/
def Matrix.toRun (m : Matrix) : Option (Nat × MCmd) :=
  if m.stop then none
  else
    let i := m.queue.findIdx fun c => c.st != .done
    match m.queue[i]? with
    | some c => (match c.st with | .faulted _ => none | _ => some (i, c))
    | none => none

/-- The first command of a queue that has not started, when every one before it has, none has faulted and what it does
waits for none of them (25_program_complex_product.md R425; R248): a multiplication may read its operands, and a command
that makes no step of the unit may run unless an earlier one has its accumulator to write or to read. The oldest is not
among them. -/
def Matrix.toStart (m : Matrix) : Option (Nat × MCmd) :=
  let i := m.queue.findIdx fun c => c.st == .queued
  let before := m.queue.take i
  match m.queue[i]? with
  | none => none
  | some c =>
    let open_ := before.filter fun q => q.st == .started || q.st == .read
    let free := !open_.any fun q => q.namesAcc && q.acc == c.acc
    if m.stop || open_.isEmpty || before.any (fun q => match q.st with | .faulted _ => true | _ => false) then none
    else if c.code = 1 ∨ c.code = 8 ∨ (free = true ∧ (c.code = 3 ∨ c.code = 4 ∨ c.code = 5)) ∨ c.code = 0 ∨
        8 < c.code then some (i, c)
    else none

/-- The command that acts next: the oldest that has not run, unless it waits for a latch and a later one may start
meanwhile (R223; 25_program_complex_product.md R425). -/
def State.nextCmd (s : State) (core : Nat) : Option (Nat × MCmd) :=
  let m := (s.core core).mx
  match m.toRun with
  | none => none
  | some (i, c) =>
    if c.st = .started && !s.latchReady core c && !s.latchLate core c then m.toStart.or (some (i, c)) else some (i, c)

/-- A command's steps wait: it has read its operands by then (25_program_complex_product.md R425). -/
def State.readAndWait (s : State) (core i : Nat) (c : MCmd) (st : CmdSt) : State :=
  if c.code ≠ 1 ∨ c.st ≠ .queued then s.setCmd core i st (s.dieClock (core / 1024))
  else match s.readOpnds core c with
    | .error f =>
      let (u, k) := s.dataFault core c f
      u.endCmd core i (.faulted k)
    | .ok (t, caps) =>
      let m := (t.core core).mx
      (t.setMx core { m with queue := m.queue.modify i fun q => { q with caps := caps } }).setCmd core i st
        (s.dieClock (core / 1024))

/-- The next command of a core's queue starts, or goes on after its wait, when its code satisfies the test (R223, R237,
R240). While its context is saved, none starts (R222), and none of an owner that is going (R221). -/
def State.matrixStep (s : State) (core : Nat) (test : Nat → Bool) : State :=
  match s.nextCmd core with
  | none => s
  | some (i, c) =>
    if !test c.code then s
    else if c.st = .queued && (s.saves (core / 16) || s.givenUp core) then s
    else if s.latchLate core c then s.latchFault core i c
    else
      let code := c.check (core / 16)
      if code ≠ 0 then s.endCmd core i (.faulted code)
      else if c.code = 1 ∧ (s.core core).mx.toRun ≠ some (i, c) then s.readAndWait core i c .read
      else match s.runCmd core c with
        | .ok t => t.endCmd core i .done
        | .wait => if c.st = .started then s else s.readAndWait core i c .started
        | .fault f t =>
          let (u, k) := t.dataFault core c f
          u.endCmd core i (.faulted k)

/-- MMA (R241). -/
def execMma (core : Nat) (s : State) : Out := .next (s.matrixStep core (· == 1))
/-- MMAG (R245). -/
def execMmag (core : Nat) (s : State) : Out := .next (s.matrixStep core (· == 2))
/-- MLD (R246). -/
def execMld (core : Nat) (s : State) : Out := .next (s.matrixStep core (· == 3))
/-- MST (R246). -/
def execMst (core : Nat) (s : State) : Out := .next (s.matrixStep core (· == 4))
/-- MZERO (R246). -/
def execMzero (core : Nat) (s : State) : Out := .next (s.matrixStep core (· == 5))
/-- MMARK (R247): it runs when every earlier command has retired. -/
def execMmark (core : Nat) (s : State) : Out :=
  .next (match (s.core core).mx.toRun with
  | some (0, _) => s.matrixStep core (· == 6)
  | _ => s)
/-- MPASS (R247). -/
def execMpass (core : Nat) (s : State) : Out := .next (s.matrixStep core (· == 7))
/-- MBLD (R247). -/
def execMbld (core : Nat) (s : State) : Out := .next (s.matrixStep core (· == 8))
/-- A reserved command code (R237). -/
def execReservedCommandCode (core : Nat) (s : State) : Out :=
  .next (s.matrixStep core fun c => c == 0 || decide (8 < c))

/-- A command of a core retired with an outcome: 0, or a fault code (R223, R228). -/
def State.retireCmd (s : State) (core seq code : Nat) (f : Matrix → Matrix) : State :=
  let m := (s.core core).mx
  let m' := f { m with
    queue := m.queue.drop 1
    done := BitVec.ofNat 16 seq
    outcomes := keepNewest 64 ((seq, code) :: m.outcomes) }
  (s.setMx core m').settleClusTokens (core / 16) (matrixHit core [(seq, code)])

/-- COMMAND_RETIRE (R223). -/
def execCommandRetire (core : Nat) (s : State) : Out :=
  .next (match (s.core core).mx.queue with
  | [] => s
  | c :: _ =>
    if c.st = .done then
      let t := s.retireCmd core c.seq 0 id
      match (s.core core).mx.owner with
      | some p => t.count .commands 1 p (s.slot p).ctx (s.slot p).kslot 0
      | none => t
    else s)

/-- MQFLT of a faulting command (R231). -/
def MCmd.fltWord (c : MCmd) (code : Nat) : Word :=
  word (c.seq * 2 ^ 48 + fld (c.w 0) 48 16 * 2 ^ 32 + c.code * 2 ^ 16 + 256 + code)

/-- MATRIX_FAULT (R249): once every earlier command has retired. -/
def execMatrixFault (core : Nat) (s : State) : Out :=
  .next (match (s.core core).mx.queue with
  | [] => s
  | c :: _ =>
    match c.st with
    | .faulted k =>
      if (s.core core).mx.stop then s
      else s.retireCmd core c.seq k fun m =>
        { m with mqflt := c.fltWord k, stop := true, fltAcc := if c.namesAcc then some c.acc else none }
    | _ => s)

/-- LATCH_WAIT_TIMEOUT (R240): a wait past 2^20 cycles is a fault, and neither latch changes. -/
def execLatchWaitTimeout (core : Nat) (s : State) : Out :=
  .next (match (s.core core).mx.toRun with
  | some (i, c) => if s.latchLate core c then s.latchFault core i c else s
  | none => s)

end Sys2Proof.Machine
end

