-- ==== Sys2Proof/Machine/Results.lean ====
section
/-!
DEFINITION. Results that reach a slot after its head issued (07_instruction_lines.md R131 to R133;
09_memory_instructions.md R187), lines that reach an instruction cache (07_instruction_lines.md R135), and the
acknowledgements of a shoot-down (02_main_memory.md R46, R47).
-/

namespace Sys2Proof.Machine

/-! Heads performed after heads of their windows have issued (02_main_memory.md R40) -/

/-- The lookahead and the destinations of a head that may wait for a translation, or for another package, as an
outstanding result (07_instruction_lines.md R130). -/
def deferForm (i : Instr) : Option (Look × List Dest) :=
  match i with
  | .ld _ _ a _ l _ => some (l, [.x a])
  | .ldv _ _ a _ l _ => some (l, [.x a])
  | .vld _ a _ l _ => some (l, [.v a])
  | .vldBc8 _ a _ l _ => some (l, [.v a])
  | .vldBc4 _ a _ l _ => some (l, [.v a])
  | .vldHalf _ a _ l _ => some (l, [.v a])
  | .vldv a _ l _ => some (l, [.v a])
  | .vldvAcq a _ l _ => some (l, [.v a])
  | .vlds _ a _ _ l _ _ => some (l, [.v a])
  | .vgath _ a _ _ l _ _ => some (l, [.v a])
  | .vldf a _ _ l _ _ => some (l, [.v a])
  | .vldfh a _ _ l _ _ => some (l, [.v a])
  | .amoSwap a _ _ l _ _ _ => some (l, [.x a])
  | .amoAdd a _ _ l _ _ _ => some (l, [.x a])
  | .amoAnd a _ _ l _ _ _ => some (l, [.x a])
  | .amoOr a _ _ l _ _ _ => some (l, [.x a])
  | .amoXor a _ _ l _ _ _ => some (l, [.x a])
  | .amoMin a _ _ l _ _ _ => some (l, [.x a])
  | .amoMax a _ _ l _ _ _ => some (l, [.x a])
  | .amoMinN a _ _ l _ _ _ => some (l, [.x a])
  | .amoMaxN a _ _ l _ _ _ => some (l, [.x a])
  | .amoIncw a _ _ l _ _ _ => some (l, [.x a])
  | .amoBfadd a _ _ l _ _ _ => some (l, [.x a])
  | .cas a _ _ l _ _ _ _ => some (l, [.x a])
  | _ => none

/-- Such a head attempted by the current slot. -/
def State.attempt (s : State) (i : Instr) : Out :=
  match i with
  | .ld sz q a b l d => execLd sz q a b l d s
  | .ldv sz q a b l d => execLdv sz q a b l d s
  | .vld q a b l d => execVld q a b l d s
  | .vldBc8 q a b l d => execVldBc8 q a b l d s
  | .vldBc4 q a b l d => execVldBc4 q a b l d s
  | .vldHalf q a b l d => execVldHalf q a b l d s
  | .vldv a b l d => execVldv a b l d s
  | .vldvAcq a b l d => execVldvAcq a b l d s
  | .vlds w a b c l v p => execVlds w a b c l v p s
  | .vgath w a b c l v p => execVgath w a b c l v p s
  | .vldf a b c l v p => execVldf a b c l v p s
  | .vldfh a b c l v p => execVldfh a b c l v p s
  | .amoSwap a b c l o d v => execAmoSwap a b c l o d v s
  | .amoAdd a b c l o d v => execAmoAdd a b c l o d v s
  | .amoAnd a b c l o d v => execAmoAnd a b c l o d v s
  | .amoOr a b c l o d v => execAmoOr a b c l o d v s
  | .amoXor a b c l o d v => execAmoXor a b c l o d v s
  | .amoMin a b c l o d v => execAmoMin a b c l o d v s
  | .amoMax a b c l o d v => execAmoMax a b c l o d v s
  | .amoMinN a b c l o d v => execAmoMinN a b c l o d v s
  | .amoMaxN a b c l o d v => execAmoMaxN a b c l o d v s
  | .amoIncw a b c l o d v => execAmoIncw a b c l o d v s
  | .amoBfadd a b c l o d v => execAmoBfadd a b c l o d v s
  | .cas a b c l o f d v => execCas a b c l o f d v s
  | _ => .next s

/-- The slot at a place as a deferred head finds it: the registers it was issued with, and no window. -/
def Slot.asIssued (sl : Slot) (r : OutRes) (d : Redo) : Slot :=
  { sl with x := d.x, v := d.v, p := d.p, pc := r.pc, outs := [], rex := none, park := .run, pend := none }

/-- The outcome of an attempt of a deferred head, from the slot it left and whether it trapped: its failure, its values,
or none yet. -/
def attempted (g : Slot) (trapped : Bool) : OutVal :=
  if trapped then .bad g.tcause.toNat g.tval (g.tstate.getLsbD 9)
  else match g.outs with
    | [o] => o.val
    | _ => .deferred

/-- A deferred head of a slot attempted again: the state and its outcome. The slot keeps what the heads after it have
done, and takes over the commit of the head (09_memory_instructions.md R167). -/
def State.redo (s : State) (place : Nat) (r : OutRes) (d : Redo) : OutVal × State :=
  let sl := s.slot place
  match ({ s with cur := place }.setSlot place (sl.asIssued r d)).attempt d.i with
  | .next t =>
    let g := t.slot place
    let sl' := { sl with irrev := g.irrev, cbuf := g.cbuf, xres := g.xres, rans := g.rans }
    (attempted g (t.clk.traps != s.clk.traps),
      { t.setSlot place sl' with cur := s.cur, clk := { t.clk with traps := s.clk.traps } })
  | _ => (.deferred, s)

/-- The state with an outstanding result of a slot replaced. -/
def State.setOut (s : State) (place i : Nat) (r : OutRes) : State :=
  let sl := s.slot place
  s.setSlot place { sl with outs := sl.outs.set i r }

/-- RESULT_RETURN (R131): a result whose outcome is known has returned; it is written when its window ends, so that the
heads of the window read the value before it, or discarded for a register one of them wrote. A head that was deferred
is attempted first, when those before it have been performed. -/
def execResultReturn (place i : Nat) (s : State) : Out :=
  let sl := s.slot place
  .next (match sl.outs[i]? with
  | none => s
  | some r =>
    match r.val, r.redo with
    | .waiting, _ => s
    | .deferred, some d =>
      if (sl.outs.take i).any (fun x => x.val == .deferred) then s
      else
        let (v, t) := s.redo place r d
        t.setOut place i { r with val := v }
    | .deferred, none => s
    | _, _ => s.setOut place i { r with back := true })

/-- RED_FAILURE_ANSWER (R187): the trap of a refused or poisoned reduction, before the slot's next head, once every
outstanding result has returned. -/
def execRedFailureAnswer (place : Nat) (s : State) : Out :=
  let sl := s.slot place
  .next (match sl.late with
  | some (c, tv) =>
    if !sl.occ || sl.halted || sl.park != .run || !sl.outs.all OutRes.settled then s
    else
      let t := s.setSlot place { sl with late := none }
      match firstFailure sl.outs with
      | some (r, _) => t.lateTrap place r true
      | none => (t.setSlot place (t.slot place).drain).takeTrapAt place c tv sl.pc true 0 false false 0
  | none => s)

/-! Lines (R135) -/

/-- Pinned lines of a context in a cache. -/
def pinCount (l : List CacheLine) : Nat := (l.filter (fun c => c.pinned.isSome)).length

/-- The cache of a prefetch's level. -/
def State.levelCache (s : State) (core : Nat) (r : Prefetch) : List CacheLine :=
  if r.cluster then (s.clus (core / 16)).icache else (s.core core).icache

/-- The state with that cache replaced. -/
def State.setLevel (s : State) (core : Nat) (r : Prefetch) (l : List CacheLine) : State :=
  if r.cluster then s.setClus (core / 16) { s.clus (core / 16) with icache := l }
  else s.setCore core { s.core core with icache := l }

/-- The first range of a core's prefetch engine with one line done, or gone with its last. -/
def CoreSt.lineDone (k : CoreSt) (i : Nat) : CoreSt :=
  match k.prefetch[i]? with
  | some r =>
    if r.count ≤ 1 then { k with prefetch := k.prefetch.eraseIdx i, pxres := none }
    else { k with prefetch := k.prefetch.set i { r with va := (r.va + 64) % 2 ^ 56, count := r.count - 1 }, pxres := none }
  | none => k

/-- A 32-bit counter that saturates, one more (07_instruction_lines.md R121). -/
def satInc (n : BitVec 32) : BitVec 32 := if n = BitVec.allOnes 32 then n else n + 1

/-- A line dropped: for a pin whose translation failed PFAIL rises (R135). -/
def State.lineDropped (s : State) (core i : Nat) (r : Prefetch) (failed : Bool) : State :=
  let k := (s.core core).lineDone i
  s.setCore core (if r.pin && failed then { k with pfail := satInc k.pfail } else k)

/-- A line of a range that a cache holds. -/
def Prefetch.isLine (r : Prefetch) (c : CacheLine) : Bool := decide (c.tsid = r.tsid) && decide (c.va = r.va)

/-- A line's bytes loaded, and pinned where asked: a pin past half the level's capacity is ignored and counted; a line
already pinned stays as it is (R135). -/
def State.lineLoaded (s : State) (core i : Nat) (r : Prefetch) (bytes : List Byte) (span : Nat) : State :=
  let old := s.levelCache core r
  let t := s.setCore core ((s.core core).lineDone i)
  if old.any (fun c => r.isLine c && c.pinned.isSome) then t
  else
    let u := t.setLevel core r (cacheLoad (t.levelCache core r) ⟨r.tsid, r.va, bytes, none, span⟩)
    if !r.pin then u
    else if (if r.cluster then 8192 else 512) ≤ pinCount old then
      u.setCore core { u.core core with pcap := satInc (u.core core).pcap }
    else u.setLevel core r ((u.levelCache core r).map fun c => if r.isLine c then { c with pinned := some r.ctx } else c)

/-- The request of a core's prefetch engine for the line of a range. -/
def prefetchReq (core : Nat) (r : Prefetch) (pa : Nat) : PortReq :=
  { row := shardOf (core / 16), tag := 0, src := prefetchSrc core, pa := pa, op := .load 64, posted := false,
    replay := false, reissues := 0, va := if r.phys then none else some (word r.va), ctx := r.ctx }

/-- A line of a prefetch that came back poisoned is dropped, and its cluster's error log has it
(18_faults_and_preemption.md R344). -/
def State.linePoisoned (s : State) (core i : Nat) (r : Prefetch) : State :=
  (s.logAt (core / 16) (core * 8) 0x15 (word r.va)).lineDropped core i r false

/-- A line of a range read at its port, through its shard's cache where the translation allows it (04_vaults.md R64):
loaded, or dropped where it is refused or poisoned. One that must be asked for waits for its answer, and is not checked
again (03_crossbar.md R55, R61). -/
def State.readPrefetch (s : State) (core i : Nat) (r : Prefetch) (p : Phys) : State :=
  let shard := shardOf (core / 16)
  let q := prefetchReq core r p.pa
  match (s.core core).pans.filter fun a => a.pa = p.pa with
  | some a =>
    let t := s.setCore core { s.core core with pans := none }
    match a.res with
    | .data bs => t.lineLoaded core i r bs p.span
    | .poisoned => t.linePoisoned core i r
    | _ => t.lineDropped core i r false
  | none =>
    if s.askedFor q then s
    else if (s.portRefusal shard p.pa).isSome then s.lineDropped core i r false
    else if s.linkDown p.pa then s.linePoisoned core i r
    else if s.mustAsk p.pa true then s.askOnce q
    else (if p.sc then s.shardRead shard p.pa true else s).lineLoaded core i r (s.memView p.pa 64) p.span

/-- PREFETCH_FILL (R135): the next line of a range of a core's prefetch engine. -/
def execPrefetchFill (core i : Nat) (s : State) : Out :=
  let k := s.core core
  let clus := core / 16
  .next (match k.prefetch[i]? with
  | none => s
  | some r =>
    if s.fw.halted then s
    else if r.phys then s.readPrefetch core i r ⟨r.va % 2 ^ 48, false, 64⟩
    else
      match (tlbFind k.l1 r.tsid r.va).orElse (fun _ => tlbFind (s.clus clus).tlb r.tsid r.va) with
      | some e =>
        if !e.permits .fetch r.user then s.lineDropped core i r true
        else s.readPrefetch core i r ⟨e.phys r.va, e.sc, pageSize e.size⟩
      | none =>
        if core % 16 = 8 ∨ k.pxres.any (fun x => x.1 = r.va / 65536) = true then s.lineDropped core i r true
        else if (s.clus clus).asks (.prefetch core) then s
        else s.openXlat clus r.tsid { who := .prefetch core, kind := 3, abortable := false, va := r.va })

/-! Shoot-downs (02_main_memory.md R46, R47) -/

/-- Nodes of the shoot-down tree: the package, the eight dies, the 32 shards, the 512 clusters, and the nine cores of
each cluster. -/
def nodeChildren (node : Nat) : List Nat :=
  if node = 0 then (List.range 8).map (1 + ·)
  else if node < 9 then (List.range 4).map fun i => 9 + (node - 1) * 4 + i
  else if node < 41 then (List.range 16).map fun i => 41 + (node - 9) * 16 + i
  else if node < 553 then (List.range 9).map fun u => 553 + coreIn (node - 41) u
  else []

/-- A node is a core or a cluster that is power-gated: its parent acknowledges for it (R47). -/
def State.nodeSkipped (s : State) (node : Nat) : Bool :=
  if 553 ≤ node then (s.core (node - 553)).gated || (s.clus ((node - 553) / 16)).gated
  else if 41 ≤ node then (s.clus (node - 41)).gated
  else false

/-- A request was translated through an entry that a shoot-down withdraws. -/
def SDown.holds (d : SDown) (s : State) (q : PortReq) : Bool :=
  q.va.any fun a => descHits d.desc (s.ctxOf q.ctx).tsid (a.toNat % 2 ^ 56) 1

/-- A slot of a core, live or spilled, holds a reduction translated through an entry that a shoot-down withdraws: it is
performed at the slot's commit point (R46; 13_handlers_and_messages.md R270). -/
def State.redHeld (s : State) (d : SDown) (core : Nat) : Bool :=
  let holds (x : Nat × Slot) : Bool := decide (coreOf x.1 = core) && s.redUses d.desc x.2
  s.slots.any holds || s.saved.any fun (_, a) => a.slots.any holds

/-- The core whose slots, prefetch engine or network interface a source number is of. -/
def srcCore (src : Nat) : Option Nat :=
  if isSlot src then some (coreOf src) else (prefetchOf src).or (ifaceOf src)

/-- The node whose TLBs a requester's accesses are translated by: its core's, its copy engine's cluster's, or the
package's for feeders and the hub (R46). -/
def srcNode (q : PortReq) : Nat :=
  if 32 ≤ q.row then 0
  else match srcCore q.src with
    | some c => 553 + c
    | none => 41 + clusOf q.src

/-- Accesses translated through a withdrawn entry of a node's own TLBs have been performed (R46): those of a core's
slots, prefetch engine and network interface, of a cluster's copy engine, and, at the package node, of the feeders, the
hub and the launch front end. -/
def State.nodeClear (s : State) (d : SDown) (node : Nat) : Bool :=
  !(s.xbar.outstanding.any fun (q, _) => d.holds s q && decide (srcNode q = node)) &&
    !(decide (553 ≤ node) && s.redHeld d (node - 553)) &&
    !(decide (node = 0) && s.front.answers.any fun (_, e) => e.any fun e => descHits d.desc e.tsid e.va (pageSize e.size))

/-- A node may acknowledge (R46): its children have, and its own accesses through a withdrawn entry are performed. -/
def State.nodeReady (s : State) (d : SDown) (node : Nat) : Bool :=
  !d.acked.contains node && ((nodeChildren node).all fun c => d.acked.contains c || s.nodeSkipped c) &&
      s.nodeClear d node

/-- SHOOTDOWN_ACK (R46): at the package node the shoot-down is complete and its slot goes on. -/
def execShootdownAck (place node : Nat) (s : State) : Out :=
  .next (match s.sdowns.find? (fun d => d.place = place) with
  | none => s
  | some d =>
    if !s.nodeReady d node then s
    else if node = 0 then
      let t := { s with sdowns := s.sdowns.erase d }
      let free (sl : Slot) : Slot := if sl.park = .sdown then { sl with park := .run } else sl
      let a := t.save d.ctx (clusOf place)
      if (t.slot place).occ && decide ((t.slot place).ctx = d.ctx) then t.setSlot place (free (t.slot place))
      else if khas a.slots place then
        t.setSave d.ctx (clusOf place) { a with slots := kset a.slots place (free (kget {} a.slots place)) }
      else t
    else { s with sdowns := s.sdowns.map fun x =>
      if x = d then { x with acked := sinsert x.acked node } else x })

end Sys2Proof.Machine
end

