-- ==== Sys2Proof/Machine/Dispatch.lean ====
section
/-!
DEFINITION. Which meaning each instruction and event of spec/opcode_table.json has.
-/

namespace Sys2Proof.Machine

/-- The meaning of an instruction or event. -/
def exec (i : Instr) (s : State) : Host.Outcome State Fault Refusal :=
  match i with
  | .mov a b => Sys2Proof.Machine.execMov a b s
  | .add a b => Sys2Proof.Machine.execAdd a b s
  | .sub a b => Sys2Proof.Machine.execSub a b s
  | .and a b => Sys2Proof.Machine.execAnd a b s
  | .or a b => Sys2Proof.Machine.execOr a b s
  | .xor a b => Sys2Proof.Machine.execXor a b s
  | .addq a imm => Sys2Proof.Machine.execAddq a imm s
  | .shlq a k => Sys2Proof.Machine.execShlq a k s
  | .shrq a k => Sys2Proof.Machine.execShrq a k s
  | .alu3Add a b c => Sys2Proof.Machine.execAlu3Add a b c s
  | .alu3Sub a b c => Sys2Proof.Machine.execAlu3Sub a b c s
  | .alu3And a b c => Sys2Proof.Machine.execAlu3And a b c s
  | .alu3Or a b c => Sys2Proof.Machine.execAlu3Or a b c s
  | .alu3Xor a b c => Sys2Proof.Machine.execAlu3Xor a b c s
  | .andn a b c => Sys2Proof.Machine.execAndn a b c s
  | .shl a b c => Sys2Proof.Machine.execShl a b c s
  | .shr a b c => Sys2Proof.Machine.execShr a b c s
  | .sar a b c => Sys2Proof.Machine.execSar a b c s
  | .rot a b c => Sys2Proof.Machine.execRot a b c s
  | .min a b c => Sys2Proof.Machine.execMin a b c s
  | .max a b c => Sys2Proof.Machine.execMax a b c s
  | .minN a b c => Sys2Proof.Machine.execMinN a b c s
  | .maxN a b c => Sys2Proof.Machine.execMaxN a b c s
  | .cmpeq a b c => Sys2Proof.Machine.execCmpeq a b c s
  | .cmplt a b c => Sys2Proof.Machine.execCmplt a b c s
  | .cmpltN a b c => Sys2Proof.Machine.execCmpltN a b c s
  | .cmple a b c => Sys2Proof.Machine.execCmple a b c s
  | .cmpleN a b c => Sys2Proof.Machine.execCmpleN a b c s
  | .cmpne a b c => Sys2Proof.Machine.execCmpne a b c s
  | .mul a b c => Sys2Proof.Machine.execMul a b c s
  | .mulh a b c => Sys2Proof.Machine.execMulh a b c s
  | .mulhN a b c => Sys2Proof.Machine.execMulhN a b c s
  | .div a b c l => Sys2Proof.Machine.execDiv a b c l s
  | .divN a b c l => Sys2Proof.Machine.execDivN a b c l s
  | .rem a b c l => Sys2Proof.Machine.execRem a b c l s
  | .remN a b c l => Sys2Proof.Machine.execRemN a b c l s
  | .clmul a b c => Sys2Proof.Machine.execClmul a b c s
  | .clmulh a b c => Sys2Proof.Machine.execClmulh a b c s
  | .bext a b c => Sys2Proof.Machine.execBext a b c s
  | .bdep a b c => Sys2Proof.Machine.execBdep a b c s
  | .clz a b => Sys2Proof.Machine.execClz a b s
  | .ctz a b => Sys2Proof.Machine.execCtz a b s
  | .popc a b => Sys2Proof.Machine.execPopc a b s
  | .brev a b => Sys2Proof.Machine.execBrev a b s
  | .sextB a b => Sys2Proof.Machine.execSextB a b s
  | .sextH a b => Sys2Proof.Machine.execSextH a b s
  | .sextW a b => Sys2Proof.Machine.execSextW a b s
  | .zextB a b => Sys2Proof.Machine.execZextB a b s
  | .zextH a b => Sys2Proof.Machine.execZextH a b s
  | .zextW a b => Sys2Proof.Machine.execZextW a b s
  | .not a b => Sys2Proof.Machine.execNot a b s
  | .neg a b => Sys2Proof.Machine.execNeg a b s
  | .abs a b => Sys2Proof.Machine.execAbs a b s
  | .tagget a b => Sys2Proof.Machine.execTagget a b s
  | .bswap a b => Sys2Proof.Machine.execBswap a b s
  | .addi a b imm => Sys2Proof.Machine.execAddi a b imm s
  | .andi a b imm => Sys2Proof.Machine.execAndi a b imm s
  | .ori a b imm => Sys2Proof.Machine.execOri a b imm s
  | .xori a b imm => Sys2Proof.Machine.execXori a b imm s
  | .cmpeqi a b imm => Sys2Proof.Machine.execCmpeqi a b imm s
  | .cmplti a b imm => Sys2Proof.Machine.execCmplti a b imm s
  | .cmpltiN a b imm => Sys2Proof.Machine.execCmpltiN a b imm s
  | .muli a b imm => Sys2Proof.Machine.execMuli a b imm s
  | .addai a b imm => Sys2Proof.Machine.execAddai a b imm s
  | .mini a b imm => Sys2Proof.Machine.execMini a b imm s
  | .maxi a b imm => Sys2Proof.Machine.execMaxi a b imm s
  | .shli a b k => Sys2Proof.Machine.execShli a b k s
  | .shri a b k => Sys2Proof.Machine.execShri a b k s
  | .sari a b k => Sys2Proof.Machine.execSari a b k s
  | .roti a b k => Sys2Proof.Machine.execRoti a b k s
  | .tagset a b tag => Sys2Proof.Machine.execTagset a b tag s
  | .li16 a imm => Sys2Proof.Machine.execLi16 a imm s
  | .li32 a imm => Sys2Proof.Machine.execLi32 a imm s
  | .li64 a imm => Sys2Proof.Machine.execLi64 a imm s
  | .adda a b c sh => Sys2Proof.Machine.execAdda a b c sh s
  | .sel a b c d => Sys2Proof.Machine.execSel a b c d s
  | .br off => Sys2Proof.Machine.execBr off s
  | .beq a b off => Sys2Proof.Machine.execBeq a b off s
  | .bne a b off => Sys2Proof.Machine.execBne a b off s
  | .blt a b off => Sys2Proof.Machine.execBlt a b off s
  | .bge a b off => Sys2Proof.Machine.execBge a b off s
  | .bltN a b off => Sys2Proof.Machine.execBltN a b off s
  | .bgeN a b off => Sys2Proof.Machine.execBgeN a b off s
  | .bz a off => Sys2Proof.Machine.execBz a off s
  | .bnz a off => Sys2Proof.Machine.execBnz a off s
  | .call a off => Sys2Proof.Machine.execCall a off s
  | .loop a off => Sys2Proof.Machine.execLoop a off s
  | .jr b => Sys2Proof.Machine.execJr b s
  | .rdsr a n => Sys2Proof.Machine.execRdsr a n s
  | .wrsr n a => Sys2Proof.Machine.execWrsr n a s
  | .rdcnt a n => Sys2Proof.Machine.execRdcnt a n s
  | .swpsr a n b => Sys2Proof.Machine.execSwpsr a n b s
  | .trap code => Sys2Proof.Machine.execTrap code s
  | .svc code => Sys2Proof.Machine.execSvc code s
  | .rett => Sys2Proof.Machine.execRett s
  | .dbrk => Sys2Proof.Machine.execDbrk s
  | .halt => Sys2Proof.Machine.execHalt s
  | .wfi => Sys2Proof.Machine.execWfi s
  | .tlbw a b c => Sys2Proof.Machine.execTlbw a b c s
  | .tlbi a => Sys2Proof.Machine.execTlbi a s
  | .sdown a => Sys2Proof.Machine.execSdown a s
  | .ipref a b lvl => Sys2Proof.Machine.execIpref a b lvl s
  | .ipin a b lvl => Sys2Proof.Machine.execIpin a b lvl s
  | .iunpin a b lvl => Sys2Proof.Machine.execIunpin a b lvl s
  | .evq a b => Sys2Proof.Machine.execEvq a b s
  | .ld sz acq a b l disp => Sys2Proof.Machine.execLd sz acq a b l disp s
  | .ldv sz acq a b l disp => Sys2Proof.Machine.execLdv sz acq a b l disp s
  | .st sz rel a b disp => Sys2Proof.Machine.execSt sz rel a b disp s
  | .stv sz rel a b disp => Sys2Proof.Machine.execStv sz rel a b disp s
  | .ldf a b l disp => Sys2Proof.Machine.execLdf a b l disp s
  | .ldfe a b l disp => Sys2Proof.Machine.execLdfe a b l disp s
  | .tagrd a b l disp => Sys2Proof.Machine.execTagrd a b l disp s
  | .ste a b disp => Sys2Proof.Machine.execSte a b disp s
  | .stf a b disp => Sys2Proof.Machine.execStf a b disp s
  | .tagsetf b disp => Sys2Proof.Machine.execTagsetf b disp s
  | .tagsete b disp => Sys2Proof.Machine.execTagsete b disp s
  | .ldft a c b l disp => Sys2Proof.Machine.execLdft a c b l disp s
  | .vld acq a b l disp => Sys2Proof.Machine.execVld acq a b l disp s
  | .vldBc8 acq a b l disp => Sys2Proof.Machine.execVldBc8 acq a b l disp s
  | .vldBc4 acq a b l disp => Sys2Proof.Machine.execVldBc4 acq a b l disp s
  | .vldHalf acq a b l disp => Sys2Proof.Machine.execVldHalf acq a b l disp s
  | .vst rel a b disp => Sys2Proof.Machine.execVst rel a b disp s
  | .vstHalf rel a b disp => Sys2Proof.Machine.execVstHalf rel a b disp s
  | .vstPred rel a b p disp => Sys2Proof.Machine.execVstPred rel a b p disp s
  | .vldv a b l disp => Sys2Proof.Machine.execVldv a b l disp s
  | .vldvAcq a b l disp => Sys2Proof.Machine.execVldvAcq a b l disp s
  | .vstv a b disp => Sys2Proof.Machine.execVstv a b disp s
  | .vstvRel a b disp => Sys2Proof.Machine.execVstvRel a b disp s
  | .vlds w8 a b c l vault p => Sys2Proof.Machine.execVlds w8 a b c l vault p s
  | .vsts w8 a b c vault p => Sys2Proof.Machine.execVsts w8 a b c vault p s
  | .vgath w8 a b c l vault p => Sys2Proof.Machine.execVgath w8 a b c l vault p s
  | .vscat w8 a b c vault p => Sys2Proof.Machine.execVscat w8 a b c vault p s
  | .vldf a b c l vault p => Sys2Proof.Machine.execVldf a b c l vault p s
  | .vldfh a b c l vault p => Sys2Proof.Machine.execVldfh a b c l vault p s
  | .vstf half a b c sat vault p => Sys2Proof.Machine.execVstf half a b c sat vault p s
  | .amoSwap a b c l ord d8 vault => Sys2Proof.Machine.execAmoSwap a b c l ord d8 vault s
  | .amoAdd a b c l ord d8 vault => Sys2Proof.Machine.execAmoAdd a b c l ord d8 vault s
  | .amoAnd a b c l ord d8 vault => Sys2Proof.Machine.execAmoAnd a b c l ord d8 vault s
  | .amoOr a b c l ord d8 vault => Sys2Proof.Machine.execAmoOr a b c l ord d8 vault s
  | .amoXor a b c l ord d8 vault => Sys2Proof.Machine.execAmoXor a b c l ord d8 vault s
  | .amoMin a b c l ord d8 vault => Sys2Proof.Machine.execAmoMin a b c l ord d8 vault s
  | .amoMax a b c l ord d8 vault => Sys2Proof.Machine.execAmoMax a b c l ord d8 vault s
  | .amoMinN a b c l ord d8 vault => Sys2Proof.Machine.execAmoMinN a b c l ord d8 vault s
  | .amoMaxN a b c l ord d8 vault => Sys2Proof.Machine.execAmoMaxN a b c l ord d8 vault s
  | .amoIncw a b c l ord d8 vault => Sys2Proof.Machine.execAmoIncw a b c l ord d8 vault s
  | .amoBfadd a b c l ord d8 vault => Sys2Proof.Machine.execAmoBfadd a b c l ord d8 vault s
  | .cas a b c l succ facq d8 vault => Sys2Proof.Machine.execCas a b c l succ facq d8 vault s
  | .redAdd b c rel d8 vault => Sys2Proof.Machine.execRedAdd b c rel d8 vault s
  | .redAnd b c rel d8 vault => Sys2Proof.Machine.execRedAnd b c rel d8 vault s
  | .redOr b c rel d8 vault => Sys2Proof.Machine.execRedOr b c rel d8 vault s
  | .redXor b c rel d8 vault => Sys2Proof.Machine.execRedXor b c rel d8 vault s
  | .redMin b c rel d8 vault => Sys2Proof.Machine.execRedMin b c rel d8 vault s
  | .redMax b c rel d8 vault => Sys2Proof.Machine.execRedMax b c rel d8 vault s
  | .redMinN b c rel d8 vault => Sys2Proof.Machine.execRedMinN b c rel d8 vault s
  | .redMaxN b c rel d8 vault => Sys2Proof.Machine.execRedMaxN b c rel d8 vault s
  | .redFadd32 b c rel vault => Sys2Proof.Machine.execRedFadd32 b c rel vault s
  | .redFmax32 b c rel vault => Sys2Proof.Machine.execRedFmax32 b c rel vault s
  | .redFmin32 b c rel vault => Sys2Proof.Machine.execRedFmin32 b c rel vault s
  | .fenceAcq sc => Sys2Proof.Machine.execFenceAcq sc s
  | .fenceRel sc => Sys2Proof.Machine.execFenceRel sc s
  | .fenceFull sc => Sys2Proof.Machine.execFenceFull sc s
  | .fenceEng sc => Sys2Proof.Machine.execFenceEng sc s
  | .cpwr k b => Sys2Proof.Machine.execCpwr k b s
  | .cpgo a j l => Sys2Proof.Machine.execCpgo a j l s
  | .cprd a k => Sys2Proof.Machine.execCprd a k s
  | .cpst a b => Sys2Proof.Machine.execCpst a b s
  | .wait mask => Sys2Proof.Machine.execWait mask s
  | .tkrel mask => Sys2Proof.Machine.execTkrel mask s
  | .waitany a mask => Sys2Proof.Machine.execWaitany a mask s
  | .tkst a => Sys2Proof.Machine.execTkst a s
  | .tkclr => Sys2Proof.Machine.execTkclr s
  | .ginit b => Sys2Proof.Machine.execGinit b s
  | .ginitOff b => Sys2Proof.Machine.execGinitOff b s
  | .garr b c d => Sys2Proof.Machine.execGarr b c d s
  | .gexp b c d => Sys2Proof.Machine.execGexp b c d s
  | .gwait j b c ph => Sys2Proof.Machine.execGwait j b c ph s
  | .grel b c => Sys2Proof.Machine.execGrel b c s
  | .gtest a b c => Sys2Proof.Machine.execGtest a b c s
  | .stc sid a b => Sys2Proof.Machine.execStc sid a b s
  | .mqst a => Sys2Proof.Machine.execMqst a s
  | .mbind j b => Sys2Proof.Machine.execMbind j b s
  | .mack => Sys2Proof.Machine.execMack s
  | .vfaVadd a b c ty p => Sys2Proof.Machine.execVfaVadd a b c ty p s
  | .vfaVsub a b c ty p => Sys2Proof.Machine.execVfaVsub a b c ty p s
  | .vfaVmul a b c ty p => Sys2Proof.Machine.execVfaVmul a b c ty p s
  | .vfaVmin a b c ty p => Sys2Proof.Machine.execVfaVmin a b c ty p s
  | .vfaVmax a b c ty p => Sys2Proof.Machine.execVfaVmax a b c ty p s
  | .vfma a b c ty p => Sys2Proof.Machine.execVfma a b c ty p s
  | .vfms a b c ty p => Sys2Proof.Machine.execVfms a b c ty p s
  | .vfnma a b c ty p => Sys2Proof.Machine.execVfnma a b c ty p s
  | .vdiv a b c ty l => Sys2Proof.Machine.execVdiv a b c ty l s
  | .viaVadd a b c ty p => Sys2Proof.Machine.execViaVadd a b c ty p s
  | .viaVsub a b c ty p => Sys2Proof.Machine.execViaVsub a b c ty p s
  | .viaVmul a b c ty p => Sys2Proof.Machine.execViaVmul a b c ty p s
  | .vmulh a b c ty p => Sys2Proof.Machine.execVmulh a b c ty p s
  | .viaVmin a b c ty p => Sys2Proof.Machine.execViaVmin a b c ty p s
  | .viaVmax a b c ty p => Sys2Proof.Machine.execViaVmax a b c ty p s
  | .vadds a b c ty p => Sys2Proof.Machine.execVadds a b c ty p s
  | .vsubs a b c ty p => Sys2Proof.Machine.execVsubs a b c ty p s
  | .vavg a b c ty p => Sys2Proof.Machine.execVavg a b c ty p s
  | .vabsd a b c ty p => Sys2Proof.Machine.execVabsd a b c ty p s
  | .vmac a b c ty p => Sys2Proof.Machine.execVmac a b c ty p s
  | .vdot4 a b c ty p => Sys2Proof.Machine.execVdot4 a b c ty p s
  | .vsqrt a b ty l => Sys2Proof.Machine.execVsqrt a b ty l s
  | .vexp2 a b ty l => Sys2Proof.Machine.execVexp2 a b ty l s
  | .vlog2 a b ty l => Sys2Proof.Machine.execVlog2 a b ty l s
  | .vrcp8 a b ty p => Sys2Proof.Machine.execVrcp8 a b ty p s
  | .vabs a b ty p => Sys2Proof.Machine.execVabs a b ty p s
  | .vfloor a b ty p => Sys2Proof.Machine.execVfloor a b ty p s
  | .vceil a b ty p => Sys2Proof.Machine.execVceil a b ty p s
  | .vrint a b ty p => Sys2Proof.Machine.execVrint a b ty p s
  | .vneg a b ty p => Sys2Proof.Machine.execVneg a b ty p s
  | .vclz a b ty p => Sys2Proof.Machine.execVclz a b ty p s
  | .vpopc a b ty p => Sys2Proof.Machine.execVpopc a b ty p s
  | .vnot a b ty p => Sys2Proof.Machine.execVnot a b ty p s
  | .vabsi a b ty p => Sys2Proof.Machine.execVabsi a b ty p s
  | .vcmpEq a b c ty p => Sys2Proof.Machine.execVcmpEq a b c ty p s
  | .vcmpNe a b c ty p => Sys2Proof.Machine.execVcmpNe a b c ty p s
  | .vcmpLt a b c ty p => Sys2Proof.Machine.execVcmpLt a b c ty p s
  | .vcmpLe a b c ty p => Sys2Proof.Machine.execVcmpLe a b c ty p s
  | .vcmpGt a b c ty p => Sys2Proof.Machine.execVcmpGt a b c ty p s
  | .vcmpGe a b c ty p => Sys2Proof.Machine.execVcmpGe a b c ty p s
  | .vcmpUnord a b c ty p => Sys2Proof.Machine.execVcmpUnord a b c ty p s
  | .vcmpLtN a b c ty p => Sys2Proof.Machine.execVcmpLtN a b c ty p s
  | .vcmpLeN a b c ty p => Sys2Proof.Machine.execVcmpLeN a b c ty p s
  | .vand a b c ty p => Sys2Proof.Machine.execVand a b c ty p s
  | .vor a b c ty p => Sys2Proof.Machine.execVor a b c ty p s
  | .vxor a b c ty p => Sys2Proof.Machine.execVxor a b c ty p s
  | .vandn a b c ty p => Sys2Proof.Machine.execVandn a b c ty p s
  | .vshl a b c ty p => Sys2Proof.Machine.execVshl a b c ty p s
  | .vshr a b c ty p => Sys2Proof.Machine.execVshr a b c ty p s
  | .vsar a b c ty p => Sys2Proof.Machine.execVsar a b c ty p s
  | .vrot a b c ty p => Sys2Proof.Machine.execVrot a b c ty p s
  | .vclmul a b c ty p => Sys2Proof.Machine.execVclmul a b c ty p s
  | .vclmulh a b c ty p => Sys2Proof.Machine.execVclmulh a b c ty p s
  | .vsel a b c ty p => Sys2Proof.Machine.execVsel a b c ty p s
  | .vbcast a b ty p => Sys2Proof.Machine.execVbcast a b ty p s
  | .vextr a b c ty => Sys2Proof.Machine.execVextr a b c ty s
  | .vins a b c ty => Sys2Proof.Machine.execVins a b c ty s
  | .vperm a b c ty p => Sys2Proof.Machine.execVperm a b c ty p s
  | .vslideup a b c ty p => Sys2Proof.Machine.execVslideup a b c ty p s
  | .vslidedn a b c ty p => Sys2Proof.Machine.execVslidedn a b c ty p s
  | .vzip a b c ty p => Sys2Proof.Machine.execVzip a b c ty p s
  | .vunzip a b c ty p => Sys2Proof.Machine.execVunzip a b c ty p s
  | .vmovv a b ty p => Sys2Proof.Machine.execVmovv a b ty p s
  | .vfromm a => Sys2Proof.Machine.execVfromm a s
  | .vredFsum a b ty p => Sys2Proof.Machine.execVredFsum a b ty p s
  | .vredMax a b ty p => Sys2Proof.Machine.execVredMax a b ty p s
  | .vredMin a b ty p => Sys2Proof.Machine.execVredMin a b ty p s
  | .vredAnd a b ty p => Sys2Proof.Machine.execVredAnd a b ty p s
  | .vredOr a b ty p => Sys2Proof.Machine.execVredOr a b ty p s
  | .vredXor a b ty p => Sys2Proof.Machine.execVredXor a b ty p s
  | .vredSum a b ty p => Sys2Proof.Machine.execVredSum a b ty p s
  | .vcvt a b src dst rm sat p => Sys2Proof.Machine.execVcvt a b src dst rm sat p s
  | .vcvtHi a b part src dst rm sat p => Sys2Proof.Machine.execVcvtHi a b part src dst rm sat p s
  | .pset a b => Sys2Proof.Machine.execPset a b s
  | .pget a b => Sys2Proof.Machine.execPget a b s
  | .pand a b c => Sys2Proof.Machine.execPand a b c s
  | .por a b c => Sys2Proof.Machine.execPor a b c s
  | .pxor a b c => Sys2Proof.Machine.execPxor a b c s
  | .pnot a b => Sys2Proof.Machine.execPnot a b s
  | .pcnt a b w => Sys2Proof.Machine.execPcnt a b w s
  | .pfirst a b w => Sys2Proof.Machine.execPfirst a b w s
  | .plen a b w => Sys2Proof.Machine.execPlen a b w s
  | .sendH a b c cls => Sys2Proof.Machine.execSendH a b c cls s
  | .sendA a b c cls => Sys2Proof.Machine.execSendA a b c cls s
  | .sendxH a b c cls => Sys2Proof.Machine.execSendxH a b c cls s
  | .sendxA a b c cls => Sys2Proof.Machine.execSendxA a b c cls s
  | .sendN a b c d cls => Sys2Proof.Machine.execSendN a b c d cls s
  | .sendxN a b c d cls => Sys2Proof.Machine.execSendxN a b c d cls s
  | .endAct => Sys2Proof.Machine.execEndAct s
  | .cmit => Sys2Proof.Machine.execCmit s
  | .wbor a => Sys2Proof.Machine.execWbor a s
  | .wret a => Sys2Proof.Machine.execWret a s
  | .fcre a d b c => Sys2Proof.Machine.execFcre a d b c s
  | .fjoin a c b => Sys2Proof.Machine.execFjoin a c b s
  | .fleave b => Sys2Proof.Machine.execFleave b s
  | .fleaveAbs b => Sys2Proof.Machine.execFleaveAbs b s
  | .fdel b => Sys2Proof.Machine.execFdel b s
  | .fclose b => Sys2Proof.Machine.execFclose b s
  | .farr a b => Sys2Proof.Machine.execFarr a b s
  | .farrn b a d => Sys2Proof.Machine.execFarrn b a d s
  | .fvote a b c mode => Sys2Proof.Machine.execFvote a b c mode s
  | .fred a b c op => Sys2Proof.Machine.execFred a b c op s
  | .fredn b c a d op => Sys2Proof.Machine.execFredn b c a d op s
  | .fqry a b sel => Sys2Proof.Machine.execFqry a b sel s
  | .fwait j b c => Sys2Proof.Machine.execFwait j b c s
  | .htox a b => Sys2Proof.Machine.execHtox a b s
  | .xtoh a b => Sys2Proof.Machine.execXtoh a b s
  | .translationRequest clus slot => Sys2Proof.Machine.execTranslationRequest clus slot s
  | .shootdownAck place node => Sys2Proof.Machine.execShootdownAck place node s
  | .crossbarIngress q => Sys2Proof.Machine.execCrossbarIngress q s
  | .refusalResponse ix => Sys2Proof.Machine.execRefusalResponse ix s
  | .responseArrival ix => Sys2Proof.Machine.execResponseArrival ix s
  | .memoryPortRequest ix => Sys2Proof.Machine.execMemoryPortRequest ix s
  | .requestTimeout ix => Sys2Proof.Machine.execRequestTimeout ix s
  | .shardCacheFill ix => Sys2Proof.Machine.execShardCacheFill ix s
  | .connectionRowWrite row v => Sys2Proof.Machine.execConnectionRowWrite row v s
  | .minimaWrite vf slices bw => Sys2Proof.Machine.execMinimaWrite vf slices bw s
  | .blockRetirement isCluster idx => Sys2Proof.Machine.execBlockRetirement isCluster idx s
  | .portOutOfService port => Sys2Proof.Machine.execPortOutOfService port s
  | .portReturnToService port => Sys2Proof.Machine.execPortReturnToService port s
  | .writeQueueDrain port => Sys2Proof.Machine.execWriteQueueDrain port s
  | .remoteVaultAccess src va op => Sys2Proof.Machine.execRemoteVaultAccess src va op s
  | .taggedRequestReissue clus ix => Sys2Proof.Machine.execTaggedRequestReissue clus ix s
  | .feederMessageArrival ix => Sys2Proof.Machine.execFeederMessageArrival ix s
  | .messageReoffer ix => Sys2Proof.Machine.execMessageReoffer ix s
  | .feederStartList f => Sys2Proof.Machine.execFeederStartList f s
  | .push f => Sys2Proof.Machine.execPush f s
  | .drain f => Sys2Proof.Machine.execDrain f s
  | .loopRecord f => Sys2Proof.Machine.execLoopRecord f s
  | .padd f => Sys2Proof.Machine.execPadd f s
  | .waitg f => Sys2Proof.Machine.execWaitg f s
  | .sendRecord f => Sys2Proof.Machine.execSendRecord f s
  | .farrnRecord f => Sys2Proof.Machine.execFarrnRecord f s
  | .stop f => Sys2Proof.Machine.execStop f s
  | .chain f => Sys2Proof.Machine.execChain f s
  | .reservedRecord f => Sys2Proof.Machine.execReservedRecord f s
  | .feederWaitSatisfied f => Sys2Proof.Machine.execFeederWaitSatisfied f s
  | .transferStart clus => Sys2Proof.Machine.execTransferStart clus s
  | .transferComplete clus id => Sys2Proof.Machine.execTransferComplete clus id s
  | .galleyUpdate clus ofs k release exp bytes arrivals => Sys2Proof.Machine.execGalleyUpdate clus ofs k release exp bytes arrivals s
  | .resultReturn place ix => Sys2Proof.Machine.execResultReturn place ix s
  | .prefetchFill core ix => Sys2Proof.Machine.execPrefetchFill core ix s
  | .redFailureAnswer place => Sys2Proof.Machine.execRedFailureAnswer place s
  | .mma core => Sys2Proof.Machine.execMma core s
  | .mmag core => Sys2Proof.Machine.execMmag core s
  | .mld core => Sys2Proof.Machine.execMld core s
  | .mst core => Sys2Proof.Machine.execMst core s
  | .mzero core => Sys2Proof.Machine.execMzero core s
  | .mmark core => Sys2Proof.Machine.execMmark core s
  | .mpass core => Sys2Proof.Machine.execMpass core s
  | .mbld core => Sys2Proof.Machine.execMbld core s
  | .reservedCommandCode core => Sys2Proof.Machine.execReservedCommandCode core s
  | .commandRetire core => Sys2Proof.Machine.execCommandRetire core s
  | .matrixFault core => Sys2Proof.Machine.execMatrixFault core s
  | .latchWaitTimeout core => Sys2Proof.Machine.execLatchWaitTimeout core s
  | .messageArrival ix => Sys2Proof.Machine.execMessageArrival ix s
  | .spanForward ix => Sys2Proof.Machine.execSpanForward ix s
  | .inboxRefill core => Sys2Proof.Machine.execInboxRefill core s
  | .classAgeing core => Sys2Proof.Machine.execClassAgeing core s
  | .messageBind core slot => Sys2Proof.Machine.execMessageBind core slot s
  | .weightReturn ix => Sys2Proof.Machine.execWeightReturn ix s
  | .lossNotice ix => Sys2Proof.Machine.execLossNotice ix s
  | .borrowRequest ix => Sys2Proof.Machine.execBorrowRequest ix s
  | .borrowGrant ix => Sys2Proof.Machine.execBorrowGrant ix s
  | .borrowRefusal ix => Sys2Proof.Machine.execBorrowRefusal ix s
  | .statisticsCountArrival ix => Sys2Proof.Machine.execStatisticsCountArrival ix s
  | .combinerReturn ix => Sys2Proof.Machine.execCombinerReturn ix s
  | .kernelCompletion ctx kslot => Sys2Proof.Machine.execKernelCompletion ctx kslot s
  | .weightStall ctx kslot => Sys2Proof.Machine.execWeightStall ctx kslot s
  | .combinerFlush shard ix => Sys2Proof.Machine.execCombinerFlush shard ix s
  | .formeEngineAnswer place => Sys2Proof.Machine.execFormeEngineAnswer place s
  | .formeWake place => Sys2Proof.Machine.execFormeWake place s
  | .qprodWrite vf q v => Sys2Proof.Machine.execQprodWrite vf q v s
  | .qctlWrite vf q v => Sys2Proof.Machine.execQctlWrite vf q v s
  | .launch vf q => Sys2Proof.Machine.execLaunch vf q s
  | .fencew vf q => Sys2Proof.Machine.execFencew vf q s
  | .fencewPoll vf q => Sys2Proof.Machine.execFencewPoll vf q s
  | .fences vf q => Sys2Proof.Machine.execFences vf q s
  | .save vf q => Sys2Proof.Machine.execSave vf q s
  | .move vf q => Sys2Proof.Machine.execMove vf q s
  | .ackloss vf q => Sys2Proof.Machine.execAckloss vf q s
  | .query vf q => Sys2Proof.Machine.execQuery vf q s
  | .reservedQueueCommand vf q => Sys2Proof.Machine.execReservedQueueCommand vf q s
  | .admissionRun part => Sys2Proof.Machine.execAdmissionRun part s
  | .energyIntervalStart part => Sys2Proof.Machine.execEnergyIntervalStart part s
  | .dieStepDecision die temp watts => Sys2Proof.Machine.execDieStepDecision die temp watts s
  | .stepChangeEffect die => Sys2Proof.Machine.execStepChangeEffect die s
  | .coreGate core => Sys2Proof.Machine.execCoreGate core s
  | .coreWake core => Sys2Proof.Machine.execCoreWake core s
  | .clusterGate clus => Sys2Proof.Machine.execClusterGate clus s
  | .clusterWake clus => Sys2Proof.Machine.execClusterWake clus s
  | .kill place => Sys2Proof.Machine.execKill place s
  | .clusterReset clus => Sys2Proof.Machine.execClusterReset clus s
  | .sliceEndSignal clus incoming => Sys2Proof.Machine.execSliceEndSignal clus incoming s
  | .drainDeadline clus => Sys2Proof.Machine.execDrainDeadline clus s
  | .contextRestore ctx clus => Sys2Proof.Machine.execContextRestore ctx clus s
  | .pageUnobtainable ctx va => Sys2Proof.Machine.execPageUnobtainable ctx va s
  | .hostResumeContext ctx => Sys2Proof.Machine.execHostResumeContext ctx s
  | .hostTerminateContext ctx => Sys2Proof.Machine.execHostTerminateContext ctx s
  | .counterLowRead vf off => Sys2Proof.Machine.execCounterLowRead vf off s
  | .counterHighRead vf off => Sys2Proof.Machine.execCounterHighRead vf off s
  | .fatalError cause place status => Sys2Proof.Machine.execFatalError cause place status s
  | .slicePeriod part spare => Sys2Proof.Machine.execSlicePeriod part spare s
  | .meteringUpdate uj => Sys2Proof.Machine.execMeteringUpdate uj s
  | .enonceWrite fn nonce => Sys2Proof.Machine.execEnonceWrite fn nonce s
  | .readingComplete fn => Sys2Proof.Machine.execReadingComplete fn s
  | .persistRecord => Sys2Proof.Machine.execPersistRecord s
  | .profileOpen vf => Sys2Proof.Machine.execProfileOpen vf s
  | .profileConfigure vf cix evt => Sys2Proof.Machine.execProfileConfigure vf cix evt s
  | .profileArm vf cix per => Sys2Proof.Machine.execProfileArm vf cix per s
  | .profileDisarm vf cix => Sys2Proof.Machine.execProfileDisarm vf cix s
  | .profileClose vf => Sys2Proof.Machine.execProfileClose vf s
  | .debugHalt clus => Sys2Proof.Machine.execDebugHalt clus s
  | .debugResume clus => Sys2Proof.Machine.execDebugResume clus s
  | .stepReport clus => Sys2Proof.Machine.execStepReport clus s
  | .debugStep clus core slot => Sys2Proof.Machine.execDebugStep clus core slot s
  | .breakpointHit place => Sys2Proof.Machine.execBreakpointHit place s
  | .injWrite clus v => Sys2Proof.Machine.execInjWrite clus v s
  | .functionLevelReset vf => Sys2Proof.Machine.execFunctionLevelReset vf s
  | .pfReset => Sys2Proof.Machine.execPfReset s
  | .odnerlinkFlitReceive port flit => Sys2Proof.Machine.execOdnerlinkFlitReceive port flit s
  | .odnerlinkResendTimeout port => Sys2Proof.Machine.execOdnerlinkResendTimeout port s
  | .linkRetrain port trained => Sys2Proof.Machine.execLinkRetrain port trained s
  | .boot src => Sys2Proof.Machine.execBoot src s
  | .updateCommand img => Sys2Proof.Machine.execUpdateCommand img s
  | .standbyReady => Sys2Proof.Machine.execStandbyReady s
  | .pauseDrained => Sys2Proof.Machine.execPauseDrained s
  | .updatePauseTimeout => Sys2Proof.Machine.execUpdatePauseTimeout s
  | .importDone => Sys2Proof.Machine.execImportDone s
  | .heartbeatTimeout => Sys2Proof.Machine.execHeartbeatTimeout s
  | .attestationRequest nonce => Sys2Proof.Machine.execAttestationRequest nonce s
  | .securityAlarm c => Sys2Proof.Machine.execSecurityAlarm c s
  | .alarmResume => Sys2Proof.Machine.execAlarmResume s
  | .registerWrite r v => Sys2Proof.Machine.execRegisterWrite r v s
  | .provisioningCommand vendorSigned => Sys2Proof.Machine.execProvisioningCommand vendorSigned s
  | .migrationDescriptorPlacement d => Sys2Proof.Machine.execMigrationDescriptorPlacement d s
  | .powerLoss => Sys2Proof.Machine.execPowerLoss s
  | .policyImageOverrun vf => Sys2Proof.Machine.execPolicyImageOverrun vf s
  | .bufferUncorrectableError ix => Sys2Proof.Machine.execBufferUncorrectableError ix s

end Sys2Proof.Machine
end

