-- ==== Sys2Proof/Machine/Schedule.lean ====
section
/-!
DEFINITION. What may act next when nothing is on the agenda: the events that the state itself makes due, and the
slots that may issue (17_scheduling_and_power.md R337). No rule orders the parts of a package among themselves; log
entry 4 says how the model does.
-/

namespace Sys2Proof.Machine

/-- Indexes of a list's items that satisfy a test. -/
def idxs {α : Type} (l : List α) (f : α → Bool) : List Nat :=
  ((List.range l.length).zip l).filterMap fun (i, a) => if f a then some i else none

/-! Slots (R337) -/

/-- A cluster's switch lets a slot issue (18_faults_and_preemption.md R350): while it drains; then only activations of
the service core bound to its own service messages, by which the results that slots wait for return. -/
def State.lets (s : State) (place : Nat) : Bool :=
  !s.saves (clusOf place) || (isService place && (s.slot place).msg.isNone)

/-- The debug module's step lets a slot issue: the stepped slot only until its head has retired or trapped
(20_debug.md R375). After an END it has ended its activation, and another one in its place is not stepped. -/
def ClusSt.steps (c : ClusSt) (place : Nat) (sl : Slot) : Bool :=
  match c.stepping with
  | some (p, kind, n) => decide (p ≠ place) || kind == 6 || (kind == 0 && sl.heads.toNat == n && !sl.stepTrap)
  | none => true

/-- A slot may issue (R337; 17_scheduling_and_power.md R336, R339). -/
def State.mayIssue (s : State) (p : Nat) : Bool :=
  let sl := s.slot p
  let c := s.clus (clusOf p)
  isSlot p && sl.occ && sl.park == .run && !sl.halted && sl.dying.isNone && !c.gated &&
      decide (c.readyAt ≤ s.dieClock (clusOf p / 64)) &&
    s.coreReady (coreOf p) && (s.die (dieOf p)).pending.isNone && s.lets p && c.steps p sl

/-- A slot's results stall its next head (07_instruction_lines.md R131, R133): a window has closed before its result
returned, or a failure waits for every result to return. -/
def Slot.windowStalls (sl : Slot) : Bool :=
  let all := sl.outs.all OutRes.settled
  sl.outs.any (fun r => r.left == 0 && !r.settled) ||
      (!all && (sl.pend.isSome || sl.outs.any fun r => r.back && r.failed))

/-- A slot is ready (R337), as far as its results show; a head that its own form stalls is found when it is tried. -/
def State.slotReady (s : State) (p : Nat) : Bool := s.mayIssue p && !(s.slot p).windowStalls

/-- n slots of a core in ascending order modulo 8, after slot i. -/
def slotsAfter (core i n : Nat) : List Nat := (List.range n).map fun j => core * 8 + (i + 1 + j) % 8

/-- The first ready slot of a core, after the one that issued last (R337). -/
def State.nextSlot (s : State) (core : Nat) : Option Nat :=
    (slotsAfter core (s.core core).lastSlot.val 8).find? s.slotReady

/-- The cores with an occupied slot. -/
def State.busyCores (s : State) : List Nat :=
    ((s.slots.filter fun (_, sl) => sl.occ).map fun (p, _) => coreOf p).eraseDups

/-- The slots that issue next, one of each core. -/
def State.issues (s : State) : List Turn := (s.busyCores.filterMap s.nextSlot).map .issue

/-! Events of the crossbar, slots and cores -/

/-- Crossbar and shoot-downs. -/
noncomputable def State.dueXbar (s : State) : List Instr :=
  (idxs s.xbar.resps fun _ => true).map .responseArrival ++ (idxs s.xbar.refusals fun _ => true).map .refusalResponse ++
    (idxs s.xbar.reqs fun _ => true).map .memoryPortRequest ++
    (idxs s.xbar.fills fun _ => true).map .shardCacheFill ++
    (idxs s.xbar.outstanding fun x => decide (x.2 + 4096 ≤ s.rowClock x.1.row)).map .requestTimeout ++
    ((s.xbar.wq.map fun e => e.line / 2 ^ 36).eraseDups).map .writeQueueDrain

/-- The node of a shoot-down that acknowledges next: the deepest that may. -/
def State.sdownNode (s : State) (d : SDown) : Option Nat :=
  ((List.range 8745).reverse.find? fun n => !s.nodeSkipped n && s.nodeReady d n)

/-- A slot's request for a translation is open, or an access that its port has not answered. -/
def State.slotAsks (s : State) (p : Nat) : Bool :=
  (s.clus (clusOf p)).asks (.slot p) || s.xbar.outstanding.any fun (q, _) =>
    q.row < 32 && q.src == p && (s.slot p).made q && !isPortRed q.op

/-- A result of a slot may return, or its deferred head be attempted again: not while what it asked for is open, or its
end is put off. -/
def State.mayReturn (s : State) (p : Nat) (r : OutRes) : Bool :=
  (s.slot p).dying.isNone && !r.back && r.val != .waiting && !(r.val == .deferred && s.slotAsks p)

/-- Slots and shoot-downs. -/
noncomputable def State.dueSlots (s : State) : List Instr :=
  (s.slots.flatMap fun (p, sl) => (idxs sl.outs (s.mayReturn p)).map (Instr.resultReturn p)) ++
    ((s.slots.filter fun (_, sl) => sl.dying.isNone).filterMap fun (p, sl) => match sl.park with
      | .answer _ => some (.formeEngineAnswer p)
      | .woken .. => some (.formeWake p)
      | .deleted => some (.formeWake p)
      | _ => none) ++
    s.sdowns.filterMap fun d => (s.sdownNode d).map (Instr.shootdownAck d.place)

/-- The event of a matrix command's code. -/
noncomputable def commandEvent (core code : Nat) : Instr :=
  match code with
  | 1 => .mma core
  | 2 => .mmag core
  | 3 => .mld core
  | 4 => .mst core
  | 5 => .mzero core
  | 6 => .mmark core
  | 7 => .mpass core
  | 8 => .mbld core
  | _ => .reservedCommandCode core

/-- A core's matrix unit. -/
noncomputable def State.dueMatrix (s : State) (core : Nat) : List Instr :=
  let m := (s.core core).mx
  (match m.queue with
   | c :: _ => (match c.st with
     | .done => [.commandRetire core]
     | .faulted _ => if m.stop then [] else [.matrixFault core]
     | _ => [])
   | [] => []) ++
  (match m.toRun with
   | some (_, c) => [commandEvent core c.code] ++ (m.toStart.toList.map fun x => commandEvent core x.2.code) ++
       if c.st = .started ∧ c.since + 2 ^ 20 < s.dieClock (core / 1024) then [.latchWaitTimeout core] else []
   | none => [])

/-- The free slot of a core that a message may bind in: slot 0 for a gang member's, else the lowest. -/
def State.freeSlots (s : State) (core : Nat) : List Nat := (List.range 8).filter fun i => s.canBind (core * 8 + i)

/-- A core's inbox, prefetch engine and power. -/
noncomputable def State.dueCore (s : State) (core : Nat) : List Instr :=
  let k := s.core core
  let free := s.freeSlots core
  (if k.inbox.isEmpty then []
   else (if k.gang.isSome then free else free.take 1).map (Instr.messageBind core) ++
     if k.inbox.any (fun x => x.cls != s.ageClass x.msg) then [.classAgeing core] else []) ++
  (if k.ring.count ≠ 0 ∧ k.inbox.length ≤ 48 ∧
      (s.clus (core / 16)).ctx.isSome = true then [.inboxRefill core] else []) ++
  (if k.prefetch.isEmpty then [] else [.prefetchFill core 0]) ++
  (if (s.gangAt core).any s.gangReady then [.messageBind core 0] else []) ++
  (if k.gated && (!k.inbox.isEmpty || k.gang.isSome) then [.coreWake core] else []) ++
  (if bitOf (s.reg (.dpgate (core / 1024))).toNat 32 && !k.gated && s.coreIdle core then [.coreGate core] else []) ++
  s.dueMatrix core

/-- A cluster's requests, copy engine, banks, switch and debug module. -/
noncomputable def State.dueClus (s : State) (clus : Nat) : List Instr :=
  let c := s.clus clus
  (if c.reqs.any (fun r => !r.bound) then ((s.freeSlots (coreIn clus 8)).take 1).map (Instr.translationRequest clus) else []) ++
    (if c.notices ≠ 0 then ((s.freeSlots (coreIn clus 8)).take 1).map (Instr.messageBind (coreIn clus 8)) else []) ++
    (if (c.copies.isEmpty && c.entering.isEmpty) || c.frozen then [] else [.transferStart clus]) ++
    (c.chans.filter fun t => !t.waits).map (fun t => Instr.transferComplete clus t.id) ++
    (idxs c.held fun h => h.returned &&
        decide (h.since + 64 ≤ s.dieClock (clus / 64))).map (Instr.taggedRequestReissue clus) ++
    (if c.switch.isSome then [.drainDeadline clus] else []) ++
    (if c.switch.isNone && c.ctx.any (fun x => c.ends || ((s.ctxOf x).st == .broken && (s.ctxOf x).touched) ||
        s.sliceSpent x) then
      [.sliceEndSignal clus none] else []) ++
    (if c.stepping.isSome then [.stepReport clus] else []) ++
    (if c.gated && (c.switch.isSome || !c.reqs.isEmpty || !c.copies.isEmpty ||
        (coresOf clus).any fun k => !(s.core k).inbox.isEmpty) then [.clusterWake clus] else []) ++
    (if bitOf (s.reg (.dpgate (clus / 64))).toNat 33 && !c.gated && s.clusterIdle clus then [.clusterGate clus] else [])

/-! Events of messages, feeders, weight and kernels -/

/-- A message under way whose core's interface waits for a translation stays. -/
def State.ifaceWaits (s : State) (m : Msg) : Bool :=
  (s.clus (clusOf m.dest)).reqs.any fun r => r.waiters.any fun w => w.who == .iface (coreOf m.dest)

/-- A message under way, at its index. -/
noncomputable def State.dueMsg (s : State) (i : Nat) (x : Flight) : List Instr :=
  if x.held then (if x.since + 256 ≤ s.msgClock x.msg then [.messageReoffer i] else [])
  else if (s.netFirst i).all fun (j, _) => j != i then []
  else if x.msg.dpkg ≠ s.fw.pkg then [.spanForward i]
  else if (feederOf x.msg.dest).isSome then [.feederMessageArrival i]
  else if s.ifaceWaits x.msg then []
  else [.messageArrival i]

/-- The event of a record's code. -/
noncomputable def recordEvent (f code : Nat) : Instr :=
  match code with
  | 1 => .push f
  | 2 => .drain f
  | 3 => .loopRecord f
  | 4 => .padd f
  | 5 => .waitg f
  | 6 => .sendRecord f
  | 7 => .farrnRecord f
  | 8 => .stop f
  | 9 => .chain f
  | _ => .reservedRecord f

/-- A feeder's. -/
noncomputable def State.dueFeeder (s : State) (f : Nat) (d : Feeder) : List Instr :=
  match d.st with
  | .idle => if d.queued.isEmpty && d.saved.isEmpty then [] else [.feederStartList f]
  | .running =>
    if !s.inSlice d.ctx then []
    else match s.feedRecord f with
      | .ok w _ => [recordEvent f (fld (w.getD 0 0) 0 4)]
      | _ => [.reservedRecord f]
  | .waiting _ => [.feederWaitSatisfied f]
  | .answer _ => [.formeEngineAnswer (feederPlace f)]
  | .xlat => []
  | .port => []

/-- The event of a wire, at its index. -/
noncomputable def wireEvent (i : Nat) (w : Wire) : Instr :=
  match w with
  | .combine .. => .combinerReturn i
  | .ret .. => .weightReturn i
  | .borrow .. => .borrowRequest i
  | .grant .. => .borrowGrant i
  | .refuse .. => .borrowRefusal i
  | .loss .. => .lossNotice i
  | .stats .. => .statisticsCountArrival i

/-- The home and the shard combiners; statistics counts go ahead of the weight sent after them (11_matrix_unit.md
R252). -/
noncomputable def State.dueHome (s : State) : List Instr :=
  ((List.range s.home.wires.length).zip s.home.wires).map (fun (i, w) => wireEvent i w) ++
    (s.home.combiners.filter fun e => decide (e.since + 256 ≤ s.dieClock (e.shard / 4)) && s.canFlush e).map (fun e =>
      Instr.combinerFlush e.shard ((s.home.combiners.filter (·.shard = e.shard)).findIdx (· = e))) ++
    s.home.kernels.flatMap fun (k, r) =>
      if r.st = .completing ∨ (r.st = .damaged ∧ r.stage ≠ 0) then [.kernelCompletion (k / 64) (k % 64)]
      else if r.st = .running ∧ r.stall = false ∧ r.wto ≠ 0 ∧
          r.wto * 4096 ≤ r.quiet then [.weightStall (k / 64) (k % 64)]
      else []

/-! Events of the front end, the host port and the links -/

/-- The event of a command's code at the head of a queue. -/
noncomputable def queueEvent (vf q code : Nat) : Instr :=
  match code with
  | 1 => .launch vf q
  | 2 => .fencew vf q
  | 3 => .fences vf q
  | 4 => .save vf q
  | 5 => .move vf q
  | 6 => .ackloss vf q
  | 7 => .query vf q
  | _ => .reservedQueueCommand vf q

/-- A queue's: the command at its head, or the next to be read. -/
noncomputable def State.dueQueue (s : State) (vf q : Nat) (c : CmdQueue) : List Instr :=
  match c.head with
  | some w =>
    if c.headSt = .launchReady then []
    else if c.headSt = .fenceWait then (if c.pollAt ≤ s.clk.hub then [.fencewPoll vf q] else [])
    else [queueEvent vf q (fld (w.get 0) 0 8)]
  | none =>
    if !isQueue vf q || !s.fnEnabled vf || !c.en || c.err || decide (c.szlg < 4) || c.prod == c.cons ||
        s.front.paused ||
        s.fw.halted then []
    else [queueEvent vf q (leNat (s.hostRead (c.base * 64 + 64 * (c.cons.toNat % 2 ^ c.szlg)) 1))]

/-- Partitions with a launch that waits for admission, 64 cycles after the last run. -/
noncomputable def State.dueAdmission (s : State) : List Instr :=
  ((List.range 24).filter fun p =>
    (!(s.candidates p).isEmpty || s.front.conts.any fun c => decide ((s.ctxOf (cmdCtx c.image)).part = p)) &&
      (!khas s.front.lastRun p || decide (kget 0 s.front.lastRun p + 64 ≤ s.clk.hub))).map .admissionRun

/-- The front end, die controllers, reading mailboxes and links. -/
noncomputable def State.dueHub (s : State) : List Instr :=
  s.front.queues.flatMap (fun (k, c) => s.dueQueue (k / 8) (k % 8) c) ++ s.dueAdmission ++
    (s.dies.filterMap fun (d, x) => if x.pending.isSome then some (.stepChangeEffect d) else none) ++
    (s.host.boxes.filterMap fun (fn, b) => if b.busy then some (.readingComplete fn) else none) ++
    s.links.filterMap fun (p, l) =>
      if !l.unacked.isEmpty && (l.retired ||
          (l.up && decide (l.sentAt + 2048 ≤ s.clk.hub))) then some (.odnerlinkResendTimeout p)
      else none

/-- Every event that is due. -/
noncomputable def State.due (s : State) : List Instr :=
  s.dueXbar ++ s.dueSlots ++ s.cores.flatMap (fun (c, _) => s.dueCore c) ++
      s.clusters.flatMap (fun (c, _) => s.dueClus c) ++
    ((List.range s.net.length).zip s.net).flatMap (fun (i, x) => s.dueMsg i x) ++
    s.feeders.flatMap (fun (f, d) => s.dueFeeder f d) ++ s.dueHome ++ s.dueHub

/-- Everything that may act next. -/
noncomputable def State.ready (s : State) : List Turn := s.issues ++ s.due.map .event

/-- The turn taken when the agenda is empty: each that is due in its turn. -/
noncomputable def State.pick (s : State) : Option Turn := s.ready[s.clk.ticks % s.ready.length]?

end Sys2Proof.Machine
end

