-- ==== Sys2Proof/Machine/Cycle.lean ====
section
/-!
DEFINITION. How a slot issues its next head (07_instruction_lines.md R122 to R134), what the trace and the profiling
sessions see of it (20_debug.md R375 to R381), and the turns of a step (log entry 4).
-/

namespace Sys2Proof.Machine

/-! Before a head -/

/-- What comes before a slot's next head. -/
inductive Ahead where
  | stall                 -- a result that must return first is out
  | trap (s : State)      -- a trap of an earlier head is taken
  | go (s : State)        -- the head issues

/-- Results whose windows have closed are written; once a failure has returned nothing more issues, and it traps when
every result has returned; so does a head that failed on its own (R131, R133). -/
def State.closeWindows (s : State) (p : Nat) : Ahead :=
  let sl := s.slot p
  let due := sl.outs.filter fun r => r.left == 0
  let all := sl.outs.all OutRes.settled
  match sl.pend with
  | some (c, tv, nr) => if all then .trap ((s.setSlot p { sl with pend := none }).trapIn p c tv nr) else .stall
  | none =>
    if !due.all OutRes.settled then .stall
    else if sl.outs.any (fun r => r.back && r.failed) then
      if !all then .stall
      else match firstFailure sl.outs with
        | some (r, second) => .trap (s.lateTrap p r second)
        | none => .stall
    else .go (s.setSlot p { due.foldl Slot.writeRes sl with outs := sl.outs.filter fun r => r.left != 0 })

/-! The head -/

/-- Where execution goes after head k of n heads of the line at b (R124). -/
def nextHead (b k n : Nat) : Word := word ((if k + 1 < n then b + 4 + 2 * k else b + 66) % 2 ^ 56)

/-- What a slot's next head is. -/
inductive Head where
  | instr (i : Instr) (s : State)
  | none_ (s : State)

/-- The head at the current slot's PC: its line is fetched and decoded, and the head after it noted; the slot goes on
with the line it executes. A line that cannot be fetched, an illegal line and an illegal head trap (R123, R128, R134);
a slot that cannot fetch its trap entry is killed (13_handlers_and_messages.md R274). A PC that is no head of its line,
which lines replaced by SDOWN alone can bring about, is illegal, with a trap value no rule states (log entry 14). -/
noncomputable def State.nextInstr (s : State) : Head :=
  let pc := s.me.pc.toNat
  let b := pc / 64 * 64
  match s.fetchLine b with
  | .wait t => .none_ t
  | .bad c tv nr t =>
    .none_ (if t.me.trapped then (t.logError t.cur c tv).kill t.cur else if nr then t.trapNR c tv else t.trap c tv)
  | .ok l t =>
    let t := t.setLine l
    match decodeLine l.bytes with
    | none => .none_ (t.trap 1 (word (2 ^ 63 + b)))
    | some lc =>
      match lc.heads[(pc % 64 - 2) / 2]? with
      | none => .none_ (t.trapOpen 1)
      | some (h, w) =>
        match decodeWords h w with
        | none => .none_ (t.trap 1 (illegalTval h w))
        | some i => .instr i (t.setMe { t.me with npc := nextHead b ((pc % 64 - 2) / 2) lc.heads.length })

/-! After a head -/

/-- A head of the slot retired, or its activation ended. -/
def Slot.movedOn (a b : Slot) : Bool := !b.occ || b.heads != a.heads

/-- A re-executed head whose result is discarded leaves the registers as they were (R133). -/
def State.discardResult (s : State) (p : Nat) (a : Slot) : State :=
  let b := s.slot p
  if a.rex.any (·.2) && b.occ && b.heads != a.heads then s.setSlot p { b with x := a.x, v := a.v } else s

/-- What a step of a head waits for (20_debug.md R375). -/
def State.stepWait (s : State) (p : Nat) (a : Slot) (i : Instr) : StepWait :=
  match i with
  | .cpgo .. => .copy ((s.clus (clusOf p)).nextId - 1).toNat
  | .stc .. =>
    match (s.core (coreOf p)).mx.queue.getLast? with
    | some c => .command c.seq
    | none => .none_
  | .endAct => .reductions a.act
  | .cmit => .messages
  | .sendH .. => if a.irrev then .messages else .none_
  | .sendA .. => if a.irrev then .messages else .none_
  | .sendN .. => if a.irrev then .messages else .none_
  | .sendxH .. => if a.irrev then .messages else .none_
  | .sendxA .. => if a.irrev then .messages else .none_
  | .sendxN .. => if a.irrev then .messages else .none_
  | _ => if (s.slot p).outs.getLast?.any (fun r => r.pc == a.pc && r.lah == 0) then .result ((s.slot p).outs.length - 1) else .none_

/-- A stepped slot's head has retired: the slot halts again (20_debug.md R375). -/
def State.afterStep (s : State) (p : Nat) (a : Slot) (i : Instr) : State :=
  match (s.clus (clusOf p)).stepping with
  | some (q, 0, n) =>
    if q = p ∧ ((s.slot p).occ = false ∨ (s.slot p).heads.toNat ≠ n) then s.stepIssued p (s.stepWait p a i) else s
  | _ => s

/-- The END record of the trace (20_debug.md R378). -/
def State.traceEnd (s : State) (p : Nat) (a : Slot) (i : Instr) : State :=
  match i with
  | .endAct => if (s.slot p).occ then s else s.trace p 2 0 a.ctx a.kslot a.pc (word a.wt)
  | _ => s

/-- The forme engine's die that a form operates, with an operation of it counted for the partition (15_formes.md R290;
19_tenants_and_metering.md R365). -/
def Slot.formeDie (a : Slot) (part : Nat) (i : Instr) : Option Nat :=
  let of_ (h : HReg) : Option Nat := some (fld (a.h.get h) 40 3)
  match i with
  | .fcre _ _ b _ => some (homeDie part (fld (a.x.get b) 0 16))
  | .fjoin _ _ b => some (homeDie part (fld (a.x.get b) 0 16))
  | .fleave b => of_ b
  | .fleaveAbs b => of_ b
  | .fdel b => of_ b
  | .fclose b => of_ b
  | .farr _ b => of_ b
  | .farrn b _ _ => of_ b
  | .fvote _ b _ _ => of_ b
  | .fred _ b _ _ => of_ b
  | .fredn b _ _ _ _ => of_ b
  | .fqry _ b _ => of_ b
  | .fwait _ b _ => of_ b
  | _ => none

/-- A form that has gone to its engine counted. -/
def State.countForme (s : State) (p : Nat) (a : Slot) (i : Instr) : State :=
  let part := (s.ctxOf a.ctx).part
  match (s.slot p).park, a.formeDie part i with
  | .answer _, some die => s.countOp (22 + die) part
  | _, _ => s

/-- After a head of a slot, which trapped or not: once it has issued to its end a breakpoint matches again (20_debug.md
R376), and the trace and the head count see it. -/
def State.afterHead (s : State) (p : Nat) (a : Slot) (i : Instr) (trapped : Bool) : State :=
  let b := s.slot p
  let t := s.discardResult p a
  let gone := a.movedOn b
  let u := if gone || trapped then t.setSlot p { t.slot p with skipBp := false } else t
  let v := if gone then u.count .heads 1 p a.ctx a.kslot a.pc else u
  (v.traceEnd p a i |>.countForme p a i).afterStep p a i

/-- Heads that access memory, vaults or engines, which a head before them may not let pass (09_memory_instructions.md
R168; 16_ordering.md R312, R313). -/
def isAccess (i : Instr) : Bool :=
  match i with
  | .ld .. => true
  | .st .. => true
  | .ldv .. => true
  | .stv .. => true
  | .ldf .. => true
  | .ldfe .. => true
  | .tagrd .. => true
  | .ste .. => true
  | .stf .. => true
  | .tagsetf .. => true
  | .tagsete .. => true
  | .ldft .. => true
  | .vld .. => true
  | .vldBc8 .. => true
  | .vldBc4 .. => true
  | .vldHalf .. => true
  | .vst .. => true
  | .vstHalf .. => true
  | .vstPred .. => true
  | .vldv .. => true
  | .vldvAcq .. => true
  | .vstv .. => true
  | .vstvRel .. => true
  | .vlds .. => true
  | .vsts .. => true
  | .vgath .. => true
  | .vscat .. => true
  | .vldf .. => true
  | .vldfh .. => true
  | .vstf .. => true
  | .amoSwap .. => true
  | .amoAdd .. => true
  | .amoAnd .. => true
  | .amoOr .. => true
  | .amoXor .. => true
  | .amoMin .. => true
  | .amoMax .. => true
  | .amoMinN .. => true
  | .amoMaxN .. => true
  | .amoIncw .. => true
  | .amoBfadd .. => true
  | .cas .. => true
  | .redAdd .. => true
  | .redAnd .. => true
  | .redOr .. => true
  | .redXor .. => true
  | .redMin .. => true
  | .redMax .. => true
  | .redMinN .. => true
  | .redMaxN .. => true
  | .redFadd32 .. => true
  | .redFmax32 .. => true
  | .redFmin32 .. => true
  | .fenceAcq .. => true
  | .fenceRel .. => true
  | .fenceFull .. => true
  | .fenceEng .. => true
  | .cpgo .. => true
  | .ginit .. => true
  | .ginitOff .. => true
  | .garr .. => true
  | .gexp .. => true
  | .gwait .. => true
  | .grel .. => true
  | .gtest .. => true
  | .stc .. => true
  | .cmit .. => true
  | .sendH .. => true
  | .sendA .. => true
  | .sendxH .. => true
  | .sendxA .. => true
  | .sendN .. => true
  | .sendxN .. => true
  | .fcre .. => true
  | .fjoin .. => true
  | .fleave .. => true
  | .fleaveAbs .. => true
  | .fdel .. => true
  | .fclose .. => true
  | .farr .. => true
  | .farrn .. => true
  | .fvote .. => true
  | .fred .. => true
  | .fredn .. => true
  | _ => false

/-- A slot whose tagged request is held at a bank issues the heads of its window (09_memory_instructions.md R172); an
access among them is performed after the request, whose observation is an acquire (R168, R173), so it waits here. So
does an access behind one that waits for a translation, unless it may itself wait as an outstanding result
(02_main_memory.md R40). -/
def Slot.accessWaits (sl : Slot) (i : Instr) : Bool :=
  isAccess i && (sl.outs.any (fun r => r.val == .waiting) || (sl.defers && (deferForm i).isNone))

/-- A long-latency head that has issued and waits for a translation, or for another package: the slot has parked for
it, or it stands behind such a head; its failure or end is not known, and a fifth one does not issue (02_main_memory.md
R40; 07_instruction_lines.md R131). -/
def Slot.waitsFor (a b : Slot) : Bool :=
  b.occ && b.act == a.act && b.heads == a.heads && a.rex.isNone && b.pend.isNone &&
    decide (b.outs.countP (fun r => !r.back) < 4) && (b.park == .xlat || b.park == .remote ||
        (a.defers && b.park == .run))

/-- Such a head with a lookahead becomes an outstanding result, and its slot goes on (02_main_memory.md R40). -/
def State.deferHead (s : State) (p : Nat) (a : Slot) (i : Instr) (trapped : Bool) : State :=
  match deferForm i with
  | none => s
  | some (l, dests) =>
    let b := s.slot p
    if l.val = 0 ∨ trapped = true ∨ a.waitsFor b = false then s
    else
      let c := b.retire dests
      s.setSlot p { c with
        park := .run, xres := b.xres, rans := b.rans
        outs := c.outs ++ [{ pc := a.pc, dests := dests, val := .deferred, left := l.val, lah := 0, ovw := [], back := false,
                             redo := some { i := i, x := a.x, v := a.v, p := a.p } }] }

/-- The slot at a place issues (R337): what comes before its head, then the head. -/
noncomputable def State.issueHead (s : State) (p : Nat) : Out :=
  match s.closeWindows p with
  | .stall => .next s
  | .trap t => .next t
  | .go t =>
    match t.nextInstr with
    | .none_ u => .next u
    | .instr i u =>
      if u.me.accessWaits i then .next s else
      match exec i u with
      | .next v =>
        let trapped := v.clk.traps != u.clk.traps
        .next ((v.deferHead p u.me i trapped).afterHead p u.me i trapped)
      | .fault r => .fault r
      | .refused r => .refused r

/-- A slot's head has issued: it retired, trapped, parked, or ended its activation. -/
def Slot.issued (a b : Slot) : Bool := a.movedOn b || b.park != .run || b.act != a.act

/-- The state after a slot's head has issued: it is the last of its core to issue (R337). -/
def State.noteIssue (s : State) (p : Nat) : State :=
  s.setCore (coreOf p) { s.core (coreOf p) with lastSlot := Fin.ofNat 8 p }

/-- The head of a slot issued between two states: it retired or parked, or the slot trapped. -/
def State.hasIssued (s t : State) (p : Nat) : Bool := t.clk.traps != s.clk.traps || (s.slot p).issued (t.slot p)

/-- What the next slot of a core does: a late failure of a reduction traps, a breakpoint halts it, or it issues. -/
noncomputable def State.attemptSlot (s : State) (p : Nat) : Out :=
  if (s.slot p).late.isSome then exec (.redFailureAnswer p) s
  else if s.atBreakpoint p then exec (.breakpointHit p) s
  else s.issueHead p

/-- One head of several slots issues, of the first of them that is ready (R337): one whose head turns out to stall is
not, and the next is tried. -/
noncomputable def State.issueFrom (s : State) : List Nat → Out
  | [] => .next s
  | p :: ps =>
    if s.slotReady p then
      match { s with cur := p }.attemptSlot p with
      | .next u => if s.hasIssued u p then .next (u.noteIssue p) else u.issueFrom ps
      | .fault r => .fault r
      | .refused r => .refused r
    else s.issueFrom ps

/-- The turn of a slot: its core issues, where the slot is the next (R337). -/
noncomputable def State.issue (s : State) (p : Nat) : Out :=
  if s.nextSlot (coreOf p) ≠ some p then .next s else s.issueFrom (p :: slotsAfter (coreOf p) (p % 8) 7)

/-! Turns -/

/-- A package that is frozen, without power or in failed boot: only a boot, and the loss of power, act
(18_faults_and_preemption.md R359; 21_host_firmware_security.md R390). -/
def State.isDown (s : State) : Bool := s.fatal.isSome || s.fw.bootFailed || s.meter.powerLost

/-- An event that acts on a package that is down. -/
def wakesDevice (i : Instr) : Bool :=
  match i with
  | .boot _ => true
  | .powerLoss => true
  | _ => false

/-- A turn taken. -/
noncomputable def State.take (s : State) (t : Turn) : Out :=
  match t with
  | .issue p => if s.isDown then .next s else s.issue p
  | .event i => if s.isDown && !wakesDevice i then .next s else exec i s
  | .write d v =>
    if s.isDown then .next s
    else match d with
      | .reg r => exec (.registerWrite r v) s
      | .row n => exec (.connectionRowWrite n v) s
      | .inj c => exec (.injWrite c v) s

/-- Slots that have trapped since a state, with the causes and values of their traps; where none differs from before,
the current slot has trapped again as it did. -/
def State.newTraps (s t : State) : List (Nat × Slot) :=
  match t.slots.filter fun (p, sl) => sl.occ && sl.trapped &&
    (!(s.slot p).trapped || (s.slot p).tpc != sl.tpc || (s.slot p).tcause != sl.tcause ||
        (s.slot p).tval != sl.tval) with
  | [] => if t.me.occ && t.me.trapped then [(t.cur, t.me)] else []
  | l => l

/-- Traps traced and counted (20_debug.md R378, R381). -/
def State.traceTraps (t : State) (l : List (Nat × Slot)) : State :=
  l.foldl (fun u (p, sl) =>
    (u.trace p 3 sl.tcause.toNat sl.ctx sl.kslot sl.tpc sl.tval).count .traps 1 p sl.ctx sl.kslot sl.tpc) t

/-- The delay fields that the cores have received in this step counted, for the context that the cluster of each runs
(20_debug.md R381). -/
def State.countDelays (s : State) : State :=
  s.clk.delays.foldl (fun t (core, n) => match (t.clus (core / 16)).ctx with
    | some x => t.count .delays n (core * 8) x 0 0
    | none => t) s

/-- Slots, but for the one given, whose heads a turn has retired without issuing them: an event brought their
results. -/
def State.eventHeads (s t : State) (but : Option Nat) : List (Nat × Slot) :=
  (t.slots.filter fun (p, b) =>
    some p != but && b.occ && (s.slot p).occ && b.act == (s.slot p).act &&
        b.heads != (s.slot p).heads).map fun (p, _) => (p, s.slot p)

/-- Those heads counted (20_debug.md R381), and breakpoints match their slots' next heads (20_debug.md R376). -/
def State.countEvents (t : State) (l : List (Nat × Slot)) : State :=
  l.foldl (fun u (p, a) => (u.setSlot p { u.slot p with skipBp := false }).count .heads 1 p a.ctx a.kslot a.pc) t

/-- What the turn's trace and counts add: heads that an event retired, traps, and delay fields received. -/
def State.account (s t : State) (but : Option Nat) : State :=
  let t := t.countEvents (s.eventHeads t but)
  (if t.clk.traps = s.clk.traps then t else t.traceTraps (s.newTraps t)).countDelays

/-- The slot that issued last, where a turn was a core's to issue. -/
def Turn.issuer (t : Turn) (u : State) : Option Nat :=
  match t with
  | .issue p => some (coreOf p * 8 + (u.core (coreOf p)).lastSlot.val)
  | _ => none

/-- A die whose steps cost n hub cycles' worth of its time (17_scheduling_and_power.md R336). -/
def DieSt.pass (x : DieSt) (n : Nat) : DieSt := { x with lag := x.lag + (16 - x.step) * n }

/-- Cluster time of running functions in periods under way, and of those that a switch takes off, from its signal to its
end (19_tenants_and_metering.md R362). -/
def State.chargeRuns (s : State) (n : Nat) : State :=
  s.clusters.foldl (fun t (_, c) => match c.ctx with
    | some x => if (t.part (t.ctxOf x).part).since.isSome then t.chargeRun x n else t
    | none => t) s

/-- Time passes (00_scope.md R5): one hub cycle at least; the dies' clocks lag by their steps. -/
def State.tick (s : State) : State :=
  let d := 1 + Config.elapsed s.clk.ticks
  let t := { s with
    clk := { s.clk with ticks := s.clk.ticks + 1, hub := s.clk.hub + d, delays := [] }
    fw := { s.fw with clock := s.fw.clock + d }
    dies := s.dies.map fun (k, x) => (k, x.pass d) }
  if t.isDown then t else (t.watch d).chargeRuns d

/-- The state after a turn. -/
noncomputable def State.turn (s : State) (t : Turn) : Out :=
  match s.take t with
  | .next u => .next (s.account u (t.issuer u))
  | .fault r => .fault r
  | .refused r => .refused r

/-- The next turn: the agenda's first, or one that is due, or none; nothing is due in a package that is down. -/
noncomputable def State.advance (s : State) : Out :=
  match s.agenda with
  | t :: ts => { s with agenda := ts }.turn t
  | [] =>
    if s.isDown then .next s
    else match s.pick with
      | some t => s.turn t
      | none => .next s

/-! Placing an instruction where the next step fetches it (log entry 17) -/

/-- The head of an instruction of nbits bits as spec/opcode_table.json numbers them. -/
def tableHead (nbits w : Nat) : Nat := if nbits ≤ 16 then w % 65536 else w / 2 ^ (nbits - 16) % 65536
/-- Its tail; a tail without bits in the table is zero. -/
def tableTail (nbits w : Nat) : Nat := if nbits ≤ 16 then 0 else w % 2 ^ (nbits - 16)

/-- The slot of place 64 ready to run at the head of the line at address 0, in physical mode. -/
def launchSlot : Slot := { occ := true, priv := .supervisor, pmode := true, pc := 2, npc := 2 }

/-- A line stored at address 0, reachable by shard 0, and a turn for place 64. -/
def State.withLine (s : State) (bytes : List Byte) : State :=
  { s with
    mem := writeBytes s.mem 0 bytes
    slots := kset s.slots 64 launchSlot
    xbar := { s.xbar with rows := kset s.xbar.rows 0 1 }
    agenda := [.issue 64] }

end Sys2Proof.Machine
end

