-- ==== Sys2Proof/Machine/Step.lean ====
section
/-!
DEFINITION. One step of the package: time passes, and one turn is taken (log entry 4); and an instruction placed where
the next step fetches it (log entry 17).
-/

namespace Sys2Proof.Machine

/-- One step. -/
noncomputable def step (s : State) : Host.Outcome State Fault Refusal := s.tick.advance

/-- The state with an instruction of the opcode table's bits placed where the next step fetches it: an event of the
table, which has no bits of its own, is not placed. -/
def State.withFetchWord (s : State) (nbits w : Nat) : State :=
  s.withLine (oneHeadLine (tableHead nbits w) (tableTail nbits w))

end Sys2Proof.Machine
end

