-- ==== Sys2Proof/Safety.lean ====
section
/-!
DEFINITION. The terms in which claims about the package are made: canonical memory, what a head may write and what it
leaves as it was, addresses that an access reaches, and runs that stay safe.
-/

namespace Sys2Proof.Machine

/-! States -/

/-- Main memory and the vaults are in canonical form. -/
def State.canonical (s : State) : Prop := Memory.wf s.mem = true ∧ Memory.wf s.vault = true

/-- The current slot has no result outstanding, so that its next head waits for none (07_instruction_lines.md R131). -/
def State.noResults (s : State) : Prop := s.me.outs = []

/-- The current slot has room for one more outstanding result (07_instruction_lines.md R131). -/
def State.hasRoom (s : State) : Prop := s.me.outs.countP (fun r => !r.back) < 4

/-- The current slot is past its commit point, with nothing of its commit left to do and every reduction of it in this
package performed (13_handlers_and_messages.md R270; 16_ordering.md R309, R313). -/
def State.hasCommitted (s : State) : Prop :=
  s.me.irrev = true ∧ s.me.cbuf = [] ∧ s.me.cfail = none ∧ s.redsOpen s.cur false = false

/-- The current head is not a re-execution (07_instruction_lines.md R133). -/
def State.firstTime (s : State) : Prop := s.me.rex = none

/-- No error injection is armed in any cluster, and no vault word has a double-bit error (20_debug.md R380; 04_vaults.md
R71). -/
def State.noInjection (s : State) : Prop :=
  (∀ c, bitOf (s.clus c).inj.toNat 0 = false) ∧ ∀ w, kget false s.flaws w = false

/-- A package runs: it is not frozen, not without power, and its boot has not failed. -/
def State.runs (s : State) : Prop := s.isDown = false

/-! Taking a trap -/

/-- t is s after its current slot took a trap with a cause, a value and the head noted in TPC: what
08_scalar_instructions.md R157 saves and where control goes; registers, tokens, weight and the commit buffer stay. -/
structure TrapTaken (s t : State) (cause : Nat) (tval at_ : Word) (nr : Bool) : Prop where
  rest : t = { s with slots := t.slots, clk := { s.clk with traps := s.clk.traps + 1 } }
  others : ∀ p, p ≠ s.cur → t.slot p = s.slot p
  tpc : t.me.tpc = at_
  tcause : t.me.tcause.toNat = cause
  tval : t.me.tval = tval
  twt : t.me.twt = word s.me.wt
  tres : t.me.tres = 0
  nr : bitOf t.me.tstate.toNat 9 = nr
  irr : bitOf t.me.tstate.toNat 8 = s.me.irrev
  window : t.me.tstate.toNat / 4 % 64 = 0
  pprv : t.me.tstate.toNat % 4 = s.me.priv.code
  priv : t.me.priv = if s.me.priv = .monitor then .monitor else .supervisor
  pc : t.me.pc = word ((s.ctxOf s.me.ctx).ttab + 64 * cause + 2)
  slot : t.me = { s.me with
    tpc := t.me.tpc, tcause := t.me.tcause, tval := t.me.tval, twt := t.me.twt, tstate := t.me.tstate, tres := 0,
    priv := t.me.priv, pc := t.me.pc, npc := t.me.npc, rex := none, park := .run, xres := none, rans := [], line := none,
    pend := none, trapped := true, stepTrap := true }

/-! Accesses to memory and vaults -/

/-- The current head has no access on its way or answered: at most reductions of heads before it are on theirs
(03_crossbar.md R55, R63). -/
def State.noneAsked (s : State) : Prop :=
  s.me.rans = [] ∧ ∀ y ∈ s.xbar.outstanding, y.1.src = s.cur → y.1.act = s.me.act → isPortRed y.1.op = true

/-- A located run of bytes is answered at once, one of n accesses of its head: no refusal at its target, and bytes that no
injection and no double-bit error poisons in a vault, or bytes of this package whose port answers and takes what is no
load without holding it (09_memory_instructions.md R165 step 5; 03_crossbar.md R63; 04_vaults.md R71). -/
def State.yields (s : State) (k : AKind) (p : Piece) (n : Nat := 0) : Prop :=
  s.refusal p k.need = none ∧
    if p.vault then s.poisonArmed p.at_ = false ∧ ∀ w ∈ wordsAt p.at_ p.n, kget false s.flaws w = false
    else s.noneAsked ∧ tgtOf p.at_ ≤ 24 ∧ s.mustAsk p.at_ (k == .load) n = false

/-- t is s after its current head made an access that its port does not answer at once: the request is on its way, and the
head waits for the answer (03_crossbar.md R55, R61, R63). -/
def State.waitsFor (s t : State) (p : Piece) (op : PortOp) : Prop :=
  ∃ u, u = s.askUnit (s.slotReq s.cur p op) ∧ t = u.setMe { u.me with park := .remote }

/-- A located run of a vault lies in no active galley's record (06_copy_and_galleys.md R113). -/
def State.plain (s : State) (p : Piece) : Prop := p.vault = true → s.inGalley p.at_ p.n = false

/-- The bytes a located run reads as. -/
def State.pieceBytes (s : State) (p : Piece) : List Byte :=
  if p.vault then readBytes s.vault p.at_ p.n else s.memView p.at_ p.n

/-- The state with located runs written one after the other: to a vault at once, to main memory as its memory port
takes a store of the current slot (03_crossbar.md R60, R63). -/
def State.putPieces (s : State) (l : List (Piece × List Byte)) : State :=
  l.foldl (fun u x => if x.1.vault then { u with vault := writeBytes u.vault x.1.at_ x.2 }
                      else u.memDo (u.slotReq u.cur x.1 (.store x.2))) s

/-- The bytes of a piece lie in one line, and no request held at a port touches it (03_crossbar.md R63). -/
def State.unheld (s : State) (p : Piece) : Prop :=
  p.at_ % 64 + p.n ≤ 64 ∧ ∀ q ∈ s.xbar.ingress, reqTouches q (p.at_ / 64) = false

/-- Nothing waits at a memory port for the line of a piece: the port holds no request, its write queue has room, and no
entry of it is of the line (03_crossbar.md R60, R63). -/
def State.quietLine (s : State) (p : Piece) : Prop :=
  s.unheld p ∧ s.xbar.busy (tgtOf p.at_) = false ∧ ∀ e ∈ s.xbar.wq, e.line ≠ p.at_ / 64

/-- t is s after responses reached the current core: only the delay accumulators, the counts of delays and free values,
the shard cache, and what a vault notes of a read may differ: single-bit errors corrected and counted, and trace records
read (03_crossbar.md R58, R59; 04_vaults.md R64, R71; 20_debug.md R377). -/
structure Answered (s t : State) : Prop where
  rest : t = { s with cores := t.cores, clk := t.clk, xbar := t.xbar, clusters := t.clusters, flaws := t.flaws }
  queues : t.xbar.wq = s.xbar.wq ∧ t.xbar.ingress = s.xbar.ingress ∧ t.xbar.rows = s.xbar.rows
  cores : ∀ c, t.core c = { s.core c with lac := (t.core c).lac }
  clusters : ∀ c, t.clus c = { s.clus c with eccCount := (t.clus c).eccCount, trcnew := (t.clus c).trcnew }

/-- t is s after a slot has seen copies of its cluster complete: only what its matrix units note of them may differ
(06_copy_and_galleys.md R107; 11_matrix_unit.md R251). -/
structure Noted (s t : State) : Prop where
  rest : t = { s with cores := t.cores }
  cores : ∀ c, t.core c = { s.core c with mx := { (s.core c).mx with mix := (t.core c).mx.mix } }

/-! Lanes -/

/-- In t, vector register a holds f of each lane that is active in s under a predicate control; an inactive lane is zero
under zeroing and keeps its value otherwise (10_vector_instructions.md R195, R196). -/
def LanesAre (s t : State) (p : PCtl) (w : Nat) (a : VReg) (f : Nat → Nat) : Prop :=
  ∀ i, i < 64 / w → lane w (t.v a) i =
    if s.active p w i then f i % 2 ^ (8 * w) else match p with | .zero _ => 0 | _ => lane w (s.v a) i

/-- A lane of an integer type as the number the type reads (10_vector_instructions.md R195). -/
def laneInt (ty : ITy) (v : Vec) (i : Nat) : Int :=
  if ITy.signed ty then (BitVec.ofNat (8 * ITy.bytes ty) (lane (ITy.bytes ty) v i)).toInt
  else lane (ITy.bytes ty) v i

/-- The least and the largest number of an integer type. -/
def typeRange (ty : ITy) : Int × Int :=
  if ITy.signed ty then (-2 ^ (8 * ITy.bytes ty - 1), 2 ^ (8 * ITy.bytes ty - 1) - 1) else (0, 2 ^ (8 * ITy.bytes ty) - 1)

/-! Engines and queues -/

/-- A running feeder whose context is in its slice stands at a record of a code with these words, which breaks no rule
of its layout (05_feeders.md R83, R84). -/
def State.feedsRecord (s : State) (f code : Nat) (w : List Word) : Prop :=
  (s.feeder f).st = .running ∧ s.inSlice (s.feeder f).ctx = true ∧ s.feedRecord f = .ok w s ∧
    (w.getD 0 0).toNat % 16 = code ∧ recordBad w = false

/-- The matrix queue of a core holds one command, which has not started, has a code and passes every check, and the
unit's owner is neither leaving nor being saved (11_matrix_unit.md R221, R222, R237). -/
def State.runsCommand (s : State) (core code : Nat) (c : MCmd) : Prop :=
  (s.core core).mx.queue = [c] ∧ c.st = .queued ∧ (s.core core).mx.stop = false ∧ (c.w 0).toNat % 256 = code ∧
    c.check (core / 16) = 0 ∧ s.saves (core / 16) = false ∧ s.givenUp core = false

/-- A command of a code stands read at the head of a queue (17_scheduling_and_power.md R326). -/
def State.headIs (s : State) (vf q code : Nat) (w : Vector Word 8) : Prop :=
  (s.queue vf q).head = some w ∧ (s.queue vf q).headSt = .read ∧ (w.get 0).toNat % 256 = code

/-! What a head may write -/

/-- Registers of its slot that a head may write, beside the pc and what counts heads and windows. -/
structure Writes where
  xs : List XReg := []
  vs : List VReg := []
  ps : List PReg := []
  hs : List HReg := []
  toks : List Tok := []
  shadow : List (Fin 8) := []
  flags : Bool := false

/-- t is s but for the current slot, and in that slot only the registers given may differ, beside the pc, the count of
heads, the windows and the marks that retiring clears (08_scalar_instructions.md R136, R154). -/
structure Writes.Frame (w : Writes) (s t : State) : Prop where
  rest : t = { s with slots := t.slots }
  others : ∀ p, p ≠ s.cur → t.slot p = s.slot p
  memory : ∀ a, readByte t.mem a = readByte s.mem a
  vaults : ∀ a, readByte t.vault a = readByte s.vault a
  slot : t.me = { s.me with
    x := t.me.x, v := t.me.v, p := t.me.p, h := t.me.h, tok := t.me.tok, shadow := t.me.shadow, fflags := t.me.fflags,
    pc := t.me.pc, heads := t.me.heads, outs := t.me.outs, rex := t.me.rex, xres := t.me.xres,
    rans := t.me.rans, trapped := t.me.trapped }
  x : ∀ r, r ∉ w.xs → t.x r = s.x r
  v : ∀ r, r ∉ w.vs → t.v r = s.v r
  p : ∀ r, r ∉ w.ps → t.p r = s.p r
  h : ∀ r, r ∉ w.hs → t.h r = s.h r
  tok : ∀ j, j ∉ w.toks → t.me.tok.get j = s.me.tok.get j
  shadow : ∀ k, k ∉ w.shadow → t.me.shadow.get k = s.me.shadow.get k
  flags : w.flags = false → t.me.fflags = s.me.fflags

/-- What the forms that only compute in the registers of their slot may write: the scalar forms
(08_scalar_instructions.md), the lane, conversion, reduction and predicate forms (10_vector_instructions.md), and the
moves between registers of the slot (09_memory_instructions.md R190, 15_formes.md R293); none for every other form. -/
def writesOf : Instr → Option Writes
  | .mov a _ | .add a _ | .sub a _ | .and a _ | .or a _ | .xor a _ | .addq a _ | .shlq a _ | .shrq a _ =>
    some { xs := [a] }
  | .alu3Add a _ _ | .alu3Sub a _ _ | .alu3And a _ _ | .alu3Or a _ _ | .alu3Xor a _ _ | .andn a _ _ | .shl a _ _
  | .shr a _ _ | .sar a _ _ | .rot a _ _ | .min a _ _ | .max a _ _ | .minN a _ _ | .maxN a _ _ | .cmpeq a _ _
  | .cmplt a _ _ => some { xs := [a] }
  | .cmpltN a _ _ | .cmple a _ _ | .cmpleN a _ _ | .cmpne a _ _ | .mul a _ _ | .mulh a _ _ | .mulhN a _ _
  | .div a _ _ _ | .divN a _ _ _ | .rem a _ _ _ | .remN a _ _ _ | .clmul a _ _ | .clmulh a _ _ | .bext a _ _
  | .bdep a _ _ => some { xs := [a] }
  | .clz a _ | .ctz a _ | .popc a _ | .brev a _ | .sextB a _ | .sextH a _ | .sextW a _ | .zextB a _ | .zextH a _
  | .zextW a _ | .not a _ | .neg a _ | .abs a _ | .tagget a _ | .bswap a _ => some { xs := [a] }
  | .addi a _ _ | .andi a _ _ | .ori a _ _ | .xori a _ _ | .cmpeqi a _ _ | .cmplti a _ _ | .cmpltiN a _ _
  | .muli a _ _ | .addai a _ _ | .mini a _ _ | .maxi a _ _ | .shli a _ _ | .shri a _ _ | .sari a _ _ | .roti a _ _
  | .tagset a _ _ => some { xs := [a] }
  | .li16 a _ | .li32 a _ | .li64 a _ | .adda a _ _ _ | .sel a _ _ _ => some { xs := [a] }
  | .cpwr k _ => some { shadow := [k] }
  | .cprd a _ | .cpst a _ | .tkst a => some { xs := [a] }
  | .tkrel mask => some { toks := (List.finRange 8).filter fun j => mask.getLsbD j.val }
  | .tkclr => some { toks := List.finRange 8 }
  | .vfaVadd a _ _ _ _ | .vfaVsub a _ _ _ _ | .vfaVmul a _ _ _ _ | .vfaVmin a _ _ _ _ | .vfaVmax a _ _ _ _
  | .vfma a _ _ _ _ | .vfms a _ _ _ _ | .vfnma a _ _ _ _ | .vdiv a _ _ _ _ => some { vs := [a], flags := true }
  | .viaVadd a _ _ _ _ | .viaVsub a _ _ _ _ | .viaVmul a _ _ _ _ | .vmulh a _ _ _ _ | .viaVmin a _ _ _ _
  | .viaVmax a _ _ _ _ | .vadds a _ _ _ _ | .vsubs a _ _ _ _ | .vavg a _ _ _ _ | .vabsd a _ _ _ _
  | .vmac a _ _ _ _ | .vdot4 a _ _ _ _ => some { vs := [a] }
  | .vsqrt a _ _ _ | .vexp2 a _ _ _ | .vlog2 a _ _ _ | .vrcp8 a _ _ _ | .vfloor a _ _ _ | .vceil a _ _ _
  | .vrint a _ _ _ => some { vs := [a], flags := true }
  | .vabs a _ _ _ | .vneg a _ _ _ | .vclz a _ _ _ | .vpopc a _ _ _ | .vnot a _ _ _ | .vabsi a _ _ _ =>
    some { vs := [a] }
  | .vcmpEq a _ _ _ _ | .vcmpNe a _ _ _ _ | .vcmpLt a _ _ _ _ | .vcmpLe a _ _ _ _ | .vcmpGt a _ _ _ _
  | .vcmpGe a _ _ _ _ | .vcmpUnord a _ _ _ _ => some { ps := [a], flags := true }
  | .vcmpLtN a _ _ _ _ | .vcmpLeN a _ _ _ _ => some { ps := [a] }
  | .vand a _ _ _ _ | .vor a _ _ _ _ | .vxor a _ _ _ _ | .vandn a _ _ _ _ | .vshl a _ _ _ _ | .vshr a _ _ _ _
  | .vsar a _ _ _ _ | .vrot a _ _ _ _ | .vclmul a _ _ _ _ | .vclmulh a _ _ _ _ | .vsel a _ _ _ _ =>
    some { vs := [a] }
  | .vbcast a _ _ _ | .vins a _ _ _ | .vperm a _ _ _ _ | .vslideup a _ _ _ _ | .vslidedn a _ _ _ _ | .vzip a _ _ _ _
  | .vunzip a _ _ _ _ | .vmovv a _ _ _ | .vfromm a => some { vs := [a] }
  | .vextr a _ _ _ => some { xs := [a] }
  | .vredFsum a _ _ _ | .vredMax a _ _ _ | .vredMin a _ _ _ => some { xs := [a], flags := true }
  | .vredAnd a _ _ _ | .vredOr a _ _ _ | .vredXor a _ _ _ | .vredSum a _ _ _ => some { xs := [a] }
  | .vcvt a _ _ _ _ _ _ | .vcvtHi a _ _ _ _ _ _ _ => some { vs := [a], flags := true }
  | .pset a _ | .pand a _ _ | .por a _ _ | .pxor a _ _ | .pnot a _ | .plen a _ _ => some { ps := [a] }
  | .pget a _ | .pcnt a _ _ | .pfirst a _ _ => some { xs := [a] }
  | .htox a _ => some { xs := [a] }
  | .xtoh a _ => some { hs := [a] }
  | _ => none

/-- What the forms that only read memory may write (09_memory_instructions.md R170, R171, R175, R177, R178); none for
every other form. -/
def readsOf : Instr → Option Writes
  | .ld _ _ a _ _ _ | .ldv _ _ a _ _ _ | .ldf a _ _ _ | .tagrd a _ _ _ => some { xs := [a] }
  | .vld _ a _ _ _ | .vldBc8 _ a _ _ _ | .vldBc4 _ a _ _ _ | .vldHalf _ a _ _ _ | .vldv a _ _ _ | .vldvAcq a _ _ _
  | .vlds _ a _ _ _ _ _ | .vgath _ a _ _ _ _ _ => some { vs := [a] }
  | .vldf a _ _ _ _ _ | .vldfh a _ _ _ _ _ => some { vs := [a], flags := true }
  | _ => none

end Sys2Proof.Machine
end

