-- ==== Sys2Proof/Certificates/Slice0/Obligations.lean ====
section
/-!
DEFINITION. The statements for the provers, listed in OBLIGATIONS.json. Each docstring names the rules of spec/ that the
statement formalises, or the log entry of a choice of the model that it rests on.
-/

section

open Sys2Proof Sys2Proof.Machine

/-! Encoding -/

/-- Decoding an encoded well-formed instruction gives it back, with every operand; the head fits 16 bits and the tail
the parcels its size code names (07_instruction_lines.md R123, R125 to R128). -/
def Obligations.DecodeOfEncodeGivesInstruction : Prop :=
  ∀ (i : Instr) (h w : Nat), i.wellFormed = true → encode i = some (h, w) →
    h < 2 ^ 16 ∧ w < 2 ^ (16 * tailParcels (headT h)) ∧ decodeWords h w = some i

/-- Each word has one meaning and no bit of it is dropped: a head and tail that decode to an instruction are the ones
the encoder gives for it, and the instruction is well-formed (07_instruction_lines.md R127, R128). -/
def Obligations.EncodeOfDecodeGivesWords : Prop :=
  ∀ (i : Instr) (h w : Nat), h < 2 ^ 16 → w < 2 ^ (16 * tailParcels (headT h)) → decodeWords h w = some i →
    i.wellFormed = true ∧ encode i = some (h, w)

/-- Words the rules write out decode to the instructions they stand for: the lines of 07_instruction_lines.md,
08_scalar_instructions.md, 09_memory_instructions.md, 10_vector_instructions.md, 11_matrix_unit.md,
13_handlers_and_messages.md, 15_formes.md and 22_assembler.md. -/
def Obligations.WrittenWordsDecode : Prop :=
  decodeWords 0x1400 0 = some (.or 0 0) ∧
  decodeWords 0x3B10 0x1234567890 = some (.li64 1 0x1234567890#64) ∧
  decodeWords 0x3621 0x0D000010 = some (.tagset 2 1 0x10#8) ∧
  decodeWords 0x5A30 0x000FFFFF = some (.loop 3 0xFFFFF#20) ∧
  decodeWords 0x5D50 0x1001 = some (.rdsr 5 0x11) ∧
  decodeWords 0x8514 0x3A18 = some (.amoBfadd 1 4 3 1 .relaxed false true) ∧
  decodeWords 0xC912 0x0820 = some (.plen 1 2 2) ∧
  decodeWords 0xBD10 0x0089 = some (.vredFsum 1 0 .f32 (some 1)) ∧
  decodeWords 0xC232 0x00020400 = some (.vcvt 3 2 4 1 .rne false .all) ∧
  decodeWords 0xA103 0x0200 = some (.mbind 0 3) ∧
  decodeWords 0xCD04 0x5820 = some (.sendxH 0 4 5 2) ∧
  decodeWords 0xD540 0x5600 = some (.fred 4 0 5 0) ∧
  decodeWords 0xD000 0 = some .endAct

/-- A line that holds one head with its tail is read as that head and tail, whatever they are; a line of any number of
heads is read as them, head k with the tail that begins below those of the heads before it, lowest parcel least
significant, where the tails do not reach the heads and the parcels between are zero; and the head that follows in
sequence is the next head of the line, or head 0 of the next line, modulo 2^56 (07_instruction_lines.md R122 to
R124). -/
def Obligations.LinesGiveHeadsInSequence : Prop :=
  (∀ h w : Nat, h < 2 ^ 16 → w < 2 ^ (16 * tailParcels (headT h)) →
    (oneHeadLine h w).length = 64 ∧ decodeLine (oneHeadLine h w) = some { heads := [(h, w)] }) ∧
  (∀ (ps : List Nat) (hs : List (Nat × Nat)) (n : Nat) (size sum : Nat → Nat), ps.length = 32 → (∀ x ∈ ps, x < 2 ^ 16) →
    n = hs.length → 0 < n → ps.getD 0 0 = n * 2 ^ 11 → size = (fun k => tailParcels (headT (hs.getD k (0, 0)).1)) →
    sum = (fun k => ((List.range k).map size).sum) → n + 1 + sum n ≤ 32 →
    (∀ k, k < n → ps.getD (k + 1) 0 = (hs.getD k (0, 0)).1 ∧ (hs.getD k (0, 0)).2 =
      ((List.range (size k)).map fun i => ps.getD (32 - sum (k + 1) + i) 0 * 2 ^ (16 * i)).sum) →
    (∀ j, n < j → j < 32 - sum n → ps.getD j 0 = 0) → decodeLine (ps.flatMap (leBytes 2)) = some { heads := hs }) ∧
  (∀ b k n : Nat, b % 64 = 0 → b < 2 ^ 56 → n ≤ 31 → k < n →
    (k + 1 < n → (nextHead b k n).toNat = b + 2 + 2 * (k + 1)) ∧
    (k + 1 = n → (nextHead b k n).toNat = (b + 64 + 2) % 2 ^ 56))

/-! The step -/

/-- A step whose turn is the issue of a slot, its core's next, runs the instruction that the bytes at that slot's PC
decode to: when nothing stands before the head (no late failure, no breakpoint, its windows closed), its line is
fetched and is legal, head k of the line decodes to i, and i is no access that waits behind one of the slot's own, the
step is exec of i with its line and the next head noted (07_instruction_lines.md R124, R134; 17_scheduling_and_power.md
R337), and what follows a head: a result that goes on waiting, the trace, the counts, and the core's last slot to
issue. A head that exec leaves as it was has stalled, and the core's other slots are tried in turn. The state before
exec is the model's own: time has passed (log entry 4). -/
def Obligations.StepRunsDecodedInstruction : Prop :=
  ∀ (s : State) (p : Nat) (ts : List Turn) (s1 s2 : State),
    s.tick.agenda = .issue p :: ts → s1 = { s.tick with agenda := ts } → s2 = { s1 with cur := p } → s1.runs →
    s1.nextSlot (coreOf p) = some p → (s2.slot p).late = none → s2.atBreakpoint p = false →
    ∀ (t u : State) (l : CacheLine) (lc : LineCode) (pc k h w : Nat) (i : Instr),
      s2.closeWindows p = .go t → pc = t.me.pc.toNat → k = (pc % 64 - 2) / 2 →
      t.fetchLine (pc / 64 * 64) = .ok l u → decodeLine l.bytes = some lc → lc.heads[k]? = some (h, w) →
      decodeWords h w = some i →
      ∀ (v x y : State) (b : Bool),
        v = (u.setLine l).setMe { (u.setLine l).me with npc := nextHead (pc / 64 * 64) k lc.heads.length } →
        v.me.accessWaits i = false → exec i v = .next x → b = (x.clk.traps != v.clk.traps) →
        y = (x.deferHead p v.me i b).afterHead p v.me i b →
        (s1.hasIssued y p = true → step s = .next (s1.account (y.noteIssue p) (some p))) ∧
        ∀ z, s1.hasIssued y p = false → y.issueFrom (slotsAfter (coreOf p) (p % 8) 7) = .next z →
          step s = .next (s1.account z ((Turn.issue p).issuer z))

/-! Reset -/

/-- The package after reset: memory and vaults are canonical and list nothing, every connection row but the firmware
ports' has PART 31 and no ALLOW bit (03_crossbar.md R52), every vault word is full (04_vaults.md R76), a core's
sequence counters, counters and accumulators are 0 and DONE is 0xFFFF (07_instruction_lines.md R120, 11_matrix_unit.md
R223, R230), no slot is occupied, and PADM, PSLICE and PLIM have the values 17_scheduling_and_power.md and
19_tenants_and_metering.md give. That unlisted bytes read as 0 is the model's choice (log entry 2). -/
def Obligations.ResetLeavesStatedValues : Prop :=
  State.reset.canonical ∧ State.reset.runs ∧ State.reset.mem = [] ∧ State.reset.vault = [] ∧
  (∀ n, n ≠ 384 → n ≠ 385 → rowPart (State.reset.row n) = 31 ∧ ∀ t, rowAllows (State.reset.row n) t = false) ∧
  (∀ key, State.reset.isFull key = true) ∧
  (∀ c, (State.reset.core c).mx.seq = 0 ∧ (State.reset.core c).mx.done = 0xFFFF ∧ (State.reset.core c).mx.queue = [] ∧
    State.reset.cycleOf c = 0 ∧ ∀ i : Fin 64, (State.reset.core c).lac.get i = 0) ∧
  (∀ p, (State.reset.slot p).occ = false) ∧
  (∀ n : Fin 24, fld (State.reset.reg (.padm n)) 48 16 = 0x0100 ∧ fld (State.reset.reg (.padm n)) 0 32 = 3500000 ∧
    (State.reset.reg (.pslice n)).toNat = 10000) ∧
  (State.reset.reg .plim).toNat = 3000

/-- A step keeps main memory and the vaults in canonical form, whatever turn it takes: every instruction, every engine
and every event writes memory through operations that keep it (00_scope.md R6; log entry 2). -/
def Obligations.StepKeepsMemoryCanonical : Prop :=
  ∀ s t : State, s.canonical → step s = .next t → t.canonical

/-- Every step answers a next state: what the rules call a fault is a trap, a refusal of a request or a frozen device,
each of which is a state of the package (18_faults_and_preemption.md R344, R359; log entry 4). -/
def Obligations.StepAlwaysAnswersNextState : Prop :=
  ∀ s : State, ∃ t, step s = .next t


/-! Scalar instructions -/

/-- What retiring a head with one general register result does: the register gets the value, every other register
keeps its own, control goes to the next head, and the head is counted (07_instruction_lines.md R117, R124;
08_scalar_instructions.md R154). -/
def Obligations.ResultRetiresToNextHead : Prop :=
  ∀ (s : State) (a : XReg) (v : Word), s.firstTime →
    (∀ r, (s.doneX a v).x r = if r = a then v else s.x r) ∧ (s.doneX a v).me.pc = s.me.npc ∧
    (s.doneX a v).me.heads = s.me.heads + 1 ∧ ({ xs := [a] } : Writes).Frame s (s.doneX a v)

/-- The two-operand heads and the three-register forms of ALU3 (08_scalar_instructions.md R139, R140): each form's
encoding by the numbers of the two tables and its value; L is zero in ALU3 and ALU3M but in the four divisions, where it
is the lookahead, and D is zero. -/
def Obligations.RegisterArithmeticComputes : Prop :=
  (∀ (s : State) (a b : XReg) (imm : BitVec 4) (k : Fin 16),
    exec (.mov a b) s = .next (s.doneX a (s.x b)) ∧
    exec (.add a b) s = .next (s.doneX a (wrap64 ((s.x a).toNat + (s.x b).toNat))) ∧
    exec (.sub a b) s = .next (s.doneX a (wrap64 ((s.x a).toNat - (s.x b).toNat))) ∧
    exec (.and a b) s = .next (s.doneX a (s.x a &&& s.x b)) ∧
    exec (.or a b) s = .next (s.doneX a (s.x a ||| s.x b)) ∧
    exec (.xor a b) s = .next (s.doneX a (s.x a ^^^ s.x b)) ∧
    exec (.addq a imm) s = .next (s.doneX a (wrap64 ((s.x a).toNat + imm.toInt))) ∧
    exec (.shlq a k) s = .next (s.doneX a (wrap64 ((s.x a).toNat * 2 ^ k.val))) ∧
    exec (.shrq a k) s = .next (s.doneX a (wrap64 ((s.x a).toNat / 2 ^ k.val)))) ∧
  ((∀ (s : State) (a b c : XReg) (n : Nat), n = (s.x c).toNat % 64 →
    exec (.alu3Add a b c) s = .next (s.doneX a (wrap64 ((s.x b).toNat + (s.x c).toNat))) ∧
    exec (.alu3Sub a b c) s = .next (s.doneX a (wrap64 ((s.x b).toNat - (s.x c).toNat))) ∧
    exec (.alu3And a b c) s = .next (s.doneX a (s.x b &&& s.x c)) ∧
    exec (.alu3Or a b c) s = .next (s.doneX a (s.x b ||| s.x c)) ∧
    exec (.alu3Xor a b c) s = .next (s.doneX a (s.x b ^^^ s.x c)) ∧
    exec (.andn a b c) s = .next (s.doneX a (s.x b &&& ~~~(s.x c))) ∧
    exec (.shl a b c) s = .next (s.doneX a (wrap64 ((s.x b).toNat * 2 ^ n))) ∧
    exec (.shr a b c) s = .next (s.doneX a (wrap64 ((s.x b).toNat / 2 ^ n))) ∧
    exec (.sar a b c) s = .next (s.doneX a (wrap64 (sInt (s.x b) / 2 ^ n))) ∧
    exec (.rot a b c) s = .next (s.doneX a
      (wrap64 ((s.x b).toNat / 2 ^ n) ||| wrap64 ((s.x b).toNat * 2 ^ (64 - n)))) ∧
    exec (.min a b c) s = .next (s.doneX a (wrap64 (Min.min (sInt (s.x b)) (sInt (s.x c))))) ∧
    exec (.max a b c) s = .next (s.doneX a (wrap64 (Max.max (sInt (s.x b)) (sInt (s.x c))))) ∧
    exec (.minN a b c) s = .next (s.doneX a (wrap64 (Nat.min (s.x b).toNat (s.x c).toNat))) ∧
    exec (.maxN a b c) s = .next (s.doneX a (wrap64 (Nat.max (s.x b).toNat (s.x c).toNat))) ∧
    exec (.cmpeq a b c) s = .next (s.doneX a (if s.x b = s.x c then 1 else 0)) ∧
    exec (.cmplt a b c) s = .next (s.doneX a (if sInt (s.x b) < sInt (s.x c) then 1 else 0))) ∧
  (∀ (a b c : XReg) (l : Look),
    [1, 2, 3, 4, 5, 6, 7, 8, 9].map (fun k => decodeFields { o := k, a := a.val, b := b.val }) =
      [Instr.mov a b, .add a b, .sub a b, .and a b, .or a b, .xor a b, .addq a (BitVec.ofNat 4 b.val), .shlq a b,
        .shrq a b].map some ∧
    (List.range 16).map (fun f => decodeFields { o := 0x0A, t := 1, a := a.val, b := b.val, c := c.val, f := f }) =
      [Instr.alu3Add a b c, .alu3Sub a b c, .alu3And a b c, .alu3Or a b c, .alu3Xor a b c, .andn a b c, .shl a b c,
        .shr a b c, .sar a b c, .rot a b c, .min a b c, .max a b c, .minN a b c, .maxN a b c, .cmpeq a b c,
        .cmplt a b c].map some ∧
    [7, 8, 9, 10].map (fun f =>
        decodeFields { o := 0x0B, t := 1, a := a.val, b := b.val, c := c.val, f := f, l := l.val }) =
      [Instr.div a b c l, .divN a b c l, .rem a b c l, .remN a b c l].map some) ∧
  ∀ x : Fields, x.o = 0x0A ∨ x.o = 0x0B → x.d ≠ 0 ∨ x.l ≠ 0 ∧ ¬ (x.o = 0x0B ∧ 7 ≤ x.f ∧ x.f ≤ 10) →
    decodeFields x = none)

/-- The three-register forms of ALU3M that are not long-latency (08_scalar_instructions.md R141, R143): products in
full, the carry-less product by its bits, and the gather and scatter of bits under a mask. -/
def Obligations.WideProductsAndBitFieldsCompute : Prop :=
  ∀ (s : State) (a b c : XReg),
    exec (.cmpltN a b c) s = .next (s.doneX a (if (s.x b).toNat < (s.x c).toNat then 1 else 0)) ∧
    exec (.cmple a b c) s = .next (s.doneX a (if sInt (s.x b) ≤ sInt (s.x c) then 1 else 0)) ∧
    exec (.cmpleN a b c) s = .next (s.doneX a (if (s.x b).toNat ≤ (s.x c).toNat then 1 else 0)) ∧
    exec (.cmpne a b c) s = .next (s.doneX a (if s.x b ≠ s.x c then 1 else 0)) ∧
    exec (.mul a b c) s = .next (s.doneX a (wrap64 ((s.x b).toNat * (s.x c).toNat))) ∧
    exec (.mulh a b c) s = .next (s.doneX a (wrap64 (sInt (s.x b) * sInt (s.x c) / 2 ^ 64))) ∧
    exec (.mulhN a b c) s = .next (s.doneX a (wrap64 ((s.x b).toNat * (s.x c).toNat / 2 ^ 64))) ∧
    (∃ p : Nat, (∀ j, p.testBit j = (
        ((List.range 64).filter fun i => (s.x c).getLsbD i && decide (i ≤ j) && (s.x b).toNat.testBit (j - i)).length % 2 == 1)) ∧
      exec (.clmul a b c) s = .next (s.doneX a (wrap64 p)) ∧
      exec (.clmulh a b c) s = .next (s.doneX a (wrap64 (p / 2 ^ 64)))) ∧
    (∃ w : Word, exec (.bext a b c) s = .next (s.doneX a w) ∧
      (∀ i, i < 64 → (s.x c).getLsbD i = true →
        w.getLsbD ((List.range i).countP (s.x c).getLsbD) = (s.x b).getLsbD i) ∧
      ∀ j, (List.range 64).countP (s.x c).getLsbD ≤ j → w.getLsbD j = false) ∧
    (∃ w : Word, exec (.bdep a b c) s = .next (s.doneX a w) ∧
      ∀ i, i < 64 → w.getLsbD i =
        ((s.x c).getLsbD i && (s.x b).getLsbD ((List.range i).countP (s.x c).getLsbD)))

/-- Division truncates toward zero, a remainder takes the sign of the dividend, and a divisor of zero gives all ones or
the dividend; no flag is set and nothing traps (08_scalar_instructions.md R142). The four forms deliver their result
under their lookahead. -/
def Obligations.DivisionTruncatesTowardZero : Prop :=
  ∀ (s : State) (a b c : XReg) (l : Look) (x y : Word), s.hasRoom → x = s.x b → y = s.x c →
    exec (.div a b c l) s = .next (s.deliver l [.x a] (.ok [.x a
      (if y = 0 then 0xFFFFFFFFFFFFFFFF else wrap64 ((sInt x).tdiv (sInt y)))] {})) ∧
    exec (.divN a b c l) s = .next (s.deliver l [.x a] (.ok [.x a
      (if y = 0 then 0xFFFFFFFFFFFFFFFF else wrap64 (x.toNat / y.toNat))] {})) ∧
    exec (.rem a b c l) s = .next (s.deliver l [.x a] (.ok [.x a
      (if y = 0 then x else wrap64 ((sInt x).tmod (sInt y)))] {})) ∧
    exec (.remN a b c l) s = .next (s.deliver l [.x a] (.ok [.x a
      (if y = 0 then x else wrap64 (x.toNat % y.toNat))] {}))

/-- Delivery of a long-latency result: without lookahead, or in a re-execution, it is written at once; otherwise its
head retires, its destination keeps its value, and the result is outstanding with a window of the heads its lookahead
names (07_instruction_lines.md R130, R131, R133). -/
def Obligations.LookaheadLeavesResultOutstanding : Prop :=
  ∀ (s : State) (a : XReg) (l : Look) (v : Word),
    (l.val = 0 ∨ ¬ s.firstTime → s.deliver l [.x a] (.ok [.x a v] {}) = s.doneX a v) ∧
    (s.firstTime → l.val ≠ 0 → ∃ t, s.deliver l [.x a] (.ok [.x a v] {}) = t ∧ (∀ r, t.x r = s.x r) ∧
      t.me.pc = s.me.npc ∧
      t.me.heads = s.me.heads + 1 ∧
      t.me.outs.getLast? = some { pc := s.me.pc, dests := [.x a], val := .ok [.x a v] {}, left := l.val, lah := 0,
                                  ovw := [], back := false } ∧
      t.me.outs.length = s.me.outs.length + 1)

/-- The one-operand forms (08_scalar_instructions.md R144): each by the bits of its result, their encodings in the order
of F, and that every other word of the major, F = 15 among them, is no instruction. -/
def Obligations.OneOperandFormsCompute : Prop :=
  ∀ (s : State) (a b : XReg) (x : Word), x = s.x b →
    (∃ n : Nat, exec (.clz a b) s = .next (s.doneX a (wrap64 n)) ∧ n ≤ 64 ∧
      (∀ i, i < n → x.getLsbD (63 - i) = false) ∧ (n < 64 → x.getLsbD (63 - n) = true)) ∧
    (∃ n : Nat, exec (.ctz a b) s = .next (s.doneX a (wrap64 n)) ∧ n ≤ 64 ∧
      (∀ i, i < n → x.getLsbD i = false) ∧ (n < 64 → x.getLsbD n = true)) ∧
    exec (.popc a b) s = .next (s.doneX a (wrap64 ((List.range 64).countP x.getLsbD))) ∧
    (∃ w : Word, exec (.brev a b) s = .next (s.doneX a w) ∧ ∀ i, i < 64 → w.getLsbD (63 - i) = x.getLsbD i) ∧
    exec (.sextB a b) s = .next (s.doneX a (wrap64 (x.setWidth 8).toInt)) ∧
    exec (.sextH a b) s = .next (s.doneX a (wrap64 (x.setWidth 16).toInt)) ∧
    exec (.sextW a b) s = .next (s.doneX a (wrap64 (x.setWidth 32).toInt)) ∧
    exec (.zextB a b) s = .next (s.doneX a (wrap64 (x.setWidth 8).toNat)) ∧
    exec (.zextH a b) s = .next (s.doneX a (wrap64 (x.setWidth 16).toNat)) ∧
    exec (.zextW a b) s = .next (s.doneX a (wrap64 (x.setWidth 32).toNat)) ∧
    exec (.not a b) s = .next (s.doneX a (~~~x)) ∧
    exec (.neg a b) s = .next (s.doneX a (wrap64 (-(sInt x)))) ∧
    exec (.abs a b) s = .next (s.doneX a (wrap64 (sInt x).natAbs)) ∧
    exec (.tagget a b) s = .next (s.doneX a (wrap64 (x.toNat / 2 ^ 56))) ∧
    (∃ w : Word, exec (.bswap a b) s = .next (s.doneX a w) ∧
      ∀ i, i < 8 → w.toNat / 256 ^ (7 - i) % 256 = x.toNat / 256 ^ i % 256) ∧
    (List.range 15).map (fun f => decodeFields { o := 0x0C, t := 1, a := a.val, b := b.val, f := f }) =
      [Instr.clz a b, .ctz a b, .popc a b, .brev a b, .sextB a b, .sextH a b, .sextW a b, .zextB a b, .zextH a b,
        .zextW a b, .not a b, .neg a b, .abs a b, .tagget a b, .bswap a b].map some ∧
    ∀ y : Fields, y.o = 0x0C → y.t ≠ 1 ∨ y.c ≠ 0 ∨ y.l ≠ 0 ∨ y.d ≠ 0 ∨ 15 ≤ y.f → decodeFields y = none

/-- The immediate forms with k the signed immediate, LI and SEL, and pointer arithmetic, which keeps the tag: bits
[55:0] move modulo 2^56 and bits [63:56] stay (02_main_memory.md R35; 08_scalar_instructions.md R145 to R149). -/
def Obligations.ImmediateAndPointerFormsCompute : Prop :=
  (∀ (s : State) (a b : XReg) (imm : BitVec 20) (n : Fin 64) (tag : BitVec 8) (x : Word) (k : Int),
    x = s.x b → k = imm.toInt →
    exec (.addi a b imm) s = .next (s.doneX a (wrap64 (x.toNat + k))) ∧
    exec (.andi a b imm) s = .next (s.doneX a (x &&& wrap64 k)) ∧
    exec (.ori a b imm) s = .next (s.doneX a (x ||| wrap64 k)) ∧
    exec (.xori a b imm) s = .next (s.doneX a (x ^^^ wrap64 k)) ∧
    exec (.shli a b n) s = .next (s.doneX a (wrap64 (x.toNat * 2 ^ n.val))) ∧
    exec (.shri a b n) s = .next (s.doneX a (wrap64 (x.toNat / 2 ^ n.val))) ∧
    exec (.sari a b n) s = .next (s.doneX a (wrap64 (sInt x / 2 ^ n.val))) ∧
    exec (.roti a b n) s = .next (s.doneX a
      (wrap64 (x.toNat / 2 ^ n.val) ||| wrap64 (x.toNat * 2 ^ (64 - n.val)))) ∧
    exec (.cmpeqi a b imm) s = .next (s.doneX a (if x = wrap64 k then 1 else 0)) ∧
    exec (.cmplti a b imm) s = .next (s.doneX a (if sInt x < k then 1 else 0)) ∧
    exec (.cmpltiN a b imm) s = .next (s.doneX a (if x.toNat < (wrap64 k).toNat then 1 else 0)) ∧
    exec (.muli a b imm) s = .next (s.doneX a (wrap64 (sInt x * k))) ∧
    exec (.tagset a b tag) s = .next (s.doneX a (wrap64 (tag.toNat * 2 ^ 56 + x.toNat % 2 ^ 56))) ∧
    exec (.mini a b imm) s = .next (s.doneX a (wrap64 (Min.min (sInt x) k))) ∧
    exec (.maxi a b imm) s = .next (s.doneX a (wrap64 (Max.max (sInt x) k)))) ∧
  (∀ (s : State) (a b c : XReg) (imm : BitVec 20) (sh : Fin 4),
    (∃ w : Word, exec (.addai a b imm) s = .next (s.doneX a w) ∧ w.toNat / 2 ^ 56 = (s.x b).toNat / 2 ^ 56 ∧
      ((w.toNat % 2 ^ 56 : Nat) : Int) = (((s.x b).toNat % 2 ^ 56 : Nat) + imm.toInt) % 2 ^ 56) ∧
    ∃ w : Word, exec (.adda a b c sh) s = .next (s.doneX a w) ∧ w.toNat / 2 ^ 56 = (s.x b).toNat / 2 ^ 56 ∧
      ((w.toNat % 2 ^ 56 : Nat) : Int) = (((s.x b).toNat % 2 ^ 56 : Nat) + sInt (s.x c) * 2 ^ sh.val) % 2 ^ 56) ∧
  (∀ (s : State) (a b c d : XReg) (i16 : BitVec 16) (i32 : BitVec 32) (i64 : BitVec 64),
    exec (.li16 a i16) s = .next (s.doneX a (wrap64 i16.toInt)) ∧
    exec (.li32 a i32) s = .next (s.doneX a (wrap64 i32.toInt)) ∧
    exec (.li64 a i64) s = .next (s.doneX a i64) ∧
    (s.x c ≠ 0 → exec (.sel a b c d) s = .next (s.doneX a (s.x b))) ∧
    (s.x c = 0 → exec (.sel a b c d) s = .next (s.doneX a (s.x d))))

/-- The forms that only compute in the registers of their slot write no other: every other slot, every byte of memory
and of the vaults, every special register, the weight, the commit buffer and the flags keep their value, but for the
destination and for the flags of the floating-point forms (08_scalar_instructions.md R136; 10_vector_instructions.md
R197, R200). -/
def Obligations.RegisterFormsFrame : Prop :=
  ∀ (i : Instr) (w : Writes) (s t : State), writesOf i = some w → exec i s = .next t → w.Frame s t

/-! Control transfer -/

/-- An untaken branch goes on at the next head in sequence and reads nothing of its target, and a LOOP that falls
through leaves its count; a taken transfer whose target is a head of a line that can be fetched goes there: CALL
writes the next head in sequence to its link and LOOP its decremented count, and nothing else of the registers
changes (08_scalar_instructions.md R150, R152). -/
def Obligations.TransfersGoWhereConditionsSay : Prop :=
  (∀ (s : State) (a b : XReg) (off : BitVec 20),
    (s.x a ≠ s.x b → exec (.beq a b off) s = .next s.done) ∧
    (s.x a = s.x b → exec (.bne a b off) s = .next s.done) ∧
    (sInt (s.x b) ≤ sInt (s.x a) → exec (.blt a b off) s = .next s.done) ∧
    (sInt (s.x a) < sInt (s.x b) → exec (.bge a b off) s = .next s.done) ∧
    ((s.x b).toNat ≤ (s.x a).toNat → exec (.bltN a b off) s = .next s.done) ∧
    ((s.x a).toNat < (s.x b).toNat → exec (.bgeN a b off) s = .next s.done) ∧
    (s.x a ≠ 0 → exec (.bz a off) s = .next s.done) ∧
    (s.x a = 0 → exec (.bnz a off) s = .next s.done) ∧
    (s.x a = 1 → exec (.loop a off) s = .next (s.doneX a 0))) ∧
  (∀ (s u : State) (a b : XReg) (off : BitVec 20) (l : CacheLine) (n : Nat) (go : (Slot → Slot) → List Dest → State),
    s.noResults → (go = fun act wr => u.setMe { (act u.me).retireTo (word n) wr with line := some l, lineOld :=
      false }) →
    n < 2 ^ 56 → s.fetchLine (n / 64 * 64) true = .ok l u → isHeadOf l.bytes n = true →
    ((n : Int) = (s.me.pc.toNat : Int) + 2 * off.toInt →
      exec (.br off) s = .next (go id []) ∧
      (s.x a = s.x b → exec (.beq a b off) s = .next (go id [])) ∧
      (s.x a ≠ s.x b → exec (.bne a b off) s = .next (go id [])) ∧
      (sInt (s.x a) < sInt (s.x b) → exec (.blt a b off) s = .next (go id [])) ∧
      (sInt (s.x b) ≤ sInt (s.x a) → exec (.bge a b off) s = .next (go id [])) ∧
      ((s.x a).toNat < (s.x b).toNat → exec (.bltN a b off) s = .next (go id [])) ∧
      ((s.x b).toNat ≤ (s.x a).toNat → exec (.bgeN a b off) s = .next (go id [])) ∧
      (s.x a = 0 → exec (.bz a off) s = .next (go id [])) ∧
      (s.x a ≠ 0 → exec (.bnz a off) s = .next (go id [])) ∧
      exec (.call a off) s = .next (go (fun sl => sl.setX a sl.npc) [.x a]) ∧
      (s.x a ≠ 1 → exec (.loop a off) s = .next (go (fun sl => sl.setX a (s.x a - 1)) [.x a]))) ∧
    ((s.x b).toNat = n → exec (.jr b) s = .next (go id [])))

/-- A taken transfer to an address outside 0 to 2^56 - 1 traps with cause 2 and TVAL its target; one to an address
inside fetches the target's line first, and traps so where the address is none of its heads, an odd one or a line word
among them; where the line cannot be fetched, by protection, an unmapped translation or poison, it traps with cause 0x15
and TVAL its target. It has no effect: no link is written and no count is decremented (07_instruction_lines.md R124;
08_scalar_instructions.md R150). A fetch that is refused at its port traps with the refusal's cause and the target too,
by the model's reading (log entry 20). -/
def Obligations.BadBranchTargetTraps : Prop :=
  ∀ (s u : State) (a b : XReg) (off : BitVec 20) (n : Int) (l : CacheLine) (c : Nat) (tv : Word) (nr : Bool) (t : State),
    s.noResults →
    (n < 0 ∨ 2 ^ 56 ≤ n) ∧ t = s.trap 2 (wrap64 n) ∨
    (0 ≤ n ∧ n < 2 ^ 56) ∧ (s.fetchLine (n.toNat / 64 * 64) true = .ok l u ∧ t = u.trap 2 (wrap64 n) ∧
        (n % 2 ≠ 0 ∨ n % 64 < 2 ∨ ∃ lc, decodeLine l.bytes = some lc ∧ 2 + 2 * lc.heads.length ≤ n % 64) ∨
      s.fetchLine (n.toNat / 64 * 64) true = .bad c tv nr u ∧
        t = (if nr then u.trapNR c (wrap64 n) else u.trap c (wrap64 n))) →
    (n = (s.me.pc.toNat : Int) + 2 * off.toInt →
      exec (.br off) s = .next t ∧ exec (.call a off) s = .next t ∧
      (s.x a = s.x b → exec (.beq a b off) s = .next t) ∧ (s.x a ≠ s.x b → exec (.bne a b off) s = .next t) ∧
      (sInt (s.x a) < sInt (s.x b) → exec (.blt a b off) s = .next t) ∧
      (sInt (s.x b) ≤ sInt (s.x a) → exec (.bge a b off) s = .next t) ∧
      ((s.x a).toNat < (s.x b).toNat → exec (.bltN a b off) s = .next t) ∧
      ((s.x b).toNat ≤ (s.x a).toNat → exec (.bgeN a b off) s = .next t) ∧
      (s.x a = 0 → exec (.bz a off) s = .next t) ∧ (s.x a ≠ 0 → exec (.bnz a off) s = .next t) ∧
      (s.x a ≠ 1 → exec (.loop a off) s = .next t)) ∧
    (n = ((s.x b).toNat : Int) → exec (.jr b) s = .next t)


/-! Special registers -/

/-- The accesses to special registers that pass the checks act: the read value, the written one, and for SWPSR the old
value with xB read before xA is written (08_scalar_instructions.md R153, R155). -/
def Obligations.SpecialRegisterFormsAct : Prop :=
  ∀ (s : State) (a b : XReg) (n : Fin 256), s.noResults →
    (srCheck (isService s.cur) (s.me.priv = .user) true false n.val none = .pass →
      exec (.rdsr a n) s = .next (s.doneX a (s.srRead n.val))) ∧
    (srCheck (isService s.cur) (s.me.priv = .user) true true n.val none = .pass →
      exec (.rdcnt a n) s = .next (s.doneX a (s.srRead n.val))) ∧
    (srCheck (isService s.cur) (s.me.priv = .user) false false n.val (some (s.x a)) = .pass →
      exec (.wrsr n a) s = .next (s.srWrite n.val (s.x a)).done) ∧
    (srCheck (isService s.cur) (s.me.priv = .user) true false n.val (some (s.x b)) = .pass →
      exec (.swpsr a n b) s = .next ((s.srWrite n.val (s.x b)).doneX a (s.srRead n.val)))

/-- The checks of a special-register access in their order, each with the trap it raises (07_instruction_lines.md R119,
R120): a number without a register, the wrong form for a counter, a write of a register that is read-only at every
level, a privilege that is too low, and a value with a reserved bit or code: of FFLAGS and TSTATE (R121), of FRMODE and
of a window in force (04_vaults.md R73). That bits above the fields of STATID, LACIDX, WSTART, TCAUSE, PMODE and FRMODE,
and the bit of PMODE on a worker core, are reserved in the same way is the model's reading (log entry 22). -/
def Obligations.SpecialRegisterChecksInOrder : Prop :=
  ∀ (s : State) (a b : XReg) (n : Fin 256) (known counter fixed high : Prop) (bad badHigh : Word → Prop),
    (known ↔ n.val ≤ 8 ∨ n.val ∈ [0x10, 0x11, 0x12] ∨ (0x20 ≤ n.val ∧ n.val ≤ 0x25) ∨
      (0x30 ≤ n.val ∧ n.val ≤ 0x34) ∨ n.val ∈ [0x40, 0x41] ∨ (0x50 ≤ n.val ∧ n.val ≤ 0x53) ∨
      (0x60 ≤ n.val ∧ n.val ≤ 0x67) ∨ (0x70 ≤ n.val ∧ n.val ≤ 0x7B)) →
    (counter ↔ n.val ∈ [0x30, 0x31, 0x33]) →
    (fixed ↔ n.val ≤ 8 ∨ n.val ∈ [0x30, 0x31, 0x40, 0x41, 0x51, 0x52] ∨ (0x70 ≤ n.val ∧ n.val ≤ 0x7B)) →
    (high ↔ (0x20 ≤ n.val ∧ n.val ≤ 0x25) ∨ n.val = 0x53 ∨ (0x60 ≤ n.val ∧ n.val ≤ 0x67)) →
    (∀ v, bad v ↔ n.val = 0x10 ∧ 32 ≤ v.toNat ∨ n.val = 0x11 ∧ 5 ≤ v.toNat ∨ n.val = 0x12 ∧ 64 ≤ v.toNat ∨
      n.val = 0x32 ∧ 64 ≤ v.toNat ∨ n.val = 0x50 ∧ 8 ≤ v.toNat) →
    (∀ v, badHigh v ↔ n.val = 0x21 ∧ 256 ≤ v.toNat ∨ n.val = 0x24 ∧ (1024 ≤ v.toNat ∨ v.toNat % 4 = 3) ∨
      n.val = 0x53 ∧ (2 ≤ v.toNat ∨ isService s.cur = false ∧ v ≠ 0) ∨
      (0x60 ≤ n.val ∧ n.val ≤ 0x67) ∧ 2 ^ 63 ≤ v.toNat ∧ (v.toNat / 2 ^ 42 % 2 ^ 15 ≠ 0 ∨ v.toNat / 2 ^ 18 % 2 ^ 6 ≠ 0 ∨
        v.toNat / 2 ^ 57 % 8 ≠ 4 ∧ v.toNat / 2 ^ 57 % 8 ≠ 5)) →
    (¬known ∨ counter → exec (.rdsr a n) s = .next (s.illegal (.rdsr a n))) ∧
    (¬known ∨ ¬counter → exec (.rdcnt a n) s = .next (s.illegal (.rdcnt a n))) ∧
    (¬known ∨ fixed → exec (.wrsr n a) s = .next (s.illegal (.wrsr n a))) ∧
    (¬known ∨ counter ∨ fixed → exec (.swpsr a n b) s = .next (s.illegal (.swpsr a n b))) ∧
    (s.me.priv = .user → high → exec (.rdsr a n) s = .next (s.trapOpen 0x14) ∧
      exec (.wrsr n a) s = .next (s.trapOpen 0x14) ∧ exec (.swpsr a n b) s = .next (s.trapOpen 0x14)) ∧
    (s.me.priv = .user → n.val = 0x33 ∨ n.val = 0x34 → exec (.wrsr n a) s = .next (s.trapOpen 0x14)) ∧
    (s.me.priv = .user → n.val = 0x34 → exec (.swpsr a n b) s = .next (s.trapOpen 0x14)) ∧
    (bad (s.x a) ∨ s.me.priv ≠ .user ∧ badHigh (s.x a) → exec (.wrsr n a) s = .next (s.trap 5 (s.x a))) ∧
    (bad (s.x b) ∨ s.me.priv ≠ .user ∧ badHigh (s.x b) → exec (.swpsr a n b) s = .next (s.trap 5 (s.x b)))

/-- A special register that was written reads as the value written, and every other keeps its value, but that LACVAL
shows the accumulator LACIDX selects (07_instruction_lines.md R120; 08_scalar_instructions.md R155). -/
def Obligations.SpecialRegisterHoldsWhatWasWritten : Prop :=
  ∀ (s : State) (n m : Nat) (v : Word), n < 256 → m < 256 →
    srCheck (isService s.cur) false false false n (some v) = .pass →
    (s.srWrite n v).srRead n = v ∧ (m ≠ n → ¬(n = 0x32 ∧ m = 0x33) → (s.srWrite n v).srRead m = s.srRead m) ∧
    (n = 0x32 → (s.srWrite n v).srRead 0x33 = s.myCore.lac.toList.getD v.toNat 0)

/-! Traps and the return from them -/

/-- A trap of the current head saves and enters what TakeTrap says, at the head that trapped; TRAP, SVC and DBRK take
theirs at the head that follows them, with the cause and value of their form, and DBRK halts its slot instead where
halt-on-break is set for its core (08_scalar_instructions.md R157; 13_handlers_and_messages.md R274). -/
def Obligations.TrapsSaveAndEnter : Prop :=
  (∀ (s : State) (cause : Nat) (tval : Word), s.noResults → cause < 256 →
    TrapTaken s (s.trap cause tval) cause tval s.me.pc false ∧
      TrapTaken s (s.trapNR cause tval) cause tval s.me.pc true) ∧
  (∀ (s : State) (code : Fin 256), s.noResults →
    (∃ t, exec (.trap code) s = .next t ∧ TrapTaken s t 0x11 (word code.val) s.me.npc false) ∧
    (∃ t, exec (.svc code) s = .next t ∧ TrapTaken s t 0x11 (word (2 ^ 63 + code.val)) s.me.npc false) ∧
    ((s.clus (clusOf s.cur)).hob.getLsbD (unitOf s.cur) = false →
      ∃ t, exec .dbrk s = .next t ∧ TrapTaken s t 0x12 s.me.pc s.me.npc false) ∧
    ((s.clus (clusOf s.cur)).hob.getLsbD (unitOf s.cur) = true →
      exec .dbrk s = .next (s.done.haltSlot s.cur 2)))

/-- RETT restores the privilege of TSTATE.PPRV and goes to TPC, or to TPC alone and then TRES when TSTATE.REX is set;
what it may not do traps, and wt and every register stay (08_scalar_instructions.md R158). -/
def Obligations.ReturnFromTrapRestores : Prop :=
  ∀ (s u w : State) (line tail : CacheLine) (ts n m : Nat),
    s.noResults → s.firstTime → ts = s.me.tstate.toNat → n = s.me.tpc.toNat → m = s.me.tres.toNat →
    (s.me.priv = .user → exec .rett s = .next (s.trapOpen 0x14)) ∧
    (s.me.priv ≠ .user → bitOf ts 9 = true → exec .rett s = .next (s.illegal .rett)) ∧
    (s.me.priv ≠ .user → bitOf ts 9 = false → s.me.priv.code < ts % 4 → exec .rett s = .next (s.trapOpen 0x14)) ∧
    (s.me.priv ≠ .user → bitOf ts 9 = false → ts % 4 ≤ s.me.priv.code →
      n < 2 ^ 56 → s.fetchLine (n / 64 * 64) true = .ok line u → isHeadOf line.bytes n = true → u.me = s.me →
      (bitOf ts 2 = false → ∃ t, exec .rett s = .next t ∧ t.me.pc = s.me.tpc ∧ t.me.priv.code = ts % 4 ∧
        t.me.rex = none ∧ t.me.x = s.me.x ∧ t.me.v = s.me.v ∧ t.me.wt = s.me.wt ∧ t.me.cbuf = s.me.cbuf) ∧
      (bitOf ts 2 = true → m < 2 ^ 56 → u.fetchLine (m / 64 * 64) true = .ok tail w →
        isHeadOf tail.bytes m = true → w.me = s.me → ∃ t, exec .rett s = .next t ∧ t.me.pc = s.me.tpc ∧
        t.me.priv.code = ts % 4 ∧ t.me.rex = some (s.me.tres, bitOf ts 3) ∧ t.me.x = s.me.x ∧ t.me.wt = s.me.wt))

/-! System forms -/

/-- The system forms that user privilege may not run trap with cause 0x14 before anything else of theirs is looked at,
EVQ on a worker core is illegal for the others, and bad words trap with cause 5; HALT stops its slot with its
registers and weight kept, WFI waits unless an event is there, and EVQ takes the oldest record of the event queue or
says there is none (08_scalar_instructions.md R156, R159, R160, R162, R163). -/
def Obligations.SystemFormsCheckThenAct : Prop :=
  (∀ (s : State) (a b c : XReg), s.noResults →
    (s.me.priv = .user →
      exec (.tlbw a b c) s = .next (s.trapOpen 0x14) ∧ exec (.tlbi a) s = .next (s.trapOpen 0x14) ∧
      exec (.sdown a) s = .next (s.trapOpen 0x14) ∧ exec .halt s = .next (s.trapOpen 0x14) ∧
      exec .wfi s = .next (s.trapOpen 0x14) ∧ exec (.evq a b) s = .next (s.trapOpen 0x14)) ∧
    (s.me.priv ≠ .user → isService s.cur = false → exec (.evq a b) s = .next (s.illegal (.evq a b))) ∧
    (s.me.priv ≠ .user → entryBad (s.x a) (s.x b) = true → exec (.tlbw a b c) s = .next (s.trap 5 (s.x a))) ∧
    (s.me.priv ≠ .user → descBad (s.x a) = true →
      exec (.tlbi a) s = .next (s.trap 5 (s.x a)) ∧ exec (.sdown a) s = .next (s.trap 5 (s.x a)))) ∧
  (∀ (s : State) (a b : XReg), s.noResults → s.firstTime → s.me.priv ≠ .user →
    (s.me.occ = true → ∃ t, exec .halt s = .next t ∧ t.me.halted = true ∧ t.me.pc = s.me.npc ∧ t.me.x = s.me.x ∧
      t.me.wt = s.me.wt ∧ t.me.cbuf = s.me.cbuf) ∧
    (s.eventHolds (coreOf s.cur) = true → exec .wfi s = .next s.done) ∧
    (s.eventHolds (coreOf s.cur) = false → ∃ t, exec .wfi s = .next t ∧ t.me.park = .wfi ∧ t.me.pc = s.me.npc) ∧
    (isService s.cur = true → a ≠ b →
      ((s.clus (clusOf s.cur)).evq = [] → ∃ t, exec (.evq a b) s = .next t ∧ t.x a = 0 ∧
        t.x b = 0xFFFFFFFFFFFFFFFF ∧ t.me.pc = s.me.npc) ∧
      ∀ w0 w1 es, (s.clus (clusOf s.cur)).evq = (w0, w1) :: es → ∃ t, exec (.evq a b) s = .next t ∧ t.x a = w0 ∧
        t.x b = w1 ∧ (t.clus (clusOf s.cur)).evq = es ∧ t.me.pc = s.me.npc))

/-- TLBW puts its entry into the cluster's TLB in place of every one it overlaps; one that answers an open request
closes it, fills its waiter's own TLB too unless the request is stale, and the waiting slot goes on, with outcome 2 or
3 noted where V = 0; outcome 1 leaves the request open for a slot it does not abort, and V = 0 without a request does
nothing. TLBI takes the entries its descriptor matches out of the cluster and SDOWN out of every cluster that is not
gated, waiting for the acknowledgement; a slot whose buffer holds a reduction translated through such an entry commits
before (log entry 48, the model's choice). IPREF and IPIN hand their lines to the core's prefetch engine, and IUNPIN
releases the pins of its context (08_scalar_instructions.md R159 to R161; 02_main_memory.md R39, R42, R45, R46). -/
def Obligations.TranslationAndPrefetchFormsAct : Prop :=
  ∀ (s : State) (a b c : XReg) (lvl : Fin 2) (clus : Nat), s.noResults → clus = clusOf s.cur →
    (s.me.priv ≠ .user → entryBad (s.x a) (s.x b) = false → bitOf (s.x a).toNat 0 = true →
      (∀ r ∈ (s.clus clus).reqs, r.id ≠ fld (s.x c) 0 16) →
      ∃ t, exec (.tlbw a b c) s = .next t ∧
        (t.clus clus).tlb = entryOf (s.x a) (s.x b) ::
          (s.clus clus).tlb.filter (fun f => !(entryOf (s.x a) (s.x b)).overlaps f)) ∧
    (∀ (r : XlatReq) (w : XWaiter) (p id : Nat) (rest : List XlatReq), s.me.priv ≠ .user → id = fld (s.x c) 0 16 →
      entryBad (s.x a) (s.x b) = false → (s.clus clus).reqs.find? (·.id == id) = some r → r.waiters = [w] →
      w.who = .slot p → p ≠ s.cur → (s.slot p).park = .xlat →
      rest = (s.clus clus).reqs.filter (fun q => q.id ≠ id) →
      (bitOf (s.x a).toNat 0 = true → ∃ t, exec (.tlbw a b c) s = .next t ∧ (t.clus clus).reqs = rest ∧
        (t.slot p).park = .run ∧ (t.slot p).xres = none ∧
        (r.stale = true → (t.clus clus).tlb = (s.clus clus).tlb ∧ (t.core (coreOf p)).l1 = (s.core (coreOf p)).l1) ∧
        (r.stale = false → (t.clus clus).tlb = tlbPut (s.clus clus).tlb (entryOf (s.x a) (s.x b)) ∧
          (t.core (coreOf p)).l1 = tlbPut (s.core (coreOf p)).l1 (entryOf (s.x a) (s.x b)))) ∧
      (bitOf (s.x a).toNat 0 = false → id ≠ 0xFFFF →
        (∀ code, (code = 2 ∨ code = 3) → fld (s.x b) 0 4 = code → ∃ t, exec (.tlbw a b c) s = .next t ∧
          (t.clus clus).reqs = rest ∧ (t.clus clus).tlb = (s.clus clus).tlb ∧ (t.slot p).park = .run ∧
          (t.slot p).xres = some (w.va / 65536, code)) ∧
        (fld (s.x b) 0 4 = 1 → w.abortable = false → ∃ t, exec (.tlbw a b c) s = .next t ∧ (t.slot p).park = .xlat ∧
          (t.clus clus).tlb = (s.clus clus).tlb ∧ ((t.clus clus).reqs.map (·.id)) = (s.clus clus).reqs.map (·.id)))) ∧
    (s.me.priv ≠ .user → entryBad (s.x a) (s.x b) = false → bitOf (s.x a).toNat 0 = false →
      (∀ r ∈ (s.clus clus).reqs, r.id ≠ fld (s.x c) 0 16) → 1 ≤ fld (s.x b) 0 4 → fld (s.x b) 0 4 ≤ 3 →
      fld (s.x c) 0 16 ≠ 0xFFFF → exec (.tlbw a b c) s = .next s.done) ∧
    (s.me.priv ≠ .user → descBad (s.x a) = false →
      (∃ t, exec (.tlbi a) s = .next t ∧ t.me = s.done.me.dropLine (s.x a) ∧
        ∀ e, e ∈ (t.clus clus).tlb ↔ e ∈ (s.clus clus).tlb ∧ descHits (s.x a) e.tsid e.va (pageSize e.size) = false) ∧
      (s.redUses (s.x a) s.me = false → ∃ t, exec (.sdown a) s = .next t ∧ t.me.park = .sdown ∧
        t.sdowns = s.sdowns ++ [{ place := s.cur, ctx := s.me.ctx, desc := s.x a, acked := [] }] ∧
        ∀ k, (s.clus k).gated = false → ∀ e, e ∈ (t.clus k).tlb ↔
          e ∈ (s.clus k).tlb ∧ descHits (s.x a) e.tsid e.va (pageSize e.size) = false)) ∧
    (∃ t r, exec (.ipref a b lvl) s = .next t ∧ t.me = s.done.me ∧
      (t.core (coreOf s.cur)).prefetch = s.myCore.prefetch ++ r ∧
      (fld (s.x b) 0 32 = 0 → r = []) ∧
      (fld (s.x b) 0 32 ≠ 0 → ∃ q : Prefetch, r = [q] ∧ q.va = fld (s.x a) 6 50 * 64 ∧ q.count = fld (s.x b) 0 32 ∧
        q.cluster = (lvl = 1 : Bool) ∧ q.pin = false)) ∧
    (∃ t r, exec (.ipin a b lvl) s = .next t ∧ t.me = s.done.me ∧
      (t.core (coreOf s.cur)).prefetch = s.myCore.prefetch ++ r ∧
      (fld (s.x b) 0 32 = 0 → r = []) ∧
      (fld (s.x b) 0 32 ≠ 0 → ∃ q : Prefetch, r = [q] ∧ q.va = fld (s.x a) 6 50 * 64 ∧ q.count = fld (s.x b) 0 32 ∧
        q.cluster = (lvl = 1 : Bool) ∧ q.pin = true)) ∧
    ∃ t, exec (.iunpin a b lvl) s = .next t ∧ t.me = s.done.me ∧
      ∀ l ∈ (if lvl = 1 then (t.clus clus).icache else (t.core (coreOf s.cur)).icache), l.tsid = s.fetchSpace →
        (l.va + 2 ^ 56 - fld (s.x a) 6 50 * 64) % 2 ^ 56 / 64 < fld (s.x b) 0 32 → l.pinned ≠ some s.me.ctx


/-! Memory and vaults -/

/-- A scalar access whose address is not a multiple of its size traps with cause 3 and its address, and one to a vault
address with nonzero bits [29:24] or an offset outside the vault traps with cause 7; nothing is accessed
(09_memory_instructions.md R164 to R166). -/
def Obligations.BadAddressesTrap : Prop :=
  ∀ (s : State) (a b : XReg) (l : Look) (disp : BitVec 20) (sz : LoadSize) (tz : StoreSize) (f : Bool) (x n m : Nat)
    (o : Int),
    s.hasRoom → x = (s.x b).toNat → n = loadBytes sz → m = storeBytes tz → o = (x % 2 ^ 24 : Nat) + disp.toInt →
    (∀ e : Nat, e = ((((x % 2 ^ 56 : Nat) : Int) + disp.toInt) % 2 ^ 56).toNat →
      (e % n ≠ 0 → exec (.ld sz f a b l disp) s = .next (s.trap 3 (word e))) ∧
      (e % m ≠ 0 → exec (.st tz f a b disp) s = .next (s.trap 3 (word e)))) ∧
    ∀ e : Nat, e = ((((x / 2 ^ 24 % 2 ^ 16 * 2 ^ 24 : Nat) : Int) + o) % 2 ^ 40).toNat →
      (o % n ≠ 0 → exec (.ldv sz f a b l disp) s = .next (s.trap 3 (word e))) ∧
      (o % m ≠ 0 → exec (.stv tz f a b disp) s = .next (s.trap 3 (word e))) ∧
      (o % n = 0 → x / 2 ^ 24 % 2 ^ 6 ≠ 0 → exec (.ldv sz f a b l disp) s = .next (s.trap 7 (word (x % 2 ^ 40)))) ∧
      (o % m = 0 → x / 2 ^ 24 % 2 ^ 6 ≠ 0 → exec (.stv tz f a b disp) s = .next (s.trap 7 (word (x % 2 ^ 40)))) ∧
      (o % n = 0 → x / 2 ^ 24 % 2 ^ 6 = 0 → (o < 0 ∨ 0xC00000 ≤ o) →
        exec (.ldv sz f a b l disp) s = .next (s.trap 7 (word e))) ∧
      (o % m = 0 → x / 2 ^ 24 % 2 ^ 6 = 0 → (o < 0 ∨ 0xC00000 ≤ o) →
        exec (.stv tz f a b disp) s = .next (s.trap 7 (word e)))

/-- A scalar load delivers the bytes at its address, the lowest first, extended by zeros or by its sign
(09_memory_instructions.md R170); one whose port does not answer at once makes its request once, waits, and delivers the
bytes that the answer brings (03_crossbar.md R55, R61, R63). The state r is s after its translation. -/
def Obligations.ScalarLoadsReadLittleEndian : Prop :=
  ∀ (s : State) (vault : Bool) (sz : LoadSize) (acq : Bool) (a b : XReg) (l : Look) (disp : BitVec 20) (addr n : Nat)
    (p : Piece) (r : State) (i : Instr) (v : List Byte → Word), s.hasRoom → n = loadBytes sz →
    operand vault (s.x b) disp.toInt n n = .ok addr → s.locate .load vault addr n (tagOf (s.x b)) = .ok p r →
    i = (if vault then .ldv sz acq a b l disp else .ld sz acq a b l disp) →
    (v = fun bs => if sz = .bs ∨ sz = .hs ∨ sz = .ws then wrap64 (BitVec.ofNat (8 * n) (leNat bs)).toInt
      else word (leNat bs)) →
    (r.yields .load p → ∃ t : State, exec i s = .next (t.deliver l [.x a] (.ok [.x a (v (r.pieceBytes p))] {})) ∧
      Answered r t) ∧
    (vault = false → r.noneAsked → r.refusal p AKind.load.need = none → r.mustAsk p.at_ true = true →
      r.linkDown p.at_ = false → r.noCredit (shardOf (clusOf s.cur)) p.at_ = false →
      ∃ t : State, exec i s = .next t ∧ r.waitsFor t p (.load n)) ∧
    ∀ bs, vault = false → r.me.rans = [⟨p.at_, .load n, .data bs⟩] →
      ∃ t : State, exec i s = .next (t.deliver l [.x a] (.ok [.x a (v bs)] {})) ∧ Answered r t

/-- A scalar store writes the low bytes of its register, the lowest first, and no other byte, and goes to the next head
with every register as it was (09_memory_instructions.md R170). What it wrote is read where no request held at a port
touches its line; the bytes of main memory outside the store are compared where nothing waits at the port for it. A
store that its port holds makes its request once and waits (03_crossbar.md R61, R63), and a release waits first for the
slot's own reductions (16_ordering.md R309, R313). The state r is s after its translation. -/
def Obligations.ScalarStoresWriteLittleEndian : Prop :=
  ∀ (s r : State) (vault : Bool) (sz : StoreSize) (rel : Bool) (a b : XReg) (disp : BitVec 20) (addr n : Nat)
    (p : Piece) (i : Instr), i = (if vault then .stv sz rel a b disp else .st sz rel a b disp) →
    (rel = true → s.redsOpen s.cur false = true → exec i s = .next s) ∧
    (rel = false ∨ s.redsOpen s.cur false = false → n = storeBytes sz → operand vault (s.x b) disp.toInt n n = .ok addr →
    s.locate .store vault addr n (tagOf (s.x b)) = .ok p r →
    (vault = false → r.noneAsked → r.refusal p AKind.store.need = none → r.mustAsk p.at_ false = true →
      r.linkDown p.at_ = false → r.noCredit (shardOf (clusOf s.cur)) p.at_ = false →
      ∃ t : State, exec i s = .next t ∧ r.waitsFor t p (.store (leBytes n (s.x a).toNat))) ∧
    (s.canonical → r.yields .store p → r.plain p → ∃ t : State, exec i s = .next t.done ∧
      t.slots = r.slots ∧
      t.empty = s.empty ∧
      (vault = true → t.pieceBytes p = leBytes n (s.x a).toNat ∧ t.mem = s.mem ∧ Answered { r with vault := t.vault } t ∧
        ∀ k, k < p.at_ ∨ p.at_ + n ≤ k → readByte t.vault k = readByte s.vault k) ∧
      (vault = false → t.vault = s.vault ∧ (r.unheld p → t.pieceBytes p = leBytes n (s.x a).toNat) ∧ (r.quietLine p →
        t.xbar.wq = s.xbar.wq ∧ ∀ k, k < p.at_ ∨ p.at_ + n ≤ k → readByte t.mem k = readByte s.mem k))))

/-- The vector loads of whole vectors: every eight bytes are read at their address into their lane, a broadcast repeats
its element in every lane, and a half load clears the upper half (09_memory_instructions.md R175). The state r is s
after the translation. -/
def Obligations.VectorLoadsReadLanes : Prop :=
  ∀ (s : State) (acq : Bool) (a : VReg) (b : XReg) (l : Look) (disp : BitVec 20) (addr : Nat) (ps : List Piece)
    (r : State), s.hasRoom → (∀ p ∈ ps, r.yields .load p) →
    (operand false (s.x b) disp.toInt 8 64 = .ok addr →
      s.locateAll .load false (tagOf (s.x b)) (unitsFrom false addr 8 8) = .ok ps r →
      ∃ (t : State) (v : Vec), exec (.vld acq a b l disp) s = .next (t.deliver l [.v a] (.ok [.v a v] {})) ∧
        Answered r t ∧
        lanesOf 8 v = ps.map fun p => leNat (r.pieceBytes p)) ∧
    (operand true (s.x b) disp.toInt 8 64 = .ok addr →
      s.locateAll .load true (tagOf (s.x b)) (unitsFrom true addr 8 8) = .ok ps r →
      ∃ (t : State) (v : Vec), exec (.vldv a b l disp) s = .next (t.deliver l [.v a] (.ok [.v a v] {})) ∧
        exec (.vldvAcq a b l disp) s = .next (t.deliver l [.v a] (.ok [.v a v] {})) ∧ Answered r t ∧
        lanesOf 8 v = ps.map fun p => leNat (r.pieceBytes p)) ∧
    (operand false (s.x b) disp.toInt 8 8 = .ok addr → s.locateAll .load false (tagOf (s.x b)) [(addr, 8)] = .ok ps r →
      ∃ (t : State) (v : Vec), exec (.vldBc8 acq a b l disp) s = .next (t.deliver l [.v a] (.ok [.v a v] {})) ∧
        Answered r t ∧
        ∀ p ∈ ps, lanesOf 8 v = List.replicate 8 (leNat (r.pieceBytes p))) ∧
    (operand false (s.x b) disp.toInt 4 4 = .ok addr → s.locateAll .load false (tagOf (s.x b)) [(addr, 4)] = .ok ps r →
      ∃ (t : State) (v : Vec), exec (.vldBc4 acq a b l disp) s = .next (t.deliver l [.v a] (.ok [.v a v] {})) ∧
        Answered r t ∧
        ∀ p ∈ ps, lanesOf 4 v = List.replicate 16 (leNat (r.pieceBytes p))) ∧
    (operand false (s.x b) disp.toInt 8 32 = .ok addr →
      s.locateAll .load false (tagOf (s.x b)) (unitsFrom false addr 8 4) = .ok ps r →
      ∃ (t : State) (v : Vec), exec (.vldHalf acq a b l disp) s = .next (t.deliver l [.v a] (.ok [.v a v] {})) ∧
        Answered r t ∧
        lanesOf 8 v = (ps.map fun p => leNat (r.pieceBytes p)) ++ [0, 0, 0, 0])

/-- The vector stores of whole vectors write each of their units in order, and a predicated one only the bytes whose
predicate bit is set (09_memory_instructions.md R175); a release has none of the slot's own reductions to wait for. The
state r is s after the translation. -/
def Obligations.VectorStoresWriteUnits : Prop :=
  ∀ (s : State) (rel : Bool) (a : VReg) (b : XReg) (q : PReg) (disp : BitVec 20) (addr : Nat) (ps : List Piece)
    (us : List ((Nat × Nat) × List Byte)) (r : State) (done : Instr → Prop),
    (∀ p ∈ ps, r.yields .store p ps.length ∧ r.plain p) → s.redsOpen s.cur false = false →
    (done = fun i => ∃ t u : State, exec i s = .next t.done ∧ t.slots = r.slots ∧
      u = r.putPieces (ps.zip (us.map (·.2))) ∧ t.mem = u.mem ∧ t.vault = u.vault ∧ t.xbar = u.xbar ∧
        t.empty = s.empty) →
    (operand false (s.x b) disp.toInt 8 64 = .ok addr →
      s.locateAll .store false (tagOf (s.x b)) (us.map (·.1)) = .ok ps r →
      (us = (List.range 8).map (fun i => (((addr + i * 8) % 2 ^ 56, 8), leBytes 8 (lane 8 (s.v a) i))) →
        done (.vst rel a b disp)) ∧
      (us = (List.range 8).flatMap (fun i =>
          if fld (s.p q) (8 * i) 8 = 255 then [(((addr + 8 * i) % 2 ^ 56, 8), leBytes 8 (lane 8 (s.v a) i))]
          else (List.range 8).filterMap fun j => if bitOf (s.p q).toNat (8 * i + j) then
            some (((addr + 8 * i + j) % 2 ^ 56, 1), leBytes 1 (lane 1 (s.v a) (8 * i + j))) else none) →
        done (.vstPred rel a b q disp))) ∧
    (operand false (s.x b) disp.toInt 8 32 = .ok addr →
      s.locateAll .store false (tagOf (s.x b)) (us.map (·.1)) = .ok ps r →
      us = (List.range 4).map (fun i => (((addr + i * 8) % 2 ^ 56, 8), leBytes 8 (lane 8 (s.v a) i))) →
      done (.vstHalf rel a b disp)) ∧
    (operand true (s.x b) disp.toInt 8 64 = .ok addr →
      s.locateAll .store true (tagOf (s.x b)) (us.map (·.1)) = .ok ps r →
      us = (List.range 8).map (fun i => ((addr + i * 8, 8), leBytes 8 (lane 8 (s.v a) i))) →
      done (.vstv a b disp) ∧ done (.vstvRel a b disp))

/-- The strided and indexed forms: an active lane is read from, or written to, its own address, an inactive lane keeps
its value or writes nothing, and lanes are written in ascending order, so that the bytes of the highest stand
(09_memory_instructions.md R177). -/
def Obligations.StridedAndIndexedLanes : Prop :=
  ∀ (s : State) (w8 vault : Bool) (a c : VReg) (b k : XReg) (l : Look) (q : Option PReg) (w : Nat) (live : List Nat)
    (addr : Nat → Nat) (off : Nat → Int) (ps : List Piece) (r : State) (ld st : Instr),
    w = (if w8 then 8 else 4) → live = (List.range (64 / w)).filter (fun i => s.activeOpt q w i) →
    (off = (fun i : Nat => (i : Int) * sInt (s.x k)) ∧ ld = .vlds w8 a b k l vault q ∧ st = .vsts w8 a b k vault q ∨
      off = (fun i => (BitVec.ofNat (8 * w) (lane w (s.v c) i)).toInt) ∧ ld = .vgath w8 a b c l vault q ∧
        st = .vscat w8 a b c vault q) →
    (∀ i ∈ live, operand vault (s.x b) (off i) w w = .ok (addr i)) →
    (s.hasRoom → s.locateAll .load vault (tagOf (s.x b)) (live.map fun i => (addr i, w)) = .ok ps r →
      (∀ p ∈ ps, r.yields .load p) →
      ∃ (t : State) (v : Vec), exec ld s = .next (t.deliver l [.v a] (.ok [.v a v] {})) ∧ Answered r t ∧
        (∀ x ∈ live.zip ps, lane w v x.1 = leNat (r.pieceBytes x.2)) ∧
        ∀ i, i < 64 / w → i ∉ live → lane w v i = lane w (s.v a) i) ∧
    (s.locateAll .store vault (tagOf (s.x b)) (live.map fun i => (addr i, w)) = .ok ps r →
      (∀ p ∈ ps, r.yields .store p ps.length ∧ r.plain p) →
      ∃ t u : State, exec st s = .next t.done ∧ t.slots = r.slots ∧ t.empty = s.empty ∧
        u = r.putPieces (ps.zip (live.map fun i => leBytes w (lane w (s.v a) i))) ∧
        t.mem = u.mem ∧ t.vault = u.vault ∧ t.xbar = u.xbar)

/-- The format-decoding forms, of a pointer whose tag names a legal format and whose elements are reached: each active
lane of a load is its element, decoded with its block's header and converted under FRMODE; a store writes the converted
lanes, under the standing headers where the format is blocked, and raises their flags: elements of whole bytes at their
places, and narrower ones over their bits of the standing bytes, span by span, so that no other bit of them changes
(09_memory_instructions.md R178; 01_formats.md R13, R20, R22, R27). That headers are read and bytes merged under the
permission of the store alone is the model's reading (log entry 39), and so are the flags of an element of a standing
block, and its bits where its scale is 0xFF, zero or no finite number (log entries 15, 43). The states r and r' are s
after the translations of the headers and of the elements. -/
def Obligations.FormatDecodingAccesses : Prop :=
  ∀ (s : State) (half vault sat : Bool) (a : VReg) (b c : XReg) (l : Look) (q : Option PReg) (w f lg e : Nat)
    (live els : List Nat) (hs es : List (Nat × List Piece)) (r r' : State)
    (bytesOf : List (Nat × List Piece) → SpanBytes) (x : Word) (raw : Nat → Nat × FFlags) (merge : Nat → Nat → Nat →
      Nat),
    x = s.x b → f = x.toNat / 2 ^ 59 → lg = x.toNat / 2 ^ 56 % 8 → e = (s.x c).toNat → w = (if half then 2 else 4) →
    live = (List.range (64 / w)).filter (fun i => s.activeOpt q w i) → els = live.map (e + ·) →
    f ≠ 0 → tagLegal f lg = true → (if vault then x.toNat % 2 ^ 40 else x.toNat % 2 ^ 56) % formatAlign f lg = 0 →
    (vault = true → ∀ u ∈ (headerSpans f lg els ++ elementSpans f lg els).flatMap spanUnits,
      ∃ n, vaultOperand x u.1 1 u.2 = .ok n) →
    (bytesOf = fun m => m.map fun y => (y.1, (y.2.map r'.pieceBytes).flatten)) → anyHeaderBad f (bytesOf hs) = false →
    (s.hasRoom → s.locateSpans .load vault x (headerSpans f lg els) = .ok hs r →
      r.locateSpans .load vault x (elementSpans f lg els) = .ok es r' →
      (∀ y ∈ hs ++ es, ∀ p ∈ y.2, r'.yields .load p) →
      ∃ (t : State) (v : Vec) (fl : FFlags), exec (if half then .vldfh a b c l vault q else .vldf a b c l vault q) s =
          .next (t.deliver l [.v a] (.ok [.v a v] fl)) ∧ Answered r' t ∧
        fl = flagsOf (live.map fun i => ((if half then fp16 else fp32).convert s.me.frmode false
          (elementValue f lg (bytesOf hs) (bytesOf es) (e + i))).2) ∧
        (∀ i, i < 64 / w → lane w v i = if i ∈ live then
          ((if half then fp16 else fp32).convert s.me.frmode false
            (elementValue f lg (bytesOf hs) (bytesOf es) (e + i))).1 % 2 ^ (8 * w) else lane w (s.v a) i)) ∧
    (s.locateSpans .store vault x (headerSpans f lg els) = .ok hs r →
      r.locateSpans .store vault x (elementSpans f lg els) = .ok es r' → (∀ y ∈ hs, ∀ p ∈ y.2, r'.yields .store p) →
      (∀ y ∈ es, ∀ p ∈ y.2, r'.yields .store p (es.flatMap (·.2)).length ∧ r'.plain p) →
      (raw = fun i => if lg = 0 then convertElem (if half then 3 else 1) f s.me.frmode sat (lane w (s.v a) i)
        else encodeInBlock f (spanNat (bytesOf hs) (headerOffset f lg (e + i))) s.me.frmode
          (decodeValue (if half then 3 else 1) 0 (lane w (s.v a) i))) →
      (∀ o n old j, (merge o n old).testBit j = match live.find? fun i => decide (elementSpan f lg (e + i) = (o, n)) &&
          decide ((elementAddress f lg (e + i)).2 ≤ j) && decide (j < (elementAddress f lg (e + i)).2 + elementBits f) with
        | some i => (raw i).1.testBit (j - (elementAddress f lg (e + i)).2)
        | none => old.testBit j) →
      ∃ t u : State, exec (.vstf half a b c sat vault q) s = .next t.done ∧ t.empty = s.empty ∧
        (8 ≤ elementBits f → u = r'.putPieces ((es.flatMap (·.2)).zip (live.map fun i =>
          leBytes (elementBits f / 8) (raw i).1))) ∧
        (elementBits f < 8 → u = es.foldl (fun u y =>
          let n := (y.2.map (·.n)).sum
          let bs := leBytes n (merge y.1 n (leNat (y.2.flatMap u.pieceBytes)))
          u.putPieces (y.2.zip (if n = 3 then bs.map ([·]) else [bs]))) r') ∧
        t.mem = u.mem ∧ t.vault = u.vault ∧ t.xbar.wq = u.xbar.wq ∧ t.xbar.ingress = u.xbar.ingress ∧
        t.me = r'.me.raise (flagsOf (live.map fun i => (raw i).2)))

/-- The tagged forms, each in one step at its bank: the word and the tag they read, write and leave, where no request is
held at the cluster's banks; a form that waits for its tag is held (09_memory_instructions.md R171, R172). A single-bit
error of the word is corrected (04_vaults.md R71). The state u is s after the slot committed. -/
def Obligations.TaggedFormsReadAndSetTags : Prop :=
  ∀ (s u : State) (a b c : XReg) (l : Look) (disp : BitVec 20) (addr key : Nat) (full : Bool) (w : Word),
    s.hasRoom → vaultOperand (s.x b) disp.toInt 8 8 = .ok addr → key = vaultKey (clusOf s.cur) addr → a ≠ c →
    s.commitStops s.cur = false → s.commitAt s.cur = (none, u) → u.canonical → u.cur = s.cur →
    (∀ r, r = s ∨ r = u → (∀ n, r.vaultRefusal (clusOf r.cur) r.me.ctx key n = none) ∧ r.poisonArmed key = false ∧
      (∀ k ∈ wordsAt key 8, kget false r.flaws k = false) ∧ full = r.isFull key ∧ w = r.getWord key) →
    (u.clus (key / 2 ^ 24)).held = [] →
    (∃ t : State, exec (.tagrd a b l disp) s = .next (t.deliver l [.x a] (.ok [.x a (if full then 1 else 0)] {})) ∧
      Answered s t) ∧
    (full = true →
      (∃ t : State, exec (.ldf a b l disp) s = .next (t.deliver l [.x a] (.ok [.x a w] {})) ∧ Answered s t) ∧
      (∃ t : State, exec (.ldfe a b l disp) s = .next (t.deliver l [.x a] (.ok [.x a w] {})) ∧ t.isFull key = false ∧
        Answered { u with empty := t.empty } t) ∧
      (∃ t : State, exec (.ldft a c b l disp) s = .next (t.deliver l [.x a, .x c] (.ok [.x a w, .x c 1] {})) ∧
        t.isFull key = false ∧ Answered { u with empty := t.empty } t)) ∧
    (full = false →
      (∃ t : State, exec (.ldft a c b l disp) s = .next (t.deliver l [.x a, .x c] (.ok [.x c 0] {})) ∧ Answered u t) ∧
      (∃ t : State, exec (.ste a b disp) s = .next t ∧ t.isFull key = true ∧ t.getWord key = s.x a ∧ t.me = u.done.me) ∧
      ∃ t : State, exec (.ldf a b l disp) s = .next t ∧ t.vault = s.vault ∧ t.empty = s.empty ∧
        (t.clus (key / 2 ^ 24)).held.length = (s.clus (key / 2 ^ 24)).held.length + 1 ∧
        (l.val = 0 → t.me.park = .bank ∧ t.me.pc = s.me.pc)) ∧
    (∃ t : State, exec (.stf a b disp) s = .next t ∧ t.isFull key = true ∧ t.getWord key = s.x a ∧ t.me = u.done.me) ∧
    (∃ t : State, exec (.tagsetf b disp) s = .next t ∧ t.isFull key = true ∧ t.vault = u.vault ∧ t.me = u.done.me) ∧
    ∃ t : State, exec (.tagsete b disp) s = .next t ∧ t.isFull key = false ∧ t.vault = u.vault ∧ t.me = u.done.me

/-- AMO and CAS return the old element, zero-extended, and write the new one that their operation gives, once the slot
has committed (09_memory_instructions.md R167, R181, R183). The state r is s after the translation, and u after the
slot committed. The bytes that lie outside are compared where nothing waits at the port for its line (03_crossbar.md
R60, R63). An AMO or CAS of main memory that its port cannot perform at once, since it holds requests, its write queue
is full or it is at another package, makes its request there once, and its head waits for the answer, which gives it
the old value. That the slot has committed by then, with its own buffered reductions performed, is the model's reading
(log entry 23). -/
def Obligations.AtomicsReturnOldAndWriteNew : Prop :=
  (∀ (s r u : State) (a b c : XReg) (l : Look) (ord : AmoOrd) (d8 vault facq : Bool) (addr n old cop : Nat) (p : Piece)
    (i : Instr) (new : Nat), s.hasRoom → n = (if d8 then 8 else 4) →
    operand vault (s.x b) 0 n n = .ok addr → s.locate .atomic vault addr n (tagOf (s.x b)) = .ok p r →
    r.commitStops r.cur = false → r.commitAt r.cur = (none, u) → u.canonical → u.cur = s.cur → u.yields .atomic p →
    (vault = false → u.unheld p) →
    old = leNat (u.pieceBytes p) → cop = (s.x c).toNat % 2 ^ (8 * n) →
    (i = .amoSwap a b c l ord d8 vault ∧ new = cop ∨
      i = .amoAdd a b c l ord d8 vault ∧ new = (old + cop) % 2 ^ (8 * n) ∨
      i = .amoAnd a b c l ord d8 vault ∧ new = old &&& cop ∨
      i = .amoOr a b c l ord d8 vault ∧ new = old ||| cop ∨
      i = .amoXor a b c l ord d8 vault ∧ new = old ^^^ cop ∨
      i = .amoMin a b c l ord d8 vault ∧
        new = (if (BitVec.ofNat (8 * n) cop).toInt < (BitVec.ofNat (8 * n) old).toInt then cop else old) ∨
      i = .amoMax a b c l ord d8 vault ∧
        new = (if (BitVec.ofNat (8 * n) old).toInt < (BitVec.ofNat (8 * n) cop).toInt then cop else old) ∨
      i = .amoMinN a b c l ord d8 vault ∧ new = Nat.min old cop ∨
      i = .amoMaxN a b c l ord d8 vault ∧ new = Nat.max old cop ∨
      i = .amoIncw a b c l ord d8 vault ∧ new = (if cop ≤ old then 0 else old + 1) ∨
      i = .amoBfadd a b c l ord d8 vault ∧
        new = (if (s.x c).toNat / 2 ^ 32 ≤ old then old
          else Nat.min (old + (s.x c).toNat % 2 ^ 32) ((s.x c).toNat / 2 ^ 32)) ∨
      i = .cas a b c l ord facq d8 vault ∧ new = (if old = (s.x a).toNat % 2 ^ (8 * n) then cop else old)) →
    ∃ t : State, exec i s = .next (t.deliver l [.x a] (.ok [.x a (word old)] {})) ∧ t.slots = u.slots ∧
      t.pieceBytes p = leBytes n new ∧ t.empty = u.empty ∧
      (vault = true → t.mem = u.mem ∧ ∀ k, k < p.at_ ∨ p.at_ + n ≤ k → readByte t.vault k = readByte u.vault k) ∧
      (vault = false → t.vault = u.vault ∧
        (u.quietLine p → ∀ k, k < p.at_ ∨ p.at_ + n ≤ k → readByte t.mem k = readByte u.mem k))) ∧
  (∀ (s r u : State) (a b c : XReg) (l : Look) (ord : AmoOrd) (d8 facq : Bool) (addr n : Nat) (p : Piece) (i : Instr)
    (op : PortOp) (f : AmoOp), s.hasRoom → n = (if d8 then 8 else 4) → operand false (s.x b) 0 n n = .ok addr →
    s.locate .atomic false addr n (tagOf (s.x b)) = .ok p r → r.commitStops r.cur = false →
    r.commitAt r.cur = (none, u) → u.cur = s.cur →
    (i = .amoSwap a b c l ord d8 false ∧ f = .swap ∨ i = .amoAdd a b c l ord d8 false ∧ f = .add ∨
      i = .amoAnd a b c l ord d8 false ∧ f = .and ∨ i = .amoOr a b c l ord d8 false ∧ f = .or ∨
      i = .amoXor a b c l ord d8 false ∧ f = .xor ∨ i = .amoMin a b c l ord d8 false ∧ f = .min ∨
      i = .amoMax a b c l ord d8 false ∧ f = .max ∨ i = .amoMinN a b c l ord d8 false ∧ f = .minN ∨
      i = .amoMaxN a b c l ord d8 false ∧ f = .maxN ∨ i = .amoIncw a b c l ord d8 false ∧ f = .incw ∨
      i = .amoBfadd a b c l ord d8 false ∧ f = .bfadd) ∧ op = .amo f d8 (s.x c) ∨
      i = .cas a b c l ord facq d8 false ∧ op = .cas d8 (s.x a) (s.x c) →
    (u.noneAsked → u.refusal p AKind.atomic.need = none → u.mustAsk p.at_ false = true → u.linkDown p.at_ = false →
      u.noCredit (shardOf (clusOf s.cur)) p.at_ = false → ∃ t : State, exec i s = .next t ∧ u.waitsFor t p op) ∧
    (∀ bs, u.me.rans = [⟨p.at_, op, .data bs⟩] → ∃ t : State,
      exec i s = .next (t.deliver l [.x a] (.ok [.x a (word (leNat bs))] {})) ∧ Answered u t) ∧
    (r.me.irrev = true → r.me.cbuf = [] → r.me.cfail = none → u = r))

/-- A reduction before the commit point is held in the commit buffer, and traps with cause 0x13 when the buffer is
full; after it, it is performed at once, or made at its port where that cannot perform it at once, and its head goes
on; its effect on main memory is read where nothing else waits at the port for its line; its release waits for the
slot's own reductions (09_memory_instructions.md R185, R187; 16_ordering.md R313). The state r is s after the
translation. Every fence ends the open windows and goes on, but that a release or full fence of package scope waits for
the slot's own reductions in the package, and one of scope 6 for those at other packages too; FENCE.eng goes on once
the engines have finished and waits at its head until then (R188; 16_ordering.md R309, R317, R324). A slot performs its
accesses in program order, so that a fence of acquire has nothing to wait for (log entry 6). -/
def Obligations.ReductionsAndFences : Prop :=
  (∀ (s r : State) (b c : XReg) (rel d8 vault : Bool) (addr n old cop new : Nat) (p : Piece) (i : Instr) (op : RedOp),
    s.canonical → operand vault (s.x b) 0 n n = .ok addr → s.locate .atomic vault addr n (tagOf (s.x b)) = .ok p r →
    n = (if d8 then 8 else 4) → old = leNat (r.pieceBytes p) → cop = (s.x c).toNat % 2 ^ (8 * n) →
    (i = .redAdd b c rel d8 vault ∧ op = .add ∧ new = (old + cop) % 2 ^ (8 * n) ∨
      i = .redAnd b c rel d8 vault ∧ op = .and ∧ new = old &&& cop ∨
      i = .redOr b c rel d8 vault ∧ op = .or ∧ new = old ||| cop ∨
      i = .redXor b c rel d8 vault ∧ op = .xor ∧ new = old ^^^ cop ∨
      i = .redMin b c rel d8 vault ∧ op = .min ∧
        new = (if (BitVec.ofNat (8 * n) cop).toInt < (BitVec.ofNat (8 * n) old).toInt then cop else old) ∨
      i = .redMax b c rel d8 vault ∧ op = .max ∧
        new = (if (BitVec.ofNat (8 * n) old).toInt < (BitVec.ofNat (8 * n) cop).toInt then cop else old) ∨
      i = .redMinN b c rel d8 vault ∧ op = .minN ∧ new = Nat.min old cop ∨
      i = .redMaxN b c rel d8 vault ∧ op = .maxN ∧ new = Nat.max old cop ∨
      d8 = false ∧ i = .redFadd32 b c rel vault ∧ op = .fadd32 ∧ new = (fp32.add .rne old cop).1 ∨
      d8 = false ∧ i = .redFmax32 b c rel vault ∧ op = .fmax32 ∧ new = (fp32.minmax true old cop).1 ∨
      d8 = false ∧ i = .redFmin32 b c rel vault ∧ op = .fmin32 ∧ new = (fp32.minmax false old cop).1) →
    (rel = true → s.redsOpen s.cur false = true → exec i s = .next s) ∧
    (rel = false ∨ s.redsOpen s.cur false = false →
    (s.me.irrev = false → s.me.cbuf.length < 32 → exec i s = .next ((r.setMe { r.me with cbuf := s.me.cbuf ++
      [.red ⟨vault, p.at_, p.tval, op, d8, s.x c, shardOf (clusOf s.cur)⟩] }).done)) ∧
    (s.me.irrev = false → 32 ≤ s.me.cbuf.length → exec i s = .next (r.trapOpen 0x13)) ∧
    (vault = false → s.me.irrev = true → s.me.late = none → r.refusal p AKind.atomic.need = none →
      r.linkDown p.at_ = false → r.mustAsk p.at_ false = true → r.noCredit (shardOf (clusOf s.cur)) p.at_ = false →
      ∃ t u : State, u = r.askUnit (r.slotReq s.cur p (.red op d8 (s.x c))) ∧ exec i s = .next t ∧ t.me = r.done.me ∧
        t.xbar = u.xbar ∧ t.links = u.links ∧ t.mem = s.mem) ∧
    (s.me.irrev = true → s.me.late = none → r.yields .atomic p →
      ∃ t : State, exec i s = .next t ∧ t.me = r.done.me ∧ t.empty = s.empty ∧
        (vault = true → t.pieceBytes p = leBytes n new ∧ t.mem = s.mem ∧
          ∀ k, k < p.at_ ∨ p.at_ + n ≤ k → readByte t.vault k = readByte s.vault k) ∧
        (vault = false → t.vault = s.vault ∧ (r.quietLine p → t.pieceBytes p = leBytes n new))))) ∧
  (∀ (s : State) (sc : Scope) (waits : Prop), s.noResults →
    (waits ↔ sc = .system ∧ s.redsOpen s.cur true = true ∨ sc = .package ∧ s.redsOpen s.cur false = true) →
    exec (.fenceAcq sc) s = .next s.done ∧
    (¬waits → exec (.fenceRel sc) s = .next s.done ∧ exec (.fenceFull sc) s = .next s.done ∧
      (s.enginesIdle = true → exec (.fenceEng sc) s = .next s.done)) ∧
    (waits → exec (.fenceRel sc) s = .next s ∧ exec (.fenceFull sc) s = .next s ∧ exec (.fenceEng sc) s = .next s) ∧
    (s.enginesIdle = false → exec (.fenceEng sc) s = .next s))

/-- The forms that only read main memory or a vault change no byte of either and no tag, and no register but their
destinations, the pc and, where they trap, what a trap saves; a form that waits keeps its registers
(09_memory_instructions.md R165, R170, R175, R177, R178, R179). -/
def Obligations.LoadFormsFrame : Prop :=
  ∀ (i : Instr) (w : Writes) (s t : State), readsOf i = some w → s.noResults → s.noInjection → exec i s = .next t →
    t.mem = s.mem ∧ t.vault = s.vault ∧ t.empty = s.empty ∧ t.regs = s.regs ∧ t.cur = s.cur ∧
    (∀ r, r ∉ w.xs → t.x r = s.x r) ∧ (∀ r, r ∉ w.vs → t.v r = s.v r) ∧ t.me.p = s.me.p ∧ t.me.h = s.me.h ∧
    t.me.tok = s.me.tok ∧ t.me.shadow = s.me.shadow ∧ t.me.wt = s.me.wt ∧ t.me.cbuf = s.me.cbuf ∧
    t.me.irrev = s.me.irrev ∧ (w.flags = false → t.me.fflags = s.me.fflags) ∧
    (t.clk.traps = s.clk.traps → t.me.priv = s.me.priv ∧ t.me.tpc = s.me.tpc ∧ t.me.tcause = s.me.tcause ∧
      t.me.tval = s.me.tval ∧ t.me.twt = s.me.twt ∧ t.me.tstate = s.me.tstate ∧ t.me.tres = s.me.tres) ∧
    ∀ q, q ≠ s.cur → t.slot q = s.slot q ∨ t.slot q = { s.slot q with park := .run }


/-! Copies and tokens -/

/-- CPWR writes a shadow register, CPRD reads one, CPST tells whether a transfer is live, kept with its status, or
unknown, and CPGO launches the shadow registers as a transfer with a fresh identifier, bound to its token, where they
pass their checks (06_copy_and_galleys.md R103, R105; 09_memory_instructions.md R190); while the inbox is full it waits
in place, as an outstanding result where it has a lookahead. With GU set the slot commits first: here it has committed.
It waits for the slot's own reductions too, since a launch is a release (16_ordering.md R309, R313). -/
def Obligations.CopyFormsLaunchAndReport : Prop :=
  ∀ (s : State) (a b : XReg) (k : Fin 8) (j : Tok) (l : Look) (c : ClusSt), c = s.clus (clusOf s.cur) →
    (∃ t : State, exec (.cpwr k b) s = .next t ∧ t.me.shadow.get k = s.x b ∧
      (∀ m, m ≠ k → t.me.shadow.get m = s.me.shadow.get m) ∧ t.me.x = s.me.x) ∧
    exec (.cprd a k) s = .next (s.doneX a (s.me.shadow.get k)) ∧
    (∀ n, n = (s.x b).toNat % 2 ^ 16 →
      ((∃ x ∈ c.transfers, x.id = n) → exec (.cpst a b) s = .next (s.doneX a 0xFF)) ∧
      ((∀ x ∈ c.transfers, x.id ≠ n) → (∀ y ∈ c.kept, y.1 ≠ n) → exec (.cpst a b) s = .next (s.doneX a 0xFE)) ∧
      ∀ st rest, (∀ x ∈ c.transfers, x.id ≠ n) → c.kept = (n, st) :: rest →
        exec (.cpst a b) s = .next (s.doneX a (word st))) ∧
    (s.hasRoom → shadowFault s.me.shadow ≠ 0 →
      exec (.cpgo a j l) s = .next (s.trap 0x10 (word (shadowFault s.me.shadow)))) ∧
    (s.hasRoom → shadowFault s.me.shadow = 0 → (s.me.tok.get j).isPending = true →
      exec (.cpgo a j l) s = .next (s.trap 0x0E (word j.val))) ∧
    (s.hasRoom → shadowFault s.me.shadow = 0 → (s.me.tok.get j).isPending = false → c.inboxFull = true →
      (l.val = 0 → exec (.cpgo a j l) s = .next s) ∧
      (l.val ≠ 0 → s.firstTime → bitOf (s.me.shadow.get 5).toNat 7 = false → s.redsOpen s.cur false = false →
        ∃ (t : State) (x : Transfer),
        exec (.cpgo a j l) s = .next (t.deliver l [.x a] .waiting) ∧ (t.clus (clusOf s.cur)).copies = c.copies ∧
        (t.clus (clusOf s.cur)).entering = c.entering ++ [(x, s.me.pc, a)] ∧ x.regs = s.me.shadow)) ∧
    (s.hasRoom → shadowFault s.me.shadow = 0 → (s.me.tok.get j).isPending = false → c.inboxFull = false →
      s.redsOpen s.cur false = false → (bitOf (s.me.shadow.get 5).toNat 7 = true → s.hasCommitted) →
      ∃ (t : State) (x : Transfer), exec (.cpgo a j l) s = .next (t.deliver l [.x a] (.ok [.x a (word x.id)] {})) ∧
        (t.clus (clusOf s.cur)).copies = c.copies ++ [x] ∧ x.place = s.cur ∧ x.act = s.me.act ∧
        x.regs = s.me.shadow ∧ x.tsid = (s.ctxOf s.me.ctx).tsid ∧ x.id < 65536 ∧
        (c.transfers.length < 65000 → x.id ≠ 0xFFFF ∧ ∀ y ∈ c.transfers, y.id ≠ x.id) ∧
        t.me = { s.me with tok := t.me.tok } ∧ t.me.tok.get j = .pending (.copy x.id) ∧
        ∀ i, i ≠ j → t.me.tok.get i = s.me.tok.get i)

/-- WAIT and WAITANY by the state of the masked tokens: go on, wait, or trap with the fault of the lowest, or of the
first in rotation; TKST shows every token and observes no completion, TKREL and TKCLR unbind (06_copy_and_galleys.md
R107, R109 to R111; 09_memory_instructions.md R191; 16_ordering.md R323). -/
def Obligations.TokenFormsWaitAndReport : Prop :=
  ∀ (s : State) (a : XReg) (mask : BitVec 8) (j : Fin 8) (src : TokSrc) (code : Nat), s.noResults →
    ((∀ i : Fin 8, mask.getLsbD i.val = true → (s.me.tok.get i).code = 0 ∨ (s.me.tok.get i).code = 2) →
      ∃ t : State, exec (.wait mask) s = .next t.done ∧ Noted s t) ∧
    (mask.getLsbD j.val = true → s.me.tok.get j = .pending src → exec (.wait mask) s = .next s) ∧
    ((∀ i : Fin 8, mask.getLsbD i.val = true → (s.me.tok.get i).code ≠ 1) → mask.getLsbD j.val = true →
      s.me.tok.get j = .faulted src code →
      (∀ i : Fin 8, i < j → mask.getLsbD i.val = true → (s.me.tok.get i).code ≠ 3) →
      exec (.wait mask) s = .next (s.trap src.cause (word (code * 256 + j.val)))) ∧
    ((∀ i : Fin 8, mask.getLsbD i.val = true → s.me.tok.get i = .unbound) →
      exec (.waitany a mask) s = .next (s.doneX a 0xFFFFFFFFFFFFFFFF)) ∧
    (mask.getLsbD j.val = true →
      (∀ i : Fin 8, (i - s.me.wstart).val < (j - s.me.wstart).val → mask.getLsbD i.val = true →
        (s.me.tok.get i).code < 2) →
      (s.me.tok.get j = .complete src →
        ∃ t : State, exec (.waitany a mask) s = .next ((t.setMe { s.me with wstart := j + 1 }).doneX a (word j.val)) ∧
          Noted s t) ∧
      (s.me.tok.get j = .faulted src code →
        exec (.waitany a mask) s = .next (s.trap src.cause (word (code * 256 + j.val))))) ∧
    (mask.getLsbD j.val = true → s.me.tok.get j = .pending src →
      (∀ i : Fin 8, mask.getLsbD i.val = true → (s.me.tok.get i).code < 2) → exec (.waitany a mask) s = .next s) ∧
    (∃ w : Word, exec (.tkst a) s = .next (s.doneX a w) ∧ w.toNat < 65536 ∧
      ∀ i : Fin 8, w.toNat / 4 ^ i.val % 4 = (s.me.tok.get i).code) ∧
    (∃ t : State, exec (.tkrel mask) s = .next t ∧ t.me.pc = s.done.me.pc ∧
      ∀ i : Fin 8, t.me.tok.get i = if mask.getLsbD i.val then .unbound else s.me.tok.get i) ∧
    ∃ t : State, exec .tkclr s = .next t ∧ t.me.pc = s.done.me.pc ∧ ∀ i : Fin 8, t.me.tok.get i = .unbound

/-! Galleys and the matrix queue -/

/-- The GAL forms on the record at the address they name: GINIT activates it, GINIT.off retires it, GARR counts its
bytes and its arrival and turns the phase of a slot that is full, GEXP sets what a free slot expects, GREL frees a slot
(06_copy_and_galleys.md R112 to R115; 09_memory_instructions.md R192, R193). The state u is s after the slot
committed, and r after the unit read the record at its banks; a record read as poison traps (04_vaults.md R71;
18_faults_and_preemption.md R344). -/
def Obligations.GalleyFormsUpdateRecord : Prop :=
  ∀ (s u r : State) (b c d : XReg) (od : Option XReg) (addr clus ofs key k n w v : Nat) (tv : Word) (bad : Bool),
    vaultOperand (s.x b) 0 128 128 = .ok addr → clus = vaultKey (clusOf s.cur) addr / 2 ^ 24 → ofs = addr % 2 ^ 24 →
    key = clus * 2 ^ 24 + ofs → s.commitStops s.cur = false → s.commitAt s.cur = (none, u) → u.cur = s.cur →
      u.canonical → tv = word ((s.x b).toNat % 2 ^ 40) → u.galBank key tv = (bad, r) →
    (bad = true → u.vaultGate (clusOf u.cur) u.me.ctx clus = none → ∀ t,
      t = (r.logError s.cur 5 tv).trapNR 5 (poisonTval tv) →
      exec (.garr b c od) s = .next t ∧ exec (.gexp b c d) s = .next t ∧ exec (.grel b c) s = .next t ∧
      (clus = clusOf s.cur → exec (.ginit b) s = .next t ∧ exec (.ginitOff b) s = .next t)) ∧
    (bad = false → clus = clusOf s.cur → r.ginitBad clus ofs = false → ∃ t : State, exec (.ginit b) s = .next t ∧
      t.gActive clus ofs = true ∧ bitOf (t.gHeader key) 0 = true ∧ gFlt (t.gHeader key) = false ∧
      gTsid (t.gHeader key) = (u.ctxOf u.me.ctx).tsid ∧ t.mem = u.mem ∧
      ∀ a, a < key ∨ key + 128 ≤ a → readByte t.vault a = readByte u.vault a) ∧
    (bad = false → clus = clusOf s.cur → r.gActive clus ofs = true → gTsid (r.gHeader key) = r.tsidOf r.me →
      exec (.ginitOff b) s = .next (r.ginitOff clus ofs).done) ∧
    (clus ≠ clusOf s.cur → exec (.ginit b) s = .next (s.trap 0x0F tv) ∧
      exec (.ginitOff b) s = .next (s.trap 0x0F tv)) ∧
    (bad = false → u.vaultGate (clusOf u.cur) u.me.ctx clus = none → r.gActive clus ofs = true →
      gTsid (r.gHeader key) = r.tsidOf r.me → gFlt (r.gHeader key) = false → w = r.gWord key k →
      k = (s.x c).toNat % gSlots (r.gHeader key) →
      (n = (match od with | some x => (s.x x).toNat | none => 0) → nfld w 51 2 ≤ 1 → nfld w 25 19 + n ≤ nfld w 0 19 →
        nfld w 44 6 < nfld w 19 6 →
        ∃ (t : State) (w' : Nat), exec (.garr b c od) s = .next t.done ∧ w' = t.gWord key k ∧
          nfld w' 25 19 = nfld w 25 19 + n ∧ nfld w' 44 6 = nfld w 44 6 + 1 ∧ nfld w' 0 25 = nfld w 0 25 ∧
          if nfld w 25 19 + n = nfld w 0 19 ∧ nfld w 44 6 + 1 = nfld w 19 6 then
            nfld w' 51 2 = 2 ∧ nfld w' 50 1 = 1 - nfld w 50 1 else nfld w' 51 2 = 1 ∧ nfld w' 50 1 = nfld w 50 1) ∧
      (v = (s.x d).toNat → v / 2 ^ 25 = 0 → v ≠ 0 → nfld v 0 19 ≤ gSize (r.gHeader key) → nfld w 51 2 = 0 →
        nfld w 25 19 = 0 → nfld w 44 6 = 0 →
        ∃ t : State, exec (.gexp b c d) s = .next t.done ∧ nfld (t.gWord key k) 0 25 = v ∧
          nfld (t.gWord key k) 25 31 = nfld w 25 31) ∧
      (nfld w 51 2 ≤ 2 → nfld w 0 25 ≠ 0 → ∃ t : State, exec (.grel b c) s = .next t.done ∧
        nfld (t.gWord key k) 51 2 = 0 ∧ nfld (t.gWord key k) 25 25 = 0 ∧ nfld (t.gWord key k) 0 25 = nfld w 0 25 ∧
        nfld (t.gWord key k) 50 1 = nfld w 50 1))

/-- GWAIT binds its token to the phase of a slot, complete where the slot is full in that phase and faulted in a galley
in fault; GTEST reads state, phase and fault; an inactive record traps with cause 0x0F, and one read as poison with
cause 5 (06_copy_and_galleys.md R116; 09_memory_instructions.md R192, R193; 18_faults_and_preemption.md R344). The
state r is s after the unit read the record at its banks. -/
def Obligations.GalleyFormsObserveRecord : Prop :=
  ∀ (s r : State) (a b c : XReg) (j : Tok) (ph bad : Bool) (addr clus ofs key k st : Nat) (w : Nat) (tv : Word),
    vaultOperand (s.x b) 0 128 128 = .ok addr → clus = vaultKey (clusOf s.cur) addr / 2 ^ 24 → ofs = addr % 2 ^ 24 →
    key = clus * 2 ^ 24 + ofs → s.vaultGate (clusOf s.cur) s.me.ctx clus = none →
    tv = word ((s.x b).toNat % 2 ^ 40) → s.galBank key tv = (bad, r) →
    (bad = true → ∀ t, t = (r.logError s.cur 5 tv).trapNR 5 (poisonTval tv) →
      exec (.gtest a b c) s = .next t ∧ exec (.gwait j b c ph) s = .next t) ∧
    (bad = false → r.gActive clus ofs = false → exec (.gtest a b c) s = .next (r.trap 0x0F tv) ∧
      exec (.gwait j b c ph) s = .next (r.trap 0x0F tv)) ∧
    (bad = false → r.gActive clus ofs = true → gTsid (r.gHeader key) = r.tsidOf r.me →
      k = (s.x c).toNat % gSlots (r.gHeader key) → w = r.gWord key k →
      st = (if gFlt (r.gHeader key) then 3 else nfld w 51 2) →
      exec (.gtest a b c) s = .next (r.doneX a
        (word (boolCode (gFlt (r.gHeader key)) * 8 + nfld w 50 1 * 4 + nfld w 51 2))) ∧
      ((s.me.tok.get j).isPending = true → exec (.gwait j b c ph) s = .next (r.trapOpen 0x0E)) ∧
      ((s.me.tok.get j).isPending = false → ∃ t : State, exec (.gwait j b c ph) s = .next t ∧ t.me.pc = s.done.me.pc ∧
        t.me.x = s.me.x ∧ t.vault = s.vault ∧ (∀ i, i ≠ j → t.me.tok.get i = s.me.tok.get i) ∧
        t.me.tok.get j = (if st = 3 then .faulted (.galley clus ofs k ph) 2
          else if st = 2 ∧ bitOf w 50 = ph then .complete (.galley clus ofs k ph)
          else .pending (.galley clus ofs k ph))))

/-- The queue forms of the matrix unit: only its owner may use them, a stopped queue traps all but MACK with MQFLT; STC
queues its record under the next sequence number and waits while sixteen are queued, or for the slot's own reductions,
since it is a release (R251), MQST reads MQSTAT, MBIND binds its token to a command, and MACK discards a stopped queue
(11_matrix_unit.md R221, R223 to R230). -/
def Obligations.MatrixQueueForms : Prop :=
  ∀ (s : State) (sid : Bool) (a b : XReg) (v : VReg) (j : Tok) (m : Matrix), m = s.myCore.mx →
    (s.ownsMatrix s.cur = false → exec (.stc sid a v) s = .next (s.trap 0x0D 0x0C) ∧
      exec (.mbind j b) s = .next (s.trap 0x0D 0x0C) ∧ exec .mack s = .next (s.trap 0x0D 0x0C) ∧
      exec (.mqst a) s = .next (s.doneX a (s.mqstat s.cur))) ∧
    (s.ownsMatrix s.cur = true → m.stop = true → exec (.stc sid a v) s = .next (s.trap 0x0D m.mqflt) ∧
      exec (.mbind j b) s = .next (s.trap 0x0D m.mqflt) ∧ exec (.mqst a) s = .next (s.trap 0x0D m.mqflt) ∧
      ∃ t : State, exec .mack s = .next t.done ∧ t.myCore.mx.queue = [] ∧ t.myCore.mx.stop = false ∧
        t.myCore.mx.mqflt = 0 ∧ t.mem = s.mem ∧ t.vault = s.vault) ∧
    (s.ownsMatrix s.cur = true → m.stop = false →
      exec .mack s = .next s.done ∧ exec (.mqst a) s = .next (s.doneX a (s.mqstat s.cur)) ∧
      (16 ≤ m.queue.length → exec (.stc sid a v) s = .next s) ∧
      (m.queue.length < 16 → s.redsOpen s.cur false = true → exec (.stc sid a v) s = .next s) ∧
      (m.queue.length < 16 → s.redsOpen s.cur false = false → ∃ (t : State) (r : MCmd),
        exec (.stc sid a v) s = .next (t.doneX a (m.seq.setWidth 64)) ∧
        t.myCore.mx = { m with queue := m.queue ++ [r], seq := m.seq + 1 } ∧ t.slots = s.slots ∧ t.vault = s.vault ∧
        r.seq = m.seq.toNat ∧ r.st = .queued ∧ (∀ i : Fin 8, i ≠ 0 → (r.words.get i).toNat = lane 8 (s.v v) i.val) ∧
        (r.words.get 0).toNat = (if sid then
          nput (lane 8 (s.v v) 0) 32 6 s.me.statid.toNat else lane 8 (s.v v) 0)) ∧
      ((s.me.tok.get j).isPending = true → exec (.mbind j b) s = .next (s.trapOpen 0x0E)) ∧
      ∀ q, q = (s.x b).toNat % 2 ^ 16 → (s.me.tok.get j).isPending = false →
        ((∃ r ∈ m.queue, r.seq = q) → ∃ t : State, exec (.mbind j b) s = .next t ∧
          t.me.tok.get j = .pending (.matrix (coreOf s.cur) q) ∧ t.me.x = s.me.x) ∧
        ((∀ r ∈ m.queue, r.seq ≠ q) → (∀ o ∈ m.outcomes, o.1 ≠ q) → exec (.mbind j b) s = .next (s.trapOpen 0x0E)) ∧
        ∀ k, (∀ r ∈ m.queue, r.seq ≠ q) → m.outcomes.find? (·.1 = q) = some (q, k) → ∃ t : State,
          exec (.mbind j b) s = .next t ∧
          t.me.tok.get j = if k = 0 then .complete (.matrix (coreOf s.cur) q) else .faulted (.matrix (coreOf s.cur) q) k)

/-! Vectors -/

/-- The integer lane forms compute each active lane modulo its width and leave the flags alone
(10_vector_instructions.md R195, R196, R197, R204, R205). -/
def Obligations.IntegerLanesCompute : Prop :=
  ∀ (s : State) (a b c : VReg) (ty : ITy) (p : PCtl) (i : Instr) (w : Nat) (f : Nat → Int) (x y z : Nat → Int)
    (sat : Int → Int) (m : Nat → Nat → Int), w = ITy.bytes ty → x = laneInt ty (s.v b) → y = laneInt ty (s.v c) →
    z = laneInt ty (s.v a) → (sat = fun n => max (typeRange ty).1 (min n (typeRange ty).2)) →
    (m = fun k j =>
      let u (v : Vec) : Int := if ITy.signed ty then (BitVec.ofNat (2 * w) (lane (w / 4) v (4 * k + j))).toInt
        else lane (w / 4) v (4 * k + j)
      u (s.v b) * u (s.v c)) →
    (i = .viaVadd a b c ty p ∧ f = (fun k => x k + y k) ∨ i = .viaVsub a b c ty p ∧ f = (fun k => x k - y k) ∨
      i = .viaVmul a b c ty p ∧ f = (fun k => x k * y k) ∨
      i = .vmulh a b c ty p ∧ f = (fun k => x k * y k / 2 ^ (8 * w)) ∨
      i = .viaVmin a b c ty p ∧ f = (fun k => min (x k) (y k)) ∨
      i = .viaVmax a b c ty p ∧ f = (fun k => max (x k) (y k)) ∨
      i = .vadds a b c ty p ∧ f = (fun k => sat (x k + y k)) ∨
      i = .vsubs a b c ty p ∧ f = (fun k => sat (x k - y k)) ∨
      i = .vavg a b c ty p ∧ f = (fun k => (x k + y k + 1) / 2) ∨
      i = .vabsd a b c ty p ∧ f = (fun k => ((x k - y k).natAbs : Int)) ∨
      i = .vmac a b c ty p ∧ f = (fun k => z k + x k * y k) ∨
      4 ≤ w ∧ i = .vdot4 a b c ty p ∧ f = (fun k => z k + m k 0 + m k 1 + m k 2 + m k 3)) →
    ∃ t : State, exec i s = .next t ∧ LanesAre s t p w a (fun k => (f k % 2 ^ (8 * w)).toNat) ∧
      t.me.fflags = s.me.fflags ∧ t.me.pc = s.done.me.pc

/-- The bitwise, shift, carry-less, unary and sign forms act on the bits of each lane and leave the flags alone
(10_vector_instructions.md R207, R210). -/
def Obligations.BitLanesCompute : Prop :=
  ∀ (s : State) (a b c : VReg) (ty : ITy) (fty : FTy) (p : PCtl) (q : PReg) (i : Instr) (w n : Nat) (f : Nat → Nat)
    (x y : Nat → Nat), n = 8 * w → x = lane w (s.v b) → y = lane w (s.v c) →
    (w = ITy.bytes ty ∧ (
      i = .vand a b c ty p ∧ f = (fun k => x k &&& y k) ∨ i = .vor a b c ty p ∧ f = (fun k => x k ||| y k) ∨
      i = .vxor a b c ty p ∧ f = (fun k => x k ^^^ y k) ∨
      i = .vandn a b c ty p ∧ f = (fun k => x k &&& (2 ^ n - 1 - y k)) ∨
      i = .vshl a b c ty p ∧ f = (fun k => x k * 2 ^ (y k % n)) ∨
      i = .vshr a b c ty p ∧ f = (fun k => x k / 2 ^ (y k % n)) ∨
      i = .vsar a b c ty p ∧ f = (fun k => ((BitVec.ofNat n (x k)).sshiftRight (y k % n)).toNat) ∨
      i = .vrot a b c ty p ∧ f = (fun k => ((BitVec.ofNat n (x k)).rotateRight (y k % n)).toNat) ∨
      i = .vneg a b (.int ty) p ∧ f = (fun k => 2 ^ n - x k) ∨
      i = .vnot a b ty p ∧ f = (fun k => 2 ^ n - 1 - x k) ∨
      i = .vpopc a b ty p ∧ f = (fun k => (List.range n).countP (x k).testBit) ∨
      i = .vclz a b ty p ∧ f = (fun k => if x k = 0 then n else n - 1 - Nat.log2 (x k)) ∨
      i = .vabsi a b ty p ∧ f = (fun k => (BitVec.ofNat n (x k)).toInt.natAbs) ∨
      w = 8 ∧ i = .vclmul a b c ty p ∧ f = (fun k => clMul 64 (x k) (y k)) ∨
      w = 8 ∧ i = .vclmulh a b c ty p ∧ f = (fun k => clMul 64 (x k) (y k) / 2 ^ 64) ∨
      p = .all ∧ i = .vsel a b c ty q ∧ f = (fun k => if bitOf (s.p q).toNat (k * w) then x k else y k)) ∨
    w = FTy.bytes fty ∧ (
      i = .vneg a b (.flt fty) p ∧ f = (fun k => x k ^^^ 2 ^ (n - 1)) ∨
      i = .vabs a b fty p ∧ f = (fun k => x k % 2 ^ (n - 1)))) →
    ∃ t : State, exec i s = .next t ∧ LanesAre s t p w a f ∧ t.me.fflags = s.me.fflags ∧ t.me.pc = s.done.me.pc

/-- The moves and permutations place lanes without changing them, and set no flag; VEXTR extends its lane as its type
says (10_vector_instructions.md R212). -/
def Obligations.MovesPlaceLanes : Prop :=
  ∀ (s : State) (a b c : VReg) (r k : XReg) (ty : VTy) (ity : ITy) (p : PCtl) (i : Instr) (w n e : Nat) (f : Nat → Nat)
    (x y : Nat → Nat), n = 64 / w → e = (s.x k).toNat → x = lane w (s.v b) → y = lane w (s.v c) →
    (w = VTy.bytes ty ∧ (
      i = .vbcast a r ty p ∧ f = (fun _ => (s.x r).toNat % 2 ^ (8 * w)) ∨
      p = .all ∧ i = .vins a r k ty ∧
        f = (fun j => if j = e % n then (s.x r).toNat % 2 ^ (8 * w) else lane w (s.v a) j) ∨
      i = .vslideup a b k ty p ∧ f = (fun j => if e ≤ j then x (j - e) else 0) ∨
      i = .vslidedn a b k ty p ∧ f = (fun j => if j + e < n then x (j + e) else 0) ∨
      i = .vzip a b c ty p ∧ f = (fun j => if j % 2 = 0 then x (j / 2) else y (j / 2)) ∨
      i = .vunzip a b c ty p ∧ f = (fun j => if j < n / 2 then x (2 * j) else y (2 * (j - n / 2))) ∨
      i = .vmovv a b ty p ∧ f = x) ∨
    w = ITy.bytes ity ∧ i = .vperm a b c ity p ∧ f = (fun j => if y j < n then x (y j) else 0) ∨
    w = 8 ∧ p = .all ∧ i = .vfromm a ∧ f = (fun j => (s.me.m.toList.getD j 0).toNat)) →
    (∃ t : State, exec i s = .next t ∧ LanesAre s t p w a f ∧ t.me.fflags = s.me.fflags ∧ t.me.pc = s.done.me.pc) ∧
    (w = VTy.bytes ty → exec (.vextr r b k ty) s = .next (s.doneX r (match ty with
      | .int t => if ITy.signed t then wrap64 (BitVec.ofNat (8 * w) (x (e % n))).toInt else word (x (e % n))
      | .flt _ => word (x (e % n)))))

/-- The float lane forms give each active lane the result of their operation in the format of the lane, under FRMODE
where the form rounds by it, and raise the flags of the active lanes; the long-latency ones deliver every lane under
their lookahead; and the borderline cases that the rules work out in numbers (10_vector_instructions.md R198 to
R200, R203, R207, R208). -/
def Obligations.FloatLanesCompute : Prop :=
  (∀ (s : State) (a b c : VReg) (ty : FTy) (p : PCtl) (l : Look) (i : Instr) (w : Nat) (fm : FFmt) (rm : RMode)
    (f : Nat → FRes) (x y z : Nat → Nat), w = FTy.bytes ty → fm = FTy.fmt ty → rm = s.me.frmode →
    x = lane w (s.v b) → y = lane w (s.v c) → z = lane w (s.v a) →
    ((i = .vfaVadd a b c ty p ∧ f = (fun k => fm.add rm (x k) (y k)) ∨
      i = .vfaVsub a b c ty p ∧ f = (fun k => fm.sub rm (x k) (y k)) ∨
      i = .vfaVmul a b c ty p ∧ f = (fun k => fm.mul rm (x k) (y k)) ∨
      i = .vfaVmin a b c ty p ∧ f = (fun k => fm.minmax false (x k) (y k)) ∨
      i = .vfaVmax a b c ty p ∧ f = (fun k => fm.minmax true (x k) (y k)) ∨
      i = .vfma a b c ty p ∧ f = (fun k => fm.fma rm false false (x k) (y k) (z k)) ∨
      i = .vfms a b c ty p ∧ f = (fun k => fm.fma rm false true (x k) (y k) (z k)) ∨
      i = .vfnma a b c ty p ∧ f = (fun k => fm.fma rm true false (x k) (y k) (z k)) ∨
      i = .vrcp8 a b ty p ∧ f = (fun k => fm.rcp8 (x k)) ∨
      i = .vfloor a b ty p ∧ f = (fun k => fm.integral .rdn false (x k)) ∨
      i = .vceil a b ty p ∧ f = (fun k => fm.integral .rup false (x k)) ∨
      i = .vrint a b ty p ∧ f = (fun k => fm.integral rm true (x k))) →
      ∃ t : State, exec i s = .next t ∧ LanesAre s t p w a (fun k => (f k).1) ∧ t.me.pc = s.done.me.pc ∧
        t.me.fflags = s.me.fflags.or
          (flagsOf (((List.range (64 / w)).filter (s.active p w)).map fun k => (f k).2))) ∧
    (s.hasRoom → (i = .vdiv a b c ty l ∧ f = (fun k => fm.div rm (x k) (y k)) ∨
      i = .vsqrt a b ty l ∧ f = (fun k => fm.sqrt rm (x k)) ∨ i = .vexp2 a b ty l ∧ f = (fun k => fm.exp2 rm (x k)) ∨
      i = .vlog2 a b ty l ∧ f = (fun k => fm.log2 rm (x k))) →
      ∃ v : Vec, exec i s = .next (s.deliver l [.v a] (.ok [.v a v]
          (flagsOf ((List.range (64 / w)).map fun k => (f k).2)))) ∧
        ∀ k, k < 64 / w → lane w v k = (f k).1 % 2 ^ (8 * w))) ∧
  (fp32.add .rne 0 0x80000000 = (0, {}) ∧ fp32.add .rdn 0 0x80000000 = (0x80000000, {}) ∧
  fp32.fma .rne false false 0 0x7F800000 0x7FC00001 = (0x7FC00001, { nv := true }) ∧
  fp16.div .rne 0x3C00 0 = (0x7C00, { dz := true }) ∧
  fp32.minmax true 0x7F800001 0x40400000 = (0x40400000, { nv := true }) ∧
  fp32.sqrt .rne 0x80000000 = (0x80000000, {}) ∧
  fp32.rcp8 0x40400000 = (0x3EAA8000, { nx := true }) ∧
  fp32.add .rne 0x4B800000 0x3F800000 = (0x4B800000, { nx := true }))

/-- A comparison sets every bit of the bytes of an active lane in its predicate to its result, clears or keeps those of
an inactive lane, and raises NV alone: for any NaN in the ordered comparisons, for a signalling one in the others
(10_vector_instructions.md R209); and the predicate forms, with w the lane width (R219). -/
def Obligations.ComparisonsAndPredicates : Prop :=
  (∀ (s : State) (a : PReg) (b c : VReg) (ty : ITy) (fty : FTy) (p : PCtl) (i : Instr) (w : Nat) (r nv : Nat → Bool)
    (x y : Nat → Int) (m n : Nat → Nat) (g h : Nat → FVal), x = laneInt ty (s.v b) → y = laneInt ty (s.v c) →
    m = lane w (s.v b) → n = lane w (s.v c) → (g = fun k => (FTy.fmt fty).decode (m k)) →
    (h = fun k => (FTy.fmt fty).decode (n k)) →
    (w = ITy.bytes ty ∧ nv = (fun _ => false) ∧ (
      i = .vcmpEq a b c (.int ty) p ∧ r = (fun k => decide (x k = y k)) ∨
      i = .vcmpNe a b c (.int ty) p ∧ r = (fun k => decide (x k ≠ y k)) ∨
      i = .vcmpLt a b c (.int ty) p ∧ r = (fun k => decide (x k < y k)) ∨
      i = .vcmpLe a b c (.int ty) p ∧ r = (fun k => decide (x k ≤ y k)) ∨
      i = .vcmpGt a b c (.int ty) p ∧ r = (fun k => decide (y k < x k)) ∨
      i = .vcmpGe a b c (.int ty) p ∧ r = (fun k => decide (y k ≤ x k)) ∨
      i = .vcmpLtN a b c ty p ∧ r = (fun k => decide (m k < n k)) ∨
      i = .vcmpLeN a b c ty p ∧ r = (fun k => decide (m k ≤ n k))) ∨
    w = FTy.bytes fty ∧ (nv = fun k => (g k).isSNaN || (h k).isSNaN) ∧ (
      i = .vcmpEq a b c (.flt fty) p ∧ r = (fun k => (g k).eq (h k)) ∨
      i = .vcmpNe a b c (.flt fty) p ∧ r = (fun k => !(g k).eq (h k)) ∨
      i = .vcmpUnord a b c fty p ∧ r = (fun k => (g k).isNaN || (h k).isNaN)) ∨
    w = FTy.bytes fty ∧ (nv = fun k => (g k).isNaN || (h k).isNaN) ∧ (
      i = .vcmpLt a b c (.flt fty) p ∧ r = (fun k => (g k).lt (h k)) ∨
      i = .vcmpLe a b c (.flt fty) p ∧ r = (fun k => (g k).lt (h k) || (g k).eq (h k)) ∨
      i = .vcmpGt a b c (.flt fty) p ∧ r = (fun k => (h k).lt (g k)) ∨
      i = .vcmpGe a b c (.flt fty) p ∧ r = (fun k => (h k).lt (g k) || (g k).eq (h k)))) →
    ∃ t : State, exec i s = .next t ∧ t.me.pc = s.done.me.pc ∧
      (∀ j, j < 64 → (t.p a).getLsbD j = if s.active p w (j / w) then r (j / w)
        else match p with | .zero _ => false | _ => (s.p a).getLsbD j) ∧
      t.me.fflags = { s.me.fflags with
        nv := s.me.fflags.nv || (List.range (64 / w)).any fun k => s.active p w k && nv k }) ∧
  (∀ (s : State) (a b c : PReg) (r : XReg) (wc : Fin 4) (w n : Nat), w = 2 ^ wc.val → n = 64 / w →
    exec (.pset a r) s = .next (s.doneP a (s.x r)) ∧ exec (.pget r b) s = .next (s.doneX r (s.p b)) ∧
    exec (.pand a b c) s = .next (s.doneP a (s.p b &&& s.p c)) ∧
    exec (.por a b c) s = .next (s.doneP a (s.p b ||| s.p c)) ∧
    exec (.pxor a b c) s = .next (s.doneP a (s.p b ^^^ s.p c)) ∧ exec (.pnot a b) s = .next (s.doneP a (~~~s.p b)) ∧
    exec (.pcnt r b wc) s = .next (s.doneX r (word ((List.range n).countP fun k => (s.p b).getLsbD (w * k)))) ∧
    ((∀ k, k < n → (s.p b).getLsbD (w * k) = false) →
      exec (.pfirst r b wc) s = .next (s.doneX r 0xFFFFFFFFFFFFFFFF)) ∧
    (∀ k, k < n → (s.p b).getLsbD (w * k) = true → (∀ j, j < k → (s.p b).getLsbD (w * j) = false) →
      exec (.pfirst r b wc) s = .next (s.doneX r (word k))) ∧
    ∃ v : Word, exec (.plen a r wc) s = .next (s.doneP a v) ∧
      ∀ j, j < 64 → v.getLsbD j = decide (j < w * Nat.min (s.x r).toNat n))

/-- The reductions of integer lanes combine the active ones, whatever their order, and those of float lanes combine them
by the fixed tree; without an active lane they give the value the rules name; a conversion writes the lanes of its part
and leaves the others, and raises the flags of the active lanes it writes (10_vector_instructions.md R213, R214, R216,
R217). -/
def Obligations.ReductionsAndConversions : Prop :=
  (∀ (s : State) (a : XReg) (b : VReg) (ty : ITy) (fty : FTy) (q : Option PReg) (w : Nat) (live : List Nat),
    w = ITy.bytes ty → live = (List.range (64 / w)).filter (s.activeOpt q w) →
    exec (.vredSum a b ty q) s = .next (s.doneX a (wrap64 (live.map (laneInt ty (s.v b))).sum)) ∧
    (∃ n : Nat, exec (.vredAnd a b ty q) s = .next (s.doneX a (word n)) ∧ n < 2 ^ (8 * w) ∧
      ∀ j, j < 8 * w → n.testBit j = live.all fun k => (lane w (s.v b) k).testBit j) ∧
    (∃ n : Nat, exec (.vredOr a b ty q) s = .next (s.doneX a (word n)) ∧ n < 2 ^ (8 * w) ∧
      ∀ j, n.testBit j = live.any fun k => (lane w (s.v b) k).testBit j) ∧
    (∃ n : Nat, exec (.vredXor a b ty q) s = .next (s.doneX a (word n)) ∧ n < 2 ^ (8 * w) ∧
      ∀ j, n.testBit j = ((live.countP fun k => (lane w (s.v b) k).testBit j) % 2 == 1)) ∧
    (∃ m : Int, exec (.vredMax a b (.int ty) q) s = .next (s.doneX a (wrap64 m)) ∧
      (∀ k ∈ live, laneInt ty (s.v b) k ≤ m) ∧
      (m = (typeRange ty).1 ∨ ∃ k ∈ live, m = laneInt ty (s.v b) k)) ∧
    (∃ m : Int, exec (.vredMin a b (.int ty) q) s = .next (s.doneX a (wrap64 m)) ∧
      (∀ k ∈ live, m ≤ laneInt ty (s.v b) k) ∧
      (m = (typeRange ty).2 ∨ ∃ k ∈ live, m = laneInt ty (s.v b) k)) ∧
    ∀ (h : Nat) (v : Vec) (lanes : List (Option Nat)), h = FTy.bytes fty → v = s.v b →
      (lanes = (List.range (64 / h)).map fun k => if s.activeOpt q h k then some (lane h v k) else none) →
      ∀ (i : Instr) (op : Nat → Nat → FRes) (empty : Nat),
        (i = .vredFsum a b fty q ∧ op = (FTy.fmt fty).add s.me.frmode ∧ empty = 0 ∨
          i = .vredMax a b (.flt fty) q ∧ op = (FTy.fmt fty).minmax true ∧ empty = (FTy.fmt fty).infBits true ∨
          i = .vredMin a b (.flt fty) q ∧ op = (FTy.fmt fty).minmax false ∧ empty = (FTy.fmt fty).infBits false) →
        ∃ t : State, exec i s = .next t ∧ t.me.pc = s.done.me.pc ∧
          t.x a = word ((treeFold op (Nat.log2 (64 / h)) lanes {}).1.getD empty) ∧
          t.me.fflags = s.me.fflags.or (treeFold op (Nat.log2 (64 / h)) lanes {}).2) ∧
  ∀ (s : State) (a b : VReg) (part : Fin 8) (src dst : Fin 32) (rm : RMode) (sat : Bool) (p : PCtl)
    (ws wd k r lo : Nat) (i : Instr) (f : Nat → FRes), ws = formatLane src.val → wd = formatLane dst.val →
    k = 64 / Nat.max ws wd →
    (i = .vcvt a b src dst rm sat p ∧ r = 0 ∨ i = .vcvtHi a b part src dst rm sat p ∧ r = part.val) →
    lo = (if wd < ws then r * k else 0) →
    (f = fun j => convertElem src.val dst.val rm sat
      (lane ws (s.v b) ((if ws < wd then r * k else 0) + (j - lo)) % 2 ^ elementBits src.val)) →
    ∃ t : State, exec i s = .next t ∧ t.me.pc = s.done.me.pc ∧
      t.me.fflags = s.me.fflags.or (flagsOf (((List.range (64 / wd)).filter fun j =>
        decide (lo ≤ j) && decide (j < lo + k) && s.active p wd j).map fun j => (f j).2)) ∧
      ∀ j, j < 64 / wd → lane wd (t.v a) j = if j < lo ∨ lo + k ≤ j then lane wd (s.v a) j
        else if s.active p wd j then (f j).1 % 2 ^ (8 * wd)
        else match p with | .zero _ => 0 | _ => lane wd (s.v a) j


/-! Messages and weight -/

/-- The SEND and SENDX forms take their amount of the held weight into one message of their registers and leave the
rest: before the commit point the message waits in the commit buffer, after it it is in the interface of the sender,
once the reductions of its slot in this package have been performed, which it releases (16_ordering.md R309, R316). One
that asks for more weight than it may give traps with cause 9 and the held weight, one with an entry that is none of
its context with cause 2 and the entry, and one to a place that takes no message of its partition with cause 7 and its
xB (13_handlers_and_messages.md R262, R263, R270, R271; 14_weight_and_quiescence.md R280, R282). -/
def Obligations.SendsCheckThenMoveWeight : Prop :=
  (∀ (s : State) (a : VReg) (b c d : XReg) (cls : Fin 4) (i : Instr) (amt wt ah : Nat) (all x : Bool) (m : Msg)
    (ctx : Context) (xb : Word), wt = s.me.wt → ctx = s.ctxOf s.me.ctx → xb = s.x b → s.me.spent = false →
    (i = .sendH a b c cls ∧ amt = wt / 2 ∧ 2 ≤ wt ∧ all = false ∧ x = false ∨
      i = .sendA a b c cls ∧ amt = wt ∧ 1 ≤ wt ∧ all = true ∧ x = false ∨
      i = .sendN a b c d cls ∧ amt = (s.x d).toNat ∧ 1 ≤ amt ∧ amt < wt ∧ all = false ∧ x = false ∨
      i = .sendxH a b c cls ∧ amt = wt / 2 ∧ 2 ≤ wt ∧ all = false ∧ x = true ∨
      i = .sendxA a b c cls ∧ amt = wt ∧ 1 ≤ wt ∧ all = true ∧ x = true ∨
      i = .sendxN a b c d cls ∧ amt = (s.x d).toNat ∧ 1 ≤ amt ∧ amt < wt ∧ all = false ∧ x = true) →
    ctx.entryValid (s.x c) = true → (x = false → s.placeCheck xb = .pass) →
    ah = Nat.xor (Nat.xor (Nat.xor (xb.toNat / 2 ^ 12 % 2 ^ 12) (xb.toNat / 2 ^ 24 % 2 ^ 12)) (xb.toNat / 2 ^ 36 % 2 ^ 12))
      (xb.toNat / 2 ^ 48 % 2 ^ 8) →
    m = { wt := amt, eline := (s.x c).toNat / 2 ^ 6 % 2 ^ 40, cls := cls.val, kslot := s.me.kslot, ctx := s.me.ctx,
          src := s.cur, dest := if x then kget 0 ctx.owners (ah % ctx.omsz) else xb.toNat % 2 ^ 16, spkg := s.fw.pkg,
          hpkg := s.me.hpkg, dpkg := if x then s.fw.pkg else s.sendPkg xb,
          payload := (List.range 8).map fun j => word (lane 8 (s.v a) j), arrived := 0 } →
    (s.me.irrev = false → s.me.cbuf.length < 32 → exec i s = .next ((s.setMe { s.me with
      wt := wt - amt, spent := all, cbuf := s.me.cbuf ++ [.send m] }).done)) ∧
    (s.me.irrev = false → 32 ≤ s.me.cbuf.length → exec i s = .next (s.trapOpen 0x13)) ∧
    (s.me.irrev = true → s.redsOpen s.cur false = true → exec i s = .next s) ∧
    (s.me.irrev = true → s.redsOpen s.cur false = false → s.noInjection →
      ∀ u : State, u = s.setMe { s.me with wt := wt - amt, spent := all } →
      exec i s = .next (((if all then u.statsHome s.cur else u).post m).done))) ∧
  (∀ (s : State) (a : VReg) (b c d : XReg) (cls : Fin 4),
    (s.me.spent = true ∨ s.me.wt < 2 → exec (.sendH a b c cls) s = .next (s.trap 9 (word s.me.wt)) ∧
      exec (.sendxH a b c cls) s = .next (s.trap 9 (word s.me.wt))) ∧
    (s.me.spent = true ∨ s.me.wt = 0 → exec (.sendA a b c cls) s = .next (s.trap 9 (word s.me.wt)) ∧
      exec (.sendxA a b c cls) s = .next (s.trap 9 (word s.me.wt))) ∧
    (s.me.spent = true ∨ s.x d = 0 ∨ s.me.wt ≤ (s.x d).toNat →
      exec (.sendN a b c d cls) s = .next (s.trap 9 (word s.me.wt)) ∧
      exec (.sendxN a b c d cls) s = .next (s.trap 9 (word s.me.wt))) ∧
    (s.me.spent = false → 2 ≤ s.me.wt → (s.ctxOf s.me.ctx).entryValid (s.x c) = false →
      exec (.sendxH a b c cls) s = .next (s.trap 2 (s.x c)) ∧
      (feederOf ((s.x b).toNat % 2 ^ 16) = none → exec (.sendH a b c cls) s = .next (s.trap 2 (s.x c)))) ∧
    (s.me.spent = false → 2 ≤ s.me.wt → (s.ctxOf s.me.ctx).entryValid (s.x c) = true → s.placeCheck (s.x b) = .refused →
      exec (.sendH a b c cls) s = .next (s.trap 7 (s.x b))))

/-- CMIT commits: the buffered sends leave in order, the buffer is empty and the activation irrevocable; while a
buffered reduction cannot be performed, or one of the slot has not been, the commit waits; END frees its slot and sends
its weight home, waiting for its matrix queue and its reductions; WBOR asks for its amount and waits for the grant; WRET
returns weight to the home, behind the statistics counts of its matrix unit (13_handlers_and_messages.md R270, R272,
R273; 14_weight_and_quiescence.md R280, R281; 11_matrix_unit.md R252; 16_ordering.md R309, R313). That a buffered send
which its target refuses becomes a loss notice of cause 1 (R433), and that the head then traps with cause 7 and NR, with
the rest of the commit done, is the model's choice (log entry 50). The returns which WBOR's combiner holds go home ahead
of the borrow; that WBOR waits at its head, before it asks, for the writes to other packages that they release is the
model's choice (log entry 24). The state u is s after the slot committed. -/
def Obligations.EndCommitAndWeightForms : Prop :=
  ∀ (s u : State) (a : XReg) (x : Nat) (m : Msg) (v : State), s.noResults → x = (s.x a).toNat →
    (s.commitStops s.cur = false → s.commitAt s.cur = (none, u) → exec .cmit s = .next u.done ∧ u.me.irrev = true) ∧
    (s.commitStops s.cur = true → exec .cmit s = .next (s.commitWait s.cur)) ∧
    (s.me.irrev = false → s.me.cbuf = [.send m] → s.noInjection → v = (if s.me.spent then s.statsHome s.cur else s) →
      (s.refusesMsg m = false → ∃ t : State, exec .cmit s = .next t ∧
        t.me.irrev = true ∧ t.me.cbuf = [] ∧ t.me.pc = s.done.me.pc ∧
        t.net = s.net ++ [{ msg := m, held := false, since := s.msgClock m }]) ∧
      (s.refusesMsg m = true → 0 < m.wt → ∃ t : State, exec .cmit s = .next t ∧
        t.me.irrev = true ∧ t.me.cbuf = [] ∧ t.net = s.net ∧ t.me.tcause = 7 ∧ bitOf t.me.tstate.toNat 9 = true ∧
        t.me.tpc = s.me.pc ∧ t.home.wires = v.home.wires ++ [.loss m.ctx m.kslot m.hpkg m.wt 1 m.dest])) ∧
    (s.ownsMatrix s.cur = true → s.myCore.mx.stop = true → exec .endAct s = .next (s.trap 0x0D s.myCore.mx.mqflt)) ∧
    (s.ownsMatrix s.cur = true → s.myCore.mx.stop = false → s.myCore.mx.queue ≠ [] → exec .endAct s = .next s) ∧
    (s.ownsMatrix s.cur = false → s.commitStops s.cur = true → exec .endAct s = .next (s.commitWait s.cur)) ∧
    (s.ownsMatrix s.cur = false → s.me.cbuf = [] → s.me.cfail = none → s.me.late = none → 0 < s.me.wt →
      (s.me.irrev = true → s.redsOpen s.cur false = false) →
      (s.clus (clusOf s.cur)).flightsOf s.me.act = 0 → ∃ t : State, exec .endAct s = .next t ∧
        t.me = {} ∧ t.home.wires = s.home.wires ++
          [.combine (shardOf (clusOf s.cur)) s.me.ctx s.me.kslot s.me.hpkg s.me.wt] ∧ t.mem = s.mem ∧ t.net = s.net) ∧
    (s.me.spent = true → exec (.wbor a) s = .next (s.trap 9 0)) ∧
    (s.me.spent = false → x = 0 ∨ 2 ^ 32 - 1 < s.me.wt + x → exec (.wbor a) s = .next (s.trap 9 (word x))) ∧
    (s.me.spent = false → 0 < x → s.me.wt + x ≤ 2 ^ 32 - 1 → s.commitStops s.cur = false →
      s.commitAt s.cur = (none, u) → u.cur = s.cur →
      (u.holdsKey (shardOf (clusOf s.cur)) s.me.ctx s.me.kslot s.me.hpkg = false ∨
          u.writesOpen s.me.ctx s.me.kslot = false →
        ∃ t : State, exec (.wbor a) s = .next t ∧ t.me = { u.me with park := .grant x } ∧
          (∀ e ∈ t.home.combiners, e.hits (shardOf (clusOf s.cur)) s.me.ctx s.me.kslot s.me.hpkg = false) ∧
          t.home.wires.getLast? = some (.borrow s.me.ctx s.me.kslot s.me.hpkg x s.cur u.fw.pkg s.me.act)) ∧
      (u.holdsKey (shardOf (clusOf s.cur)) s.me.ctx s.me.kslot s.me.hpkg = true →
        u.writesOpen s.me.ctx s.me.kslot = true → exec (.wbor a) s = .next u)) ∧
    (x = 0 ∨ s.me.wt < x → exec (.wret a) s = .next (s.trap 9 (word x))) ∧
    (0 < x → x ≤ s.me.wt → s.commitStops s.cur = false → s.commitAt s.cur = (none, u) → u.cur = s.cur →
      ∃ t : State, exec (.wret a) s = .next t ∧ t.me.wt = u.me.wt - x ∧ t.me.pc = u.done.me.pc ∧
        t.home.wires = (u.statsHome s.cur).home.wires ++
          [.combine (shardOf (clusOf s.cur)) s.me.ctx s.me.kslot s.me.hpkg x])

/-! Formes -/

/-- Creating, joining and leaving a forme and closing, deleting and asking about one: what the engine does and the
answer the slot waits for; a stale handle is refused with cause 0x0B (15_formes.md R291, R293 to R295, R298, R301,
R302). The state u is s after the slot committed. -/
def Obligations.FormeFormsActAtEngine : Prop :=
  ∀ (s u : State) (a c : XReg) (b d : HReg) (sel : Fin 3) (num part par key : Nat) (f : Forme) (m : Member),
    s.commitStops s.cur = false → s.commitAt s.cur = (none, u) → u.cur = s.cur → part = (u.ctxOf u.me.ctx).part →
    exec (.htox a b) s = .next (s.doneX a (s.h b)) ∧
    (∃ t : State, exec (.xtoh b a) s = .next t ∧ t.h b = s.x a ∧ (∀ q, q ≠ b → t.h q = s.h q) ∧
      t.me.pc = s.done.me.pc) ∧
    (par = (s.x c).toNat → num = (s.x a).toNat % 2 ^ 16 → key = part * 65536 + num →
      (par % 8 = 0 ∨ 5 < par % 8 ∨ par / 2 ^ 16 % 2 ^ 16 = 0 ∨ par / 8 % 2 ^ 13 ≠ 0 ∨ par / 2 ^ 32 ≠ 0 →
        exec (.fcre a d a c) s = .next (s.trap 0x0C 1)) ∧
      (1 ≤ par % 8 → par % 8 ≤ 5 → par / 8 % 2 ^ 13 = 0 → 0 < par / 2 ^ 16 → par < 2 ^ 32 →
        (khas u.formes key = true → ∃ t : State, exec (.fcre a d a c) s = .next t ∧
          t.me.park = .answer (.done [.x a 1] none) ∧ t.formes = u.formes) ∧
        ∀ ga, khas u.formes key = false → u.genAddr part num = some ga → u.liveAt (homeDie part num) none < 4096 →
          u.liveAt (homeDie part num) (some part) < fld (u.reg (.frmquota (homeDie part num) part)) 0 13 → u.canonical →
          ∃ (t : State) (gen : Nat), exec (.fcre a d a c) s = .next t ∧
            gen = (if leNat (u.memView ga 1) = 255 then 1 else leNat (u.memView ga 1) + 1) ∧
            ((∀ e ∈ u.xbar.wq, e.line ≠ ga / 64) → (readByte t.mem ga).toNat = gen) ∧
            ((∃ e ∈ u.xbar.wq, e.line = ga / 64) →
              t.xbar.wq = u.xbar.wq ++ [⟨ga / 64, .store ga [BitVec.ofNat 8 gen], []⟩]) ∧
            t.forme key = some { gen := gen, scope := par % 8, maxm := par / 2 ^ 16, creator := u.cur } ∧
            t.me.park = .answer (.done [.x a 0] (some (d, mkHandle true (homeDie part num) gen 0xFFFF num)))) ∧
      (u.forme key = none → ∃ t : State, exec (.fjoin d c a) s = .next t ∧ t.me.park = .answer (.refuse 0x0C 2)) ∧
      ∀ mix, u.forme key = some f → f.closed = false → sameUnit f.scope f.creator u.cur = true →
        f.freeIndex = some mix → ∃ (t : State) (j : Nat), exec (.fjoin d c a) s = .next t ∧
          t.me.park = .answer (.done [.x c (word j)] (some (d, mkHandle false (homeDie part num) f.gen mix num))) ∧
          j = (if f.count .present = 0 ∧ f.count .pending = 0 ∧
            f.cur.arr = [] then f.phase else (f.phase + 1) % 2 ^ 32)) ∧
    (u.validHandle part (u.h b) = none → exec (.fdel b) s = .next (u.awaitAnswer (.refuse 0x0B (u.h b))) ∧
      exec (.fleave b) s = .next (u.awaitAnswer (.refuse 0x0B (u.h b)))) ∧
    (num = (u.h b).toNat % 2 ^ 16 → key = part * 65536 + num → u.validHandle part (u.h b) = some f →
      (∃ t : State, exec (.fdel b) s = .next t ∧ t.me.park = .answer (.done [] none) ∧
        t.formes = kdel u.formes key) ∧
      (∃ t : State, exec (.fclose b) s = .next t ∧ t.me.park = .answer (.done [] none) ∧
        t.forme key = some { f with closed := true }) ∧
      (handleFo (u.h b) = false → f.member (handleMix (u.h b)) = some m → m.leaveAfter = none →
        exec (.fleave b) s = .next ((u.afterEvent part num (f.leave m false)).awaitAnswer (.done [] none)) ∧
        (s.me.priv ≠ .user →
          exec (.fleaveAbs b) s = .next ((u.afterEvent part num (f.leave m true)).awaitAnswer (.done [] none)))) ∧
      (handleFo (u.h b) = true → ∃ t : State, exec (.fleave b) s = .next t ∧ t.me.park = .answer (.refuse 0x0C 10))) ∧
    (s.me.priv = .user → exec (.fleaveAbs b) s = .next (s.trapOpen 0x14)) ∧
    (s.validHandle ((s.ctxOf s.me.ctx).part) (s.h b) = some f →
      exec (.fqry a b sel) s = .next (s.awaitAnswer (.done [.x a (f.query sel.val)] none)))

/-- Arrivals: the member's arrival stands in the phase it counts in, with its value and the way it is answered; a
blocking one then waits for its phase, a notify one takes its weight along; FWAIT binds its token to a phase
(15_formes.md R296, R297, R299, R300, R303, R305). The state u is s after the slot committed. -/
def Obligations.FormeArrivalsCount : Prop :=
  ∀ (s u : State) (a c d : XReg) (b : HReg) (j : Tok) (mode : Fin 3) (op : Fin 8) (num part key mix x : Nat) (f : Forme)
    (m : Member) (i n : Instr) (kind : PhKind) (val : Word), s.noResults → s.commitStops s.cur = false →
    s.commitAt s.cur = (none, u) → u.cur = s.cur → part = (u.ctxOf u.me.ctx).part → num = (u.h b).toNat % 2 ^ 16 →
      key = part * 65536 + num →
    mix = handleMix (u.h b) → u.validHandle part (u.h b) = some f → handleFo (u.h b) = false →
    f.member mix = some m → m.leaveAfter = none → m.st = .present → f.cur.has mix = false →
    (f.cur.kind = none ∨ f.cur.kind = some kind) →
    (i = .farr a b ∧ n = .farrn b c d ∧ kind = .plain ∧ val = 0 ∨
      i = .fred a b a op ∧ n = .fredn b a c d op ∧ kind = .reduce op.val ∧ val = u.x a ∧ s.x a = u.x a ∨
      i = .fvote a b a mode ∧ n = .farrn b c d ∧ kind = .vote mode.val ∧ val = u.x a) →
    (f.held true < 16 → exec i s = .next ((u.awaitAnswer (.wait a)).afterEvent part num { f with cur :=
      { kind := some kind, arr := f.cur.arr ++ [⟨mix, val, .block u.cur u.me.act true⟩] } })) ∧
    (f.held true = 16 → 2 ^ fld (u.reg (.frmarea part)) 0 5 ≤ kget 0 u.overflow part → ∃ t : State,
      exec i s = .next t ∧ t.me.park = .answer (.refuse 0x0C 7)) ∧
    (x = (s.x d).toNat → kind ≠ .vote mode.val → s.me.spent = false → 1 ≤ x → x < s.me.wt →
      (s.ctxOf s.me.ctx).entryValid (s.x c) = true → ∃ t v : State, exec n s = .next t ∧
        v = u.afterEvent part num { f with cur := { kind := some kind, arr := f.cur.arr ++
          [⟨mix, val, .notify x (s.cur / 8 * 8) ((s.x c).toNat / 2 ^ 6 % 2 ^ 40) s.me.ctx s.me.kslot s.me.hpkg⟩] } } ∧
        t = (v.setMe { v.me with wt := v.me.wt - x }).awaitAnswer (.done [] none)) ∧
    (s.me.spent = true → exec n s = .next (s.trap 9 (word s.me.wt))) ∧
    (s = u → x = (s.x c).toNat % 2 ^ 32 → (s.me.tok.get j).isPending = false →
      ((f.phase + 2 ^ 32 - x) % 2 ^ 32 = 0 ∨ 2 ^ 31 < (f.phase + 2 ^ 32 - x) % 2 ^ 32 → f.held true < 16 →
        ∃ t : State, exec (.fwait j b c) s = .next t ∧ t.me.park = .answer (.done [] none) ∧
          t.me.tok.get j = .pending (.forme part num x) ∧
          t.forme key = some { f with waiters := f.waiters ++ [⟨s.cur, j, x, true⟩] }) ∧
      (1 ≤ (f.phase + 2 ^ 32 - x) % 2 ^ 32 → (f.phase + 2 ^ 32 - x) % 2 ^ 32 ≤ 2 ^ 31 →
        ∃ t : State, exec (.fwait j b c) s = .next t ∧ t.me.park = .answer (.done [] none) ∧
          t.me.tok.get j = .complete (.forme part num x) ∧ t.formes = s.formes))

/-! Events: the crossbar, memory ports and what returns to a slot -/

/-- Requests at the crossbar: one that its row allows waits at its port, one that its row does not allow is refused,
or, when it is posted, counted for its function, or sent back to the package it came from; a memory port answers a load
with the bytes of its memory, performs a store, and answers a reissue of what it has applied from its filter; a response
or a refusal reaches the host with its data or its error, and a refusal a slot, at the head that waits for it or, of a
reduction, before its next head; a request unanswered for 4,096 cycles is sent again where its row still allows it, and
poisoned after eight, with the port's log entry; the oldest entry of a write queue reaches its memory, and its requests
are answered; a returned fill is kept unless it went stale; an access at another cluster's vault stores or is refused
there (03_crossbar.md R54, R55, R58 to R63; 04_vaults.md R65, R68, R72 to R77; 02_main_memory.md R46). That a tagged
request which a full bank returned is not checked again at the owning core is the model's choice (log entry 46); so is
which reductions, buffered in a slot and translated through an entry that a shoot-down withdraws, the acknowledgement of
its core waits for (log entry 48). -/
def Obligations.RequestsCrossThePackage : Prop :=
  (∀ (s : State) (q : PortReq), s.fw.halted = false →
    (rowAllows (s.row q.row) (tgtOf q.pa) = true → s.spent q.row q.pa = false → q.posted = false → q.replay = false →
      exec (.crossbarIngress q) s = .next { s with xbar := { s.xbar with
        reqs := s.xbar.reqs ++ [q], outstanding := s.xbar.outstanding ++ [(q, s.rowClock q.row)] } }) ∧
    (rowAllows (s.row q.row) (tgtOf q.pa) = false → q.posted = false →
      exec (.crossbarIngress q) s = .next { s with xbar := { s.xbar with refusals := s.xbar.refusals ++ [q] } }) ∧
    (rowAllows (s.row q.row) (tgtOf q.pa) = false → q.posted = true → 32 ≤ q.row → q.row < 96 → ∃ t : State,
      exec (.crossbarIngress q) s = .next t ∧ t.xbar.reqs = s.xbar.reqs ∧ t.xbar.refusals = s.xbar.refusals ∧
      kget 0 t.xbar.refusedCnt (q.row - 32) = kget 0 s.xbar.refusedCnt (q.row - 32) + 1) ∧
    ∀ p, rowAllows (s.row q.row) (tgtOf q.pa) = false → q.posted = true → linkPort q.row = some p → ∃ t : State,
      exec (.crossbarIngress q) s = .next t ∧ t.xbar = s.xbar ∧
        ((t.link p).unacked.getLast?.map fun f => f.body) = some (.memRefuse q.tag)) ∧
  (∀ (s : State) (i : Nat) (q : PortReq), s.xbar.refusals[i]? = some q →
    (32 ≤ q.row → q.row < 96 → ∃ t : State, exec (.refusalResponse i) s = .next t ∧
      t.xbar.refusals = s.xbar.refusals.eraseIdx i ∧ (∀ x ∈ t.xbar.outstanding, sameReq x.1 q = false) ∧
      t.host.completions = s.host.completions ++ [⟨q.row, q.tag, .unsupported, []⟩]) ∧
    ∀ (n : Nat) (va : Word), q.row < 32 → isSlot q.src = true → (s.slot q.src).made q = true →
      (s.slot q.src).dying = none → ∃ t : State, exec (.refusalResponse i) s = .next t ∧
        t.xbar.refusals = s.xbar.refusals.eraseIdx i ∧
        (q.op = .load n → t.slot q.src = (s.slot q.src).gotAnswer ⟨q.pa, q.op, .refused⟩) ∧
        (isPortRed q.op = true → q.va = some va →
          t.slot q.src = { s.slot q.src with late := (s.slot q.src).late.or (some (7, va)) })) ∧
  (∀ (s : State) (i : Nat) (r : PortResp), s.xbar.resps[i]? = some r → 32 ≤ r.req.row → r.req.row < 96 →
    r.hold = false → r.addrError = false → (∃ x ∈ s.xbar.outstanding, sameReq x.1 r.req = true) →
    ∃ t : State, exec (.responseArrival i) s = .next t ∧ t.xbar.resps = s.xbar.resps.eraseIdx i ∧
      (∀ x ∈ t.xbar.outstanding, sameReq x.1 r.req = false) ∧
      t.host.completions = s.host.completions ++ [if r.poison then ⟨r.req.row, r.req.tag, .poisoned, []⟩
        else ⟨r.req.row, r.req.tag, .good, r.data⟩]) ∧
  (∀ (s : State) (i n : Nat) (q : PortReq) (bs data : List Byte) (a : Applied), s.xbar.reqs[i]? = some q →
    (∀ p ∈ s.xbar.reqs.take i, sameReq p q = false) → tgtOf q.pa < 24 → tgtOf q.pa ∉ s.xbar.silent → q.posted = false →
    s.xbar.ingress = [] → s.xbar.wq = [] →
    (q.op = .load n ∧ bs = [] ∧ data = readBytes s.mem q.pa n ∨
      q.op = .store bs ∧ 0 < bs.length ∧ q.pa % 64 + bs.length ≤ 64 ∧ data = []) →
    (q.replay = false → ∃ t : State, exec (.memoryPortRequest i) s = .next t ∧
      t.xbar.reqs = s.xbar.reqs.eraseIdx i ∧ t.mem = (if 2 ^ 39 ≤ ofsOf q.pa then s.mem else writeBytes s.mem q.pa bs) ∧
      t.xbar.resps.getLast? = some (if 2 ^ 39 ≤ ofsOf q.pa then ⟨q, [], false, false, true⟩
        else ⟨q, data, false, false, false⟩)) ∧
    (q.replay = true → ofsOf q.pa < 2 ^ 39 → s.xbar.applied.find? (fun x => x.port = tgtOf q.pa ∧ x.row = q.row ∧
      x.tag = q.tag) = some a →
      ∃ t : State, exec (.memoryPortRequest i) s = .next t ∧ t.mem = s.mem ∧
        t.xbar.resps.getLast? = some ⟨q, a.data, false, false, false⟩)) ∧
  (∀ (s : State) (i since : Nat) (q q' : PortReq) (x : Xbar), s.xbar.outstanding[i]? = some (q, since) →
    since + 4096 ≤ s.rowClock q.row → s.fw.halted = false →
    (q.reissues < 8 → q' = { q with replay := true, reissues := q.reissues + 1 } →
      x = { s.xbar with outstanding := s.xbar.outstanding.set i (q', s.rowClock q.row) } →
      exec (.requestTimeout i) s = .next { s with xbar := if rowAllows (s.row q.row) (tgtOf q.pa) then
        { x with reqs := s.xbar.reqs ++ [q'] } else { x with refusals := s.xbar.refusals ++ [q'] } }) ∧
    (8 ≤ q.reissues → 32 ≤ q.row → q.row < 96 → ∃ t : State, exec (.requestTimeout i) s = .next t ∧
      t.xbar.outstanding = s.xbar.outstanding.eraseIdx i ∧ t.xbar.reqs = s.xbar.reqs ∧
      t.xbar.unresolved = s.xbar.unresolved ++ [(tgtOf q.pa, q.tag, s.appliedReq q)] ∧
      t.host.completions = s.host.completions ++ [⟨q.row, q.tag, .poisoned, []⟩])) ∧
  (∀ (s : State) (i : Nat) (f : Fill), s.xbar.fills[i]? = some f → ∃ t : State,
    exec (.shardCacheFill i) s = .next t ∧ t.xbar.fills = s.xbar.fills.eraseIdx i ∧
      (f.stale = true → t.xbar.caches = s.xbar.caches) ∧ (f.stale = false → (f.shard, f.line) ∈ t.xbar.caches)) ∧
  (∀ (s : State) (port : Nat) (e : WqEntry), s.xbar.wq.find? (fun x => x.line / 2 ^ 36 = port) = some e →
    s.xbar.ingress = [] → ∃ t : State, exec (.writeQueueDrain port) s = .next t ∧ t.mem = e.apply s.mem ∧
      t.xbar.wq = s.xbar.wq.eraseP (fun x => x.line / 2 ^ 36 = port) ∧ t.vault = s.vault ∧ t.slots = s.slots ∧
      t.xbar.resps = s.xbar.resps ++ (e.asked.filter fun q => !q.posted).map fun q => ⟨q, [], false, false, false⟩) ∧
  (∀ (s : State) (src : Nat) (va : Word) (bs : List Byte) (a key : Nat), isSlot src = true → (s.slot src).occ = true →
    (∀ c tv, vaultOperand va 0 bs.length bs.length = .bad c tv →
      exec (.remoteVaultAccess src va (.store bs)) s = .next (s.trapIn src c tv false)) ∧
    (vaultOperand va 0 bs.length bs.length = .ok a → key = vaultKey (clusOf src) a →
    (s.vaultRefusal (clusOf src) (s.slot src).ctx key ⟨false, true, false⟩ = none → s.inGalley key bs.length = false →
      ∃ t : State, exec (.remoteVaultAccess src va (.store bs)) s = .next t ∧ t.vault = writeBytes s.vault key bs ∧
        t.mem = s.mem ∧ t.slots = s.slots) ∧
    ∀ c, s.vaultRefusal (clusOf src) (s.slot src).ctx key ⟨false, true, false⟩ = some c → ∃ t : State,
      exec (.remoteVaultAccess src va (.store bs)) s = .next t ∧ t.vault = s.vault ∧
        ((s.slot src).outs = [] → (t.slot src).tcause.toNat = c % 256 ∧ (t.slot src).tval = word a))) ∧
  (∀ (s u : State) (clus i key : Nat) (h : HeldReq), (s.clus clus).held[i]? = some h → h.returned = true →
    h.since + 64 ≤ s.dieClock (clus / 64) → key = clus * 2 ^ 24 + h.ofs →
    u = s.setClus clus { s.clus clus with held := (s.clus clus).held.eraseIdx i } →
    exec (.taggedRequestReissue clus i) s = .next
      ((if s.heldReady key h.form then u.heldPerform clus h else u.holdAt key h).tagChanged clus)) ∧
  (∀ (s : State) (place i : Nat) (r : OutRes), (s.slot place).outs[i]? = some r → r.val ≠ .waiting → r.val ≠ .deferred →
    exec (.resultReturn place i) s = .next (s.setSlot place { s.slot place with
      outs := (s.slot place).outs.set i { r with back := true } })) ∧
  (∀ (s : State) (place c : Nat) (tv : Word), (s.slot place).late = some (c, tv) → (s.slot place).occ = true →
    (s.slot place).halted = false → (s.slot place).park = .run → (s.slot place).outs = [] → ∃ t : State,
      exec (.redFailureAnswer place) s = .next t ∧ (t.slot place).late = none ∧ (t.slot place).tcause.toNat = c % 256 ∧
      (t.slot place).tval = tv ∧ (t.slot place).tpc = (s.slot place).pc ∧ bitOf (t.slot place).tstate.toNat 9 = true) ∧
  (∀ (s : State) (core i pa : Nat) (r : Prefetch), (s.core core).prefetch[i]? = some r → s.fw.halted = false →
    r.phys = true → pa = r.va % 2 ^ 48 → s.portRefusal (shardOf (core / 16)) pa = none → s.mustAsk pa true = false →
    s.linkDown pa = false → (s.core core).pans = none → s.askedFor (prefetchReq core r pa) = false → ∃ t : State,
      exec (.prefetchFill core i) s = .next t ∧
      (r.count ≤ 1 → (t.core core).prefetch = (s.core core).prefetch.eraseIdx i) ∧
      (r.pin = false → (∀ l ∈ s.levelCache core r, r.isLine l = true → l.pinned = none) →
        ∃ l ∈ t.levelCache core r, l.tsid = r.tsid ∧ l.va = r.va ∧ l.bytes = s.memView pa 64) ∧
      ((∃ l ∈ s.levelCache core r, r.isLine l = true ∧ l.pinned ≠ none) → t.levelCache core r = s.levelCache core r)) ∧
  (∀ (s : State) (place node : Nat) (d : SDown), s.sdowns.find? (fun x => x.place = place) = some d →
    (s.nodeReady d node = true → node ≠ 0 → ∃ t : State, exec (.shootdownAck place node) s = .next t ∧
      t = { s with sdowns := t.sdowns } ∧ ∃ x ∈ t.sdowns, x.place = place ∧ node ∈ x.acked) ∧
    (553 ≤ node → s.redHeld d (node - 553) = true → exec (.shootdownAck place node) s = .next s)) ∧
  (∀ (s : State) (clus slot : Nat) (r : XlatReq) (w : XWaiter) (ws : List XWaiter),
    (s.clus clus).reqs.find? (fun x => !x.bound) = some r → r.waiters = w :: ws → slot < 8 →
    s.canBind (coreIn clus 8 * 8 + slot) = true → ∃ t : State, exec (.translationRequest clus slot) s = .next t ∧
      (t.slot (coreIn clus 8 * 8 + slot)).occ = true ∧ (t.slot (coreIn clus 8 * 8 + slot)).m.get 0 = r.addr ∧
      (t.slot (coreIn clus 8 * 8 + slot)).pc = (s.clus clus).svcEntry ∧
      (t.slot (coreIn clus 8 * 8 + slot)).priv = .supervisor)

/-! Events: messages and weight -/

/-- A message on its way reaches its core's inbox, is offered again when it was kept, leaves for another package by its
route, and binds in a free slot, in user mode or on a service core in supervisor mode, at its entry with its weight,
its payload, the class its age leaves and its registers. Weight at its home: a return raises H and a loss notice L,
after which a record whose H is W is completing, and one whose H and L make W, L not being 0, is damaged, writes its
fence with the error bit and tells the host; a borrow lowers H and grants, or is refused; counts are added; combined
returns merge and leave as one; a completing record writes its fence, waits for it and is free; a stall is noted once;
answers and wakes of the forme engines write their register (07_instruction_lines.md R118; 11_matrix_unit.md R252;
13_handlers_and_messages.md R264 to R268; 14_weight_and_quiescence.md R278 to R281, R286; 15_formes.md R293, R296;
05_feeders.md R81). That a weight message of a service core binds at supervisor privilege is the model's reading (log
entry 51). -/
def Obligations.MessagesBindAndWeightComesHome : Prop :=
  (∀ (s : State) (i : Nat) (x : Flight) (m : Msg) (core : Nat), s.netFirst i = some (i, x) → core = coreOf x.msg.dest →
    m = { x.msg with arrived := if x.msg.arrived = 0 then s.dieClock (dieOf x.msg.dest) else x.msg.arrived } →
    x.held = false → x.ring = false → m.dpkg = s.fw.pkg → feederOf m.dest = none → s.deliverable m = true →
      s.dropsAt m = false →
    s.runsOn m.ctx (core / 16) = true → (s.clus (core / 16)).switch = none → (s.core core).inbox.length < 64 →
    (s.core core).ring.count = 0 → ∃ t : State, exec (.messageArrival i) s = .next t ∧ t.net = s.net.eraseIdx i ∧
      (t.core core).inbox = (s.core core).inbox ++
        [{ msg := m, cls := s.ageClass m, since := s.dieClock (core / 1024) }]) ∧
  (∀ (s : State) (i : Nat) (x : Flight), s.net[i]? = some x → x.held = true → x.since + 256 ≤ s.msgClock x.msg →
    exec (.messageReoffer i) s = .next { s with net := s.net.set i { x with held := false } }) ∧
  (∀ (s : State) (i p : Nat) (x : Flight), s.netFirst i = some (i, x) → x.msg.dpkg ≠ s.fw.pkg →
    s.routeTo x.msg.dpkg = some p → (x.msg.spkg = s.fw.pkg → s.writesOpen x.msg.ctx x.msg.kslot = false) → ∃ t : State,
      exec (.spanForward i) s = .next t ∧ t.net = s.net.eraseIdx i ∧
      ((t.link p).unacked.getLast?.map fun f => f.body) = some (.msg x.msg)) ∧
  (∀ (s : State) (core ctx : Nat) (m : Msg), (s.clus (core / 16)).ctx = some ctx → (s.clus (core / 16)).switch = none →
    (s.core core).inbox.length ≤ 48 → (s.core core).ring.ahead = [m] → (s.core core).ring.stored = 0 →
    ∃ t : State, exec (.inboxRefill core) s = .next t ∧ (t.core core).ring.ahead = [] ∧
      (t.core core).inbox = (s.core core).inbox ++
        [{ msg := m, cls := s.ageClass m, since := s.dieClock (core / 1024) }]) ∧
  (∀ (s : State) (core : Nat), ∃ t : State, exec (.classAgeing core) s = .next t ∧
    (t.core core).inbox = (s.core core).inbox.map fun x => { x with cls := s.ageClass x.msg }) ∧
  (∀ (s u : State) (core slot place : Nat) (x : InMsg) (d : List Word), place = core * 8 + slot → slot < 8 →
    s.canBind place = true → (s.clus (core / 16)).switch = none → (s.core core).inbox = [x] →
    x.since < s.dieClock (core / 1024) →
    (s.core core).gang = none → s.front.gangs = [] → (s.clus (core / 16)).notices = 0 →
      s.readDescriptor place x.msg.ctx ((s.ctxOf x.msg.ctx).descLine x.msg.eline) = .words d u →
    u.core core = s.core core → u.ctxs = s.ctxs → descriptorBad d = false → bitOf (d.getD 0 0).toNat 1 = false →
    (d.getD 0 0).toNat / 2 ^ 8 % 8 = 0 → ∃ t : State, exec (.messageBind core slot) s = .next t ∧
      (t.core core).inbox = [] ∧ (t.slot place).occ = true ∧
      (t.slot place).priv = (if isService place then .supervisor else .user) ∧
        (t.slot place).pc = (s.ctxOf x.msg.ctx).entry x.msg.eline ∧ (t.slot place).wt = x.msg.wt ∧
      (t.slot place).ctx = x.msg.ctx ∧ (t.slot place).kslot = x.msg.kslot ∧ (t.slot place).mcls = s.ageClass x.msg ∧
      (∀ j : Fin 8, (t.slot place).m.get j = x.msg.payload.getD j.val 0) ∧
      (∀ r, (t.slot place).x.get r = 0) ∧ (∀ r j, j < 8 → lane 8 ((t.slot place).v.get r) j = 0) ∧
      (∀ r, (t.slot place).p.get r = 0) ∧ (∀ r, (t.slot place).h.get r = 0) ∧ (∀ r, (t.slot place).q.get r = 0) ∧
      (∀ j, (t.slot place).tok.get j = .unbound) ∧ (∀ r, (t.slot place).shadow.get r = 0) ∧
      (t.slot place).fflags = {} ∧ (t.slot place).frmode = .rne ∧ (t.slot place).statid = 0 ∧
      (t.slot place).tpc = 0 ∧ (t.slot place).tcause = 0 ∧ (t.slot place).tval = 0 ∧ (t.slot place).twt = 0 ∧
      (t.slot place).tstate = 0 ∧ (t.slot place).tres = 0 ∧ (t.slot place).heads = 0 ∧ (t.slot place).lacidx = 0 ∧
      (t.slot place).wstart = 0 ∧ (t.slot place).irrev = false ∧ (t.slot place).pmode = false) ∧
  (∀ (s : State) (i ctx ks amt src : Nat) (k : Kernel), k = s.kernel ctx ks → k.st = .running → k.h + k.l + amt ≤ k.w →
    (s.home.wires[i]? = some (.ret ctx ks s.fw.pkg amt src) → s.statsAhead i ctx ks s.fw.pkg = false →
      s.writesOpen ctx ks = false → ∃ t : State, exec (.weightReturn i) s = .next t ∧
      (∀ v w : State, k.h + amt + k.l = k.w → 0 < k.l → k.stage = 0 → k.sblk = 0 →
        v = (((s.dropWire i).setKernel ctx ks { k with
          last := s.homeCycle, stall := false, quiet := 0, h := k.h + amt }).leaveRunning ctx ks .damaged).toStage
            ctx ks 1 → v.hubOpen (v.ctxOf ctx).part = false →
        w = v.writeFence (v.ctxOf ctx).part k.faddr k.fval true → w.hubOpen (v.ctxOf ctx).part = false →
        t.mem = w.mem ∧ (t.kernel ctx ks).st = .damaged ∧ (t.kernel ctx ks).h = k.h + amt ∧
          t.host.irqs = w.host.irqs ++ [⟨(s.ctxOf ctx).vf, 1, [279, ctx, ks, k.w, k.h + amt, k.l]⟩]) ∧
      (k.h + amt = k.w → s.formes = [] → (t.kernel ctx ks).st = .completing ∧ (t.kernel ctx ks).h = k.h + amt) ∧
      (k.h + amt + k.l < k.w → t.home.wires = s.home.wires.eraseIdx i ∧ (t.kernel ctx ks).st = .running ∧
        (t.kernel ctx ks).h = k.h + amt ∧
        (t.kernel ctx ks).stall = false)) ∧
    (∀ cause, s.home.wires[i]? = some (.loss ctx ks s.fw.pkg amt cause src) → s.statsAhead i ctx ks s.fw.pkg = false →
      k.h + k.l + amt < k.w → ∃ t : State,
      exec (.lossNotice i) s = .next t ∧ t.home.wires = s.home.wires.eraseIdx i ∧
      (t.kernel ctx ks).l = k.l + amt ∧ (t.kernel ctx ks).st = .running) ∧
    (∀ spkg act, s.home.wires[i]? = some (.borrow ctx ks s.fw.pkg amt src spkg act) →
      (s.wireAhead i (fun w => w.isRet ctx ks s.fw.pkg) = true → exec (.borrowRequest i) s = .next s) ∧
      (s.wireAhead i (fun w => w.isRet ctx ks s.fw.pkg) = false → ∃ t : State, exec (.borrowRequest i) s = .next t ∧
        (k.h < amt → t.home.wires = s.home.wires.eraseIdx i ++ [.refuse spkg ctx ks src amt act] ∧ t.kernel ctx ks = k) ∧
        (amt ≤ k.h → t.home.wires = s.home.wires.eraseIdx i ++ [.grant spkg ctx ks s.fw.pkg src amt act] ∧
          (t.kernel ctx ks).h = k.h - amt)))) ∧
  (∀ (s : State) (i ctx ks hpkg place amt act : Nat),
    s.home.wires[i]? = some (.grant s.fw.pkg ctx ks hpkg place amt act) →
    (s.slot place).waitsGrant ctx ks amt act = false → s.saved = [] → 0 < amt → ∃ t : State,
      exec (.borrowGrant i) s = .next t ∧ t.slots = s.slots ∧
      t.home.wires = s.home.wires.eraseIdx i ++ [.loss ctx ks hpkg amt 4 place]) ∧
  (∀ (s : State) (i ctx ks hpkg place amt act : Nat), (s.slot place).occ = true → (s.slot place).park = .grant amt →
    (s.slot place).ctx = ctx → (s.slot place).kslot = ks → (s.slot place).act = act →
    (s.home.wires[i]? = some (.grant s.fw.pkg ctx ks hpkg place amt act) → ∃ t : State,
      exec (.borrowGrant i) s = .next t ∧
      (t.slot place).wt = (s.slot place).wt + amt ∧ (t.slot place).park = .run) ∧
    (s.home.wires[i]? = some (.refuse s.fw.pkg ctx ks place amt act) → ∃ t : State, exec (.borrowRefusal i) s = .next t ∧
      (t.slot place).tcause.toNat = 0x0A ∧ (t.slot place).tval = word amt ∧ (t.slot place).wt = (s.slot place).wt)) ∧
  (∀ (s : State) (i ctx ks : Nat) (c : StatCnt), s.home.wires[i]? = some (.stats ctx ks s.fw.pkg [c]) →
    (s.kernel ctx ks).stats = [] → ∃ t : State, exec (.statisticsCountArrival i) s = .next t ∧
      t.home.wires = s.home.wires.eraseIdx i ∧ (t.kernel ctx ks).stats = [c]) ∧
  (∀ (s : State) (i shard ctx ks hpkg amt : Nat), s.home.wires[i]? = some (.combine shard ctx ks hpkg amt) →
    (s.home.combiners = [] → ∃ t : State, exec (.combinerReturn i) s = .next t ∧
      t.home.wires = s.home.wires.eraseIdx i ∧ t.home.combiners = [⟨shard, ctx, ks, hpkg, amt,
        s.dieClock (shard / 4)⟩]) ∧
    ∀ sum since, s.home.combiners = [⟨shard, ctx, ks, hpkg, sum, since⟩] → sum + amt ≤ 2 ^ 32 - 1 → ∃ t : State,
      exec (.combinerReturn i) s = .next t ∧ t.home.combiners = [⟨shard, ctx, ks, hpkg, sum + amt, since⟩]) ∧
  (∀ (s : State) (e : Combine), s.home.combiners = [e] → e.since + 256 ≤ s.dieClock (e.shard / 4) →
    s.canFlush e = true → ∃ t : State,
    exec (.combinerFlush e.shard 0) s = .next t ∧ t.home.combiners = [] ∧
      t.home.wires = s.home.wires ++ [.ret e.ctx e.kslot e.hpkg e.sum hubPlace]) ∧
  (∀ (s u : State) (ctx ks part : Nat) (k : Kernel), k = s.kernel ctx ks → k.st = .completing →
    part = (s.ctxOf ctx).part →
    (k.stage = 0 → s.statsOut ctx ks = true → exec (.kernelCompletion ctx ks) s = .next s) ∧
    (k.stage = 2 → s.hubOpen part = true → exec (.kernelCompletion ctx ks) s = .next s) ∧
    (k.stage = 0 → s.statsOut ctx ks = false → k.cont = 0 → k.sblk = 0 → s.hubOpen part = false →
      u = (s.toStage ctx ks 1).writeFence part k.faddr k.fval false → u.hubOpen part = false →
      u.leavesOut ctx ks = false → ∃ t : State,
      exec (.kernelCompletion ctx ks) s = .next t ∧ (t.kernel ctx ks).st = .free ∧ (t.kernel ctx ks).w = 0 ∧
      t.mem = u.mem ∧ t.host.irqs = u.host.irqs ++ [⟨(s.ctxOf ctx).vf, 0, [279, ctx, ks]⟩])) ∧
  (∀ (s : State) (ctx ks : Nat) (k : Kernel), k = s.kernel ctx ks → k.st = .running → k.stall = false → k.wto ≠ 0 →
    k.wto * 4096 ≤ k.quiet → s.stallHolds ctx ks = true → exec (.weightStall ctx ks) s =
      .next ((s.setKernel ctx ks { k with stall := true }).irq (s.ctxOf ctx).vf 1 [286, ctx, ks, k.w, k.h, k.l])) ∧
  (∀ (s : State) (place : Nat) (a : XReg) (w : Word), (s.slot place).outs = [] → (s.slot place).rex = none →
    ((s.slot place).park = .answer (.done [.x a w] none) → ∃ t : State, exec (.formeEngineAnswer place) s = .next t ∧
      (t.slot place).x.get a = w ∧ (t.slot place).park = .run) ∧
    ((s.slot place).park = .woken a w → ∃ t : State, exec (.formeWake place) s = .next t ∧
      (t.slot place).x.get a = w ∧ (t.slot place).park = .run) ∧
    ((s.slot place).park = .deleted → ∃ t : State, exec (.formeWake place) s = .next t ∧
      (t.slot place).tcause.toNat = 0x0C ∧ (t.slot place).tval = 8))

/-! Events: feeders, copy engines, galleys, matrix units -/

/-- Feeders, copy engines and galley units: a feeder takes a message and starts its list; each record acts and the list
goes on behind it, with galley slots written and counted, memory written, and the end of a DRAIN waiting for its stores
(16_ordering.md R309), parameters raised, loops entered, waits held, messages and notify arrivals sent of its weight,
the rest going home at STOP; a reserved code is a feed fault that sends all of HOLD. A transfer starts, moves its bytes
and completes. A galley slot counts bytes and arrivals, and is full when both are complete (05_feeders.md R81 to R94,
R97; 06_copy_and_galleys.md R102, R104, R114, R115). -/
def Obligations.FeedersCopiesAndGalleysAct : Prop :=
  (∀ (s : State) (i f : Nat) (x : Flight), s.netFirst i = some (i, x) → feederOf x.msg.dest = some f →
    x.held = false → x.msg.dpkg = s.fw.pkg → (s.ctxOf x.msg.ctx).part = s.feederPart f →
    (s.feeder f).inbox.length + (s.feeder f).away.countP (fun m => s.inSlice m.ctx) < 16 → ∃ t : State,
      exec (.feederMessageArrival i) s = .next t ∧
      t.net = s.net.eraseIdx i ∧ (t.feeder f).inbox = (s.feeder f).inbox ++ [{ x.msg with arrived := s.clk.hub }]) ∧
  (∀ (s : State) (f : Nat) (m : Msg), (s.feeder f).st = .idle → (s.feeder f).saved = [] → (s.feeder f).queued = [m] →
    s.inSlice m.ctx = true → (m.payload.getD 0 0).toNat % 2 ^ 56 % 32 = 0 → ∃ t : State,
      exec (.feederStartList f) s = .next t ∧ (t.feeder f).st = .running ∧ (t.feeder f).queued = [] ∧
      (t.feeder f).list = (m.payload.getD 0 0).toNat % 2 ^ 56 ∧ (t.feeder f).hold = m.wt ∧ (t.feeder f).ctx = m.ctx ∧
      (t.feeder f).kslot = m.kslot ∧ ∀ j : Fin 7, (t.feeder f).p.get j = m.payload.getD (j.val + 1) 0) ∧
  (∀ (s s1 : State) (f gal c ofs k rows n : Nat) (w : List Word) (d : Feeder) (ptr : Word), s.feedsRecord f 1 w →
    d = s.feeder f → gal = (w.getD 1 0).toNat → bitOf (w.getD 0 0).toNat 4 = false →
    bitOf (w.getD 0 0).toNat 5 = false → bitOf (w.getD 0 0).toNat 6 = false → rows = fld (w.getD 2 0) 24 16 →
    n = fld (w.getD 2 0) 0 24 → 0 < rows → 0 < n → fld (w.getD 0 0) 8 3 ≠ 0 → fld (w.getD 0 0) 11 3 ≠ 0 →
    s.feedGalleys f gal (fld (w.getD 0 0) 24 16) false = .ok (ofs, [c]) s →
    k = (d.param (fld (w.getD 0 0) 11 3)).toNat % gSlots (s.gHeader (gKey c ofs)) →
    fld (w.getD 2 0) 40 24 + rows * n ≤ gSize (s.gHeader (gKey c ofs)) → d.seen = [] → s.gState (gKey c ofs) k ≠ 3 →
    s1 = s.setFeeder f { d with seen := [c] } → ptr = d.param (fld (w.getD 0 0) 8 3) →
    (∀ s2 v : State, s1.pushRows f ptr (intVal 48 true (fld (w.getD 3 0) 0 48)) n none
        (fun t i r => t.putRow f ofs k (fld (w.getD 2 0) 40 24) [c] i r) 0 rows = .ok () s2 →
      s2.gCycle c ofs k false none [rows * n] 0 = (v, .ok) → exec (.push f) s = .next (v.feedNext f)) ∧
    (∀ (bs : List Byte) (u : State) (dst : Nat), rows = 1 → d.row = 0 → d.loops = [] →
      s1.feedRead f (fld ptr 0 56) n (tagOf ptr) = .ok bs s1 →
      dst = c * 2 ^ 24 + gSlotOfs (s.gHeader (gKey c ofs)) k + fld (w.getD 2 0) 40 24 →
      u = { s with vault := writeBytes s.vault dst bs } →
      (u.gCycle c ofs k false none [n] 0).2 = .ok → ∃ t : State, exec (.push f) s = .next t ∧
        t.vault = (u.gCycle c ofs k false none [n] 0).1.vault ∧ (t.feeder f).list = d.list + 32 ∧
        (t.feeder f).st = .running)) ∧
  (∀ (s u v : State) (f src key T : Nat) (w : List Word) (ps : List FeedRun) (bs : List Byte) (d : Feeder),
    s.feedsRecord f 2 w → d = s.feeder f → d.bad = none → d.wrote = 0 → src = (w.getD 1 0).toNat →
      T = fld (w.getD 2 0) 24 16 * fld (w.getD 2 0) 0 24 →
    0 < T → fld (w.getD 0 0) 8 3 ≠ 0 → bitOf (w.getD 0 0).toNat 4 = false → bitOf src 30 = false →
    src / 2 ^ 24 % 64 = 0 → src % 2 ^ 24 + T ≤ vaultEnd → s.feedReaches f (src / 2 ^ 31 % 512) = true →
    s.drainLocate f (d.param (fld (w.getD 0 0) 8 3)) (intVal 48 true (fld (w.getD 3 0) 0 48))
      (fld (w.getD 2 0) 0 24) 0 (fld (w.getD 2 0) 24 16) = .ok ps s → ps ≠ [] →
    key = src / 2 ^ 31 % 512 * 2 ^ 24 + src % 2 ^ 24 →
    s.engineRead (key / 2 ^ 24) (feederPlace f) d.ctx d.kslot key T = (some bs, u) →
    v = u.drainWrite f 0 ps bs →
    (v.feedOpen f = false → (v.feeder f).wrote = ps.length → exec (.drain f) s = .next (v.feedNext f)) ∧
    (v.feedOpen f = true → (v.feeder f).bad = none →
      exec (.drain f) s = .next (v.setFeeder f { v.feeder f with st := .port }))) ∧
  (∀ (s : State) (f n k : Nat) (w : List Word), s.feedsRecord f 3 w → n = fld (w.getD 0 0) 16 32 →
    k = fld (w.getD 0 0) 8 8 → 0 < n → 0 < k → (s.feeder f).loops = [] → ∃ t : State,
      exec (.loopRecord f) s = .next t ∧ (t.feeder f).loops = [⟨(s.feeder f).list + 32, k, n - 1⟩] ∧
      (t.feeder f).list = (s.feeder f).list + 32) ∧
  (∀ (s : State) (f : Nat) (w : List Word) (px : Fin 7), s.feedsRecord f 4 w → fld (w.getD 0 0) 8 3 = px.val + 1 →
    (s.feeder f).loops = [] → ∃ t : State, exec (.padd f) s = .next t ∧ (t.feeder f).list = (s.feeder f).list + 32 ∧
      (∀ j, j ≠ px → (t.feeder f).p.get j = (s.feeder f).p.get j) ∧ (t.feeder f).p.get px =
        (if bitOf (w.getD 0 0).toNat 4 then word (((s.feeder f).p.get px).toNat / 2 ^ 56 * 2 ^ 56 +
            ((s.feeder f).p.get px + w.getD 1 0).toNat % 2 ^ 56) else (s.feeder f).p.get px + w.getD 1 0)) ∧
  (∀ (s : State) (f c ofs k want : Nat) (w : List Word), s.feedsRecord f 5 w → fld (w.getD 0 0) 11 3 ≠ 0 →
    s.feedGalleys f (w.getD 1 0).toNat (fld (w.getD 0 0) 24 16) (bitOf (w.getD 0 0).toNat 5) = .ok (ofs, [c]) s →
    k = ((s.feeder f).param (fld (w.getD 0 0) 11 3)).toNat % gSlots (s.gHeader (gKey c ofs)) →
    want = (if bitOf (w.getD 0 0).toNat 4 then 2 else 0) → (s.feeder f).seen = [] → (s.feeder f).loops = [] →
    s.gState (gKey c ofs) k ≠ 3 → ∃ t : State, exec (.waitg f) s = .next t ∧
      (s.gState (gKey c ofs) k = want → (t.feeder f).st = .running ∧ (t.feeder f).list = (s.feeder f).list + 32) ∧
      (s.gState (gKey c ofs) k ≠ want → (t.feeder f).st = .waiting 5 ∧ (t.feeder f).list = (s.feeder f).list)) ∧
  (∀ (s : State) (f x dest : Nat) (w : List Word) (d : Feeder), s.feedsRecord f 6 w → d = s.feeder f →
    x = fld (w.getD 0 0) 16 32 → dest = fld (w.getD 0 0) 48 16 → s.receives (s.ctxOf d.ctx).part dest = true →
    (s.ctxOf d.ctx).entryValid (w.getD 1 0) = true → bitOf (w.getD 0 0).toNat 4 = false →
    bitOf (w.getD 0 0).toNat 5 = false → 0 < x → x < d.hold → d.loops = [] → ∃ t : State,
      exec (.sendRecord f) s = .next t ∧ (t.feeder f).hold = d.hold - x ∧ (t.feeder f).list = d.list + 32 ∧
      t.net = s.net ++ [{
        msg := { wt := x, eline := elineOf (w.getD 1 0), cls := fld (w.getD 0 0) 8 2, kslot := d.kslot, ctx := d.ctx,
                 src := feederPlace f, dest := dest, spkg := s.fw.pkg, hpkg := d.home, dpkg := s.fw.pkg,
                 payload := w.getD 2 0 :: d.p.toList, arrived := 0 },
        held := false, since := s.placeClock (feederPlace f) }]) ∧
  (∀ (s t : State) (f x place : Nat) (w : List Word) (d : Feeder) (h : Word) (fm : Forme), s.feedsRecord f 7 w →
    d = s.feeder f → x = fld (w.getD 0 0) 16 32 → place = fld (w.getD 2 0) 0 16 → fld (w.getD 0 0) 8 3 ≠ 0 →
    (s.ctxOf d.ctx).entryValid (w.getD 1 0) = true → 0 < x → x < d.hold → h = d.param (fld (w.getD 0 0) 8 3) →
    s.validHandle (s.ctxOf d.ctx).part h = some fm →
    s.arrive (s.ctxOf d.ctx).part (handleNum h) fm h .plain 0
      (fun _ => .notify x place (elineOf (w.getD 1 0)) d.ctx d.kslot d.home) false = .ok t →
    exec (.farrnRecord f) s = .next ((t.countOp (22 + fld h 40 3) (s.ctxOf d.ctx).part).setFeeder f { t.feeder f with hold := d.hold - x, st := .answer x })) ∧
  (∀ (s : State) (f : Nat) (w : List Word) (d : Feeder), s.feedsRecord f 8 w → d = s.feeder f → ∃ t : State,
    exec (.stop f) s = .next t ∧ (t.feeder f).st = .idle ∧ (t.feeder f).hold = 0 ∧
    t.home.wires = s.home.wires ++ [.ret d.ctx d.kslot d.home d.hold (feederPlace f)]) ∧
  (∀ (s : State) (f : Nat) (w : List Word), s.feedsRecord f 9 w → (s.feeder f).loops = [] →
    (w.getD 1 0).toNat % 2 ^ 56 % 32 = 0 → ∃ t : State, exec (.chain f) s = .next t ∧
      (t.feeder f).list = (w.getD 1 0).toNat % 2 ^ 56 ∧ (t.feeder f).st = .running ∧ (t.feeder f).loops = []) ∧
  (∀ (s : State) (f code : Nat) (w : List Word) (d : Feeder), d = s.feeder f → d.st = .running →
    s.inSlice d.ctx = true → s.feedRecord f = .ok w s → code = (w.getD 0 0).toNat % 16 → code = 0 ∨ 10 ≤ code →
    ∃ t : State, exec (.reservedRecord f) s = .next t ∧ (t.feeder f).st = .idle ∧ t.net = s.net ++ [{
      msg := { wt := d.hold, eline := (s.ctxOf d.ctx).ffeline, cls := 0, kslot := d.kslot, ctx := d.ctx,
               src := feederPlace f, dest := (s.ctxOf d.ctx).ffplace, spkg := s.fw.pkg, hpkg := d.home, dpkg := s.fw.pkg,
               payload := [word (1 + code * 2 ^ 8 + f * 2 ^ 16), word d.list, 0, 0, 0, 0, 0, 0], arrived := 0 },
      held := false, since := s.placeClock (feederPlace f) }]) ∧
  (∀ (s r : State) (f code : Nat), (s.feeder f).st = .waiting code →
    r = s.setFeeder f { s.feeder f with st := .running } → ((r.feedAct f).feeder f).st ≠ .waiting code ∨
      ((r.feedAct f).feeder f).seen ≠ (s.feeder f).seen →
    exec (.feederWaitSatisfied f) s = .next r) ∧
  (∀ (s : State) (clus : Nat), (s.clus clus).frozen = false → s.saves clus = false →
    (∀ (k : Nat) (x : Transfer) (xs : List Transfer), (s.clus clus).entering = [] →
      freeChan (s.clus clus).chans = some k →
      (s.clus clus).copies = x :: xs → x.ser = false → ∃ t : State, exec (.transferStart clus) s = .next t ∧
        (t.clus clus).chans = (s.clus clus).chans ++ [{ x with chan := k }] ∧
        (t.clus clus).copies = (x :: xs).filter fun u => u.id ≠ x.id) ∧
    (∀ (x : Transfer) (pc : Word) (a : XReg) (es : List (Transfer × Word × XReg)),
      (s.clus clus).entering = (x, pc, a) :: es → freeChan (s.clus clus).chans = none →
        (s.clus clus).copies.length < 64 →
      ∃ t : State, exec (.transferStart clus) s = .next t ∧ (t.clus clus).copies = (s.clus clus).copies ++ [x] ∧
        (t.clus clus).entering = es)) ∧
  (∀ (s u : State) (clus n a b : Nat) (x : Transfer) (bs : List Byte), (s.clus clus).chans = [x] →
    (s.clus clus).frozen = false → s.fw.halted = false → x.waits = false → x.moved = false → x.sent = false →
      x.todo = [] →
    x.status = 0 → x.regs.get 2 = word (2 ^ 40 + 2 ^ 24 + n) → 0 < n → n < 2 ^ 24 → x.regs.get 5 = 5 →
    s.copyVault clus x ((x.regs.get 0).toNat % 2 ^ 40 : Nat) n = .ok [.vault a n] s →
    s.copyVault clus x ((x.regs.get 1).toNat % 2 ^ 40 : Nat) n = .ok [.vault b n] s → a + n ≤ b ∨ b + n ≤ a →
    s.engineRead clus (x.chanPlace clus) x.ctx x.kslot a n = (some bs, u) → s.copyOpen clus x = false →
    (s.session (s.ctxOf x.ctx).vf).isOpen = false → ∃ t : State,
      exec (.transferComplete clus x.id) s = .next t ∧ t.vault = writeBytes s.vault b bs ∧ t.mem = s.mem ∧
      (t.clus clus).chans = [] ∧ (t.clus clus).kept.head? = some (x.id, 0)) ∧
  (∀ (s : State) (clus ofs k n w key : Nat), s.canonical → key = gKey clus ofs → s.gActive clus ofs = true →
    k < gSlots (s.gHeader key) → gFlt (s.gHeader key) = false → w = s.gWord key k → nfld w 51 2 ≤ 1 →
    nfld w 25 19 + n ≤ nfld w 0 19 → nfld w 44 6 < nfld w 19 6 → ∃ (t : State) (w' : Nat),
      exec (.galleyUpdate clus ofs k false none [n] 1) s = .next t ∧ w' = t.gWord key k ∧
      nfld w' 25 19 = nfld w 25 19 + n ∧ nfld w' 44 6 = nfld w 44 6 + 1 ∧ nfld w' 0 25 = nfld w 0 25 ∧
      if nfld w 25 19 + n = nfld w 0 19 ∧ nfld w 44 6 + 1 = nfld w 19 6 then
        nfld w' 51 2 = 2 ∧ nfld w' 50 1 = 1 - nfld w 50 1 else nfld w' 51 2 = 1 ∧ nfld w' 50 1 = nfld w 50 1)

/-- Commands of a matrix queue, one to each code: a multiplication writes the accumulated products, a load the values of
its region and zero elsewhere, a store its element, MZERO zeros, MPASS moves a tile from latch to latch, MBLD fills a
buffer; each is then done. A done command retires in order with outcome 0, a faulted one sets MQFLT and STOP, and a wait
for a latch ends after 2^20 cycles (11_matrix_unit.md R223, R228, R231, R237, R240 to R249). -/
def Obligations.MatrixCommandsRunAndRetire : Prop :=
  (∀ (s : State) (core : Nat) (c : MCmd),
    (∀ (u : State) (as bs : List (List FVal)), s.runsCommand core 1 c → c.bit 25 = false → c.bit 26 = false →
      s.opndValues core c.opA = .ok as → s.opndValues core c.opB = .ok bs →
      u = (((s.mtouch core c.opA.src c.opA.spans).mtouch core c.opB.src c.opB.spans).setMx core
        ((s.core core).mx.putEls c.acc ((mulElements c (s.core core).mx (c.bit 24) c.unit as bs).map
        (·.1)))).mcount core c.sid ((mulElements c (s.core core).mx (c.bit 24) c.unit as bs).flatMap (·.2)) →
      exec (.mma core) s = .next (u.setCmd core 0 .done (u.dieClock (core / 1024)))) ∧
    (∀ (u v : State) (at_ : Nat) (gs : List (Nat × Nat)), s.runsCommand core 2 c → s.noInjection →
      at_ = fld (c.w 7) 0 24 →
      v = s.mtouch core .vault [(at_, min (8 + 8 * (s.mread core .vault at_ 8 % 128)) (vaultEnd - at_))] →
      v.groupTable core at_ = some gs → v.runGroups core c 0 gs = .ok u →
      exec (.mmag core) s = .next (u.setCmd core 0 .done (u.dieClock (core / 1024)))) ∧
    (s.runsCommand core 3 c → s.noInjection → ∃ t : State, exec (.mld core) s = .next t ∧ t.vault = s.vault ∧
      ((t.core core).mx.queue.map fun x => x.st) = [.done] ∧ ∀ i j, i < 16 → j < 16 →
        (t.core core).mx.el c.acc i j = if i < c.region.lines ∧ j < c.region.k then
          (loadEl c.int c.region.f (s.mread core .vault (c.region.line i + (elementSpan c.region.f 0 (j * c.region.estr)).1)
            (elementSpan c.region.f 0 (j * c.region.estr)).2)).1 else 0) ∧
    (s.runsCommand core 4 c → c.region.lines = 1 → c.region.k = 1 → 8 ≤ elementBits c.region.f → ∃ t : State,
      exec (.mst core) s = .next t ∧ ((t.core core).mx.queue.map fun x => x.st) = [.done] ∧
      t.vault = writeBytes s.vault (core / 16 * 2 ^ 24 + (c.region.line 0 + (elementSpan c.region.f 0 0).1))
        (leBytes (elementSpan c.region.f 0 0).2 (convertElem (if c.int then 21 else 1) c.region.f c.rm (c.bit 31)
          ((s.core core).mx.el c.acc 0 0).toNat).1)) ∧
    (s.runsCommand core 5 c → ∃ t : State, exec (.mzero core) s = .next t ∧ t.vault = s.vault ∧
      ((t.core core).mx.queue.map fun x => x.st) = [.done] ∧ ∀ i j, i < 16 → j < 16 →
        (t.core core).mx.el c.acc i j = 0) ∧
    (s.runsCommand core 6 c → exec (.mmark core) s = .next (s.setCmd core 0 .done (s.dieClock (core / 1024)))) ∧
    (s.runsCommand core 7 c → core % 16 < 8 → (s.core core).mx.latch.isSome = true →
      (s.core (nextCore core)).mx.latch = none →
      ∃ t : State, exec (.mpass core) s = .next t ∧ (t.core core).mx.latch = none ∧
        (t.core (nextCore core)).mx.latch = (s.core core).mx.latch) ∧
    (s.runsCommand core 8 c → s.noInjection → c.w 1 ≠ 0 → ∃ t : State, exec (.mbld core) s = .next t ∧
      (t.core core).mx.bufs = writeBytes (s.core core).mx.bufs (fld (c.w 1) 40 2 * 2048 + fld (c.w 1) 0 11)
        (readBytes s.vault (core / 16 * 2 ^ 24 + fld (c.w 5) 0 24) (fld (c.w 6) 0 12))) ∧
    ((s.core core).mx.queue = [c] → c.st = .queued → (s.core core).mx.stop = false → s.saves (core / 16) = false →
      s.givenUp core = false → c.code = 0 ∨ 8 < c.code →
      exec (.reservedCommandCode core) s = .next (s.setCmd core 0 (.faulted 1) (s.dieClock (core / 1024)))) ∧
    (∀ cs, (s.core core).mx.queue = c :: cs → c.st = .done → ∃ t : State, exec (.commandRetire core) s = .next t ∧
      (t.core core).mx.queue = cs ∧ (t.core core).mx.done = BitVec.ofNat 16 c.seq ∧
      (t.core core).mx.outcomes = ((c.seq, 0) :: (s.core core).mx.outcomes).take 64) ∧
    (∀ cs k, (s.core core).mx.queue = c :: cs → c.st = .faulted k → (s.core core).mx.stop = false → ∃ t : State,
      exec (.matrixFault core) s = .next t ∧ (t.core core).mx.queue = cs ∧ (t.core core).mx.stop = true ∧
      (t.core core).mx.mqflt = word (c.seq * 2 ^ 48 + (c.w 0).toNat / 2 ^ 48 * 2 ^ 32 + (c.w 0).toNat % 2 ^ 8 * 2 ^ 16 + 256 + k)) ∧
    ((s.core core).mx.queue = [c] → c.st = .started → (s.core core).mx.stop = false → s.givenUp core = false →
      c.since + 2 ^ 20 < s.dieClock (core / 1024) → ∃ t : State, exec (.latchWaitTimeout core) s = .next t ∧
        ((t.core core).mx.queue.map fun x => x.st) = [.faulted 9] ∧ (t.core core).mx.latch = (s.core core).mx.latch))

/-! Events: command queues, admission, power -/

/-- Command queues, admission and power. A command is read from its ring when none stands at the head; each command
then completes with its effect: LAUNCH waits for admission once checked, FENCEW completes when its word has the value
and else waits, FENCES and QUERY write memory and complete once the write is performed, SAVE and MOVE complete once the
context has left its clusters, a SAVE that was accepted being refused no more, ACKLOSS frees a damaged record, a
reserved code sets ERR. Completing writes the ring, advances CONS and interrupts (21_host_firmware_security.md R384).
Admission starts the first candidate that has energy and a place: its record runs with the whole weight, and its
message leaves. Die controllers step down when hot, an idle core or cluster is gated and loses its translations, and an
event wakes it (14_weight_and_quiescence.md R277, R285, R287; 17_scheduling_and_power.md R325 to R336, R339;
16_ordering.md R309; 18_faults_and_preemption.md R355). That a completion of status 8 has the value of the fence word,
without its error bit, as its detail, and 0 as its word 1, is the model's choice (log entry 29). -/
def Obligations.QueuesAdmissionAndPowerAct : Prop :=
  (∀ (s : State) (vf q status detail : Nat) (t : State), t = s.complete vf q status detail →
    (t.queue vf q).cons = (s.queue vf q).cons + 1 ∧ (t.queue vf q).head = none ∧
    t.host.irqs = s.host.irqs ++ [⟨vf, 0, [q, (s.queue vf q).cons.toNat, status]⟩] ∧
    ∀ w, (s.queue vf q).head = some w → t.mem = (s.hostWrite
      ((s.queue vf q).cbase * 16 + 16 * ((s.queue vf q).cons.toNat % 2 ^ (s.queue vf q).szlg))
      (leBytes 8 (status + (w.get 0).toNat % 2 ^ 8 * 2 ^ 8 + detail % 2 ^ 48 * 2 ^ 16) ++ leBytes 8 0)).mem) ∧
  (∀ (s : State) (vf q : Nat) (v : Word), vf < 64 → q < 8 →
    (∃ t : State, exec (.qprodWrite vf q v) s = .next t ∧ (t.queue vf q).prod = BitVec.ofNat 32 v.toNat ∧
      (t.queue vf q).cons = (s.queue vf q).cons) ∧
    (v.toNat / 2 ^ 16 = 0 → v.toNat % 2 ^ 8 = 0 → ∃ t : State, exec (.qctlWrite vf q v) s = .next t ∧
      (t.queue vf q).en = bitOf v.toNat 8 ∧ (t.queue vf q).prio = v.toNat / 2 ^ 10 % 4 ∧
      (t.queue vf q).szlg = (if (s.queue vf q).en then (s.queue vf q).szlg else v.toNat / 2 ^ 12) ∧
      (bitOf v.toNat 8 = true → (t.queue vf q).err = false)) ∧
    (v.toNat / 2 ^ 16 ≠ 0 ∨ v.toNat % 2 ^ 8 ≠ 0 → exec (.qctlWrite vf q v) s = .next s)) ∧
  (∀ (s u : State) (vf q : Nat) (w : Vector Word 8) (c : CmdQueue), c = s.queue vf q → c.head = none → vf < 64 → q < 8 →
    s.fnEnabled vf = true → c.en = true → c.err = false → 4 ≤ c.szlg → c.prod ≠ c.cons → s.front.paused = false →
    s.fw.halted = false → (∀ r ∈ s.xbar.reqs, r.row = 32 + vf → isPortLoad r.op = true) →
    w = Vector.ofFn (fun i : Fin 8 =>
      (wordsOfBytes 8 (s.hostRead (c.base * 64 + 64 * (c.cons.toNat % 2 ^ c.szlg)) 64)).getD i.val 0) →
    u = s.setQueue vf q { c with head := some w, headSt := .read, since := s.clk.hub, desc := [] } →
    (w.get 0).toNat % 256 = 3 → exec (.fences vf q) s = exec (.fences vf q) u) ∧
  (∀ (s : State) (vf q : Nat) (w : Vector Word 8) (a v : Nat) (i : Instr) (u : State), a = cmdAddr w →
    (s.headIs vf q 2 w → commandBad w = false → a % 8 = 0 → s.partAllows (s.fnPart vf) (tgtOf a) = true → tgtOf a ≤ 24 →
      tgtOf a ∉ s.xbar.silent → ofsOf a < 2 ^ 39 → v = leNat (s.readRuns (hubRuns a 8)) →
      ((w.get 2).toNat % 2 ^ 63 ≤ v % 2 ^ 63 → v < 2 ^ 63 → exec (.fencew vf q) s = .next (s.complete vf q 0 0)) ∧
      ((w.get 2).toNat % 2 ^ 63 ≤ v % 2 ^ 63 → 2 ^ 63 ≤ v → v < 2 ^ 64 →
        exec (.fencew vf q) s = .next (s.complete vf q 8 (v % 2 ^ 63))) ∧
      (v % 2 ^ 63 < (w.get 2).toNat % 2 ^ 63 → exec (.fencew vf q) s =
        .next (s.setQueue vf q { s.queue vf q with headSt := .fenceWait, pollAt := s.clk.hub + 4096 }))) ∧
    ((s.queue vf q).head = some w → (s.queue vf q).headSt = .fenceWait → tgtOf a ≤ 24 →
      tgtOf a ∉ s.xbar.silent → ofsOf a < 2 ^ 39 → v = leNat (s.readRuns (hubRuns a 8)) →
        (w.get 2).toNat % 2 ^ 63 ≤ v → v < 2 ^ 63 →
      exec (.fencewPoll vf q) s = .next (s.complete vf q 0 0)) ∧
    (commandBad w = false → s.partAllows (s.fnPart vf) (tgtOf a) = true →
      (s.headIs vf q 3 w ∧ a % 8 = 0 ∧ i = .fences vf q ∧
          u = (s.hubWrite (s.fnPart vf) a (leBytes 8 ((w.get 2).toNat % 2 ^ 63))).kickFences a ∨
        s.headIs vf q 7 w ∧ s.ownCtx vf (cmdCtx w) = true ∧ a % 64 = 0 ∧ i = .query vf q ∧
          u = s.hubWrite (s.fnPart vf) a ((s.kernel (cmdCtx w) (cmdSlot w)).words.flatMap (leBytes 8))) →
      (u.hubOpen (u.fnPart vf) = false → exec i s = .next (u.complete vf q 0 0)) ∧
      (u.hubOpen (u.fnPart vf) = true →
        exec i s = .next (u.setQueue vf q { u.queue vf q with headSt := .wrote }))) ∧
    ((s.queue vf q).head = some w → (s.queue vf q).headSt = .wrote → s.hubOpen (s.fnPart vf) = false →
      (w.get 0).toNat % 256 = 3 ∧ i = .fences vf q ∨ (w.get 0).toNat % 256 = 7 ∧ i = .query vf q →
      exec i s = .next (s.complete vf q 0 0))) ∧
  (∀ (s : State) (vf q ctx : Nat) (w : Vector Word 8), ctx = cmdCtx w → s.ownCtx vf ctx = true → commandBad w = false →
    (∀ t, t = s.saveContext ctx → (w.get 0).toNat % 256 = 4 → (s.queue vf q).head = some w →
      (s.queue vf q).headSt = .saving ∨ (s.queue vf q).headSt = .read ∧ s.notQuiet ctx = none →
      (t.vacated ctx = true → exec (.save vf q) s = .next (t.complete vf q 0 0)) ∧
      (t.vacated ctx = false →
        exec (.save vf q) s = .next (t.setQueue vf q { t.queue vf q with headSt := .saving }))) ∧
    (∀ d, s.headIs vf q 4 w → s.notQuiet ctx = some d → exec (.save vf q) s = .next (s.complete vf q 4 d)) ∧
    (∀ d, s.headIs vf q 5 w → s.fw.pending.find? (·.ctx = ctx) = some d →
      (khas s.front.moving ctx = false → s.notQuiet ctx = none → exec (.move vf q) s = .next
        ({ s with front := { s.front with moving := kset s.front.moving ctx false } }.saveContext ctx)) ∧
      (∀ r, khas s.front.moving ctx = true → kget false s.front.moving ctx = false → s.vacated ctx = true →
        r = s.reg (.sprt d.pkg) → bitOf r.toNat 4 = true → (s.link (fld r 0 4)).up = true →
        exec (.move vf q) s = .next (s.sendContext ctx (fld r 0 4) d)) ∧
      (khas s.front.moving ctx = true → s.moveAccepted ctx = true → exec (.move vf q) s =
        .next ((s.freeContext ctx d).complete vf q 0 0))) ∧
    (s.headIs vf q 6 w → (s.kernel ctx (cmdSlot w)).st = .damaged →
      exec (.ackloss vf q) s = .next
        (((s.setKernel ctx (cmdSlot w) {}).forgetWeight ctx (cmdSlot w)).complete vf q 0 0)) ∧
    (s.headIs vf q 6 w → (s.kernel ctx (cmdSlot w)).st = .completing →
      exec (.ackloss vf q) s = .next (s.complete vf q 7 0))) ∧
  (∀ (s u : State) (vf q code : Nat) (w : Vector Word 8) (d : List Word),
    (s.headIs vf q 1 w → s.launchCheck vf w none = none → s.frontDesc (queueKey vf q) w = .words d u →
      gangBad w d = false → ∃ t : State, exec (.launch vf q) s = .next t ∧ (t.queue vf q).headSt = .launchReady ∧
        (t.queue vf q).desc = d ∧ (t.queue vf q).head = (u.queue vf q).head) ∧
    (∀ st n, s.headIs vf q 1 w → s.launchCheck vf w none = some (st, n) →
      exec (.launch vf q) s = .next (s.complete vf q st n)) ∧
    (s.headIs vf q code w → code = 0 ∨ 7 < code → ∃ t : State, exec (.reservedQueueCommand vf q) s = .next t ∧
      (t.queue vf q).err = true ∧ (t.queue vf q).head = none ∧ t.host.irqs = s.host.irqs)) ∧
  (∀ (s u : State) (part dest wt ctx ks : Nat) (c : Cand) (cs : List Cand) (bs : List Byte), s.fw.halted = false →
    part < 24 →
    khas s.front.lastRun part = false → s.front.conts = [] →
    u = { s with front := { s.front with lastRun := kset s.front.lastRun part s.clk.hub } } →
    u.candidates part = c :: cs → u.energyOk part c.image = true → u.placeLaunch c.image = some (.one dest) →
    ctx = cmdCtx c.image → ks = cmdSlot c.image → wt = (c.image.get 0).toNat / 2 ^ 32 → (s.kernel ctx ks).st = .free →
    u.hubRead (launchPaddr c.image) 64 = (bs, u) → ∃ t : State, exec (.admissionRun part) s = .next t ∧
      (t.kernel ctx ks).st = .running ∧ (t.kernel ctx ks).w = wt ∧ (t.kernel ctx ks).h = 0 ∧ (t.kernel ctx ks).l = 0 ∧
      (t.part part).rem = (s.part part).rem - s.launchEnergy part c.image ∧
      t.net = s.net ++ [{ msg := u.launchMsg c.image wt dest (wordsOfBytes 8 bs), held := false, since := s.clk.hub }]) ∧
  (∀ (s : State) (part : Nat), part < 24 → ∃ t : State, exec (.energyIntervalStart part) s = .next t ∧
    (t.part part).rem = s.budgetOf part ∧ (t.part part).used = 0) ∧
  (∀ (s : State) (die temp watts lo tlim plim : Nat), die < 8 → lo = (s.reg (.dpctl die)).toNat / 2 ^ 40 % 32 →
    tlim = (s.reg (.dpctl die)).toNat / 2 ^ 32 % 256 → plim = (s.reg .plim).toNat → (s.die die).pending = none →
    ∃ t : State, exec (.dieStepDecision die temp watts) s = .next t ∧ (t.die die).temp = temp ∧
      (t.die die).step = (s.die die).step ∧
      (tlim ≤ temp ∨ plim < watts → lo < (s.die die).step → (t.die die).pending = some ((s.die die).step - 1)) ∧
      (temp + 5 ≤ tlim → 20 * watts ≤ 19 * plim → (s.die die).step < 16 →
        (t.die die).pending = some ((s.die die).step + 1)) ∧
      (tlim < temp + 5 → temp < tlim → watts ≤ plim → (t.die die).pending = none)) ∧
  (∀ (s : State) (die n : Nat), (s.die die).pending = some n → ∃ t : State, exec (.stepChangeEffect die) s = .next t ∧
    (t.die die).step = n ∧ (t.die die).pending = none) ∧
  (∀ (s : State) (core : Nat),
    (bitOf (s.reg (.dpgate (core / 1024))).toNat 32 = true → (s.core core).gated = false → s.coreIdle core = true →
      (s.core core).idleSince + (s.reg (.dpgate (core / 1024))).toNat % 2 ^ 16 * 64 ≤ s.dieClock (core / 1024) →
      ∃ t : State, exec (.coreGate core) s = .next t ∧ (t.core core).gated = true ∧ (t.core core).l1 = [] ∧
        (t.core core).icache = []) ∧
    ((s.core core).gated = true → (s.core core).inbox ≠ [] → ∃ t : State, exec (.coreWake core) s = .next t ∧
      (t.core core).gated = false ∧ (t.core core).l1 = [] ∧ (t.core core).readyAt = s.dieClock (core / 1024) + 200 ∧
      (t.core core).inbox = (s.core core).inbox)) ∧
  (∀ (s : State) (clus : Nat),
    (bitOf (s.reg (.dpgate (clus / 64))).toNat 33 = true → (s.clus clus).gated = false → s.clusterIdle clus = true →
      (s.clus clus).idleSince + (s.reg (.dpgate (clus / 64))).toNat / 2 ^ 16 % 2 ^ 16 * 1024 ≤ s.dieClock (clus / 64) →
      ∃ t : State, exec (.clusterGate clus) s = .next t ∧ (t.clus clus).gated = true ∧ (t.clus clus).tlb = [] ∧
        (t.clus clus).ctlb = [] ∧ (t.core (coreIn clus 8)).l1 = [] ∧ t.vault = s.vault) ∧
    ((s.clus clus).gated = true → (s.clus clus).copies ≠ [] → ∃ t : State, exec (.clusterWake clus) s = .next t ∧
      (t.clus clus).gated = false ∧ (t.clus clus).tlb = [] ∧ (t.clus clus).readyAt = s.dieClock (clus / 64) + 2000))

/-! Events: rows, contexts, slices, resets -/

/-- What the monitor, the slices and resets change. A row write that breaks a rule is discarded and sets the error
status, else the row holds it; minima are held within the capacity, else discarded; retired clusters and ports are so
noted, and a port out of service leaves every row. A slice end chooses drain, spill, or discard by the deadline, and a
context whose slots are out is restored and runs. A kill, which waits for a running matrix command of its slot, and the
reset of a cluster lose the weight held with cause 4, and a reset sets every tag full. A broken context keeps its pages
until the host resumes or ends it; a period ends the slices that run; a reset function has no queue, and its session is
closed; a fatal error freezes the package with its dump (02_main_memory.md R33; 03_crossbar.md R52, R53, R56, R57;
04_vaults.md R76; 11_matrix_unit.md R221; 18_faults_and_preemption.md R346 to R352, R356, R359;
19_tenants_and_metering.md R362; 21_host_firmware_security.md R385). That the notice of a kill holds the weight of the
buffered sends too is the model's reading (log entry 24), and so is vector 0 for a context that cannot be restored (log
entry 30). -/
def Obligations.RowsContextsSlicesAndResetsChange : Prop :=
  (∀ (s : State) (row : Nat) (v : Word), row < 387 → row ≠ 384 → row ≠ 385 →
    (s.rowBad row v = true →
      exec (.connectionRowWrite row v) s = .next { s with xbar := { s.xbar with matrixErr := true } }) ∧
    (s.rowBad row v = false → ∃ t : State, exec (.connectionRowWrite row v) s = .next t ∧ t.row row = v ∧
      ∀ r, r ≠ row → t.row r = s.row r)) ∧
  (∀ (s : State) (vf slices bw part : Nat), vf < 64 → slices < 65536 → bw < 65536 →
    part = fld (s.reg (.vfcfg vf)) 8 5 →
    (((s.setMinimum true vf slices).setMinimum false vf bw).minBad part = false → ∃ t : State,
      exec (.minimaWrite vf slices bw) s = .next t ∧ t.minimum true vf = slices ∧ t.minimum false vf = bw) ∧
    (((s.setMinimum true vf slices).setMinimum false vf bw).minBad part = true →
      exec (.minimaWrite vf slices bw) s = .next { s with xbar := { s.xbar with minErr := true } })) ∧
  (∀ (s u : State) (idx part : Nat), idx < 512 → part = s.partOfClus idx →
    u = { s with xbar := { s.xbar with retired := sinsert s.xbar.retired idx } } → ∃ t : State,
    exec (.blockRetirement true idx) s = .next t ∧ idx ∈ t.xbar.retired ∧
    (part < 24 → u.minSum true part ≤ u.capacity true part → t = u) ∧
    (part < 24 → u.capacity true part < u.minSum true part → ∀ v ∈ u.fnsOf part, t.minimum true v =
      u.minimum true v * u.capacity true part / u.minSum true part)) ∧
  (∀ (s : State) (port : Nat), port < 24 → ∃ t : State, exec (.portOutOfService port) s = .next t ∧
    port ∈ t.xbar.outOfService ∧ ∀ e ∈ t.xbar.rows, bitOf e.2.toNat port = false) ∧
  (∀ (s : State) (port : Nat), ∃ t : State, exec (.portReturnToService port) s = .next t ∧
    port ∉ t.xbar.outOfService ∧ t.xbar.rows = s.xbar.rows) ∧
  (∀ (s : State) (place : Nat), (s.slot place).occ = true → s.ownsMatrix place = false →
    0 < (s.slot place).wt + bufferedWeight (s.slot place).cbuf → ∃ t : State, exec (.kill place) s = .next t ∧
      t.slot place = {} ∧ t.home.wires = s.home.wires ++ [.loss (s.slot place).ctx (s.slot place).kslot (s.slot place).hpkg
        ((s.slot place).wt + bufferedWeight (s.slot place).cbuf) 4 place] ∧ t.mem = s.mem ∧ t.vault = s.vault) ∧
  (∀ (s : State) (place : Nat), (s.slot place).occ = true → s.mustWait place = true → ∃ t : State,
    exec (.kill place) s = .next t ∧ (t.slot place).dying = some .kill ∧ (t.slot place).wt = (s.slot place).wt ∧
      t.home.wires = s.home.wires ∧ t.mayIssue place = false) ∧
  (∀ (s : State) (clus p : Nat) (sl : Slot), clus < 512 → s.occupied clus = [(p, sl)] → (s.slot p).occ = true →
    s.ownsMatrix p = false → (s.clus clus).held = [] → 0 < (s.slot p).wt + bufferedWeight (s.slot p).cbuf →
    ∃ t : State, exec (.clusterReset clus) s = .next t ∧ t.slot p = {} ∧
      t.home.wires = s.home.wires ++ [.loss (s.slot p).ctx (s.slot p).kslot (s.slot p).hpkg
        ((s.slot p).wt + bufferedWeight (s.slot p).cbuf) 4 p]) ∧
  (∀ (s : State) (clus : Nat), clus < 512 → s.occupied clus = [] → (s.clus clus).held = [] → ∃ t : State,
    exec (.clusterReset clus) s = .next t ∧
    (∀ w ∈ t.empty, w / 2 ^ 21 ≠ clus) ∧ (t.clus clus).galleys = [] ∧ (t.clus clus).tlb = [] ∧
    (∀ c ∈ coresOf clus, (t.core c).mx = {} ∧ (t.core c).lac = Vector.replicate 64 0 ∧
      (t.core c).win = Vector.replicate 8 0)) ∧
  (∀ (s : State) (clus ctx d est : Nat) (x : Transfer) (xs : List Transfer) (inc : Option Nat) (mode : SwMode) (miss : Bool),
    (s.clus clus).ctx = some ctx → (s.clus clus).switch = none → (s.ctxOf ctx).touched = false →
    (s.clus clus).chans = x :: xs → (s.clus clus).halted = false → d = s.deadline ctx →
    (mode, est, miss) = (if (s.estimates clus ctx inc).1.any (fun n => decide (n ≤ d)) then
        (SwMode.drain, min ((s.estimates clus ctx inc).1.getD 0) (2 ^ 24 - 1), false)
      else if (s.estimates clus ctx inc).2.1 ≤ d then (.spill, min (s.estimates clus ctx inc).2.1 (2 ^ 24 - 1), false)
      else (.discard, min (s.estimates clus ctx inc).2.2 (2 ^ 24 - 1), decide (d < (s.estimates clus ctx inc).2.2))) →
    ∃ t : State, exec (.sliceEndSignal clus inc) s = .next t ∧ (t.clus clus).frozen = false ∧
      (t.clus clus).switch =
        some { ctx := ctx, incoming := inc, mode := mode, at_ := s.dieClock (clus / 64), est := est, miss := miss }) ∧
  (∀ (s : State) (clus : Nat) (w : Switch), (s.clus clus).switch = some w → s.switchWaits clus w = false →
    w.mode = .drain → w.at_ + s.deadline w.ctx ≤ s.dieClock (clus / 64) → s.occupied clus ≠ [] →
    exec (.drainDeadline clus) s = .next (s.vacate clus w true)) ∧
  (∀ (s : State) (ctx clus : Nat) (c : Context), c = s.ctxOf ctx → khas s.ctxs ctx = true → c.slicing = true →
    c.st = .saved → c.placement = [clus] → (s.clus clus).ctx = none → (s.clus clus).switch = none →
    (s.restorable c (s.readOwners c) = true → (s.save ctx clus).slots = [] → (s.save ctx clus).held = [] → ∃ t : State,
      exec (.contextRestore ctx clus) s = .next t ∧ (t.clus clus).ctx = some ctx ∧ (t.ctxOf ctx).st = .running ∧
      (t.ctxOf ctx).owners = s.readOwners c ∧ (t.clus clus).evq = ((s.save ctx clus).evq) ∧
      (t.clus clus).galleys = (s.save ctx clus).galleys) ∧
    (s.restorable c (s.readOwners c) = false → exec (.contextRestore ctx clus) s =
      .next ((s.setCtx ctx { c with st := .refused }).irq 64 0 [259, ctx]))) ∧
  (∀ (s : State) (ctx va : Nat), (s.ctxOf ctx).st = .running ∨ (s.ctxOf ctx).st = .broken ∨
    (s.ctxOf ctx).st = .saved ∧ khas s.ctxs ctx = true → ∃ t : State,
    exec (.pageUnobtainable ctx va) s = .next t ∧ (t.ctxOf ctx).st = .broken ∧
      va / 65536 * 65536 ∈ (t.ctxOf ctx).pages) ∧
  (∀ (s : State) (ctx : Nat), (s.ctxOf ctx).st = .stopped → ∃ t : State, exec (.hostResumeContext ctx) s = .next t ∧
    t.ctxOf ctx = { s.ctxOf ctx with st := .saved, slicing := true, pages := [], touched := false }) ∧
  (∀ (s : State) (ctx : Nat), (s.ctxOf ctx).st = .stopped → ∃ t : State, exec (.hostTerminateContext ctx) s = .next t ∧
    (t.ctxOf ctx).st = .saved ∧ (t.ctxOf ctx).pages = [] ∧
    ((∀ ks, ks < 64 → (s.kernel ctx ks).st ≠ .running) → ∀ x ∈ t.net, x.msg.ctx ≠ ctx)) ∧
  (∀ (s : State) (part : Nat) (spare : List PolicyChoice), part < 24 → s.periodOver part = true → ∃ t : State,
    exec (.slicePeriod part spare) s = .next t ∧ (t.part part).ran = [] ∧ (t.part part).since = some s.clk.hub ∧
      (t.part part).rem = (s.part part).rem ∧
      ((s.enabledFns part).filter s.hasWork = [] → spare = [] → (t.part part).granted = []) ∧
      (∀ v, (s.enabledFns part).filter s.hasWork = [v] → spare = [] → s.minimum true v ≤ s.capacity true part →
        khas s.fw.policy v = false → (t.part part).granted = [(v, s.capacity true part)]) ∧
      ∀ clus ctx, (s.part part).since ≠ none → (s.clus clus).ctx = some ctx → (s.clus clus).switch = none →
        (s.ctxOf ctx).part = part → (t.clus clus).ends = true) ∧
  (∀ (s : State) (vf : Nat), vf < 64 → s.ctxs = [] → ∃ t : State, exec (.functionLevelReset vf) s = .next t ∧
    (∀ e ∈ t.front.queues, e.1 / 8 ≠ vf) ∧ t.reg (.psring vf) = 0 ∧ t.reg (.pscmd vf) = 0 ∧
      (s.host.sessions.Pairwise (fun a b => a.1 < b.1) → t.session vf = {}) ∧ t.mem = s.mem) ∧
  (∀ s : State, s.ctxs = [] → ∃ t : State, exec .pfReset s = .next t ∧
    (∀ e ∈ t.front.queues, 64 ≤ e.1 / 8) ∧ t.reg .epsel = 0 ∧ t.mem = s.mem ∧
      (s.host.sessions.Pairwise (fun a b => a.1 < b.1) → ∀ v, v < 64 → t.session v = {})) ∧
  (∀ (s : State) (cause place status : Nat), 1 ≤ cause → cause ≤ 4 → ∃ t : State,
    exec (.fatalError cause place status) s = .next t ∧ t.fatal = some (s.dump cause place status) ∧ ¬ t.runs ∧
    t.fw.dumps = s.fw.dumps ++ [s.dump cause place status] ∧
    t.host.irqs = s.host.irqs ++ [⟨64, 1, [cause, place, status]⟩])

/-! Events: metering, counters, profiling, debug -/

/-- Metering, host reads, profiling sessions and debug modules. A millisecond adds its energy to every counter and
lowers REM; a nonce makes a mailbox busy, and its reading a signed record or an error code; persist records go to the
two slots in turn. A read of a counter's low half latches its high half. A session opens, configures, arms, disarms and
closes counters with its status codes. A halt stops a cluster's slots, a resume lets them go, a step lets one slot
issue and then reports, a breakpoint halts a slot before its head, a write of INJ arms an injection or, with a reserved
bit, sets the error status (17_scheduling_and_power.md R334; 18_faults_and_preemption.md R358;
19_tenants_and_metering.md R364, R366 to R368; 20_debug.md R370 to R376, R380, R381). The model's choices: a reserved
op or bit of PSCMD ends with status 5 before all else (log entry 13), the words of a reading and of a latched half and
REM by whole millijoules (log entry 31), what a halt, a breakpoint and a step wait for, and a resume that ends a step
under way without a report (log entry 32), and the blocks' numbers and the fractions of a microjoule that go to UNATTR
(log entry 54). -/
def Obligations.MetersReadsSessionsAndDebugAct : Prop :=
  (∀ (s : State) (use : EnergyUse), (∀ i uj, i < 25 → uj = kget 0 (s.attributed use) i → ∃ t : State,
      exec (.meteringUpdate use) s = .next t ∧ t.meter.resumed = true ∧
      kget 0 t.meter.cnt i = min (kget 0 s.meter.cnt i + uj) (2 ^ 64 - 1) ∧
      (i < 24 → (t.part i).rem = min (s.part i).rem (s.budgetOf i - ((s.part i).used + uj) / 1000) ∧
        (t.part i).used = (s.part i).used + uj)) ∧
    (((List.range 24).map s.share).sum ≤ 65536 → ((List.range 25).map (kget 0 (s.attributed use))).sum =
      (use.clusters.map (·.2)).sum + (use.shards.map (·.2)).sum + (use.ports.map (·.2)).sum + use.static +
        (use.blocks.map (·.measured)).sum)) ∧
  (∀ (s : State) (fn : Nat) (nonce : Word), fn ≤ 64 → (s.box fn).busy = false → ∃ t : State,
    exec (.enonceWrite fn nonce) s = .next t ∧ (t.box fn).nonce = nonce ∧ (t.box fn).busy = true ∧
      (t.box fn).done = false) ∧
  (∀ (s : State) (fn : Nat), (s.box fn).busy = true → ∃ t : State, exec (.readingComplete fn) s = .next t ∧
    (t.box fn).busy = false ∧ (t.box fn).done = true ∧
    match s.readCode fn with
    | .error c => (t.box fn).code = c ∧ (t.box fn).record = (s.box fn).record
    | .ok i => (t.box fn).code = 0 ∧ (t.box fn).record = s.signedRecord
        [1 + 1 * 2 ^ 8 + (if i = 24 then 0xFF else i) * 2 ^ 16 + (if fn = 64 then 0xFF else fn) * 2 ^ 24 +
          boolCode s.meter.gap * 2 ^ 32, kget 0 s.meter.cnt i, kget 0 s.meter.unc i, s.meter.boot,
         kget 0 s.meter.seqs i + 1, nanos (s.meter.at_ - s.meter.bootAt), (s.box fn).nonce.toNat, 0]) ∧
  (∀ s : State, ∃ t : State, exec .persistRecord s = .next t ∧ t.meter.newerA = !s.meter.newerA ∧
    (if s.meter.newerA then t.meter.slotB else t.meter.slotA) =
      some ((List.range 25).map fun i => (kget 0 s.meter.cnt i, kget 0 s.meter.unc i, kget 0 s.meter.epk i)) ∧
    (if s.meter.newerA then t.meter.slotA else t.meter.slotB) =
      (if s.meter.newerA then s.meter.slotA else s.meter.slotB)) ∧
  (∀ (s : State) (vf off : Nat) (w : Word), vf < 64 → s.counterAt vf off = some w →
    (∃ t : State, exec (.counterLowRead vf (.half off)) s = .next t ∧
      t.host.reads = s.host.reads ++ [⟨vf, off, false, word (w.toNat % 2 ^ 32)⟩] ∧
      kget {} t.host.latches vf = { off := off, val := BitVec.ofNat 32 (w.toNat / 2 ^ 32), valid := true }) ∧
    exec (.counterLowRead vf (.whole off)) s = .next (s.answerRead ⟨vf, off, true, w⟩) ∧
    exec (.counterHighRead vf off) s = .next (s.answerRead ⟨vf, off + 4, false,
      word (if (kget {} s.host.latches vf).valid = true ∧ (kget {} s.host.latches vf).off = off then
        (kget {} s.host.latches vf).val.toNat else w.toNat / 2 ^ 32)⟩)) ∧
  (∀ (s : State) (vf cix evt per : Nat) (x : Session) (c : ProfCnt), vf < 64 → x = s.session vf → cix < 8 →
    c = kget {} x.cnts cix →
    (x.isOpen = false → exec (.profileOpen vf) s = .next (s.setSession vf { isOpen := true }) ∧
      exec (.profileConfigure vf cix evt) s = .next (s.setSession vf { x with st := 1 }) ∧
      exec (.profileArm vf cix per) s = .next (s.setSession vf { x with st := 1 }) ∧
      exec (.profileDisarm vf cix) s = .next (s.setSession vf { x with st := 1 }) ∧
      exec (.profileClose vf) s = .next (s.setSession vf { x with st := 1 })) ∧
    (x.isOpen = true → exec (.profileOpen vf) s = .next (s.setSession vf { x with st := 2 }) ∧
      exec (.profileClose vf) s = .next (s.setSession vf { x with isOpen := false, cnts := [], st := 0 }) ∧
      (1 ≤ evt → evt ≤ 8 → exec (.profileConfigure vf cix evt) s =
        .next (s.setSession vf { x with cnts := kset x.cnts cix { evt := some evt }, st := 0 })) ∧
      (8 < evt → evt < 0x8000 → exec (.profileConfigure vf cix evt) s = .next (s.setSession vf { x with st := 4 })) ∧
      (1 ≤ per → per < 2 ^ 32 → x.lacks c = false → exec (.profileArm vf cix per) s = .next (s.setSession vf
        { x with cnts := kset x.cnts cix { c with armed := true, per := per, left := per }, st := 0 })) ∧
      exec (.profileDisarm vf cix) s = .next (s.setSession vf
        { x with cnts := kset x.cnts cix { c with armed := false }, st := 0 })) ∧
    (∀ v : Word, v.toNat / 2 ^ 11 % 2 ^ 5 ≠ 0 ∨ v.toNat % 2 ^ 8 = 0 ∨ 5 < v.toNat % 2 ^ 8 → ∃ t : State,
      exec (.registerWrite (.pscmd vf) v) s = .next t ∧ t.session vf = { x with st := 5 })) ∧
  (∀ (s : State) (clus place : Nat), clusOf place = clus →
    (∃ t : State, exec (.debugHalt clus) s = .next t ∧ (t.clus clus).halted = true ∧ (t.clus clus).hcause = 1 ∧
      (t.clus clus).frozen = ((s.clus clus).frozen || ((s.clus clus).frz && (s.clus clus).stepping.isNone &&
        (s.clus clus).switch.isNone)) ∧ (t.slot place).pc = (s.slot place).pc) ∧
    (∃ t : State, exec (.debugResume clus) s = .next t ∧ (t.clus clus).halted = false ∧ (t.clus clus).frozen = false ∧
      (t.clus clus).stepping = none ∧ (t.slot place).halted = false)) ∧
  (∀ (s : State) (clus core slot place : Nat), place = coreIn clus core * 8 + slot → core ≤ 8 → slot ≤ 7 →
    (s.clus clus).stepping = none → (s.slot place).halted = true → (s.slot place).occ = true → ∃ t : State,
      exec (.debugStep clus core slot) s = .next t ∧ (t.slot place).halted = false ∧ (t.clus clus).stepst = 1 ∧
      (t.clus clus).stepping = some (place, 0, (s.slot place).heads.toNat)) ∧
  (∀ (s : State) (place n : Nat), (s.clus (clusOf place)).stepping = some (place, 0, n) →
    (s.slot place).stepTrap = false → (s.slot place).occ = true → (s.slot place).heads.toNat ≠ n → ∃ t : State,
      exec (.stepReport (clusOf place)) s = .next t ∧ (t.slot place).halted = true ∧
      (t.clus (clusOf place)).stepping = none ∧ (t.clus (clusOf place)).stepst = 2) ∧
  (∀ (s : State) (place : Nat), s.atBreakpoint place = true → ∃ t : State, exec (.breakpointHit place) s = .next t ∧
    (t.slot place).halted = true ∧ (t.slot place).pc = (s.slot place).pc ∧
    ((s.clus (clusOf place)).xt = false → (t.clus (clusOf place)).hcause = 3)) ∧
  (∀ (s : State) (clus : Nat) (v : Word),
    (v.toNat &&& injReserved ≠ 0 → exec (.injWrite clus v) s =
      .next (s.setClus clus { s.clus clus with dbgErr := true })) ∧
    (v.toNat &&& injReserved = 0 → 1 ≤ v.toNat / 2 ^ 4 % 16 → v.toNat / 2 ^ 4 % 16 ≤ 3 →
      exec (.injWrite clus v) s = .next (s.setClus clus { s.clus clus with inj := v })))

/-! Events: links and firmware -/

/-- Odnerlink ports, boot, live update, takeover, alarms and the writes of configuration registers. A flit in its order
is acknowledged and the next one expected, one out of its order is not taken, and one with a bad CRC is asked for
again; a message enters once its sender has retired its flit; 2,048 cycles resend a flit, and 32 failed resends fail
the link, with a loss notice for the weight it drops; retraining brings it up. Boot runs a verified first stage and
monitor, else fails, and takes a span of at most 16 packages; an update loads, verifies, pauses, drains, imports and
switches, or is refused; the standby takes over on a lost heartbeat and runs the commands at the heads again, and none
left is fatal. Attestation needs the key; alarms of level 2 halt and of level 3 erase it; the host resumes once the
sensors have been in range for 1 s. A register holds what is written to it unless a reserved value discards the write
(14_weight_and_quiescence.md R283; 18_faults_and_preemption.md R355; 19_tenants_and_metering.md R363, R368;
21_host_firmware_security.md R386 to R395). The model's choices: that a receiver holds a message until it hears that its
flit is retired (log entry 11), the layout of an attestation record (log entry 12), what boot and the loss of power keep
(log entry 16), the events of the physical function (log entry 33), and which heads a takeover runs again (log entry
34). -/
def Obligations.LinksAndFirmwareAct : Prop :=
  (∀ (s : State) (port : Nat) (f : Flit) (m : Msg), port < 12 → (s.link port).up = true →
    (f.crcGood = false → exec (.odnerlinkFlitReceive port f) s =
      .next (s.setLink port { s.link port with reply := some ((s.link port).expect, false) })) ∧
    (f.crcGood = true → f.body = .msg m →
      (f.seq ≠ (s.link port).expect → exec (.odnerlinkFlitReceive port f) s =
        .next (s.setLink port { s.link port with reply := some (((s.link port).expect + 4095) % 4096, true) })) ∧
      (f.seq = (s.link port).expect → ∃ t : State, exec (.odnerlinkFlitReceive port f) s = .next t ∧
        (t.link port).expect = (f.seq + 1) % 4096 ∧ (t.link port).reply = some (f.seq, true) ∧ t.net = s.net ∧
        (t.link port).entering = (if (s.link port).fresh then [] else (s.link port).entering) ++
          if s.fw.span.contains f.src then [f] else [])) ∧
    (f.crcGood = true → f.body = .retired (s.link port).expect → ∀ g : Flit, (s.link port).entering = [g] →
      g.seq = (s.link port).expect → g.body = .msg m → ∃ t : State,
        exec (.odnerlinkFlitReceive port f) s = .next t ∧ (t.link port).entering = [] ∧
        t.net = s.net ++ [{ msg := m, held := false, since := s.msgClock m }]) ∧
    (∀ (g : Flit) (gs : List Flit), f.crcGood = true → f.body = .ack g.seq → (s.link port).unacked = g :: gs →
      exec (.odnerlinkFlitReceive port f) s = .next (s.setLink port { s.link port with
        unacked := gs, resends := 0, sentAt := s.clk.hub, told := some g.seq }))) ∧
  (∀ (s : State) (port : Nat) (l : Link), l = s.link port → l.unacked ≠ [] → l.up = true → l.retired = false →
    l.sentAt + 2048 ≤ s.clk.hub →
    (l.resends < 32 → exec (.odnerlinkResendTimeout port) s =
      .next (s.setLink port { l with resends := l.resends + 1, sentAt := s.clk.hub })) ∧
    (32 ≤ l.resends → ∃ t : State, exec (.odnerlinkResendTimeout port) s = .next t ∧ (t.link port).up = false ∧
      ∀ (f : Flit) (m : Msg), f ∈ l.unacked → f.body = .msg m → m.wt ≠ 0 → l.asked = [] →
        .loss m.ctx m.kslot m.hpkg m.wt 3 hubPlace ∈ t.home.wires)) ∧
  (∀ (s : State) (port : Nat), port < 12 → (s.link port).up = false →
    ((s.link port).retired = true → exec (.linkRetrain port true) s = .next s) ∧
    ((s.link port).retired = false → ∃ t : State, exec (.linkRetrain port true) s = .next t ∧
      (t.link port).up = true ∧ (t.link port).expect = 0 ∧ (t.link port).nextSeq = (s.link port).unacked.length ∧
      (t.link port).unacked.map (·.seq) = List.range (s.link port).unacked.length)) ∧
  (∀ (s : State) (src : BootSource) (mon : Image),
    (s.fw.verifies 1 src.stageA = true → src.monitor = some mon → s.fw.verifies 2 mon = true → ∃ t : State,
      exec (.boot src) s = .next t ∧ t.fw.stage = some src.stageA ∧ t.fw.monitor = some mon ∧ t.fw.standby = some mon ∧
      t.fw.activeB = false ∧ t.meter.boot = s.meter.boot + 1 ∧ t.runs ∧ t.slots = State.reset.slots ∧
      t.xbar.rows = State.reset.xbar.rows ∧ t.fw.span.length ≤ 16 ∧ (∀ p ∈ t.fw.span, p < 16) ∧
      (src.span.eraseDups = src.span → src.span.length ≤ 16 → (∀ p ∈ src.span, p < 16) → src.pkg ∈ src.span →
        t.fw.pkg = src.pkg ∧ t.fw.span = src.span) ∧ (src.span = [] → t.fw.pkg = 0 ∧ t.fw.span = [])) ∧
    (s.fw.verifies 1 src.stageA = false → s.fw.verifies 1 src.stageB = false → ∃ t : State,
      exec (.boot src) s = .next t ∧ t.fw.bootFailed = true ∧ ¬ t.runs)) ∧
  (∀ s : State, ∃ t : State, exec .powerLoss s = .next t ∧ t.meter.powerLost = true ∧ t.vault = [] ∧
    t.meter.slotA = s.meter.slotA ∧ t.meter.slotB = s.meter.slotB ∧ t.fw.clock = 0 ∧ ∀ c ∈ t.mem, hostBase ≤ c.1) ∧
  (∀ (s : State) (img : Image),
    (s.fw.upd = .idle → ∃ t : State, exec (.updateCommand img) s = .next t ∧ t.fw.upd = .loading img ∧
      t.fw.monitor = s.fw.monitor) ∧
    (s.fw.upd = .loading img →
      (s.fw.verifies 2 img = true → img.lowTable ≤ s.fw.tableVer → s.fw.tableVer ≤ img.highTable → ∃ t : State,
        exec .standbyReady s = .next t ∧ t.fw.upd = .pausing img ∧ t.front.paused = true) ∧
      (s.fw.verifies 2 img = false → ∃ t : State, exec .standbyReady s = .next t ∧ t.fw.upd = .idle ∧
        t.front.paused = false ∧ t.fw.monitor = s.fw.monitor)) ∧
    (s.fw.upd = .pausing img →
      (∃ t : State, exec .pauseDrained s = .next t ∧ t.fw.upd = .switching img ∧ t.fw.monitor = s.fw.monitor) ∧
      (∃ t : State, exec .updatePauseTimeout s = .next t ∧ t.fw.upd = .idle ∧ t.front.paused = false ∧
        t.fw.monitor = s.fw.monitor ∧ t.fw.standby = s.fw.monitor)) ∧
    (s.fw.upd = .switching img → ∃ t : State, exec .importDone s = .next t ∧ t.fw.monitor = some img ∧
      t.fw.standby = some img ∧ t.fw.activeB = !s.fw.activeB ∧ t.fw.upd = .idle ∧ t.front.paused = false) ∧
    (s.fw.upd = .idle → s.fw.standby = some img → s.fw.mirrored = true → ∃ t : State,
      exec .heartbeatTimeout s = .next t ∧ t.fw.monitor = some img ∧ t.fw.activeB = (!s.fw.activeB) ∧
      t.fw.standby = none ∧ (s.fatal = none → t.fatal = none) ∧ t.front.queues = s.front.queues.map fun (k, c) =>
        (k, if c.headSt = .saving then c else { c with headSt := .read, desc := [] })) ∧
    (s.fw.upd = .idle → s.fw.standby = none → ∃ t : State, exec .heartbeatTimeout s = .next t ∧
      t.fatal = some (s.dump 4 hubPlace 0))) ∧
  (∀ (s : State) (nonce : Word),
    (s.fw.key = false → exec (.attestationRequest nonce) s = .next s) ∧
    (s.fw.key = true → ∃ (t : State) (r : List Byte), exec (.attestationRequest nonce) s = .next t ∧
      t.fw.attest = s.fw.attest ++ [r] ∧ r = r.take 80 ++ (Config.sign (r.take 80)).toList ∧
      r.take 8 = leBytes 8 Config.deviceId.toNat ∧ (r.drop 72).take 8 = leBytes 8 nonce.toNat) ∧
    exec (.provisioningCommand true) s = .next { s with fw := { s.fw with key := true } } ∧
    exec (.provisioningCommand false) s = .next s ∧
    (s.fw.outAt + 1750000000 ≤ s.clk.hub →
      exec .alarmResume s = .next { s with fw := { s.fw with halted := false } }) ∧
    (s.clk.hub < s.fw.outAt + 1750000000 → exec .alarmResume s = .next s)) ∧
  (∀ (s : State) (c : Sensed) (level : Nat), level = sensedLevel c →
    (level = 0 → exec (.securityAlarm c) s = .next s) ∧
    (1 ≤ level → ∃ t : State, exec (.securityAlarm c) s = .next t ∧
      t.host.irqs = s.host.irqs ++ [⟨64, 2, [level]⟩] ∧ t.host.log = s.host.log ++ [[395, level]] ∧
      t.fw.outAt = s.clk.hub ∧ (level = 1 → t.fw = { s.fw with outAt := s.clk.hub }) ∧
      (2 ≤ level → t.fw.halted = true) ∧ (level = 3 → t.fw.key = false) ∧
      (level = 2 → t.fw.key = (s.fw.key && decide (s.fw.level2 < 2))))) ∧
  (∀ (s : State) (vf : Nat), vf < 64 → ∃ t : State, exec (.policyImageOverrun vf) s = .next t ∧ vf ∈ t.fw.fallback ∧
    t.host.irqs = s.host.irqs ++ [⟨64, 0, [363, vf]⟩] ∧
    ∀ p, (t.part p).choices = (s.part p).choices) ∧
  (∀ (s : State) (d : MigDesc), ∃ t : State, exec (.migrationDescriptorPlacement d) s = .next t ∧
    t.fw.pending.find? (·.ctx = d.ctx) = some d) ∧
  (∀ (s : State) (i : Nat) (x : Flight), s.net[i]? = some x → x.msg.wt ≠ 0 → ∃ t : State,
    exec (.bufferUncorrectableError i) s = .next t ∧ t.net = s.net.eraseIdx i ∧
    t.home.wires = s.home.wires ++ [.loss x.msg.ctx x.msg.kslot x.msg.hpkg x.msg.wt 2 x.msg.src]) ∧
  (∀ (s : State) (p : Nat) (v : Word),
    (∃ t : State, exec (.registerWrite .plim v) s = .next t ∧ t.reg .plim = v) ∧
    (p < 24 → v.toNat / 2 ^ 16 % 2 ^ 16 ≠ 0 → ∃ t : State, exec (.registerWrite (.pebud p) v) s = .next t ∧
      t.reg (.pebud p) = v ∧ ∀ r, r ≠ .pebud p → t.reg r = s.reg r) ∧
    (v.toNat / 2 ^ 16 % 2 ^ 16 = 0 → exec (.registerWrite (.pebud p) v) s = .next s))

/-! A package that is down -/

/-- A package that is frozen, without power or in failed boot stays as it is at every step: time passes and turns are
used up, the retained clock counts, the dies' clocks lag as their steps make them, and nothing else changes until a
boot, or the loss of power, takes its turn; so it stays down (18_faults_and_preemption.md R359;
21_host_firmware_security.md R390). That turns come by an agenda is the model's choice (log entry 4). -/
def Obligations.DownPackageStaysAsItIs : Prop :=
  ∀ s t : State, ¬ s.runs → (∀ i ts, s.agenda = .event i :: ts → wakesDevice i = false) → step s = .next t →
    t = { s with agenda := s.agenda.tail, clk := t.clk, dies := t.dies, fw := { s.fw with clock := t.fw.clock } } ∧
    (∀ d, t.die d = { s.die d with lag := (t.die d).lag }) ∧ s.clk.hub < t.clk.hub ∧ ¬ t.runs


end
end

