-- ==== Sys2Proof/Laws/Encoding.lean ====
section
/-!
SUPPORT. The fields of an encoding: packing them into a head and a tail loses nothing, and every coded operand is read
back from its code.
-/

namespace Sys2Proof

/-- Fields that a head and a tail can hold: each in its width, and zero where the form has no such field (R125). -/
structure Fields.Fits (x : Fields) : Prop where
  o : x.o < 64
  t : x.t < 4
  a : x.a < 16
  b : x.b < 16
  c : x.c < 16
  f : x.f < 16
  l : x.l < 16
  d : x.d < 16
  li : x.o = 0x0E → x.c = 0 ∧ x.f = 0 ∧ x.l = 0 ∧ x.d = 0
  small : x.o ≠ 0x0E → x.t = 1 → x.imm = 0
  wide : x.o ≠ 0x0E → x.t = 2 → x.d = 0 ∧ x.imm < 1048576
  bare : x.o ≠ 0x0E → x.t ≠ 1 → x.t ≠ 2 → x.c = 0 ∧ x.f = 0 ∧ x.l = 0 ∧ x.d = 0

theorem head_digits (o t a b : Nat) (ho : o < 64) (ht : t < 4) (ha : a < 16) (hb : b < 16) :
    (o * 1024 + t * 256 + a * 16 + b) / 1024 % 64 = o ∧ (o * 1024 + t * 256 + a * 16 + b) / 256 % 4 = t ∧
      (o * 1024 + t * 256 + a * 16 + b) / 16 % 16 = a ∧ (o * 1024 + t * 256 + a * 16 + b) % 16 = b := by omega

theorem small_digits (c f l d : Nat) (hc : c < 16) (hf : f < 16) (hl : l < 16) (hd : d < 16) :
    (c * 4096 + f * 256 + l * 16 + d) / 4096 % 16 = c ∧ (c * 4096 + f * 256 + l * 16 + d) / 256 % 16 = f ∧
      (c * 4096 + f * 256 + l * 16 + d) / 16 % 16 = l ∧ (c * 4096 + f * 256 + l * 16 + d) % 16 = d := by omega

theorem wide_digits (c f l i : Nat) (hc : c < 16) (hf : f < 16) (hl : l < 16) (hi : i < 1048576) :
    (c * 268435456 + f * 16777216 + l * 1048576 + i) / 268435456 % 16 = c ∧
      (c * 268435456 + f * 16777216 + l * 1048576 + i) / 16777216 % 16 = f ∧
      (c * 268435456 + f * 16777216 + l * 1048576 + i) / 1048576 % 16 = l ∧
      (c * 268435456 + f * 16777216 + l * 1048576 + i) % 1048576 = i := by omega

/-- The fields read back from the head and the tail made of them. -/
theorem fieldsOf_headOf_tailOf (x : Fields) (h : x.Fits) : fieldsOf (headOf x) (tailOf x) = x := by
  obtain ⟨o, t, a, b, c, f, l, d, imm⟩ := x
  obtain ⟨ho, ht, ha, hb, hc, hf, hl, hd, hli, hs, hw, hz⟩ := h
  dsimp only at *
  obtain ⟨eo, et, ea, eb⟩ := head_digits o t a b ho ht ha hb
  simp only [fieldsOf, headOf, tailOf, headT, eo, et, ea, eb]
  by_cases h1 : o = 0x0E
  · obtain ⟨rfl, rfl, rfl, rfl⟩ := hli h1
    simp [h1]
  · by_cases h2 : t = 1
    · have hi := hs h1 h2
      subst hi
      obtain ⟨e1, e2, e3, e4⟩ := small_digits c f l d hc hf hl hd
      simp only [h1, h2, if_true, if_false, e1, e2, e3, e4]
    · by_cases h3 : t = 2
      · obtain ⟨rfl, hi⟩ := hw h1 h3
        obtain ⟨e1, e2, e3, e4⟩ := wide_digits c f l imm hc hf hl hi
        subst h3
        simp only [h1, if_true, if_false, e1, e2, e3, e4, show ¬ (2 : Nat) = 1 by decide]
      · obtain ⟨rfl, rfl, rfl, rfl⟩ := hz h1 h2 h3
        simp only [h1, h2, h3, if_false]

/-! Operands and their codes -/

@[simp] theorem finOf_val {k : Nat} (x : Fin k) : finOf k x.val = some x := by simp [finOf]

@[simp] theorem bvOf_toNat {w : Nat} (x : BitVec w) : bvOf w x.toNat = some x := by simp [bvOf, x.isLt]

/-- A byte split over two fields of four bits is read back. -/
@[simp] theorem finOf_split (n : Fin 256) : finOf 256 (n.val / 16 * 16 + n.val % 16) = some n := by
  rw [show n.val / 16 * 16 + n.val % 16 = n.val by omega, finOf_val]

@[simp] theorem bvOf_split (n : BitVec 8) : bvOf 8 (n.toNat / 16 * 16 + n.toNat % 16) = some n := by
  rw [show n.toNat / 16 * 16 + n.toNat % 16 = n.toNat by omega, bvOf_toNat]

@[simp] theorem boolOf_code (b : Bool) : boolOf (boolCode b) = some b := by cases b <;> rfl

@[simp] theorem scopeOf_code (s : Scope) : scopeOf (scopeCode s) = some s := by cases s <;> rfl

@[simp] theorem ityOf_code (t : ITy) : ityOf (ityCode t) = some t := by cases t <;> rfl

@[simp] theorem ftyOf_code (t : FTy) : ftyOf (ftyCode t) = some t := by cases t <;> rfl

@[simp] theorem vtyOf_code (t : VTy) : vtyOf (vtyCode t) = some t := by
  cases t with
  | int t => cases t <;> rfl
  | flt t => cases t <;> rfl

@[simp] theorem pctlOf_code (p : PCtl) : pctlOf (pctlCode p) = some p := by
  cases p with
  | all => rfl
  | merge p => revert p; decide
  | zero p => revert p; decide

@[simp] theorem selDOf_code (p : PReg) : selDOf (selDCode p) = some p := by revert p; decide

@[simp] theorem redPredOf_code (p : Option PReg) : redPredOf (redPredCode p) = some p := by
  cases p with
  | none => rfl
  | some p => revert p; decide

@[simp] theorem loadFOf_code (z : LoadSize) (b : Bool) : loadFOf (loadFCode (z, b)) = some (z, b) := by
  cases z <;> cases b <;> rfl

@[simp] theorem storeFOf_code (z : StoreSize) (b : Bool) : storeFOf (storeFCode (z, b)) = some (z, b) := by
  cases z <;> cases b <;> rfl

@[simp] theorem flag8Of_code (k : Nat) (b : Bool) : flag8Of k (flag8Code k b) = some b := by
  cases b <;> simp [flag8Of, flag8Code, boolCode]

@[simp] theorem vmemDOf_code (v : Bool) (p : Option PReg) : vmemDOf (vmemDCode (v, p)) = some (v, p) := by
  cases p with
  | none => cases v <;> rfl
  | some p => cases v <;> (revert p; decide)

@[simp] theorem wideAOf_code (w : Bool) (a : VReg) : wideAOf (wideACode (w, a)) = some (w, a) := by
  cases w <;> (revert a; decide)

@[simp] theorem amoDOf_code (o : AmoOrd) (z v : Bool) : amoDOf (amoDCode (o, z, v)) = some (o, z, v) := by
  cases o <;> cases z <;> cases v <;> rfl

@[simp] theorem casFOf_code (z v : Bool) : casFOf (casFCode (z, v)) = some (z, v) := by cases z <;> cases v <;> rfl

@[simp] theorem casDOf_code (o : AmoOrd) (q : Bool) : casDOf (casDCode (o, q)) = some (o, q) := by
  cases o <;> cases q <;> rfl

@[simp] theorem redDOf_code (r z v : Bool) : redDOf (redDCode (r, z, v)) = some (r, z, v) := by
  cases r <;> cases z <;> cases v <;> rfl

@[simp] theorem redFDOf_code (r v : Bool) : redFDOf (redFDCode (r, v)) = some (r, v) := by
  cases r <;> cases v <;> rfl

@[simp] theorem optdOf_code (d : Option XReg) : optdOf ((optdCode d).1, (optdCode d).2) = some d := by
  cases d with
  | none => rfl
  | some d => revert d; decide

@[simp] theorem rmodeOf_code (r : RMode) : rmodeOf (rmodeCode r) = some r := by cases r <;> rfl

@[simp] theorem vcvtOf_code (a b : Fin 32) (r : RMode) (z : Bool) : vcvtOf (vcvtCode (a, b, r, z)) = some (a, b, r, z) := by
  have hr : rmodeCode r < 8 := by cases r <;> decide
  have hz : boolCode z < 2 := by cases z <;> decide
  have ha := a.isLt
  have hb := b.isLt
  simp only [vcvtOf, vcvtCode]
  rw [show (a.val * 32768 + b.val * 1024 + rmodeCode r * 128 + boolCode z * 64) / 32768 = a.val by omega,
    show (a.val * 32768 + b.val * 1024 + rmodeCode r * 128 + boolCode z * 64) / 1024 % 32 = b.val by omega,
    show (a.val * 32768 + b.val * 1024 + rmodeCode r * 128 + boolCode z * 64) / 128 % 8 = rmodeCode r by omega,
    show (a.val * 32768 + b.val * 1024 + rmodeCode r * 128 + boolCode z * 64) / 64 % 2 = boolCode z by omega,
    show (a.val * 32768 + b.val * 1024 + rmodeCode r * 128 + boolCode z * 64) % 64 = 0 by omega]
  simp

end Sys2Proof
end

