-- ==== Sys2Proof/Laws/Memory.lean ====
section
/-!
SUPPORT. The laws of the sparse stores: every byte write keeps the canonical form, a read after a write gives what was
written, a write leaves every other byte alone; and the same for maps of records.
-/

namespace Sys2Proof.Machine

theorem Memory.wfFrom_mono {lo lo' : Nat} {m : List Host.Cell} (h : Memory.wfFrom lo m = true) (hl : lo' ≤ lo) :
    Memory.wfFrom lo' m = true := by
  cases m with
  | nil => rfl
  | cons c m =>
    obtain ⟨k, v⟩ := c
    simp only [Memory.wfFrom, Bool.and_eq_true, decide_eq_true_eq] at h ⊢
    exact ⟨⟨by omega, h.1.2⟩, h.2⟩

/-- Writing a byte keeps the canonical form. -/
theorem writeByte_wfFrom (lo : Nat) (m : List Host.Cell) (a : Nat) (b : Byte) (h : Memory.wfFrom lo m = true)
    (ha : lo ≤ a) : Memory.wfFrom lo (writeByte m a b) = true := by
  induction m generalizing lo with
  | nil =>
    unfold writeByte
    split
    · rfl
    · simp_all [Memory.wfFrom]
  | cons c m ih =>
    obtain ⟨k, v⟩ := c
    have h' := h
    simp only [Memory.wfFrom, Bool.and_eq_true, decide_eq_true_eq] at h'
    obtain ⟨⟨hk, hv⟩, hm⟩ := h'
    unfold writeByte
    split
    · split
      · exact Memory.wfFrom_mono hm (by omega)
      · simp_all [Memory.wfFrom]
    · split
      · split
        · exact h
        · simp only [Memory.wfFrom, Bool.and_eq_true, decide_eq_true_eq]
          exact ⟨⟨ha, by assumption⟩, ⟨by omega, hv⟩, hm⟩
      · simp only [Memory.wfFrom, Bool.and_eq_true, decide_eq_true_eq]
        exact ⟨⟨hk, hv⟩, ih (k + 1) hm (by omega)⟩

/-- Writing a byte keeps the canonical form. -/
theorem writeByte_wf {m : List Host.Cell} (h : Memory.wf m = true) (a : Nat) (b : Byte) :
    Memory.wf (writeByte m a b) = true := writeByte_wfFrom 0 m a b h (Nat.zero_le a)

/-- Writing bytes keeps the canonical form. -/
theorem writeBytes_wf {m : List Host.Cell} (h : Memory.wf m = true) (a : Nat) (bs : List Byte) :
    Memory.wf (writeBytes m a bs) = true := by
  induction bs generalizing m a with
  | nil => exact h
  | cons b bs ih => exact ih (writeByte_wf h a b) (a + 1)

/-- Below its first listed address a canonical memory reads as unlisted. -/
theorem readByte_below {lo : Nat} {m : List Host.Cell} (h : Memory.wfFrom lo m = true) {a : Nat} (ha : a < lo) :
    readByte m a = unlisted := by
  cases m with
  | nil => rfl
  | cons c m =>
    obtain ⟨k, v⟩ := c
    simp only [Memory.wfFrom, Bool.and_eq_true, decide_eq_true_eq] at h
    simp [readByte, show ¬ a = k by omega, show a < k by omega]

theorem readByte_writeByte_from (lo : Nat) (m : List Host.Cell) (a : Nat) (b : Byte) (h : Memory.wfFrom lo m = true)
    (a' : Nat) : readByte (writeByte m a b) a' = if a' = a then b else readByte m a' := by
  induction m generalizing lo with
  | nil =>
    unfold writeByte
    split <;> simp_all [readByte]
  | cons c m ih =>
    obtain ⟨k, v⟩ := c
    simp only [Memory.wfFrom, Bool.and_eq_true, decide_eq_true_eq] at h
    obtain ⟨⟨hk, hv⟩, hm⟩ := h
    have ih := ih (k + 1) hm
    unfold writeByte
    split
    · subst k
      split
      · subst b
        split
        · subst a'; exact readByte_below hm (Nat.lt_succ_self a)
        · by_cases hl : a' < a
          · simp [readByte, hl, show ¬ a' = a by omega, readByte_below hm (show a' < a + 1 by omega)]
          · simp [readByte, hl, show ¬ a' = a by omega]
      · simp only [readByte]
        split <;> simp_all
    · split
      · split
        · subst b
          simp only [readByte]
          by_cases ha : a' = a
          · simp [ha, show ¬ a = k by omega, show a < k by omega]
          · simp [ha]
        · simp only [readByte]
          by_cases ha : a' = a
          · simp [ha]
          · by_cases hl : a' < a
            · simp [ha, hl, show ¬ a' = k by omega, show a' < k by omega]
            · simp [ha, hl]
      · simp only [readByte, ih]
        by_cases ha : a' = a
        · simp [ha, show ¬ a = k by omega, show ¬ a < k by omega]
        · simp [ha]

/-- A read after a byte write: the byte written, or what stood there. -/
theorem readByte_writeByte {m : List Host.Cell} (h : Memory.wf m = true) (a : Nat) (b : Byte) (a' : Nat) :
    readByte (writeByte m a b) a' = if a' = a then b else readByte m a' := readByte_writeByte_from 0 m a b h a'

/-- A write of bytes leaves every byte outside them alone. -/
theorem readByte_writeBytes_outside {m : List Host.Cell} (h : Memory.wf m = true) (a : Nat) (bs : List Byte) (a' : Nat)
    (ho : a' < a ∨ a + bs.length ≤ a') : readByte (writeBytes m a bs) a' = readByte m a' := by
  induction bs generalizing m a with
  | nil => rfl
  | cons b bs ih =>
    simp only [List.length_cons] at ho
    have h1 := ih (writeByte_wf h a b) (a + 1) (by omega)
    rw [writeBytes, h1, readByte_writeByte h, if_neg (by omega)]

/-- A read inside the bytes written gives the byte written there. -/
theorem readByte_writeBytes_inside {m : List Host.Cell} (h : Memory.wf m = true) (a : Nat) (bs : List Byte) (i : Nat)
    (hi : i < bs.length) : readByte (writeBytes m a bs) (a + i) = bs[i] := by
  induction bs generalizing m a i with
  | nil => exact absurd hi (Nat.not_lt_zero i)
  | cons b bs ih =>
    rw [writeBytes]
    cases i with
    | zero =>
      have := readByte_writeBytes_outside (writeByte_wf h a b) (a + 1) bs a (by omega)
      simpa [readByte_writeByte h] using this
    | succ i =>
      have hi' : i < bs.length := by simpa using hi
      have := ih (writeByte_wf h a b) (a + 1) i hi'
      simpa [Nat.add_assoc, Nat.add_comm 1] using this

theorem readBytes_length (m : List Host.Cell) (a n : Nat) : (readBytes m a n).length = n := by
  induction n generalizing a with
  | zero => rfl
  | succ n ih => simp [readBytes, ih]

theorem readBytes_getElem (m : List Host.Cell) (a n i : Nat) (hi : i < (readBytes m a n).length) :
    (readBytes m a n)[i] = readByte m (a + i) := by
  induction n generalizing a i with
  | zero => exact absurd hi (Nat.not_lt_zero i)
  | succ n ih =>
    cases i with
    | zero => rfl
    | succ i => simp [readBytes, ih, Nat.add_assoc, Nat.add_comm 1]

/-- Reading the bytes just written. -/
theorem readBytes_writeBytes {m : List Host.Cell} (h : Memory.wf m = true) (a : Nat) (bs : List Byte) :
    readBytes (writeBytes m a bs) a bs.length = bs := by
  apply List.ext_getElem (by simp [readBytes_length])
  intro i h1 h2
  rw [readBytes_getElem, readByte_writeBytes_inside h a bs i h2]

/-- Bytes read alike from memories that agree on them. -/
theorem readBytes_congr {m m' : List Host.Cell} (a n : Nat)
    (h : ∀ i, i < n → readByte m (a + i) = readByte m' (a + i)) : readBytes m a n = readBytes m' a n := by
  apply List.ext_getElem (by simp [readBytes_length])
  intro i h1 h2
  rw [readBytes_getElem, readBytes_getElem]
  exact h i (by simpa [readBytes_length] using h1)

theorem wfFrom_ext (lo : Nat) (m m' : List Host.Cell) (h : Memory.wfFrom lo m = true) (h' : Memory.wfFrom lo m' = true)
    (e : ∀ a, readByte m a = readByte m' a) : m = m' := by
  induction m generalizing lo m' with
  | nil =>
    cases m' with
    | nil => rfl
    | cons c' m' =>
      obtain ⟨k', v'⟩ := c'
      simp only [Memory.wfFrom, Bool.and_eq_true, decide_eq_true_eq] at h'
      have := e k'
      simp [readByte] at this
      exact absurd this.symm h'.1.2
  | cons c m ih =>
    obtain ⟨k, v⟩ := c
    have hm := h
    simp only [Memory.wfFrom, Bool.and_eq_true, decide_eq_true_eq] at hm
    cases m' with
    | nil =>
      have := e k
      simp [readByte] at this
      exact absurd this hm.1.2
    | cons c' m' =>
      obtain ⟨k', v'⟩ := c'
      have hm' := h'
      simp only [Memory.wfFrom, Bool.and_eq_true, decide_eq_true_eq] at hm'
      have hk : k = k' := by
        rcases Nat.lt_trichotomy k k' with hlt | heq | hgt
        · have := e k
          simp [readByte, show ¬ k = k' by omega, hlt] at this
          exact absurd this hm.1.2
        · exact heq
        · have := e k'
          simp [readByte, show ¬ k' = k by omega, hgt] at this
          exact absurd this.symm hm'.1.2
      subst hk
      have hv : v = v' := by simpa [readByte] using e k
      subst hv
      have : m = m' := by
        apply ih (k + 1) m' hm.2 hm'.2
        intro a
        by_cases ha : a ≤ k
        · rw [readByte_below hm.2 (by omega), readByte_below hm'.2 (by omega)]
        · have := e a
          simpa [readByte, show ¬ a = k by omega, show ¬ a < k by omega] using this
      rw [this]

/-- Canonical memories that read alike are equal. -/
theorem wf_ext {m m' : List Host.Cell} (h : Memory.wf m = true) (h' : Memory.wf m' = true)
    (e : ∀ a, readByte m a = readByte m' a) : m = m' := wfFrom_ext 0 m m' h h' e

theorem filter_wfFrom (p : Host.Cell → Bool) (lo : Nat) (m : List Host.Cell) (h : Memory.wfFrom lo m = true) :
    Memory.wfFrom lo (m.filter p) = true := by
  induction m generalizing lo with
  | nil => rfl
  | cons c m ih =>
    obtain ⟨k, v⟩ := c
    simp only [Memory.wfFrom, Bool.and_eq_true, decide_eq_true_eq] at h
    rw [List.filter_cons]
    split
    · simp only [Memory.wfFrom, Bool.and_eq_true, decide_eq_true_eq]
      exact ⟨h.1, ih (k + 1) h.2⟩
    · exact Memory.wfFrom_mono (ih (k + 1) h.2) (by omega)

/-- Cells taken out of a canonical memory leave a canonical memory. -/
theorem filter_wf (p : Host.Cell → Bool) {m : List Host.Cell} (h : Memory.wf m = true) :
    Memory.wf (m.filter p) = true := filter_wfFrom p 0 m h

/-- Bytes written one by one from a list keep the canonical form. -/
theorem foldl_writeByte_wf (f : Nat → Nat) (l : List Host.Cell) {m : List Host.Cell} (h : Memory.wf m = true) :
    Memory.wf (l.foldl (fun m c => writeByte m (f c.1) c.2) m) = true := by
  induction l generalizing m with
  | nil => exact h
  | cons c l ih => exact ih (writeByte_wf h (f c.1) c.2)

/-! Maps of records -/

@[simp] theorem kget_nil {α : Type} (d : α) (a : Nat) : kget d [] a = d := rfl

/-- A record read after one was written. -/
theorem kget_kset {α : Type} (d : α) (m : KMap α) (a : Nat) (x : α) (b : Nat) :
    kget d (kset m a x) b = if b = a then x else kget d m b := by
  induction m with
  | nil => simp only [kset, kget]; split <;> simp
  | cons c m ih =>
    obtain ⟨k, v⟩ := c
    simp only [kset]
    split
    · subst a; simp only [kget]; split <;> simp
    · split
      · simp only [kget]
        by_cases hb : b = a
        · simp [hb]
        · by_cases hl : b < a
          · simp [hb, hl, show ¬ b = k by omega, show b < k by omega]
          · simp [hb, hl]
      · simp only [kget, ih]
        by_cases hb : b = a
        · simp [hb, show ¬ a = k by omega, show ¬ a < k by omega]
        · simp [hb]

@[simp] theorem kget_kset_same {α : Type} (d : α) (m : KMap α) (a : Nat) (x : α) : kget d (kset m a x) a = x := by
  simp [kget_kset]

theorem kget_kset_other {α : Type} (d : α) (m : KMap α) {a b : Nat} (x : α) (h : b ≠ a) :
    kget d (kset m a x) b = kget d m b := by simp [kget_kset, h]

/-- Writing a record twice keeps the second. -/
theorem kset_kset {α : Type} (m : KMap α) (a : Nat) (x y : α) : kset (kset m a x) a y = kset m a y := by
  induction m with
  | nil => simp [kset]
  | cons c m ih =>
    obtain ⟨k, v⟩ := c
    simp only [kset]
    split
    · simp [kset]
    · split
      · simp [kset]
      · rename_i h1 h2
        simp [kset, h1, h2, ih]

end Sys2Proof.Machine
end

