-- ==== Sys2Proof/Laws/State.lean ====
section
/-!
SUPPORT. What each update of the state leaves of every field, true by computation, and what each accessor reads after
each update.
-/

namespace Sys2Proof.Machine

/-! setSlot -/

@[simp] theorem State.setSlot_cur (s : State) (p : Nat) (x : Slot) : (s.setSlot p x).cur = s.cur := rfl
@[simp] theorem State.setSlot_agenda (s : State) (p : Nat) (x : Slot) : (s.setSlot p x).agenda = s.agenda := rfl
@[simp] theorem State.setSlot_clk (s : State) (p : Nat) (x : Slot) : (s.setSlot p x).clk = s.clk := rfl
@[simp] theorem State.setSlot_cores (s : State) (p : Nat) (x : Slot) : (s.setSlot p x).cores = s.cores := rfl
@[simp] theorem State.setSlot_clusters (s : State) (p : Nat) (x : Slot) : (s.setSlot p x).clusters = s.clusters := rfl
@[simp] theorem State.setSlot_mem (s : State) (p : Nat) (x : Slot) : (s.setSlot p x).mem = s.mem := rfl
@[simp] theorem State.setSlot_vault (s : State) (p : Nat) (x : Slot) : (s.setSlot p x).vault = s.vault := rfl
@[simp] theorem State.setSlot_empty (s : State) (p : Nat) (x : Slot) : (s.setSlot p x).empty = s.empty := rfl
@[simp] theorem State.setSlot_flaws (s : State) (p : Nat) (x : Slot) : (s.setSlot p x).flaws = s.flaws := rfl
@[simp] theorem State.setSlot_feeders (s : State) (p : Nat) (x : Slot) : (s.setSlot p x).feeders = s.feeders := rfl
@[simp] theorem State.setSlot_net (s : State) (p : Nat) (x : Slot) : (s.setSlot p x).net = s.net := rfl
@[simp] theorem State.setSlot_formes (s : State) (p : Nat) (x : Slot) : (s.setSlot p x).formes = s.formes := rfl
@[simp] theorem State.setSlot_overflow (s : State) (p : Nat) (x : Slot) : (s.setSlot p x).overflow = s.overflow := rfl
@[simp] theorem State.setSlot_formeErr (s : State) (p : Nat) (x : Slot) : (s.setSlot p x).formeErr = s.formeErr := rfl
@[simp] theorem State.setSlot_home (s : State) (p : Nat) (x : Slot) : (s.setSlot p x).home = s.home := rfl
@[simp] theorem State.setSlot_xbar (s : State) (p : Nat) (x : Slot) : (s.setSlot p x).xbar = s.xbar := rfl
@[simp] theorem State.setSlot_sdowns (s : State) (p : Nat) (x : Slot) : (s.setSlot p x).sdowns = s.sdowns := rfl
@[simp] theorem State.setSlot_ctxs (s : State) (p : Nat) (x : Slot) : (s.setSlot p x).ctxs = s.ctxs := rfl
@[simp] theorem State.setSlot_regs (s : State) (p : Nat) (x : Slot) : (s.setSlot p x).regs = s.regs := rfl
@[simp] theorem State.setSlot_dies (s : State) (p : Nat) (x : Slot) : (s.setSlot p x).dies = s.dies := rfl
@[simp] theorem State.setSlot_front (s : State) (p : Nat) (x : Slot) : (s.setSlot p x).front = s.front := rfl
@[simp] theorem State.setSlot_host (s : State) (p : Nat) (x : Slot) : (s.setSlot p x).host = s.host := rfl
@[simp] theorem State.setSlot_meter (s : State) (p : Nat) (x : Slot) : (s.setSlot p x).meter = s.meter := rfl
@[simp] theorem State.setSlot_fw (s : State) (p : Nat) (x : Slot) : (s.setSlot p x).fw = s.fw := rfl
@[simp] theorem State.setSlot_links (s : State) (p : Nat) (x : Slot) : (s.setSlot p x).links = s.links := rfl
@[simp] theorem State.setSlot_saved (s : State) (p : Nat) (x : Slot) : (s.setSlot p x).saved = s.saved := rfl
@[simp] theorem State.setSlot_reports (s : State) (p : Nat) (x : Slot) : (s.setSlot p x).reports = s.reports := rfl
@[simp] theorem State.setSlot_fatal (s : State) (p : Nat) (x : Slot) : (s.setSlot p x).fatal = s.fatal := rfl

/-! setMe -/

@[simp] theorem State.setMe_cur (s : State) (x : Slot) : (s.setMe x).cur = s.cur := rfl
@[simp] theorem State.setMe_agenda (s : State) (x : Slot) : (s.setMe x).agenda = s.agenda := rfl
@[simp] theorem State.setMe_clk (s : State) (x : Slot) : (s.setMe x).clk = s.clk := rfl
@[simp] theorem State.setMe_cores (s : State) (x : Slot) : (s.setMe x).cores = s.cores := rfl
@[simp] theorem State.setMe_clusters (s : State) (x : Slot) : (s.setMe x).clusters = s.clusters := rfl
@[simp] theorem State.setMe_mem (s : State) (x : Slot) : (s.setMe x).mem = s.mem := rfl
@[simp] theorem State.setMe_vault (s : State) (x : Slot) : (s.setMe x).vault = s.vault := rfl
@[simp] theorem State.setMe_empty (s : State) (x : Slot) : (s.setMe x).empty = s.empty := rfl
@[simp] theorem State.setMe_flaws (s : State) (x : Slot) : (s.setMe x).flaws = s.flaws := rfl
@[simp] theorem State.setMe_feeders (s : State) (x : Slot) : (s.setMe x).feeders = s.feeders := rfl
@[simp] theorem State.setMe_net (s : State) (x : Slot) : (s.setMe x).net = s.net := rfl
@[simp] theorem State.setMe_formes (s : State) (x : Slot) : (s.setMe x).formes = s.formes := rfl
@[simp] theorem State.setMe_overflow (s : State) (x : Slot) : (s.setMe x).overflow = s.overflow := rfl
@[simp] theorem State.setMe_formeErr (s : State) (x : Slot) : (s.setMe x).formeErr = s.formeErr := rfl
@[simp] theorem State.setMe_home (s : State) (x : Slot) : (s.setMe x).home = s.home := rfl
@[simp] theorem State.setMe_xbar (s : State) (x : Slot) : (s.setMe x).xbar = s.xbar := rfl
@[simp] theorem State.setMe_sdowns (s : State) (x : Slot) : (s.setMe x).sdowns = s.sdowns := rfl
@[simp] theorem State.setMe_ctxs (s : State) (x : Slot) : (s.setMe x).ctxs = s.ctxs := rfl
@[simp] theorem State.setMe_regs (s : State) (x : Slot) : (s.setMe x).regs = s.regs := rfl
@[simp] theorem State.setMe_dies (s : State) (x : Slot) : (s.setMe x).dies = s.dies := rfl
@[simp] theorem State.setMe_front (s : State) (x : Slot) : (s.setMe x).front = s.front := rfl
@[simp] theorem State.setMe_host (s : State) (x : Slot) : (s.setMe x).host = s.host := rfl
@[simp] theorem State.setMe_meter (s : State) (x : Slot) : (s.setMe x).meter = s.meter := rfl
@[simp] theorem State.setMe_fw (s : State) (x : Slot) : (s.setMe x).fw = s.fw := rfl
@[simp] theorem State.setMe_links (s : State) (x : Slot) : (s.setMe x).links = s.links := rfl
@[simp] theorem State.setMe_saved (s : State) (x : Slot) : (s.setMe x).saved = s.saved := rfl
@[simp] theorem State.setMe_reports (s : State) (x : Slot) : (s.setMe x).reports = s.reports := rfl
@[simp] theorem State.setMe_fatal (s : State) (x : Slot) : (s.setMe x).fatal = s.fatal := rfl

/-! setCore -/

@[simp] theorem State.setCore_cur (s : State) (c : Nat) (x : CoreSt) : (s.setCore c x).cur = s.cur := rfl
@[simp] theorem State.setCore_agenda (s : State) (c : Nat) (x : CoreSt) : (s.setCore c x).agenda = s.agenda := rfl
@[simp] theorem State.setCore_clk (s : State) (c : Nat) (x : CoreSt) : (s.setCore c x).clk = s.clk := rfl
@[simp] theorem State.setCore_slots (s : State) (c : Nat) (x : CoreSt) : (s.setCore c x).slots = s.slots := rfl
@[simp] theorem State.setCore_clusters (s : State) (c : Nat) (x : CoreSt) :
    (s.setCore c x).clusters = s.clusters := rfl
@[simp] theorem State.setCore_mem (s : State) (c : Nat) (x : CoreSt) : (s.setCore c x).mem = s.mem := rfl
@[simp] theorem State.setCore_vault (s : State) (c : Nat) (x : CoreSt) : (s.setCore c x).vault = s.vault := rfl
@[simp] theorem State.setCore_empty (s : State) (c : Nat) (x : CoreSt) : (s.setCore c x).empty = s.empty := rfl
@[simp] theorem State.setCore_flaws (s : State) (c : Nat) (x : CoreSt) : (s.setCore c x).flaws = s.flaws := rfl
@[simp] theorem State.setCore_feeders (s : State) (c : Nat) (x : CoreSt) : (s.setCore c x).feeders = s.feeders := rfl
@[simp] theorem State.setCore_net (s : State) (c : Nat) (x : CoreSt) : (s.setCore c x).net = s.net := rfl
@[simp] theorem State.setCore_formes (s : State) (c : Nat) (x : CoreSt) : (s.setCore c x).formes = s.formes := rfl
@[simp] theorem State.setCore_overflow (s : State) (c : Nat) (x : CoreSt) :
    (s.setCore c x).overflow = s.overflow := rfl
@[simp] theorem State.setCore_formeErr (s : State) (c : Nat) (x : CoreSt) :
    (s.setCore c x).formeErr = s.formeErr := rfl
@[simp] theorem State.setCore_home (s : State) (c : Nat) (x : CoreSt) : (s.setCore c x).home = s.home := rfl
@[simp] theorem State.setCore_xbar (s : State) (c : Nat) (x : CoreSt) : (s.setCore c x).xbar = s.xbar := rfl
@[simp] theorem State.setCore_sdowns (s : State) (c : Nat) (x : CoreSt) : (s.setCore c x).sdowns = s.sdowns := rfl
@[simp] theorem State.setCore_ctxs (s : State) (c : Nat) (x : CoreSt) : (s.setCore c x).ctxs = s.ctxs := rfl
@[simp] theorem State.setCore_regs (s : State) (c : Nat) (x : CoreSt) : (s.setCore c x).regs = s.regs := rfl
@[simp] theorem State.setCore_dies (s : State) (c : Nat) (x : CoreSt) : (s.setCore c x).dies = s.dies := rfl
@[simp] theorem State.setCore_front (s : State) (c : Nat) (x : CoreSt) : (s.setCore c x).front = s.front := rfl
@[simp] theorem State.setCore_host (s : State) (c : Nat) (x : CoreSt) : (s.setCore c x).host = s.host := rfl
@[simp] theorem State.setCore_meter (s : State) (c : Nat) (x : CoreSt) : (s.setCore c x).meter = s.meter := rfl
@[simp] theorem State.setCore_fw (s : State) (c : Nat) (x : CoreSt) : (s.setCore c x).fw = s.fw := rfl
@[simp] theorem State.setCore_links (s : State) (c : Nat) (x : CoreSt) : (s.setCore c x).links = s.links := rfl
@[simp] theorem State.setCore_saved (s : State) (c : Nat) (x : CoreSt) : (s.setCore c x).saved = s.saved := rfl
@[simp] theorem State.setCore_reports (s : State) (c : Nat) (x : CoreSt) : (s.setCore c x).reports = s.reports := rfl
@[simp] theorem State.setCore_fatal (s : State) (c : Nat) (x : CoreSt) : (s.setCore c x).fatal = s.fatal := rfl

/-! setClus -/

@[simp] theorem State.setClus_cur (s : State) (c : Nat) (x : ClusSt) : (s.setClus c x).cur = s.cur := rfl
@[simp] theorem State.setClus_agenda (s : State) (c : Nat) (x : ClusSt) : (s.setClus c x).agenda = s.agenda := rfl
@[simp] theorem State.setClus_clk (s : State) (c : Nat) (x : ClusSt) : (s.setClus c x).clk = s.clk := rfl
@[simp] theorem State.setClus_slots (s : State) (c : Nat) (x : ClusSt) : (s.setClus c x).slots = s.slots := rfl
@[simp] theorem State.setClus_cores (s : State) (c : Nat) (x : ClusSt) : (s.setClus c x).cores = s.cores := rfl
@[simp] theorem State.setClus_mem (s : State) (c : Nat) (x : ClusSt) : (s.setClus c x).mem = s.mem := rfl
@[simp] theorem State.setClus_vault (s : State) (c : Nat) (x : ClusSt) : (s.setClus c x).vault = s.vault := rfl
@[simp] theorem State.setClus_empty (s : State) (c : Nat) (x : ClusSt) : (s.setClus c x).empty = s.empty := rfl
@[simp] theorem State.setClus_flaws (s : State) (c : Nat) (x : ClusSt) : (s.setClus c x).flaws = s.flaws := rfl
@[simp] theorem State.setClus_feeders (s : State) (c : Nat) (x : ClusSt) : (s.setClus c x).feeders = s.feeders := rfl
@[simp] theorem State.setClus_net (s : State) (c : Nat) (x : ClusSt) : (s.setClus c x).net = s.net := rfl
@[simp] theorem State.setClus_formes (s : State) (c : Nat) (x : ClusSt) : (s.setClus c x).formes = s.formes := rfl
@[simp] theorem State.setClus_overflow (s : State) (c : Nat) (x : ClusSt) :
    (s.setClus c x).overflow = s.overflow := rfl
@[simp] theorem State.setClus_formeErr (s : State) (c : Nat) (x : ClusSt) :
    (s.setClus c x).formeErr = s.formeErr := rfl
@[simp] theorem State.setClus_home (s : State) (c : Nat) (x : ClusSt) : (s.setClus c x).home = s.home := rfl
@[simp] theorem State.setClus_xbar (s : State) (c : Nat) (x : ClusSt) : (s.setClus c x).xbar = s.xbar := rfl
@[simp] theorem State.setClus_sdowns (s : State) (c : Nat) (x : ClusSt) : (s.setClus c x).sdowns = s.sdowns := rfl
@[simp] theorem State.setClus_ctxs (s : State) (c : Nat) (x : ClusSt) : (s.setClus c x).ctxs = s.ctxs := rfl
@[simp] theorem State.setClus_regs (s : State) (c : Nat) (x : ClusSt) : (s.setClus c x).regs = s.regs := rfl
@[simp] theorem State.setClus_dies (s : State) (c : Nat) (x : ClusSt) : (s.setClus c x).dies = s.dies := rfl
@[simp] theorem State.setClus_front (s : State) (c : Nat) (x : ClusSt) : (s.setClus c x).front = s.front := rfl
@[simp] theorem State.setClus_host (s : State) (c : Nat) (x : ClusSt) : (s.setClus c x).host = s.host := rfl
@[simp] theorem State.setClus_meter (s : State) (c : Nat) (x : ClusSt) : (s.setClus c x).meter = s.meter := rfl
@[simp] theorem State.setClus_fw (s : State) (c : Nat) (x : ClusSt) : (s.setClus c x).fw = s.fw := rfl
@[simp] theorem State.setClus_links (s : State) (c : Nat) (x : ClusSt) : (s.setClus c x).links = s.links := rfl
@[simp] theorem State.setClus_saved (s : State) (c : Nat) (x : ClusSt) : (s.setClus c x).saved = s.saved := rfl
@[simp] theorem State.setClus_reports (s : State) (c : Nat) (x : ClusSt) : (s.setClus c x).reports = s.reports := rfl
@[simp] theorem State.setClus_fatal (s : State) (c : Nat) (x : ClusSt) : (s.setClus c x).fatal = s.fatal := rfl

/-! setFeeder -/

@[simp] theorem State.setFeeder_cur (s : State) (f : Nat) (x : Feeder) : (s.setFeeder f x).cur = s.cur := rfl
@[simp] theorem State.setFeeder_agenda (s : State) (f : Nat) (x : Feeder) : (s.setFeeder f x).agenda = s.agenda := rfl
@[simp] theorem State.setFeeder_clk (s : State) (f : Nat) (x : Feeder) : (s.setFeeder f x).clk = s.clk := rfl
@[simp] theorem State.setFeeder_slots (s : State) (f : Nat) (x : Feeder) : (s.setFeeder f x).slots = s.slots := rfl
@[simp] theorem State.setFeeder_cores (s : State) (f : Nat) (x : Feeder) : (s.setFeeder f x).cores = s.cores := rfl
@[simp] theorem State.setFeeder_clusters (s : State) (f : Nat) (x : Feeder) :
    (s.setFeeder f x).clusters = s.clusters := rfl
@[simp] theorem State.setFeeder_mem (s : State) (f : Nat) (x : Feeder) : (s.setFeeder f x).mem = s.mem := rfl
@[simp] theorem State.setFeeder_vault (s : State) (f : Nat) (x : Feeder) : (s.setFeeder f x).vault = s.vault := rfl
@[simp] theorem State.setFeeder_empty (s : State) (f : Nat) (x : Feeder) : (s.setFeeder f x).empty = s.empty := rfl
@[simp] theorem State.setFeeder_flaws (s : State) (f : Nat) (x : Feeder) : (s.setFeeder f x).flaws = s.flaws := rfl
@[simp] theorem State.setFeeder_net (s : State) (f : Nat) (x : Feeder) : (s.setFeeder f x).net = s.net := rfl
@[simp] theorem State.setFeeder_formes (s : State) (f : Nat) (x : Feeder) : (s.setFeeder f x).formes = s.formes := rfl
@[simp] theorem State.setFeeder_overflow (s : State) (f : Nat) (x : Feeder) :
    (s.setFeeder f x).overflow = s.overflow := rfl
@[simp] theorem State.setFeeder_formeErr (s : State) (f : Nat) (x : Feeder) :
    (s.setFeeder f x).formeErr = s.formeErr := rfl
@[simp] theorem State.setFeeder_home (s : State) (f : Nat) (x : Feeder) : (s.setFeeder f x).home = s.home := rfl
@[simp] theorem State.setFeeder_xbar (s : State) (f : Nat) (x : Feeder) : (s.setFeeder f x).xbar = s.xbar := rfl
@[simp] theorem State.setFeeder_sdowns (s : State) (f : Nat) (x : Feeder) : (s.setFeeder f x).sdowns = s.sdowns := rfl
@[simp] theorem State.setFeeder_ctxs (s : State) (f : Nat) (x : Feeder) : (s.setFeeder f x).ctxs = s.ctxs := rfl
@[simp] theorem State.setFeeder_regs (s : State) (f : Nat) (x : Feeder) : (s.setFeeder f x).regs = s.regs := rfl
@[simp] theorem State.setFeeder_dies (s : State) (f : Nat) (x : Feeder) : (s.setFeeder f x).dies = s.dies := rfl
@[simp] theorem State.setFeeder_front (s : State) (f : Nat) (x : Feeder) : (s.setFeeder f x).front = s.front := rfl
@[simp] theorem State.setFeeder_host (s : State) (f : Nat) (x : Feeder) : (s.setFeeder f x).host = s.host := rfl
@[simp] theorem State.setFeeder_meter (s : State) (f : Nat) (x : Feeder) : (s.setFeeder f x).meter = s.meter := rfl
@[simp] theorem State.setFeeder_fw (s : State) (f : Nat) (x : Feeder) : (s.setFeeder f x).fw = s.fw := rfl
@[simp] theorem State.setFeeder_links (s : State) (f : Nat) (x : Feeder) : (s.setFeeder f x).links = s.links := rfl
@[simp] theorem State.setFeeder_saved (s : State) (f : Nat) (x : Feeder) : (s.setFeeder f x).saved = s.saved := rfl
@[simp] theorem State.setFeeder_reports (s : State) (f : Nat) (x : Feeder) :
    (s.setFeeder f x).reports = s.reports := rfl
@[simp] theorem State.setFeeder_fatal (s : State) (f : Nat) (x : Feeder) : (s.setFeeder f x).fatal = s.fatal := rfl

/-! setCtx -/

@[simp] theorem State.setCtx_cur (s : State) (c : Nat) (x : Context) : (s.setCtx c x).cur = s.cur := rfl
@[simp] theorem State.setCtx_agenda (s : State) (c : Nat) (x : Context) : (s.setCtx c x).agenda = s.agenda := rfl
@[simp] theorem State.setCtx_clk (s : State) (c : Nat) (x : Context) : (s.setCtx c x).clk = s.clk := rfl
@[simp] theorem State.setCtx_slots (s : State) (c : Nat) (x : Context) : (s.setCtx c x).slots = s.slots := rfl
@[simp] theorem State.setCtx_cores (s : State) (c : Nat) (x : Context) : (s.setCtx c x).cores = s.cores := rfl
@[simp] theorem State.setCtx_clusters (s : State) (c : Nat) (x : Context) :
    (s.setCtx c x).clusters = s.clusters := rfl
@[simp] theorem State.setCtx_mem (s : State) (c : Nat) (x : Context) : (s.setCtx c x).mem = s.mem := rfl
@[simp] theorem State.setCtx_vault (s : State) (c : Nat) (x : Context) : (s.setCtx c x).vault = s.vault := rfl
@[simp] theorem State.setCtx_empty (s : State) (c : Nat) (x : Context) : (s.setCtx c x).empty = s.empty := rfl
@[simp] theorem State.setCtx_flaws (s : State) (c : Nat) (x : Context) : (s.setCtx c x).flaws = s.flaws := rfl
@[simp] theorem State.setCtx_feeders (s : State) (c : Nat) (x : Context) : (s.setCtx c x).feeders = s.feeders := rfl
@[simp] theorem State.setCtx_net (s : State) (c : Nat) (x : Context) : (s.setCtx c x).net = s.net := rfl
@[simp] theorem State.setCtx_formes (s : State) (c : Nat) (x : Context) : (s.setCtx c x).formes = s.formes := rfl
@[simp] theorem State.setCtx_overflow (s : State) (c : Nat) (x : Context) :
    (s.setCtx c x).overflow = s.overflow := rfl
@[simp] theorem State.setCtx_formeErr (s : State) (c : Nat) (x : Context) :
    (s.setCtx c x).formeErr = s.formeErr := rfl
@[simp] theorem State.setCtx_home (s : State) (c : Nat) (x : Context) : (s.setCtx c x).home = s.home := rfl
@[simp] theorem State.setCtx_xbar (s : State) (c : Nat) (x : Context) : (s.setCtx c x).xbar = s.xbar := rfl
@[simp] theorem State.setCtx_sdowns (s : State) (c : Nat) (x : Context) : (s.setCtx c x).sdowns = s.sdowns := rfl
@[simp] theorem State.setCtx_regs (s : State) (c : Nat) (x : Context) : (s.setCtx c x).regs = s.regs := rfl
@[simp] theorem State.setCtx_dies (s : State) (c : Nat) (x : Context) : (s.setCtx c x).dies = s.dies := rfl
@[simp] theorem State.setCtx_front (s : State) (c : Nat) (x : Context) : (s.setCtx c x).front = s.front := rfl
@[simp] theorem State.setCtx_host (s : State) (c : Nat) (x : Context) : (s.setCtx c x).host = s.host := rfl
@[simp] theorem State.setCtx_meter (s : State) (c : Nat) (x : Context) : (s.setCtx c x).meter = s.meter := rfl
@[simp] theorem State.setCtx_fw (s : State) (c : Nat) (x : Context) : (s.setCtx c x).fw = s.fw := rfl
@[simp] theorem State.setCtx_links (s : State) (c : Nat) (x : Context) : (s.setCtx c x).links = s.links := rfl
@[simp] theorem State.setCtx_saved (s : State) (c : Nat) (x : Context) : (s.setCtx c x).saved = s.saved := rfl
@[simp] theorem State.setCtx_reports (s : State) (c : Nat) (x : Context) : (s.setCtx c x).reports = s.reports := rfl
@[simp] theorem State.setCtx_fatal (s : State) (c : Nat) (x : Context) : (s.setCtx c x).fatal = s.fatal := rfl

/-! setKernel -/

@[simp] theorem State.setKernel_cur (s : State) (c k : Nat) (x : Kernel) : (s.setKernel c k x).cur = s.cur := rfl
@[simp] theorem State.setKernel_agenda (s : State) (c k : Nat) (x : Kernel) :
    (s.setKernel c k x).agenda = s.agenda := rfl
@[simp] theorem State.setKernel_clk (s : State) (c k : Nat) (x : Kernel) : (s.setKernel c k x).clk = s.clk := rfl
@[simp] theorem State.setKernel_slots (s : State) (c k : Nat) (x : Kernel) :
    (s.setKernel c k x).slots = s.slots := rfl
@[simp] theorem State.setKernel_cores (s : State) (c k : Nat) (x : Kernel) :
    (s.setKernel c k x).cores = s.cores := rfl
@[simp] theorem State.setKernel_clusters (s : State) (c k : Nat) (x : Kernel) :
    (s.setKernel c k x).clusters = s.clusters := rfl
@[simp] theorem State.setKernel_mem (s : State) (c k : Nat) (x : Kernel) : (s.setKernel c k x).mem = s.mem := rfl
@[simp] theorem State.setKernel_vault (s : State) (c k : Nat) (x : Kernel) :
    (s.setKernel c k x).vault = s.vault := rfl
@[simp] theorem State.setKernel_empty (s : State) (c k : Nat) (x : Kernel) :
    (s.setKernel c k x).empty = s.empty := rfl
@[simp] theorem State.setKernel_flaws (s : State) (c k : Nat) (x : Kernel) :
    (s.setKernel c k x).flaws = s.flaws := rfl
@[simp] theorem State.setKernel_feeders (s : State) (c k : Nat) (x : Kernel) :
    (s.setKernel c k x).feeders = s.feeders := rfl
@[simp] theorem State.setKernel_net (s : State) (c k : Nat) (x : Kernel) : (s.setKernel c k x).net = s.net := rfl
@[simp] theorem State.setKernel_formes (s : State) (c k : Nat) (x : Kernel) :
    (s.setKernel c k x).formes = s.formes := rfl
@[simp] theorem State.setKernel_overflow (s : State) (c k : Nat) (x : Kernel) :
    (s.setKernel c k x).overflow = s.overflow := rfl
@[simp] theorem State.setKernel_formeErr (s : State) (c k : Nat) (x : Kernel) :
    (s.setKernel c k x).formeErr = s.formeErr := rfl
@[simp] theorem State.setKernel_xbar (s : State) (c k : Nat) (x : Kernel) : (s.setKernel c k x).xbar = s.xbar := rfl
@[simp] theorem State.setKernel_sdowns (s : State) (c k : Nat) (x : Kernel) :
    (s.setKernel c k x).sdowns = s.sdowns := rfl
@[simp] theorem State.setKernel_ctxs (s : State) (c k : Nat) (x : Kernel) : (s.setKernel c k x).ctxs = s.ctxs := rfl
@[simp] theorem State.setKernel_regs (s : State) (c k : Nat) (x : Kernel) : (s.setKernel c k x).regs = s.regs := rfl
@[simp] theorem State.setKernel_dies (s : State) (c k : Nat) (x : Kernel) : (s.setKernel c k x).dies = s.dies := rfl
@[simp] theorem State.setKernel_front (s : State) (c k : Nat) (x : Kernel) :
    (s.setKernel c k x).front = s.front := rfl
@[simp] theorem State.setKernel_host (s : State) (c k : Nat) (x : Kernel) : (s.setKernel c k x).host = s.host := rfl
@[simp] theorem State.setKernel_meter (s : State) (c k : Nat) (x : Kernel) :
    (s.setKernel c k x).meter = s.meter := rfl
@[simp] theorem State.setKernel_fw (s : State) (c k : Nat) (x : Kernel) : (s.setKernel c k x).fw = s.fw := rfl
@[simp] theorem State.setKernel_links (s : State) (c k : Nat) (x : Kernel) :
    (s.setKernel c k x).links = s.links := rfl
@[simp] theorem State.setKernel_saved (s : State) (c k : Nat) (x : Kernel) :
    (s.setKernel c k x).saved = s.saved := rfl
@[simp] theorem State.setKernel_reports (s : State) (c k : Nat) (x : Kernel) :
    (s.setKernel c k x).reports = s.reports := rfl
@[simp] theorem State.setKernel_fatal (s : State) (c k : Nat) (x : Kernel) :
    (s.setKernel c k x).fatal = s.fatal := rfl

/-! setQueue -/

@[simp] theorem State.setQueue_cur (s : State) (v q : Nat) (x : CmdQueue) : (s.setQueue v q x).cur = s.cur := rfl
@[simp] theorem State.setQueue_agenda (s : State) (v q : Nat) (x : CmdQueue) :
    (s.setQueue v q x).agenda = s.agenda := rfl
@[simp] theorem State.setQueue_clk (s : State) (v q : Nat) (x : CmdQueue) : (s.setQueue v q x).clk = s.clk := rfl
@[simp] theorem State.setQueue_slots (s : State) (v q : Nat) (x : CmdQueue) :
    (s.setQueue v q x).slots = s.slots := rfl
@[simp] theorem State.setQueue_cores (s : State) (v q : Nat) (x : CmdQueue) :
    (s.setQueue v q x).cores = s.cores := rfl
@[simp] theorem State.setQueue_clusters (s : State) (v q : Nat) (x : CmdQueue) :
    (s.setQueue v q x).clusters = s.clusters := rfl
@[simp] theorem State.setQueue_mem (s : State) (v q : Nat) (x : CmdQueue) : (s.setQueue v q x).mem = s.mem := rfl
@[simp] theorem State.setQueue_vault (s : State) (v q : Nat) (x : CmdQueue) :
    (s.setQueue v q x).vault = s.vault := rfl
@[simp] theorem State.setQueue_empty (s : State) (v q : Nat) (x : CmdQueue) :
    (s.setQueue v q x).empty = s.empty := rfl
@[simp] theorem State.setQueue_flaws (s : State) (v q : Nat) (x : CmdQueue) :
    (s.setQueue v q x).flaws = s.flaws := rfl
@[simp] theorem State.setQueue_feeders (s : State) (v q : Nat) (x : CmdQueue) :
    (s.setQueue v q x).feeders = s.feeders := rfl
@[simp] theorem State.setQueue_net (s : State) (v q : Nat) (x : CmdQueue) : (s.setQueue v q x).net = s.net := rfl
@[simp] theorem State.setQueue_formes (s : State) (v q : Nat) (x : CmdQueue) :
    (s.setQueue v q x).formes = s.formes := rfl
@[simp] theorem State.setQueue_overflow (s : State) (v q : Nat) (x : CmdQueue) :
    (s.setQueue v q x).overflow = s.overflow := rfl
@[simp] theorem State.setQueue_formeErr (s : State) (v q : Nat) (x : CmdQueue) :
    (s.setQueue v q x).formeErr = s.formeErr := rfl
@[simp] theorem State.setQueue_home (s : State) (v q : Nat) (x : CmdQueue) : (s.setQueue v q x).home = s.home := rfl
@[simp] theorem State.setQueue_xbar (s : State) (v q : Nat) (x : CmdQueue) : (s.setQueue v q x).xbar = s.xbar := rfl
@[simp] theorem State.setQueue_sdowns (s : State) (v q : Nat) (x : CmdQueue) :
    (s.setQueue v q x).sdowns = s.sdowns := rfl
@[simp] theorem State.setQueue_ctxs (s : State) (v q : Nat) (x : CmdQueue) : (s.setQueue v q x).ctxs = s.ctxs := rfl
@[simp] theorem State.setQueue_regs (s : State) (v q : Nat) (x : CmdQueue) : (s.setQueue v q x).regs = s.regs := rfl
@[simp] theorem State.setQueue_dies (s : State) (v q : Nat) (x : CmdQueue) : (s.setQueue v q x).dies = s.dies := rfl
@[simp] theorem State.setQueue_host (s : State) (v q : Nat) (x : CmdQueue) : (s.setQueue v q x).host = s.host := rfl
@[simp] theorem State.setQueue_meter (s : State) (v q : Nat) (x : CmdQueue) :
    (s.setQueue v q x).meter = s.meter := rfl
@[simp] theorem State.setQueue_fw (s : State) (v q : Nat) (x : CmdQueue) : (s.setQueue v q x).fw = s.fw := rfl
@[simp] theorem State.setQueue_links (s : State) (v q : Nat) (x : CmdQueue) :
    (s.setQueue v q x).links = s.links := rfl
@[simp] theorem State.setQueue_saved (s : State) (v q : Nat) (x : CmdQueue) :
    (s.setQueue v q x).saved = s.saved := rfl
@[simp] theorem State.setQueue_reports (s : State) (v q : Nat) (x : CmdQueue) :
    (s.setQueue v q x).reports = s.reports := rfl
@[simp] theorem State.setQueue_fatal (s : State) (v q : Nat) (x : CmdQueue) :
    (s.setQueue v q x).fatal = s.fatal := rfl

/-! setPart -/

@[simp] theorem State.setPart_cur (s : State) (p : Nat) (x : PartSt) : (s.setPart p x).cur = s.cur := rfl
@[simp] theorem State.setPart_agenda (s : State) (p : Nat) (x : PartSt) : (s.setPart p x).agenda = s.agenda := rfl
@[simp] theorem State.setPart_clk (s : State) (p : Nat) (x : PartSt) : (s.setPart p x).clk = s.clk := rfl
@[simp] theorem State.setPart_slots (s : State) (p : Nat) (x : PartSt) : (s.setPart p x).slots = s.slots := rfl
@[simp] theorem State.setPart_cores (s : State) (p : Nat) (x : PartSt) : (s.setPart p x).cores = s.cores := rfl
@[simp] theorem State.setPart_clusters (s : State) (p : Nat) (x : PartSt) :
    (s.setPart p x).clusters = s.clusters := rfl
@[simp] theorem State.setPart_mem (s : State) (p : Nat) (x : PartSt) : (s.setPart p x).mem = s.mem := rfl
@[simp] theorem State.setPart_vault (s : State) (p : Nat) (x : PartSt) : (s.setPart p x).vault = s.vault := rfl
@[simp] theorem State.setPart_empty (s : State) (p : Nat) (x : PartSt) : (s.setPart p x).empty = s.empty := rfl
@[simp] theorem State.setPart_flaws (s : State) (p : Nat) (x : PartSt) : (s.setPart p x).flaws = s.flaws := rfl
@[simp] theorem State.setPart_feeders (s : State) (p : Nat) (x : PartSt) : (s.setPart p x).feeders = s.feeders := rfl
@[simp] theorem State.setPart_net (s : State) (p : Nat) (x : PartSt) : (s.setPart p x).net = s.net := rfl
@[simp] theorem State.setPart_formes (s : State) (p : Nat) (x : PartSt) : (s.setPart p x).formes = s.formes := rfl
@[simp] theorem State.setPart_overflow (s : State) (p : Nat) (x : PartSt) :
    (s.setPart p x).overflow = s.overflow := rfl
@[simp] theorem State.setPart_formeErr (s : State) (p : Nat) (x : PartSt) :
    (s.setPart p x).formeErr = s.formeErr := rfl
@[simp] theorem State.setPart_home (s : State) (p : Nat) (x : PartSt) : (s.setPart p x).home = s.home := rfl
@[simp] theorem State.setPart_xbar (s : State) (p : Nat) (x : PartSt) : (s.setPart p x).xbar = s.xbar := rfl
@[simp] theorem State.setPart_sdowns (s : State) (p : Nat) (x : PartSt) : (s.setPart p x).sdowns = s.sdowns := rfl
@[simp] theorem State.setPart_ctxs (s : State) (p : Nat) (x : PartSt) : (s.setPart p x).ctxs = s.ctxs := rfl
@[simp] theorem State.setPart_regs (s : State) (p : Nat) (x : PartSt) : (s.setPart p x).regs = s.regs := rfl
@[simp] theorem State.setPart_dies (s : State) (p : Nat) (x : PartSt) : (s.setPart p x).dies = s.dies := rfl
@[simp] theorem State.setPart_host (s : State) (p : Nat) (x : PartSt) : (s.setPart p x).host = s.host := rfl
@[simp] theorem State.setPart_meter (s : State) (p : Nat) (x : PartSt) : (s.setPart p x).meter = s.meter := rfl
@[simp] theorem State.setPart_fw (s : State) (p : Nat) (x : PartSt) : (s.setPart p x).fw = s.fw := rfl
@[simp] theorem State.setPart_links (s : State) (p : Nat) (x : PartSt) : (s.setPart p x).links = s.links := rfl
@[simp] theorem State.setPart_saved (s : State) (p : Nat) (x : PartSt) : (s.setPart p x).saved = s.saved := rfl
@[simp] theorem State.setPart_reports (s : State) (p : Nat) (x : PartSt) : (s.setPart p x).reports = s.reports := rfl
@[simp] theorem State.setPart_fatal (s : State) (p : Nat) (x : PartSt) : (s.setPart p x).fatal = s.fatal := rfl

/-! setDie -/

@[simp] theorem State.setDie_cur (s : State) (d : Nat) (x : DieSt) : (s.setDie d x).cur = s.cur := rfl
@[simp] theorem State.setDie_agenda (s : State) (d : Nat) (x : DieSt) : (s.setDie d x).agenda = s.agenda := rfl
@[simp] theorem State.setDie_clk (s : State) (d : Nat) (x : DieSt) : (s.setDie d x).clk = s.clk := rfl
@[simp] theorem State.setDie_slots (s : State) (d : Nat) (x : DieSt) : (s.setDie d x).slots = s.slots := rfl
@[simp] theorem State.setDie_cores (s : State) (d : Nat) (x : DieSt) : (s.setDie d x).cores = s.cores := rfl
@[simp] theorem State.setDie_clusters (s : State) (d : Nat) (x : DieSt) : (s.setDie d x).clusters = s.clusters := rfl
@[simp] theorem State.setDie_mem (s : State) (d : Nat) (x : DieSt) : (s.setDie d x).mem = s.mem := rfl
@[simp] theorem State.setDie_vault (s : State) (d : Nat) (x : DieSt) : (s.setDie d x).vault = s.vault := rfl
@[simp] theorem State.setDie_empty (s : State) (d : Nat) (x : DieSt) : (s.setDie d x).empty = s.empty := rfl
@[simp] theorem State.setDie_flaws (s : State) (d : Nat) (x : DieSt) : (s.setDie d x).flaws = s.flaws := rfl
@[simp] theorem State.setDie_feeders (s : State) (d : Nat) (x : DieSt) : (s.setDie d x).feeders = s.feeders := rfl
@[simp] theorem State.setDie_net (s : State) (d : Nat) (x : DieSt) : (s.setDie d x).net = s.net := rfl
@[simp] theorem State.setDie_formes (s : State) (d : Nat) (x : DieSt) : (s.setDie d x).formes = s.formes := rfl
@[simp] theorem State.setDie_overflow (s : State) (d : Nat) (x : DieSt) : (s.setDie d x).overflow = s.overflow := rfl
@[simp] theorem State.setDie_formeErr (s : State) (d : Nat) (x : DieSt) : (s.setDie d x).formeErr = s.formeErr := rfl
@[simp] theorem State.setDie_home (s : State) (d : Nat) (x : DieSt) : (s.setDie d x).home = s.home := rfl
@[simp] theorem State.setDie_xbar (s : State) (d : Nat) (x : DieSt) : (s.setDie d x).xbar = s.xbar := rfl
@[simp] theorem State.setDie_sdowns (s : State) (d : Nat) (x : DieSt) : (s.setDie d x).sdowns = s.sdowns := rfl
@[simp] theorem State.setDie_ctxs (s : State) (d : Nat) (x : DieSt) : (s.setDie d x).ctxs = s.ctxs := rfl
@[simp] theorem State.setDie_regs (s : State) (d : Nat) (x : DieSt) : (s.setDie d x).regs = s.regs := rfl
@[simp] theorem State.setDie_front (s : State) (d : Nat) (x : DieSt) : (s.setDie d x).front = s.front := rfl
@[simp] theorem State.setDie_host (s : State) (d : Nat) (x : DieSt) : (s.setDie d x).host = s.host := rfl
@[simp] theorem State.setDie_meter (s : State) (d : Nat) (x : DieSt) : (s.setDie d x).meter = s.meter := rfl
@[simp] theorem State.setDie_fw (s : State) (d : Nat) (x : DieSt) : (s.setDie d x).fw = s.fw := rfl
@[simp] theorem State.setDie_links (s : State) (d : Nat) (x : DieSt) : (s.setDie d x).links = s.links := rfl
@[simp] theorem State.setDie_saved (s : State) (d : Nat) (x : DieSt) : (s.setDie d x).saved = s.saved := rfl
@[simp] theorem State.setDie_reports (s : State) (d : Nat) (x : DieSt) : (s.setDie d x).reports = s.reports := rfl
@[simp] theorem State.setDie_fatal (s : State) (d : Nat) (x : DieSt) : (s.setDie d x).fatal = s.fatal := rfl

/-! setLink -/

@[simp] theorem State.setLink_cur (s : State) (p : Nat) (x : Link) : (s.setLink p x).cur = s.cur := rfl
@[simp] theorem State.setLink_agenda (s : State) (p : Nat) (x : Link) : (s.setLink p x).agenda = s.agenda := rfl
@[simp] theorem State.setLink_clk (s : State) (p : Nat) (x : Link) : (s.setLink p x).clk = s.clk := rfl
@[simp] theorem State.setLink_slots (s : State) (p : Nat) (x : Link) : (s.setLink p x).slots = s.slots := rfl
@[simp] theorem State.setLink_cores (s : State) (p : Nat) (x : Link) : (s.setLink p x).cores = s.cores := rfl
@[simp] theorem State.setLink_clusters (s : State) (p : Nat) (x : Link) : (s.setLink p x).clusters = s.clusters := rfl
@[simp] theorem State.setLink_mem (s : State) (p : Nat) (x : Link) : (s.setLink p x).mem = s.mem := rfl
@[simp] theorem State.setLink_vault (s : State) (p : Nat) (x : Link) : (s.setLink p x).vault = s.vault := rfl
@[simp] theorem State.setLink_empty (s : State) (p : Nat) (x : Link) : (s.setLink p x).empty = s.empty := rfl
@[simp] theorem State.setLink_flaws (s : State) (p : Nat) (x : Link) : (s.setLink p x).flaws = s.flaws := rfl
@[simp] theorem State.setLink_feeders (s : State) (p : Nat) (x : Link) : (s.setLink p x).feeders = s.feeders := rfl
@[simp] theorem State.setLink_net (s : State) (p : Nat) (x : Link) : (s.setLink p x).net = s.net := rfl
@[simp] theorem State.setLink_formes (s : State) (p : Nat) (x : Link) : (s.setLink p x).formes = s.formes := rfl
@[simp] theorem State.setLink_overflow (s : State) (p : Nat) (x : Link) : (s.setLink p x).overflow = s.overflow := rfl
@[simp] theorem State.setLink_formeErr (s : State) (p : Nat) (x : Link) : (s.setLink p x).formeErr = s.formeErr := rfl
@[simp] theorem State.setLink_home (s : State) (p : Nat) (x : Link) : (s.setLink p x).home = s.home := rfl
@[simp] theorem State.setLink_xbar (s : State) (p : Nat) (x : Link) : (s.setLink p x).xbar = s.xbar := rfl
@[simp] theorem State.setLink_sdowns (s : State) (p : Nat) (x : Link) : (s.setLink p x).sdowns = s.sdowns := rfl
@[simp] theorem State.setLink_ctxs (s : State) (p : Nat) (x : Link) : (s.setLink p x).ctxs = s.ctxs := rfl
@[simp] theorem State.setLink_regs (s : State) (p : Nat) (x : Link) : (s.setLink p x).regs = s.regs := rfl
@[simp] theorem State.setLink_dies (s : State) (p : Nat) (x : Link) : (s.setLink p x).dies = s.dies := rfl
@[simp] theorem State.setLink_front (s : State) (p : Nat) (x : Link) : (s.setLink p x).front = s.front := rfl
@[simp] theorem State.setLink_host (s : State) (p : Nat) (x : Link) : (s.setLink p x).host = s.host := rfl
@[simp] theorem State.setLink_meter (s : State) (p : Nat) (x : Link) : (s.setLink p x).meter = s.meter := rfl
@[simp] theorem State.setLink_fw (s : State) (p : Nat) (x : Link) : (s.setLink p x).fw = s.fw := rfl
@[simp] theorem State.setLink_saved (s : State) (p : Nat) (x : Link) : (s.setLink p x).saved = s.saved := rfl
@[simp] theorem State.setLink_reports (s : State) (p : Nat) (x : Link) : (s.setLink p x).reports = s.reports := rfl
@[simp] theorem State.setLink_fatal (s : State) (p : Nat) (x : Link) : (s.setLink p x).fatal = s.fatal := rfl

/-! setSave -/

@[simp] theorem State.setSave_cur (s : State) (c k : Nat) (x : SaveArea) : (s.setSave c k x).cur = s.cur := rfl
@[simp] theorem State.setSave_agenda (s : State) (c k : Nat) (x : SaveArea) :
    (s.setSave c k x).agenda = s.agenda := rfl
@[simp] theorem State.setSave_clk (s : State) (c k : Nat) (x : SaveArea) : (s.setSave c k x).clk = s.clk := rfl
@[simp] theorem State.setSave_slots (s : State) (c k : Nat) (x : SaveArea) : (s.setSave c k x).slots = s.slots := rfl
@[simp] theorem State.setSave_cores (s : State) (c k : Nat) (x : SaveArea) : (s.setSave c k x).cores = s.cores := rfl
@[simp] theorem State.setSave_clusters (s : State) (c k : Nat) (x : SaveArea) :
    (s.setSave c k x).clusters = s.clusters := rfl
@[simp] theorem State.setSave_mem (s : State) (c k : Nat) (x : SaveArea) : (s.setSave c k x).mem = s.mem := rfl
@[simp] theorem State.setSave_vault (s : State) (c k : Nat) (x : SaveArea) : (s.setSave c k x).vault = s.vault := rfl
@[simp] theorem State.setSave_empty (s : State) (c k : Nat) (x : SaveArea) : (s.setSave c k x).empty = s.empty := rfl
@[simp] theorem State.setSave_flaws (s : State) (c k : Nat) (x : SaveArea) : (s.setSave c k x).flaws = s.flaws := rfl
@[simp] theorem State.setSave_feeders (s : State) (c k : Nat) (x : SaveArea) :
    (s.setSave c k x).feeders = s.feeders := rfl
@[simp] theorem State.setSave_net (s : State) (c k : Nat) (x : SaveArea) : (s.setSave c k x).net = s.net := rfl
@[simp] theorem State.setSave_formes (s : State) (c k : Nat) (x : SaveArea) :
    (s.setSave c k x).formes = s.formes := rfl
@[simp] theorem State.setSave_overflow (s : State) (c k : Nat) (x : SaveArea) :
    (s.setSave c k x).overflow = s.overflow := rfl
@[simp] theorem State.setSave_formeErr (s : State) (c k : Nat) (x : SaveArea) :
    (s.setSave c k x).formeErr = s.formeErr := rfl
@[simp] theorem State.setSave_home (s : State) (c k : Nat) (x : SaveArea) : (s.setSave c k x).home = s.home := rfl
@[simp] theorem State.setSave_xbar (s : State) (c k : Nat) (x : SaveArea) : (s.setSave c k x).xbar = s.xbar := rfl
@[simp] theorem State.setSave_sdowns (s : State) (c k : Nat) (x : SaveArea) :
    (s.setSave c k x).sdowns = s.sdowns := rfl
@[simp] theorem State.setSave_ctxs (s : State) (c k : Nat) (x : SaveArea) : (s.setSave c k x).ctxs = s.ctxs := rfl
@[simp] theorem State.setSave_regs (s : State) (c k : Nat) (x : SaveArea) : (s.setSave c k x).regs = s.regs := rfl
@[simp] theorem State.setSave_dies (s : State) (c k : Nat) (x : SaveArea) : (s.setSave c k x).dies = s.dies := rfl
@[simp] theorem State.setSave_front (s : State) (c k : Nat) (x : SaveArea) : (s.setSave c k x).front = s.front := rfl
@[simp] theorem State.setSave_host (s : State) (c k : Nat) (x : SaveArea) : (s.setSave c k x).host = s.host := rfl
@[simp] theorem State.setSave_meter (s : State) (c k : Nat) (x : SaveArea) : (s.setSave c k x).meter = s.meter := rfl
@[simp] theorem State.setSave_fw (s : State) (c k : Nat) (x : SaveArea) : (s.setSave c k x).fw = s.fw := rfl
@[simp] theorem State.setSave_links (s : State) (c k : Nat) (x : SaveArea) : (s.setSave c k x).links = s.links := rfl
@[simp] theorem State.setSave_reports (s : State) (c k : Nat) (x : SaveArea) :
    (s.setSave c k x).reports = s.reports := rfl
@[simp] theorem State.setSave_fatal (s : State) (c k : Nat) (x : SaveArea) : (s.setSave c k x).fatal = s.fatal := rfl

/-! wire -/

@[simp] theorem State.wire_cur (s : State) (w : Wire) : (s.wire w).cur = s.cur := rfl
@[simp] theorem State.wire_agenda (s : State) (w : Wire) : (s.wire w).agenda = s.agenda := rfl
@[simp] theorem State.wire_clk (s : State) (w : Wire) : (s.wire w).clk = s.clk := rfl
@[simp] theorem State.wire_slots (s : State) (w : Wire) : (s.wire w).slots = s.slots := rfl
@[simp] theorem State.wire_cores (s : State) (w : Wire) : (s.wire w).cores = s.cores := rfl
@[simp] theorem State.wire_clusters (s : State) (w : Wire) : (s.wire w).clusters = s.clusters := rfl
@[simp] theorem State.wire_mem (s : State) (w : Wire) : (s.wire w).mem = s.mem := rfl
@[simp] theorem State.wire_vault (s : State) (w : Wire) : (s.wire w).vault = s.vault := rfl
@[simp] theorem State.wire_empty (s : State) (w : Wire) : (s.wire w).empty = s.empty := rfl
@[simp] theorem State.wire_flaws (s : State) (w : Wire) : (s.wire w).flaws = s.flaws := rfl
@[simp] theorem State.wire_feeders (s : State) (w : Wire) : (s.wire w).feeders = s.feeders := rfl
@[simp] theorem State.wire_net (s : State) (w : Wire) : (s.wire w).net = s.net := rfl
@[simp] theorem State.wire_formes (s : State) (w : Wire) : (s.wire w).formes = s.formes := rfl
@[simp] theorem State.wire_overflow (s : State) (w : Wire) : (s.wire w).overflow = s.overflow := rfl
@[simp] theorem State.wire_formeErr (s : State) (w : Wire) : (s.wire w).formeErr = s.formeErr := rfl
@[simp] theorem State.wire_xbar (s : State) (w : Wire) : (s.wire w).xbar = s.xbar := rfl
@[simp] theorem State.wire_sdowns (s : State) (w : Wire) : (s.wire w).sdowns = s.sdowns := rfl
@[simp] theorem State.wire_ctxs (s : State) (w : Wire) : (s.wire w).ctxs = s.ctxs := rfl
@[simp] theorem State.wire_regs (s : State) (w : Wire) : (s.wire w).regs = s.regs := rfl
@[simp] theorem State.wire_dies (s : State) (w : Wire) : (s.wire w).dies = s.dies := rfl
@[simp] theorem State.wire_front (s : State) (w : Wire) : (s.wire w).front = s.front := rfl
@[simp] theorem State.wire_host (s : State) (w : Wire) : (s.wire w).host = s.host := rfl
@[simp] theorem State.wire_meter (s : State) (w : Wire) : (s.wire w).meter = s.meter := rfl
@[simp] theorem State.wire_fw (s : State) (w : Wire) : (s.wire w).fw = s.fw := rfl
@[simp] theorem State.wire_links (s : State) (w : Wire) : (s.wire w).links = s.links := rfl
@[simp] theorem State.wire_saved (s : State) (w : Wire) : (s.wire w).saved = s.saved := rfl
@[simp] theorem State.wire_reports (s : State) (w : Wire) : (s.wire w).reports = s.reports := rfl
@[simp] theorem State.wire_fatal (s : State) (w : Wire) : (s.wire w).fatal = s.fatal := rfl

/-! irq -/

@[simp] theorem State.irq_cur (s : State) (f v : Nat) (ws : List Nat) : (s.irq f v ws).cur = s.cur := rfl
@[simp] theorem State.irq_agenda (s : State) (f v : Nat) (ws : List Nat) : (s.irq f v ws).agenda = s.agenda := rfl
@[simp] theorem State.irq_clk (s : State) (f v : Nat) (ws : List Nat) : (s.irq f v ws).clk = s.clk := rfl
@[simp] theorem State.irq_slots (s : State) (f v : Nat) (ws : List Nat) : (s.irq f v ws).slots = s.slots := rfl
@[simp] theorem State.irq_cores (s : State) (f v : Nat) (ws : List Nat) : (s.irq f v ws).cores = s.cores := rfl
@[simp] theorem State.irq_clusters (s : State) (f v : Nat) (ws : List Nat) :
    (s.irq f v ws).clusters = s.clusters := rfl
@[simp] theorem State.irq_mem (s : State) (f v : Nat) (ws : List Nat) : (s.irq f v ws).mem = s.mem := rfl
@[simp] theorem State.irq_vault (s : State) (f v : Nat) (ws : List Nat) : (s.irq f v ws).vault = s.vault := rfl
@[simp] theorem State.irq_empty (s : State) (f v : Nat) (ws : List Nat) : (s.irq f v ws).empty = s.empty := rfl
@[simp] theorem State.irq_flaws (s : State) (f v : Nat) (ws : List Nat) : (s.irq f v ws).flaws = s.flaws := rfl
@[simp] theorem State.irq_feeders (s : State) (f v : Nat) (ws : List Nat) : (s.irq f v ws).feeders = s.feeders := rfl
@[simp] theorem State.irq_net (s : State) (f v : Nat) (ws : List Nat) : (s.irq f v ws).net = s.net := rfl
@[simp] theorem State.irq_formes (s : State) (f v : Nat) (ws : List Nat) : (s.irq f v ws).formes = s.formes := rfl
@[simp] theorem State.irq_overflow (s : State) (f v : Nat) (ws : List Nat) :
    (s.irq f v ws).overflow = s.overflow := rfl
@[simp] theorem State.irq_formeErr (s : State) (f v : Nat) (ws : List Nat) :
    (s.irq f v ws).formeErr = s.formeErr := rfl
@[simp] theorem State.irq_home (s : State) (f v : Nat) (ws : List Nat) : (s.irq f v ws).home = s.home := rfl
@[simp] theorem State.irq_xbar (s : State) (f v : Nat) (ws : List Nat) : (s.irq f v ws).xbar = s.xbar := rfl
@[simp] theorem State.irq_sdowns (s : State) (f v : Nat) (ws : List Nat) : (s.irq f v ws).sdowns = s.sdowns := rfl
@[simp] theorem State.irq_ctxs (s : State) (f v : Nat) (ws : List Nat) : (s.irq f v ws).ctxs = s.ctxs := rfl
@[simp] theorem State.irq_regs (s : State) (f v : Nat) (ws : List Nat) : (s.irq f v ws).regs = s.regs := rfl
@[simp] theorem State.irq_dies (s : State) (f v : Nat) (ws : List Nat) : (s.irq f v ws).dies = s.dies := rfl
@[simp] theorem State.irq_front (s : State) (f v : Nat) (ws : List Nat) : (s.irq f v ws).front = s.front := rfl
@[simp] theorem State.irq_meter (s : State) (f v : Nat) (ws : List Nat) : (s.irq f v ws).meter = s.meter := rfl
@[simp] theorem State.irq_fw (s : State) (f v : Nat) (ws : List Nat) : (s.irq f v ws).fw = s.fw := rfl
@[simp] theorem State.irq_links (s : State) (f v : Nat) (ws : List Nat) : (s.irq f v ws).links = s.links := rfl
@[simp] theorem State.irq_saved (s : State) (f v : Nat) (ws : List Nat) : (s.irq f v ws).saved = s.saved := rfl
@[simp] theorem State.irq_reports (s : State) (f v : Nat) (ws : List Nat) : (s.irq f v ws).reports = s.reports := rfl
@[simp] theorem State.irq_fatal (s : State) (f v : Nat) (ws : List Nat) : (s.irq f v ws).fatal = s.fatal := rfl

/-! post -/

@[simp] theorem State.post_cur (s : State) (m : Msg) : (s.post m).cur = s.cur := rfl
@[simp] theorem State.post_agenda (s : State) (m : Msg) : (s.post m).agenda = s.agenda := rfl
@[simp] theorem State.post_clk (s : State) (m : Msg) : (s.post m).clk = s.clk := rfl
@[simp] theorem State.post_slots (s : State) (m : Msg) : (s.post m).slots = s.slots := rfl
@[simp] theorem State.post_cores (s : State) (m : Msg) : (s.post m).cores = s.cores := rfl
@[simp] theorem State.post_clusters (s : State) (m : Msg) : (s.post m).clusters = s.clusters := rfl
@[simp] theorem State.post_mem (s : State) (m : Msg) : (s.post m).mem = s.mem := rfl
@[simp] theorem State.post_vault (s : State) (m : Msg) : (s.post m).vault = s.vault := rfl
@[simp] theorem State.post_empty (s : State) (m : Msg) : (s.post m).empty = s.empty := rfl
@[simp] theorem State.post_flaws (s : State) (m : Msg) : (s.post m).flaws = s.flaws := rfl
@[simp] theorem State.post_feeders (s : State) (m : Msg) : (s.post m).feeders = s.feeders := rfl
@[simp] theorem State.post_formes (s : State) (m : Msg) : (s.post m).formes = s.formes := rfl
@[simp] theorem State.post_overflow (s : State) (m : Msg) : (s.post m).overflow = s.overflow := rfl
@[simp] theorem State.post_formeErr (s : State) (m : Msg) : (s.post m).formeErr = s.formeErr := rfl
@[simp] theorem State.post_home (s : State) (m : Msg) : (s.post m).home = s.home := rfl
@[simp] theorem State.post_xbar (s : State) (m : Msg) : (s.post m).xbar = s.xbar := rfl
@[simp] theorem State.post_sdowns (s : State) (m : Msg) : (s.post m).sdowns = s.sdowns := rfl
@[simp] theorem State.post_ctxs (s : State) (m : Msg) : (s.post m).ctxs = s.ctxs := rfl
@[simp] theorem State.post_regs (s : State) (m : Msg) : (s.post m).regs = s.regs := rfl
@[simp] theorem State.post_dies (s : State) (m : Msg) : (s.post m).dies = s.dies := rfl
@[simp] theorem State.post_front (s : State) (m : Msg) : (s.post m).front = s.front := rfl
@[simp] theorem State.post_host (s : State) (m : Msg) : (s.post m).host = s.host := rfl
@[simp] theorem State.post_meter (s : State) (m : Msg) : (s.post m).meter = s.meter := rfl
@[simp] theorem State.post_fw (s : State) (m : Msg) : (s.post m).fw = s.fw := rfl
@[simp] theorem State.post_links (s : State) (m : Msg) : (s.post m).links = s.links := rfl
@[simp] theorem State.post_saved (s : State) (m : Msg) : (s.post m).saved = s.saved := rfl
@[simp] theorem State.post_reports (s : State) (m : Msg) : (s.post m).reports = s.reports := rfl
@[simp] theorem State.post_fatal (s : State) (m : Msg) : (s.post m).fatal = s.fatal := rfl

/-! setReg -/

@[simp] theorem State.setReg_cur (s : State) (r : CReg) (w : Word) : (s.setReg r w).cur = s.cur := rfl
@[simp] theorem State.setReg_agenda (s : State) (r : CReg) (w : Word) : (s.setReg r w).agenda = s.agenda := rfl
@[simp] theorem State.setReg_clk (s : State) (r : CReg) (w : Word) : (s.setReg r w).clk = s.clk := rfl
@[simp] theorem State.setReg_slots (s : State) (r : CReg) (w : Word) : (s.setReg r w).slots = s.slots := rfl
@[simp] theorem State.setReg_cores (s : State) (r : CReg) (w : Word) : (s.setReg r w).cores = s.cores := rfl
@[simp] theorem State.setReg_clusters (s : State) (r : CReg) (w : Word) : (s.setReg r w).clusters = s.clusters := rfl
@[simp] theorem State.setReg_mem (s : State) (r : CReg) (w : Word) : (s.setReg r w).mem = s.mem := rfl
@[simp] theorem State.setReg_vault (s : State) (r : CReg) (w : Word) : (s.setReg r w).vault = s.vault := rfl
@[simp] theorem State.setReg_empty (s : State) (r : CReg) (w : Word) : (s.setReg r w).empty = s.empty := rfl
@[simp] theorem State.setReg_flaws (s : State) (r : CReg) (w : Word) : (s.setReg r w).flaws = s.flaws := rfl
@[simp] theorem State.setReg_feeders (s : State) (r : CReg) (w : Word) : (s.setReg r w).feeders = s.feeders := rfl
@[simp] theorem State.setReg_net (s : State) (r : CReg) (w : Word) : (s.setReg r w).net = s.net := rfl
@[simp] theorem State.setReg_formes (s : State) (r : CReg) (w : Word) : (s.setReg r w).formes = s.formes := rfl
@[simp] theorem State.setReg_overflow (s : State) (r : CReg) (w : Word) : (s.setReg r w).overflow = s.overflow := rfl
@[simp] theorem State.setReg_formeErr (s : State) (r : CReg) (w : Word) : (s.setReg r w).formeErr = s.formeErr := rfl
@[simp] theorem State.setReg_home (s : State) (r : CReg) (w : Word) : (s.setReg r w).home = s.home := rfl
@[simp] theorem State.setReg_xbar (s : State) (r : CReg) (w : Word) : (s.setReg r w).xbar = s.xbar := rfl
@[simp] theorem State.setReg_sdowns (s : State) (r : CReg) (w : Word) : (s.setReg r w).sdowns = s.sdowns := rfl
@[simp] theorem State.setReg_ctxs (s : State) (r : CReg) (w : Word) : (s.setReg r w).ctxs = s.ctxs := rfl
@[simp] theorem State.setReg_dies (s : State) (r : CReg) (w : Word) : (s.setReg r w).dies = s.dies := rfl
@[simp] theorem State.setReg_front (s : State) (r : CReg) (w : Word) : (s.setReg r w).front = s.front := rfl
@[simp] theorem State.setReg_host (s : State) (r : CReg) (w : Word) : (s.setReg r w).host = s.host := rfl
@[simp] theorem State.setReg_meter (s : State) (r : CReg) (w : Word) : (s.setReg r w).meter = s.meter := rfl
@[simp] theorem State.setReg_fw (s : State) (r : CReg) (w : Word) : (s.setReg r w).fw = s.fw := rfl
@[simp] theorem State.setReg_links (s : State) (r : CReg) (w : Word) : (s.setReg r w).links = s.links := rfl
@[simp] theorem State.setReg_saved (s : State) (r : CReg) (w : Word) : (s.setReg r w).saved = s.saved := rfl
@[simp] theorem State.setReg_reports (s : State) (r : CReg) (w : Word) : (s.setReg r w).reports = s.reports := rfl
@[simp] theorem State.setReg_fatal (s : State) (r : CReg) (w : Word) : (s.setReg r w).fatal = s.fatal := rfl

/-! setX of a slot -/

@[simp] theorem Slot.setX_occ (sl : Slot) (r : XReg) (w : Word) : (sl.setX r w).occ = sl.occ := rfl
@[simp] theorem Slot.setX_priv (sl : Slot) (r : XReg) (w : Word) : (sl.setX r w).priv = sl.priv := rfl
@[simp] theorem Slot.setX_pc (sl : Slot) (r : XReg) (w : Word) : (sl.setX r w).pc = sl.pc := rfl
@[simp] theorem Slot.setX_npc (sl : Slot) (r : XReg) (w : Word) : (sl.setX r w).npc = sl.npc := rfl
@[simp] theorem Slot.setX_v (sl : Slot) (r : XReg) (w : Word) : (sl.setX r w).v = sl.v := rfl
@[simp] theorem Slot.setX_p (sl : Slot) (r : XReg) (w : Word) : (sl.setX r w).p = sl.p := rfl
@[simp] theorem Slot.setX_h (sl : Slot) (r : XReg) (w : Word) : (sl.setX r w).h = sl.h := rfl
@[simp] theorem Slot.setX_m (sl : Slot) (r : XReg) (w : Word) : (sl.setX r w).m = sl.m := rfl
@[simp] theorem Slot.setX_q (sl : Slot) (r : XReg) (w : Word) : (sl.setX r w).q = sl.q := rfl
@[simp] theorem Slot.setX_shadow (sl : Slot) (r : XReg) (w : Word) : (sl.setX r w).shadow = sl.shadow := rfl
@[simp] theorem Slot.setX_tok (sl : Slot) (r : XReg) (w : Word) : (sl.setX r w).tok = sl.tok := rfl
@[simp] theorem Slot.setX_wt (sl : Slot) (r : XReg) (w : Word) : (sl.setX r w).wt = sl.wt := rfl
@[simp] theorem Slot.setX_ctx (sl : Slot) (r : XReg) (w : Word) : (sl.setX r w).ctx = sl.ctx := rfl
@[simp] theorem Slot.setX_kslot (sl : Slot) (r : XReg) (w : Word) : (sl.setX r w).kslot = sl.kslot := rfl
@[simp] theorem Slot.setX_msrc (sl : Slot) (r : XReg) (w : Word) : (sl.setX r w).msrc = sl.msrc := rfl
@[simp] theorem Slot.setX_mcls (sl : Slot) (r : XReg) (w : Word) : (sl.setX r w).mcls = sl.mcls := rfl
@[simp] theorem Slot.setX_entry (sl : Slot) (r : XReg) (w : Word) : (sl.setX r w).entry = sl.entry := rfl
@[simp] theorem Slot.setX_spkg (sl : Slot) (r : XReg) (w : Word) : (sl.setX r w).spkg = sl.spkg := rfl
@[simp] theorem Slot.setX_hpkg (sl : Slot) (r : XReg) (w : Word) : (sl.setX r w).hpkg = sl.hpkg := rfl
@[simp] theorem Slot.setX_fflags (sl : Slot) (r : XReg) (w : Word) : (sl.setX r w).fflags = sl.fflags := rfl
@[simp] theorem Slot.setX_frmode (sl : Slot) (r : XReg) (w : Word) : (sl.setX r w).frmode = sl.frmode := rfl
@[simp] theorem Slot.setX_statid (sl : Slot) (r : XReg) (w : Word) : (sl.setX r w).statid = sl.statid := rfl
@[simp] theorem Slot.setX_tpc (sl : Slot) (r : XReg) (w : Word) : (sl.setX r w).tpc = sl.tpc := rfl
@[simp] theorem Slot.setX_tcause (sl : Slot) (r : XReg) (w : Word) : (sl.setX r w).tcause = sl.tcause := rfl
@[simp] theorem Slot.setX_tval (sl : Slot) (r : XReg) (w : Word) : (sl.setX r w).tval = sl.tval := rfl
@[simp] theorem Slot.setX_twt (sl : Slot) (r : XReg) (w : Word) : (sl.setX r w).twt = sl.twt := rfl
@[simp] theorem Slot.setX_tstate (sl : Slot) (r : XReg) (w : Word) : (sl.setX r w).tstate = sl.tstate := rfl
@[simp] theorem Slot.setX_tres (sl : Slot) (r : XReg) (w : Word) : (sl.setX r w).tres = sl.tres := rfl
@[simp] theorem Slot.setX_heads (sl : Slot) (r : XReg) (w : Word) : (sl.setX r w).heads = sl.heads := rfl
@[simp] theorem Slot.setX_lacidx (sl : Slot) (r : XReg) (w : Word) : (sl.setX r w).lacidx = sl.lacidx := rfl
@[simp] theorem Slot.setX_wstart (sl : Slot) (r : XReg) (w : Word) : (sl.setX r w).wstart = sl.wstart := rfl
@[simp] theorem Slot.setX_irrev (sl : Slot) (r : XReg) (w : Word) : (sl.setX r w).irrev = sl.irrev := rfl
@[simp] theorem Slot.setX_pmode (sl : Slot) (r : XReg) (w : Word) : (sl.setX r w).pmode = sl.pmode := rfl
@[simp] theorem Slot.setX_cbuf (sl : Slot) (r : XReg) (w : Word) : (sl.setX r w).cbuf = sl.cbuf := rfl
@[simp] theorem Slot.setX_cfail (sl : Slot) (r : XReg) (w : Word) : (sl.setX r w).cfail = sl.cfail := rfl
@[simp] theorem Slot.setX_spent (sl : Slot) (r : XReg) (w : Word) : (sl.setX r w).spent = sl.spent := rfl
@[simp] theorem Slot.setX_outs (sl : Slot) (r : XReg) (w : Word) : (sl.setX r w).outs = sl.outs := rfl
@[simp] theorem Slot.setX_rex (sl : Slot) (r : XReg) (w : Word) : (sl.setX r w).rex = sl.rex := rfl
@[simp] theorem Slot.setX_park (sl : Slot) (r : XReg) (w : Word) : (sl.setX r w).park = sl.park := rfl
@[simp] theorem Slot.setX_xres (sl : Slot) (r : XReg) (w : Word) : (sl.setX r w).xres = sl.xres := rfl
@[simp] theorem Slot.setX_rans (sl : Slot) (r : XReg) (w : Word) : (sl.setX r w).rans = sl.rans := rfl
@[simp] theorem Slot.setX_line (sl : Slot) (r : XReg) (w : Word) : (sl.setX r w).line = sl.line := rfl
@[simp] theorem Slot.setX_lineOld (sl : Slot) (r : XReg) (w : Word) : (sl.setX r w).lineOld = sl.lineOld := rfl
@[simp] theorem Slot.setX_halted (sl : Slot) (r : XReg) (w : Word) : (sl.setX r w).halted = sl.halted := rfl
@[simp] theorem Slot.setX_late (sl : Slot) (r : XReg) (w : Word) : (sl.setX r w).late = sl.late := rfl
@[simp] theorem Slot.setX_pend (sl : Slot) (r : XReg) (w : Word) : (sl.setX r w).pend = sl.pend := rfl
@[simp] theorem Slot.setX_skipBp (sl : Slot) (r : XReg) (w : Word) : (sl.setX r w).skipBp = sl.skipBp := rfl
@[simp] theorem Slot.setX_act (sl : Slot) (r : XReg) (w : Word) : (sl.setX r w).act = sl.act := rfl
@[simp] theorem Slot.setX_msg (sl : Slot) (r : XReg) (w : Word) : (sl.setX r w).msg = sl.msg := rfl
@[simp] theorem Slot.setX_budget (sl : Slot) (r : XReg) (w : Word) : (sl.setX r w).budget = sl.budget := rfl
@[simp] theorem Slot.setX_regsUsed (sl : Slot) (r : XReg) (w : Word) : (sl.setX r w).regsUsed = sl.regsUsed := rfl
@[simp] theorem Slot.setX_boundAt (sl : Slot) (r : XReg) (w : Word) : (sl.setX r w).boundAt = sl.boundAt := rfl
@[simp] theorem Slot.setX_gang (sl : Slot) (r : XReg) (w : Word) : (sl.setX r w).gang = sl.gang := rfl
@[simp] theorem Slot.setX_trapped (sl : Slot) (r : XReg) (w : Word) : (sl.setX r w).trapped = sl.trapped := rfl
@[simp] theorem Slot.setX_stepTrap (sl : Slot) (r : XReg) (w : Word) : (sl.setX r w).stepTrap = sl.stepTrap := rfl
@[simp] theorem Slot.setX_dying (sl : Slot) (r : XReg) (w : Word) : (sl.setX r w).dying = sl.dying := rfl

/-! setV of a slot -/

@[simp] theorem Slot.setV_occ (sl : Slot) (r : VReg) (w : Vec) : (sl.setV r w).occ = sl.occ := rfl
@[simp] theorem Slot.setV_priv (sl : Slot) (r : VReg) (w : Vec) : (sl.setV r w).priv = sl.priv := rfl
@[simp] theorem Slot.setV_pc (sl : Slot) (r : VReg) (w : Vec) : (sl.setV r w).pc = sl.pc := rfl
@[simp] theorem Slot.setV_npc (sl : Slot) (r : VReg) (w : Vec) : (sl.setV r w).npc = sl.npc := rfl
@[simp] theorem Slot.setV_x (sl : Slot) (r : VReg) (w : Vec) : (sl.setV r w).x = sl.x := rfl
@[simp] theorem Slot.setV_p (sl : Slot) (r : VReg) (w : Vec) : (sl.setV r w).p = sl.p := rfl
@[simp] theorem Slot.setV_h (sl : Slot) (r : VReg) (w : Vec) : (sl.setV r w).h = sl.h := rfl
@[simp] theorem Slot.setV_m (sl : Slot) (r : VReg) (w : Vec) : (sl.setV r w).m = sl.m := rfl
@[simp] theorem Slot.setV_q (sl : Slot) (r : VReg) (w : Vec) : (sl.setV r w).q = sl.q := rfl
@[simp] theorem Slot.setV_shadow (sl : Slot) (r : VReg) (w : Vec) : (sl.setV r w).shadow = sl.shadow := rfl
@[simp] theorem Slot.setV_tok (sl : Slot) (r : VReg) (w : Vec) : (sl.setV r w).tok = sl.tok := rfl
@[simp] theorem Slot.setV_wt (sl : Slot) (r : VReg) (w : Vec) : (sl.setV r w).wt = sl.wt := rfl
@[simp] theorem Slot.setV_ctx (sl : Slot) (r : VReg) (w : Vec) : (sl.setV r w).ctx = sl.ctx := rfl
@[simp] theorem Slot.setV_kslot (sl : Slot) (r : VReg) (w : Vec) : (sl.setV r w).kslot = sl.kslot := rfl
@[simp] theorem Slot.setV_msrc (sl : Slot) (r : VReg) (w : Vec) : (sl.setV r w).msrc = sl.msrc := rfl
@[simp] theorem Slot.setV_mcls (sl : Slot) (r : VReg) (w : Vec) : (sl.setV r w).mcls = sl.mcls := rfl
@[simp] theorem Slot.setV_entry (sl : Slot) (r : VReg) (w : Vec) : (sl.setV r w).entry = sl.entry := rfl
@[simp] theorem Slot.setV_spkg (sl : Slot) (r : VReg) (w : Vec) : (sl.setV r w).spkg = sl.spkg := rfl
@[simp] theorem Slot.setV_hpkg (sl : Slot) (r : VReg) (w : Vec) : (sl.setV r w).hpkg = sl.hpkg := rfl
@[simp] theorem Slot.setV_fflags (sl : Slot) (r : VReg) (w : Vec) : (sl.setV r w).fflags = sl.fflags := rfl
@[simp] theorem Slot.setV_frmode (sl : Slot) (r : VReg) (w : Vec) : (sl.setV r w).frmode = sl.frmode := rfl
@[simp] theorem Slot.setV_statid (sl : Slot) (r : VReg) (w : Vec) : (sl.setV r w).statid = sl.statid := rfl
@[simp] theorem Slot.setV_tpc (sl : Slot) (r : VReg) (w : Vec) : (sl.setV r w).tpc = sl.tpc := rfl
@[simp] theorem Slot.setV_tcause (sl : Slot) (r : VReg) (w : Vec) : (sl.setV r w).tcause = sl.tcause := rfl
@[simp] theorem Slot.setV_tval (sl : Slot) (r : VReg) (w : Vec) : (sl.setV r w).tval = sl.tval := rfl
@[simp] theorem Slot.setV_twt (sl : Slot) (r : VReg) (w : Vec) : (sl.setV r w).twt = sl.twt := rfl
@[simp] theorem Slot.setV_tstate (sl : Slot) (r : VReg) (w : Vec) : (sl.setV r w).tstate = sl.tstate := rfl
@[simp] theorem Slot.setV_tres (sl : Slot) (r : VReg) (w : Vec) : (sl.setV r w).tres = sl.tres := rfl
@[simp] theorem Slot.setV_heads (sl : Slot) (r : VReg) (w : Vec) : (sl.setV r w).heads = sl.heads := rfl
@[simp] theorem Slot.setV_lacidx (sl : Slot) (r : VReg) (w : Vec) : (sl.setV r w).lacidx = sl.lacidx := rfl
@[simp] theorem Slot.setV_wstart (sl : Slot) (r : VReg) (w : Vec) : (sl.setV r w).wstart = sl.wstart := rfl
@[simp] theorem Slot.setV_irrev (sl : Slot) (r : VReg) (w : Vec) : (sl.setV r w).irrev = sl.irrev := rfl
@[simp] theorem Slot.setV_pmode (sl : Slot) (r : VReg) (w : Vec) : (sl.setV r w).pmode = sl.pmode := rfl
@[simp] theorem Slot.setV_cbuf (sl : Slot) (r : VReg) (w : Vec) : (sl.setV r w).cbuf = sl.cbuf := rfl
@[simp] theorem Slot.setV_cfail (sl : Slot) (r : VReg) (w : Vec) : (sl.setV r w).cfail = sl.cfail := rfl
@[simp] theorem Slot.setV_spent (sl : Slot) (r : VReg) (w : Vec) : (sl.setV r w).spent = sl.spent := rfl
@[simp] theorem Slot.setV_outs (sl : Slot) (r : VReg) (w : Vec) : (sl.setV r w).outs = sl.outs := rfl
@[simp] theorem Slot.setV_rex (sl : Slot) (r : VReg) (w : Vec) : (sl.setV r w).rex = sl.rex := rfl
@[simp] theorem Slot.setV_park (sl : Slot) (r : VReg) (w : Vec) : (sl.setV r w).park = sl.park := rfl
@[simp] theorem Slot.setV_xres (sl : Slot) (r : VReg) (w : Vec) : (sl.setV r w).xres = sl.xres := rfl
@[simp] theorem Slot.setV_rans (sl : Slot) (r : VReg) (w : Vec) : (sl.setV r w).rans = sl.rans := rfl
@[simp] theorem Slot.setV_line (sl : Slot) (r : VReg) (w : Vec) : (sl.setV r w).line = sl.line := rfl
@[simp] theorem Slot.setV_lineOld (sl : Slot) (r : VReg) (w : Vec) : (sl.setV r w).lineOld = sl.lineOld := rfl
@[simp] theorem Slot.setV_halted (sl : Slot) (r : VReg) (w : Vec) : (sl.setV r w).halted = sl.halted := rfl
@[simp] theorem Slot.setV_late (sl : Slot) (r : VReg) (w : Vec) : (sl.setV r w).late = sl.late := rfl
@[simp] theorem Slot.setV_pend (sl : Slot) (r : VReg) (w : Vec) : (sl.setV r w).pend = sl.pend := rfl
@[simp] theorem Slot.setV_skipBp (sl : Slot) (r : VReg) (w : Vec) : (sl.setV r w).skipBp = sl.skipBp := rfl
@[simp] theorem Slot.setV_act (sl : Slot) (r : VReg) (w : Vec) : (sl.setV r w).act = sl.act := rfl
@[simp] theorem Slot.setV_msg (sl : Slot) (r : VReg) (w : Vec) : (sl.setV r w).msg = sl.msg := rfl
@[simp] theorem Slot.setV_budget (sl : Slot) (r : VReg) (w : Vec) : (sl.setV r w).budget = sl.budget := rfl
@[simp] theorem Slot.setV_regsUsed (sl : Slot) (r : VReg) (w : Vec) : (sl.setV r w).regsUsed = sl.regsUsed := rfl
@[simp] theorem Slot.setV_boundAt (sl : Slot) (r : VReg) (w : Vec) : (sl.setV r w).boundAt = sl.boundAt := rfl
@[simp] theorem Slot.setV_gang (sl : Slot) (r : VReg) (w : Vec) : (sl.setV r w).gang = sl.gang := rfl
@[simp] theorem Slot.setV_trapped (sl : Slot) (r : VReg) (w : Vec) : (sl.setV r w).trapped = sl.trapped := rfl
@[simp] theorem Slot.setV_stepTrap (sl : Slot) (r : VReg) (w : Vec) : (sl.setV r w).stepTrap = sl.stepTrap := rfl
@[simp] theorem Slot.setV_dying (sl : Slot) (r : VReg) (w : Vec) : (sl.setV r w).dying = sl.dying := rfl

/-! setP of a slot -/

@[simp] theorem Slot.setP_occ (sl : Slot) (r : PReg) (w : Word) : (sl.setP r w).occ = sl.occ := rfl
@[simp] theorem Slot.setP_priv (sl : Slot) (r : PReg) (w : Word) : (sl.setP r w).priv = sl.priv := rfl
@[simp] theorem Slot.setP_pc (sl : Slot) (r : PReg) (w : Word) : (sl.setP r w).pc = sl.pc := rfl
@[simp] theorem Slot.setP_npc (sl : Slot) (r : PReg) (w : Word) : (sl.setP r w).npc = sl.npc := rfl
@[simp] theorem Slot.setP_x (sl : Slot) (r : PReg) (w : Word) : (sl.setP r w).x = sl.x := rfl
@[simp] theorem Slot.setP_v (sl : Slot) (r : PReg) (w : Word) : (sl.setP r w).v = sl.v := rfl
@[simp] theorem Slot.setP_h (sl : Slot) (r : PReg) (w : Word) : (sl.setP r w).h = sl.h := rfl
@[simp] theorem Slot.setP_m (sl : Slot) (r : PReg) (w : Word) : (sl.setP r w).m = sl.m := rfl
@[simp] theorem Slot.setP_q (sl : Slot) (r : PReg) (w : Word) : (sl.setP r w).q = sl.q := rfl
@[simp] theorem Slot.setP_shadow (sl : Slot) (r : PReg) (w : Word) : (sl.setP r w).shadow = sl.shadow := rfl
@[simp] theorem Slot.setP_tok (sl : Slot) (r : PReg) (w : Word) : (sl.setP r w).tok = sl.tok := rfl
@[simp] theorem Slot.setP_wt (sl : Slot) (r : PReg) (w : Word) : (sl.setP r w).wt = sl.wt := rfl
@[simp] theorem Slot.setP_ctx (sl : Slot) (r : PReg) (w : Word) : (sl.setP r w).ctx = sl.ctx := rfl
@[simp] theorem Slot.setP_kslot (sl : Slot) (r : PReg) (w : Word) : (sl.setP r w).kslot = sl.kslot := rfl
@[simp] theorem Slot.setP_msrc (sl : Slot) (r : PReg) (w : Word) : (sl.setP r w).msrc = sl.msrc := rfl
@[simp] theorem Slot.setP_mcls (sl : Slot) (r : PReg) (w : Word) : (sl.setP r w).mcls = sl.mcls := rfl
@[simp] theorem Slot.setP_entry (sl : Slot) (r : PReg) (w : Word) : (sl.setP r w).entry = sl.entry := rfl
@[simp] theorem Slot.setP_spkg (sl : Slot) (r : PReg) (w : Word) : (sl.setP r w).spkg = sl.spkg := rfl
@[simp] theorem Slot.setP_hpkg (sl : Slot) (r : PReg) (w : Word) : (sl.setP r w).hpkg = sl.hpkg := rfl
@[simp] theorem Slot.setP_fflags (sl : Slot) (r : PReg) (w : Word) : (sl.setP r w).fflags = sl.fflags := rfl
@[simp] theorem Slot.setP_frmode (sl : Slot) (r : PReg) (w : Word) : (sl.setP r w).frmode = sl.frmode := rfl
@[simp] theorem Slot.setP_statid (sl : Slot) (r : PReg) (w : Word) : (sl.setP r w).statid = sl.statid := rfl
@[simp] theorem Slot.setP_tpc (sl : Slot) (r : PReg) (w : Word) : (sl.setP r w).tpc = sl.tpc := rfl
@[simp] theorem Slot.setP_tcause (sl : Slot) (r : PReg) (w : Word) : (sl.setP r w).tcause = sl.tcause := rfl
@[simp] theorem Slot.setP_tval (sl : Slot) (r : PReg) (w : Word) : (sl.setP r w).tval = sl.tval := rfl
@[simp] theorem Slot.setP_twt (sl : Slot) (r : PReg) (w : Word) : (sl.setP r w).twt = sl.twt := rfl
@[simp] theorem Slot.setP_tstate (sl : Slot) (r : PReg) (w : Word) : (sl.setP r w).tstate = sl.tstate := rfl
@[simp] theorem Slot.setP_tres (sl : Slot) (r : PReg) (w : Word) : (sl.setP r w).tres = sl.tres := rfl
@[simp] theorem Slot.setP_heads (sl : Slot) (r : PReg) (w : Word) : (sl.setP r w).heads = sl.heads := rfl
@[simp] theorem Slot.setP_lacidx (sl : Slot) (r : PReg) (w : Word) : (sl.setP r w).lacidx = sl.lacidx := rfl
@[simp] theorem Slot.setP_wstart (sl : Slot) (r : PReg) (w : Word) : (sl.setP r w).wstart = sl.wstart := rfl
@[simp] theorem Slot.setP_irrev (sl : Slot) (r : PReg) (w : Word) : (sl.setP r w).irrev = sl.irrev := rfl
@[simp] theorem Slot.setP_pmode (sl : Slot) (r : PReg) (w : Word) : (sl.setP r w).pmode = sl.pmode := rfl
@[simp] theorem Slot.setP_cbuf (sl : Slot) (r : PReg) (w : Word) : (sl.setP r w).cbuf = sl.cbuf := rfl
@[simp] theorem Slot.setP_cfail (sl : Slot) (r : PReg) (w : Word) : (sl.setP r w).cfail = sl.cfail := rfl
@[simp] theorem Slot.setP_spent (sl : Slot) (r : PReg) (w : Word) : (sl.setP r w).spent = sl.spent := rfl
@[simp] theorem Slot.setP_outs (sl : Slot) (r : PReg) (w : Word) : (sl.setP r w).outs = sl.outs := rfl
@[simp] theorem Slot.setP_rex (sl : Slot) (r : PReg) (w : Word) : (sl.setP r w).rex = sl.rex := rfl
@[simp] theorem Slot.setP_park (sl : Slot) (r : PReg) (w : Word) : (sl.setP r w).park = sl.park := rfl
@[simp] theorem Slot.setP_xres (sl : Slot) (r : PReg) (w : Word) : (sl.setP r w).xres = sl.xres := rfl
@[simp] theorem Slot.setP_rans (sl : Slot) (r : PReg) (w : Word) : (sl.setP r w).rans = sl.rans := rfl
@[simp] theorem Slot.setP_line (sl : Slot) (r : PReg) (w : Word) : (sl.setP r w).line = sl.line := rfl
@[simp] theorem Slot.setP_lineOld (sl : Slot) (r : PReg) (w : Word) : (sl.setP r w).lineOld = sl.lineOld := rfl
@[simp] theorem Slot.setP_halted (sl : Slot) (r : PReg) (w : Word) : (sl.setP r w).halted = sl.halted := rfl
@[simp] theorem Slot.setP_late (sl : Slot) (r : PReg) (w : Word) : (sl.setP r w).late = sl.late := rfl
@[simp] theorem Slot.setP_pend (sl : Slot) (r : PReg) (w : Word) : (sl.setP r w).pend = sl.pend := rfl
@[simp] theorem Slot.setP_skipBp (sl : Slot) (r : PReg) (w : Word) : (sl.setP r w).skipBp = sl.skipBp := rfl
@[simp] theorem Slot.setP_act (sl : Slot) (r : PReg) (w : Word) : (sl.setP r w).act = sl.act := rfl
@[simp] theorem Slot.setP_msg (sl : Slot) (r : PReg) (w : Word) : (sl.setP r w).msg = sl.msg := rfl
@[simp] theorem Slot.setP_budget (sl : Slot) (r : PReg) (w : Word) : (sl.setP r w).budget = sl.budget := rfl
@[simp] theorem Slot.setP_regsUsed (sl : Slot) (r : PReg) (w : Word) : (sl.setP r w).regsUsed = sl.regsUsed := rfl
@[simp] theorem Slot.setP_boundAt (sl : Slot) (r : PReg) (w : Word) : (sl.setP r w).boundAt = sl.boundAt := rfl
@[simp] theorem Slot.setP_gang (sl : Slot) (r : PReg) (w : Word) : (sl.setP r w).gang = sl.gang := rfl
@[simp] theorem Slot.setP_trapped (sl : Slot) (r : PReg) (w : Word) : (sl.setP r w).trapped = sl.trapped := rfl
@[simp] theorem Slot.setP_stepTrap (sl : Slot) (r : PReg) (w : Word) : (sl.setP r w).stepTrap = sl.stepTrap := rfl
@[simp] theorem Slot.setP_dying (sl : Slot) (r : PReg) (w : Word) : (sl.setP r w).dying = sl.dying := rfl

/-! setH of a slot -/

@[simp] theorem Slot.setH_occ (sl : Slot) (r : HReg) (w : Word) : (sl.setH r w).occ = sl.occ := rfl
@[simp] theorem Slot.setH_priv (sl : Slot) (r : HReg) (w : Word) : (sl.setH r w).priv = sl.priv := rfl
@[simp] theorem Slot.setH_pc (sl : Slot) (r : HReg) (w : Word) : (sl.setH r w).pc = sl.pc := rfl
@[simp] theorem Slot.setH_npc (sl : Slot) (r : HReg) (w : Word) : (sl.setH r w).npc = sl.npc := rfl
@[simp] theorem Slot.setH_x (sl : Slot) (r : HReg) (w : Word) : (sl.setH r w).x = sl.x := rfl
@[simp] theorem Slot.setH_v (sl : Slot) (r : HReg) (w : Word) : (sl.setH r w).v = sl.v := rfl
@[simp] theorem Slot.setH_p (sl : Slot) (r : HReg) (w : Word) : (sl.setH r w).p = sl.p := rfl
@[simp] theorem Slot.setH_m (sl : Slot) (r : HReg) (w : Word) : (sl.setH r w).m = sl.m := rfl
@[simp] theorem Slot.setH_q (sl : Slot) (r : HReg) (w : Word) : (sl.setH r w).q = sl.q := rfl
@[simp] theorem Slot.setH_shadow (sl : Slot) (r : HReg) (w : Word) : (sl.setH r w).shadow = sl.shadow := rfl
@[simp] theorem Slot.setH_tok (sl : Slot) (r : HReg) (w : Word) : (sl.setH r w).tok = sl.tok := rfl
@[simp] theorem Slot.setH_wt (sl : Slot) (r : HReg) (w : Word) : (sl.setH r w).wt = sl.wt := rfl
@[simp] theorem Slot.setH_ctx (sl : Slot) (r : HReg) (w : Word) : (sl.setH r w).ctx = sl.ctx := rfl
@[simp] theorem Slot.setH_kslot (sl : Slot) (r : HReg) (w : Word) : (sl.setH r w).kslot = sl.kslot := rfl
@[simp] theorem Slot.setH_msrc (sl : Slot) (r : HReg) (w : Word) : (sl.setH r w).msrc = sl.msrc := rfl
@[simp] theorem Slot.setH_mcls (sl : Slot) (r : HReg) (w : Word) : (sl.setH r w).mcls = sl.mcls := rfl
@[simp] theorem Slot.setH_entry (sl : Slot) (r : HReg) (w : Word) : (sl.setH r w).entry = sl.entry := rfl
@[simp] theorem Slot.setH_spkg (sl : Slot) (r : HReg) (w : Word) : (sl.setH r w).spkg = sl.spkg := rfl
@[simp] theorem Slot.setH_hpkg (sl : Slot) (r : HReg) (w : Word) : (sl.setH r w).hpkg = sl.hpkg := rfl
@[simp] theorem Slot.setH_fflags (sl : Slot) (r : HReg) (w : Word) : (sl.setH r w).fflags = sl.fflags := rfl
@[simp] theorem Slot.setH_frmode (sl : Slot) (r : HReg) (w : Word) : (sl.setH r w).frmode = sl.frmode := rfl
@[simp] theorem Slot.setH_statid (sl : Slot) (r : HReg) (w : Word) : (sl.setH r w).statid = sl.statid := rfl
@[simp] theorem Slot.setH_tpc (sl : Slot) (r : HReg) (w : Word) : (sl.setH r w).tpc = sl.tpc := rfl
@[simp] theorem Slot.setH_tcause (sl : Slot) (r : HReg) (w : Word) : (sl.setH r w).tcause = sl.tcause := rfl
@[simp] theorem Slot.setH_tval (sl : Slot) (r : HReg) (w : Word) : (sl.setH r w).tval = sl.tval := rfl
@[simp] theorem Slot.setH_twt (sl : Slot) (r : HReg) (w : Word) : (sl.setH r w).twt = sl.twt := rfl
@[simp] theorem Slot.setH_tstate (sl : Slot) (r : HReg) (w : Word) : (sl.setH r w).tstate = sl.tstate := rfl
@[simp] theorem Slot.setH_tres (sl : Slot) (r : HReg) (w : Word) : (sl.setH r w).tres = sl.tres := rfl
@[simp] theorem Slot.setH_heads (sl : Slot) (r : HReg) (w : Word) : (sl.setH r w).heads = sl.heads := rfl
@[simp] theorem Slot.setH_lacidx (sl : Slot) (r : HReg) (w : Word) : (sl.setH r w).lacidx = sl.lacidx := rfl
@[simp] theorem Slot.setH_wstart (sl : Slot) (r : HReg) (w : Word) : (sl.setH r w).wstart = sl.wstart := rfl
@[simp] theorem Slot.setH_irrev (sl : Slot) (r : HReg) (w : Word) : (sl.setH r w).irrev = sl.irrev := rfl
@[simp] theorem Slot.setH_pmode (sl : Slot) (r : HReg) (w : Word) : (sl.setH r w).pmode = sl.pmode := rfl
@[simp] theorem Slot.setH_cbuf (sl : Slot) (r : HReg) (w : Word) : (sl.setH r w).cbuf = sl.cbuf := rfl
@[simp] theorem Slot.setH_cfail (sl : Slot) (r : HReg) (w : Word) : (sl.setH r w).cfail = sl.cfail := rfl
@[simp] theorem Slot.setH_spent (sl : Slot) (r : HReg) (w : Word) : (sl.setH r w).spent = sl.spent := rfl
@[simp] theorem Slot.setH_outs (sl : Slot) (r : HReg) (w : Word) : (sl.setH r w).outs = sl.outs := rfl
@[simp] theorem Slot.setH_rex (sl : Slot) (r : HReg) (w : Word) : (sl.setH r w).rex = sl.rex := rfl
@[simp] theorem Slot.setH_park (sl : Slot) (r : HReg) (w : Word) : (sl.setH r w).park = sl.park := rfl
@[simp] theorem Slot.setH_xres (sl : Slot) (r : HReg) (w : Word) : (sl.setH r w).xres = sl.xres := rfl
@[simp] theorem Slot.setH_rans (sl : Slot) (r : HReg) (w : Word) : (sl.setH r w).rans = sl.rans := rfl
@[simp] theorem Slot.setH_line (sl : Slot) (r : HReg) (w : Word) : (sl.setH r w).line = sl.line := rfl
@[simp] theorem Slot.setH_lineOld (sl : Slot) (r : HReg) (w : Word) : (sl.setH r w).lineOld = sl.lineOld := rfl
@[simp] theorem Slot.setH_halted (sl : Slot) (r : HReg) (w : Word) : (sl.setH r w).halted = sl.halted := rfl
@[simp] theorem Slot.setH_late (sl : Slot) (r : HReg) (w : Word) : (sl.setH r w).late = sl.late := rfl
@[simp] theorem Slot.setH_pend (sl : Slot) (r : HReg) (w : Word) : (sl.setH r w).pend = sl.pend := rfl
@[simp] theorem Slot.setH_skipBp (sl : Slot) (r : HReg) (w : Word) : (sl.setH r w).skipBp = sl.skipBp := rfl
@[simp] theorem Slot.setH_act (sl : Slot) (r : HReg) (w : Word) : (sl.setH r w).act = sl.act := rfl
@[simp] theorem Slot.setH_msg (sl : Slot) (r : HReg) (w : Word) : (sl.setH r w).msg = sl.msg := rfl
@[simp] theorem Slot.setH_budget (sl : Slot) (r : HReg) (w : Word) : (sl.setH r w).budget = sl.budget := rfl
@[simp] theorem Slot.setH_regsUsed (sl : Slot) (r : HReg) (w : Word) : (sl.setH r w).regsUsed = sl.regsUsed := rfl
@[simp] theorem Slot.setH_boundAt (sl : Slot) (r : HReg) (w : Word) : (sl.setH r w).boundAt = sl.boundAt := rfl
@[simp] theorem Slot.setH_gang (sl : Slot) (r : HReg) (w : Word) : (sl.setH r w).gang = sl.gang := rfl
@[simp] theorem Slot.setH_trapped (sl : Slot) (r : HReg) (w : Word) : (sl.setH r w).trapped = sl.trapped := rfl
@[simp] theorem Slot.setH_stepTrap (sl : Slot) (r : HReg) (w : Word) : (sl.setH r w).stepTrap = sl.stepTrap := rfl
@[simp] theorem Slot.setH_dying (sl : Slot) (r : HReg) (w : Word) : (sl.setH r w).dying = sl.dying := rfl

/-! setTok of a slot -/

@[simp] theorem Slot.setTok_occ (sl : Slot) (t : Tok) (x : TokSt) : (sl.setTok t x).occ = sl.occ := rfl
@[simp] theorem Slot.setTok_priv (sl : Slot) (t : Tok) (x : TokSt) : (sl.setTok t x).priv = sl.priv := rfl
@[simp] theorem Slot.setTok_pc (sl : Slot) (t : Tok) (x : TokSt) : (sl.setTok t x).pc = sl.pc := rfl
@[simp] theorem Slot.setTok_npc (sl : Slot) (t : Tok) (x : TokSt) : (sl.setTok t x).npc = sl.npc := rfl
@[simp] theorem Slot.setTok_x (sl : Slot) (t : Tok) (x : TokSt) : (sl.setTok t x).x = sl.x := rfl
@[simp] theorem Slot.setTok_v (sl : Slot) (t : Tok) (x : TokSt) : (sl.setTok t x).v = sl.v := rfl
@[simp] theorem Slot.setTok_p (sl : Slot) (t : Tok) (x : TokSt) : (sl.setTok t x).p = sl.p := rfl
@[simp] theorem Slot.setTok_h (sl : Slot) (t : Tok) (x : TokSt) : (sl.setTok t x).h = sl.h := rfl
@[simp] theorem Slot.setTok_m (sl : Slot) (t : Tok) (x : TokSt) : (sl.setTok t x).m = sl.m := rfl
@[simp] theorem Slot.setTok_q (sl : Slot) (t : Tok) (x : TokSt) : (sl.setTok t x).q = sl.q := rfl
@[simp] theorem Slot.setTok_shadow (sl : Slot) (t : Tok) (x : TokSt) : (sl.setTok t x).shadow = sl.shadow := rfl
@[simp] theorem Slot.setTok_wt (sl : Slot) (t : Tok) (x : TokSt) : (sl.setTok t x).wt = sl.wt := rfl
@[simp] theorem Slot.setTok_ctx (sl : Slot) (t : Tok) (x : TokSt) : (sl.setTok t x).ctx = sl.ctx := rfl
@[simp] theorem Slot.setTok_kslot (sl : Slot) (t : Tok) (x : TokSt) : (sl.setTok t x).kslot = sl.kslot := rfl
@[simp] theorem Slot.setTok_msrc (sl : Slot) (t : Tok) (x : TokSt) : (sl.setTok t x).msrc = sl.msrc := rfl
@[simp] theorem Slot.setTok_mcls (sl : Slot) (t : Tok) (x : TokSt) : (sl.setTok t x).mcls = sl.mcls := rfl
@[simp] theorem Slot.setTok_entry (sl : Slot) (t : Tok) (x : TokSt) : (sl.setTok t x).entry = sl.entry := rfl
@[simp] theorem Slot.setTok_spkg (sl : Slot) (t : Tok) (x : TokSt) : (sl.setTok t x).spkg = sl.spkg := rfl
@[simp] theorem Slot.setTok_hpkg (sl : Slot) (t : Tok) (x : TokSt) : (sl.setTok t x).hpkg = sl.hpkg := rfl
@[simp] theorem Slot.setTok_fflags (sl : Slot) (t : Tok) (x : TokSt) : (sl.setTok t x).fflags = sl.fflags := rfl
@[simp] theorem Slot.setTok_frmode (sl : Slot) (t : Tok) (x : TokSt) : (sl.setTok t x).frmode = sl.frmode := rfl
@[simp] theorem Slot.setTok_statid (sl : Slot) (t : Tok) (x : TokSt) : (sl.setTok t x).statid = sl.statid := rfl
@[simp] theorem Slot.setTok_tpc (sl : Slot) (t : Tok) (x : TokSt) : (sl.setTok t x).tpc = sl.tpc := rfl
@[simp] theorem Slot.setTok_tcause (sl : Slot) (t : Tok) (x : TokSt) : (sl.setTok t x).tcause = sl.tcause := rfl
@[simp] theorem Slot.setTok_tval (sl : Slot) (t : Tok) (x : TokSt) : (sl.setTok t x).tval = sl.tval := rfl
@[simp] theorem Slot.setTok_twt (sl : Slot) (t : Tok) (x : TokSt) : (sl.setTok t x).twt = sl.twt := rfl
@[simp] theorem Slot.setTok_tstate (sl : Slot) (t : Tok) (x : TokSt) : (sl.setTok t x).tstate = sl.tstate := rfl
@[simp] theorem Slot.setTok_tres (sl : Slot) (t : Tok) (x : TokSt) : (sl.setTok t x).tres = sl.tres := rfl
@[simp] theorem Slot.setTok_heads (sl : Slot) (t : Tok) (x : TokSt) : (sl.setTok t x).heads = sl.heads := rfl
@[simp] theorem Slot.setTok_lacidx (sl : Slot) (t : Tok) (x : TokSt) : (sl.setTok t x).lacidx = sl.lacidx := rfl
@[simp] theorem Slot.setTok_wstart (sl : Slot) (t : Tok) (x : TokSt) : (sl.setTok t x).wstart = sl.wstart := rfl
@[simp] theorem Slot.setTok_irrev (sl : Slot) (t : Tok) (x : TokSt) : (sl.setTok t x).irrev = sl.irrev := rfl
@[simp] theorem Slot.setTok_pmode (sl : Slot) (t : Tok) (x : TokSt) : (sl.setTok t x).pmode = sl.pmode := rfl
@[simp] theorem Slot.setTok_cbuf (sl : Slot) (t : Tok) (x : TokSt) : (sl.setTok t x).cbuf = sl.cbuf := rfl
@[simp] theorem Slot.setTok_cfail (sl : Slot) (t : Tok) (x : TokSt) : (sl.setTok t x).cfail = sl.cfail := rfl
@[simp] theorem Slot.setTok_spent (sl : Slot) (t : Tok) (x : TokSt) : (sl.setTok t x).spent = sl.spent := rfl
@[simp] theorem Slot.setTok_outs (sl : Slot) (t : Tok) (x : TokSt) : (sl.setTok t x).outs = sl.outs := rfl
@[simp] theorem Slot.setTok_rex (sl : Slot) (t : Tok) (x : TokSt) : (sl.setTok t x).rex = sl.rex := rfl
@[simp] theorem Slot.setTok_park (sl : Slot) (t : Tok) (x : TokSt) : (sl.setTok t x).park = sl.park := rfl
@[simp] theorem Slot.setTok_xres (sl : Slot) (t : Tok) (x : TokSt) : (sl.setTok t x).xres = sl.xres := rfl
@[simp] theorem Slot.setTok_rans (sl : Slot) (t : Tok) (x : TokSt) : (sl.setTok t x).rans = sl.rans := rfl
@[simp] theorem Slot.setTok_line (sl : Slot) (t : Tok) (x : TokSt) : (sl.setTok t x).line = sl.line := rfl
@[simp] theorem Slot.setTok_lineOld (sl : Slot) (t : Tok) (x : TokSt) : (sl.setTok t x).lineOld = sl.lineOld := rfl
@[simp] theorem Slot.setTok_halted (sl : Slot) (t : Tok) (x : TokSt) : (sl.setTok t x).halted = sl.halted := rfl
@[simp] theorem Slot.setTok_late (sl : Slot) (t : Tok) (x : TokSt) : (sl.setTok t x).late = sl.late := rfl
@[simp] theorem Slot.setTok_pend (sl : Slot) (t : Tok) (x : TokSt) : (sl.setTok t x).pend = sl.pend := rfl
@[simp] theorem Slot.setTok_skipBp (sl : Slot) (t : Tok) (x : TokSt) : (sl.setTok t x).skipBp = sl.skipBp := rfl
@[simp] theorem Slot.setTok_act (sl : Slot) (t : Tok) (x : TokSt) : (sl.setTok t x).act = sl.act := rfl
@[simp] theorem Slot.setTok_msg (sl : Slot) (t : Tok) (x : TokSt) : (sl.setTok t x).msg = sl.msg := rfl
@[simp] theorem Slot.setTok_budget (sl : Slot) (t : Tok) (x : TokSt) : (sl.setTok t x).budget = sl.budget := rfl
@[simp] theorem Slot.setTok_regsUsed (sl : Slot) (t : Tok) (x : TokSt) : (sl.setTok t x).regsUsed = sl.regsUsed := rfl
@[simp] theorem Slot.setTok_boundAt (sl : Slot) (t : Tok) (x : TokSt) : (sl.setTok t x).boundAt = sl.boundAt := rfl
@[simp] theorem Slot.setTok_gang (sl : Slot) (t : Tok) (x : TokSt) : (sl.setTok t x).gang = sl.gang := rfl
@[simp] theorem Slot.setTok_trapped (sl : Slot) (t : Tok) (x : TokSt) : (sl.setTok t x).trapped = sl.trapped := rfl
@[simp] theorem Slot.setTok_stepTrap (sl : Slot) (t : Tok) (x : TokSt) : (sl.setTok t x).stepTrap = sl.stepTrap := rfl
@[simp] theorem Slot.setTok_dying (sl : Slot) (t : Tok) (x : TokSt) : (sl.setTok t x).dying = sl.dying := rfl

/-! A head retired -/

@[simp] theorem Slot.retireTo_occ (sl : Slot) (pc : Word) (wr : List Dest) : (sl.retireTo pc wr).occ = sl.occ := rfl
@[simp] theorem Slot.retire_occ (sl : Slot) (wr : List Dest) : (sl.retire wr).occ = sl.occ := rfl
@[simp] theorem Slot.retireTo_priv (sl : Slot) (pc : Word) (wr : List Dest) :
    (sl.retireTo pc wr).priv = sl.priv := rfl
@[simp] theorem Slot.retire_priv (sl : Slot) (wr : List Dest) : (sl.retire wr).priv = sl.priv := rfl
@[simp] theorem Slot.retireTo_npc (sl : Slot) (pc : Word) (wr : List Dest) : (sl.retireTo pc wr).npc = sl.npc := rfl
@[simp] theorem Slot.retire_npc (sl : Slot) (wr : List Dest) : (sl.retire wr).npc = sl.npc := rfl
@[simp] theorem Slot.retireTo_x (sl : Slot) (pc : Word) (wr : List Dest) : (sl.retireTo pc wr).x = sl.x := rfl
@[simp] theorem Slot.retire_x (sl : Slot) (wr : List Dest) : (sl.retire wr).x = sl.x := rfl
@[simp] theorem Slot.retireTo_v (sl : Slot) (pc : Word) (wr : List Dest) : (sl.retireTo pc wr).v = sl.v := rfl
@[simp] theorem Slot.retire_v (sl : Slot) (wr : List Dest) : (sl.retire wr).v = sl.v := rfl
@[simp] theorem Slot.retireTo_p (sl : Slot) (pc : Word) (wr : List Dest) : (sl.retireTo pc wr).p = sl.p := rfl
@[simp] theorem Slot.retire_p (sl : Slot) (wr : List Dest) : (sl.retire wr).p = sl.p := rfl
@[simp] theorem Slot.retireTo_h (sl : Slot) (pc : Word) (wr : List Dest) : (sl.retireTo pc wr).h = sl.h := rfl
@[simp] theorem Slot.retire_h (sl : Slot) (wr : List Dest) : (sl.retire wr).h = sl.h := rfl
@[simp] theorem Slot.retireTo_m (sl : Slot) (pc : Word) (wr : List Dest) : (sl.retireTo pc wr).m = sl.m := rfl
@[simp] theorem Slot.retire_m (sl : Slot) (wr : List Dest) : (sl.retire wr).m = sl.m := rfl
@[simp] theorem Slot.retireTo_q (sl : Slot) (pc : Word) (wr : List Dest) : (sl.retireTo pc wr).q = sl.q := rfl
@[simp] theorem Slot.retire_q (sl : Slot) (wr : List Dest) : (sl.retire wr).q = sl.q := rfl
@[simp] theorem Slot.retireTo_shadow (sl : Slot) (pc : Word) (wr : List Dest) :
    (sl.retireTo pc wr).shadow = sl.shadow := rfl
@[simp] theorem Slot.retire_shadow (sl : Slot) (wr : List Dest) : (sl.retire wr).shadow = sl.shadow := rfl
@[simp] theorem Slot.retireTo_tok (sl : Slot) (pc : Word) (wr : List Dest) : (sl.retireTo pc wr).tok = sl.tok := rfl
@[simp] theorem Slot.retire_tok (sl : Slot) (wr : List Dest) : (sl.retire wr).tok = sl.tok := rfl
@[simp] theorem Slot.retireTo_wt (sl : Slot) (pc : Word) (wr : List Dest) : (sl.retireTo pc wr).wt = sl.wt := rfl
@[simp] theorem Slot.retire_wt (sl : Slot) (wr : List Dest) : (sl.retire wr).wt = sl.wt := rfl
@[simp] theorem Slot.retireTo_ctx (sl : Slot) (pc : Word) (wr : List Dest) : (sl.retireTo pc wr).ctx = sl.ctx := rfl
@[simp] theorem Slot.retire_ctx (sl : Slot) (wr : List Dest) : (sl.retire wr).ctx = sl.ctx := rfl
@[simp] theorem Slot.retireTo_kslot (sl : Slot) (pc : Word) (wr : List Dest) :
    (sl.retireTo pc wr).kslot = sl.kslot := rfl
@[simp] theorem Slot.retire_kslot (sl : Slot) (wr : List Dest) : (sl.retire wr).kslot = sl.kslot := rfl
@[simp] theorem Slot.retireTo_msrc (sl : Slot) (pc : Word) (wr : List Dest) :
    (sl.retireTo pc wr).msrc = sl.msrc := rfl
@[simp] theorem Slot.retire_msrc (sl : Slot) (wr : List Dest) : (sl.retire wr).msrc = sl.msrc := rfl
@[simp] theorem Slot.retireTo_mcls (sl : Slot) (pc : Word) (wr : List Dest) :
    (sl.retireTo pc wr).mcls = sl.mcls := rfl
@[simp] theorem Slot.retire_mcls (sl : Slot) (wr : List Dest) : (sl.retire wr).mcls = sl.mcls := rfl
@[simp] theorem Slot.retireTo_entry (sl : Slot) (pc : Word) (wr : List Dest) :
    (sl.retireTo pc wr).entry = sl.entry := rfl
@[simp] theorem Slot.retire_entry (sl : Slot) (wr : List Dest) : (sl.retire wr).entry = sl.entry := rfl
@[simp] theorem Slot.retireTo_spkg (sl : Slot) (pc : Word) (wr : List Dest) :
    (sl.retireTo pc wr).spkg = sl.spkg := rfl
@[simp] theorem Slot.retire_spkg (sl : Slot) (wr : List Dest) : (sl.retire wr).spkg = sl.spkg := rfl
@[simp] theorem Slot.retireTo_hpkg (sl : Slot) (pc : Word) (wr : List Dest) :
    (sl.retireTo pc wr).hpkg = sl.hpkg := rfl
@[simp] theorem Slot.retire_hpkg (sl : Slot) (wr : List Dest) : (sl.retire wr).hpkg = sl.hpkg := rfl
@[simp] theorem Slot.retireTo_fflags (sl : Slot) (pc : Word) (wr : List Dest) :
    (sl.retireTo pc wr).fflags = sl.fflags := rfl
@[simp] theorem Slot.retire_fflags (sl : Slot) (wr : List Dest) : (sl.retire wr).fflags = sl.fflags := rfl
@[simp] theorem Slot.retireTo_frmode (sl : Slot) (pc : Word) (wr : List Dest) :
    (sl.retireTo pc wr).frmode = sl.frmode := rfl
@[simp] theorem Slot.retire_frmode (sl : Slot) (wr : List Dest) : (sl.retire wr).frmode = sl.frmode := rfl
@[simp] theorem Slot.retireTo_statid (sl : Slot) (pc : Word) (wr : List Dest) :
    (sl.retireTo pc wr).statid = sl.statid := rfl
@[simp] theorem Slot.retire_statid (sl : Slot) (wr : List Dest) : (sl.retire wr).statid = sl.statid := rfl
@[simp] theorem Slot.retireTo_tpc (sl : Slot) (pc : Word) (wr : List Dest) : (sl.retireTo pc wr).tpc = sl.tpc := rfl
@[simp] theorem Slot.retire_tpc (sl : Slot) (wr : List Dest) : (sl.retire wr).tpc = sl.tpc := rfl
@[simp] theorem Slot.retireTo_tcause (sl : Slot) (pc : Word) (wr : List Dest) :
    (sl.retireTo pc wr).tcause = sl.tcause := rfl
@[simp] theorem Slot.retire_tcause (sl : Slot) (wr : List Dest) : (sl.retire wr).tcause = sl.tcause := rfl
@[simp] theorem Slot.retireTo_tval (sl : Slot) (pc : Word) (wr : List Dest) :
    (sl.retireTo pc wr).tval = sl.tval := rfl
@[simp] theorem Slot.retire_tval (sl : Slot) (wr : List Dest) : (sl.retire wr).tval = sl.tval := rfl
@[simp] theorem Slot.retireTo_twt (sl : Slot) (pc : Word) (wr : List Dest) : (sl.retireTo pc wr).twt = sl.twt := rfl
@[simp] theorem Slot.retire_twt (sl : Slot) (wr : List Dest) : (sl.retire wr).twt = sl.twt := rfl
@[simp] theorem Slot.retireTo_tstate (sl : Slot) (pc : Word) (wr : List Dest) :
    (sl.retireTo pc wr).tstate = sl.tstate := rfl
@[simp] theorem Slot.retire_tstate (sl : Slot) (wr : List Dest) : (sl.retire wr).tstate = sl.tstate := rfl
@[simp] theorem Slot.retireTo_tres (sl : Slot) (pc : Word) (wr : List Dest) :
    (sl.retireTo pc wr).tres = sl.tres := rfl
@[simp] theorem Slot.retire_tres (sl : Slot) (wr : List Dest) : (sl.retire wr).tres = sl.tres := rfl
@[simp] theorem Slot.retireTo_lacidx (sl : Slot) (pc : Word) (wr : List Dest) :
    (sl.retireTo pc wr).lacidx = sl.lacidx := rfl
@[simp] theorem Slot.retire_lacidx (sl : Slot) (wr : List Dest) : (sl.retire wr).lacidx = sl.lacidx := rfl
@[simp] theorem Slot.retireTo_wstart (sl : Slot) (pc : Word) (wr : List Dest) :
    (sl.retireTo pc wr).wstart = sl.wstart := rfl
@[simp] theorem Slot.retire_wstart (sl : Slot) (wr : List Dest) : (sl.retire wr).wstart = sl.wstart := rfl
@[simp] theorem Slot.retireTo_irrev (sl : Slot) (pc : Word) (wr : List Dest) :
    (sl.retireTo pc wr).irrev = sl.irrev := rfl
@[simp] theorem Slot.retire_irrev (sl : Slot) (wr : List Dest) : (sl.retire wr).irrev = sl.irrev := rfl
@[simp] theorem Slot.retireTo_pmode (sl : Slot) (pc : Word) (wr : List Dest) :
    (sl.retireTo pc wr).pmode = sl.pmode := rfl
@[simp] theorem Slot.retire_pmode (sl : Slot) (wr : List Dest) : (sl.retire wr).pmode = sl.pmode := rfl
@[simp] theorem Slot.retireTo_cbuf (sl : Slot) (pc : Word) (wr : List Dest) :
    (sl.retireTo pc wr).cbuf = sl.cbuf := rfl
@[simp] theorem Slot.retire_cbuf (sl : Slot) (wr : List Dest) : (sl.retire wr).cbuf = sl.cbuf := rfl
@[simp] theorem Slot.retireTo_cfail (sl : Slot) (pc : Word) (wr : List Dest) :
    (sl.retireTo pc wr).cfail = sl.cfail := rfl
@[simp] theorem Slot.retire_cfail (sl : Slot) (wr : List Dest) : (sl.retire wr).cfail = sl.cfail := rfl
@[simp] theorem Slot.retireTo_spent (sl : Slot) (pc : Word) (wr : List Dest) :
    (sl.retireTo pc wr).spent = sl.spent := rfl
@[simp] theorem Slot.retire_spent (sl : Slot) (wr : List Dest) : (sl.retire wr).spent = sl.spent := rfl
@[simp] theorem Slot.retireTo_park (sl : Slot) (pc : Word) (wr : List Dest) :
    (sl.retireTo pc wr).park = sl.park := rfl
@[simp] theorem Slot.retire_park (sl : Slot) (wr : List Dest) : (sl.retire wr).park = sl.park := rfl
@[simp] theorem Slot.retireTo_line (sl : Slot) (pc : Word) (wr : List Dest) :
    (sl.retireTo pc wr).line = sl.line := rfl
@[simp] theorem Slot.retire_line (sl : Slot) (wr : List Dest) : (sl.retire wr).line = sl.line := rfl
@[simp] theorem Slot.retireTo_lineOld (sl : Slot) (pc : Word) (wr : List Dest) :
    (sl.retireTo pc wr).lineOld = sl.lineOld := rfl
@[simp] theorem Slot.retire_lineOld (sl : Slot) (wr : List Dest) : (sl.retire wr).lineOld = sl.lineOld := rfl
@[simp] theorem Slot.retireTo_halted (sl : Slot) (pc : Word) (wr : List Dest) :
    (sl.retireTo pc wr).halted = sl.halted := rfl
@[simp] theorem Slot.retire_halted (sl : Slot) (wr : List Dest) : (sl.retire wr).halted = sl.halted := rfl
@[simp] theorem Slot.retireTo_late (sl : Slot) (pc : Word) (wr : List Dest) :
    (sl.retireTo pc wr).late = sl.late := rfl
@[simp] theorem Slot.retire_late (sl : Slot) (wr : List Dest) : (sl.retire wr).late = sl.late := rfl
@[simp] theorem Slot.retireTo_pend (sl : Slot) (pc : Word) (wr : List Dest) :
    (sl.retireTo pc wr).pend = sl.pend := rfl
@[simp] theorem Slot.retire_pend (sl : Slot) (wr : List Dest) : (sl.retire wr).pend = sl.pend := rfl
@[simp] theorem Slot.retireTo_skipBp (sl : Slot) (pc : Word) (wr : List Dest) :
    (sl.retireTo pc wr).skipBp = sl.skipBp := rfl
@[simp] theorem Slot.retire_skipBp (sl : Slot) (wr : List Dest) : (sl.retire wr).skipBp = sl.skipBp := rfl
@[simp] theorem Slot.retireTo_act (sl : Slot) (pc : Word) (wr : List Dest) : (sl.retireTo pc wr).act = sl.act := rfl
@[simp] theorem Slot.retire_act (sl : Slot) (wr : List Dest) : (sl.retire wr).act = sl.act := rfl
@[simp] theorem Slot.retireTo_msg (sl : Slot) (pc : Word) (wr : List Dest) : (sl.retireTo pc wr).msg = sl.msg := rfl
@[simp] theorem Slot.retire_msg (sl : Slot) (wr : List Dest) : (sl.retire wr).msg = sl.msg := rfl
@[simp] theorem Slot.retireTo_budget (sl : Slot) (pc : Word) (wr : List Dest) :
    (sl.retireTo pc wr).budget = sl.budget := rfl
@[simp] theorem Slot.retire_budget (sl : Slot) (wr : List Dest) : (sl.retire wr).budget = sl.budget := rfl
@[simp] theorem Slot.retireTo_regsUsed (sl : Slot) (pc : Word) (wr : List Dest) :
    (sl.retireTo pc wr).regsUsed = sl.regsUsed := rfl
@[simp] theorem Slot.retire_regsUsed (sl : Slot) (wr : List Dest) : (sl.retire wr).regsUsed = sl.regsUsed := rfl
@[simp] theorem Slot.retireTo_boundAt (sl : Slot) (pc : Word) (wr : List Dest) :
    (sl.retireTo pc wr).boundAt = sl.boundAt := rfl
@[simp] theorem Slot.retire_boundAt (sl : Slot) (wr : List Dest) : (sl.retire wr).boundAt = sl.boundAt := rfl
@[simp] theorem Slot.retireTo_gang (sl : Slot) (pc : Word) (wr : List Dest) :
    (sl.retireTo pc wr).gang = sl.gang := rfl
@[simp] theorem Slot.retire_gang (sl : Slot) (wr : List Dest) : (sl.retire wr).gang = sl.gang := rfl
@[simp] theorem Slot.retireTo_stepTrap (sl : Slot) (pc : Word) (wr : List Dest) :
    (sl.retireTo pc wr).stepTrap = sl.stepTrap := rfl
@[simp] theorem Slot.retire_stepTrap (sl : Slot) (wr : List Dest) : (sl.retire wr).stepTrap = sl.stepTrap := rfl
@[simp] theorem Slot.retireTo_dying (sl : Slot) (pc : Word) (wr : List Dest) :
    (sl.retireTo pc wr).dying = sl.dying := rfl
@[simp] theorem Slot.retire_dying (sl : Slot) (wr : List Dest) : (sl.retire wr).dying = sl.dying := rfl
@[simp] theorem Slot.retire_heads (sl : Slot) (wr : List Dest) : (sl.retire wr).heads = sl.heads + 1 := rfl
@[simp] theorem Slot.retire_rex (sl : Slot) (wr : List Dest) : (sl.retire wr).rex = none := rfl
@[simp] theorem Slot.retire_trapped (sl : Slot) (wr : List Dest) : (sl.retire wr).trapped = false := rfl

/-! Accessors after updates -/

@[simp] theorem State.slot_setSlot (s : State) (p : Nat) (x : Slot) (q : Nat) :
    (s.setSlot p x).slot q = if q = p then x else s.slot q := kget_kset ..
@[simp] theorem State.me_setMe (s : State) (x : Slot) : (s.setMe x).me = x := kget_kset_same ..
theorem State.slot_setMe (s : State) (x : Slot) (q : Nat) :
    (s.setMe x).slot q = if q = s.cur then x else s.slot q := kget_kset ..
@[simp] theorem State.setMe_setMe (s : State) (x y : Slot) : (s.setMe x).setMe y = s.setMe y := by
  simp [State.setMe, State.setSlot, kset_kset]
@[simp] theorem State.core_setCore (s : State) (c : Nat) (x : CoreSt) (d : Nat) :
    (s.setCore c x).core d = if d = c then x else s.core d := kget_kset ..
@[simp] theorem State.clus_setClus (s : State) (c : Nat) (x : ClusSt) (d : Nat) :
    (s.setClus c x).clus d = if d = c then x else s.clus d := kget_kset ..
@[simp] theorem State.feeder_setFeeder (s : State) (f : Nat) (x : Feeder) (g : Nat) :
    (s.setFeeder f x).feeder g = if g = f then x else s.feeder g := kget_kset ..
@[simp] theorem State.ctxOf_setCtx (s : State) (c : Nat) (x : Context) (d : Nat) :
    (s.setCtx c x).ctxOf d = if d = c then x else s.ctxOf d := kget_kset ..
@[simp] theorem State.die_setDie (s : State) (d : Nat) (x : DieSt) (e : Nat) :
    (s.setDie d x).die e = if e = d then x else s.die e := kget_kset ..
@[simp] theorem State.link_setLink (s : State) (p : Nat) (x : Link) (q : Nat) :
    (s.setLink p x).link q = if q = p then x else s.link q := kget_kset ..
@[simp] theorem State.part_setPart (s : State) (p : Nat) (x : PartSt) (q : Nat) :
    (s.setPart p x).part q = if q = p then x else s.part q := kget_kset ..
@[simp] theorem State.kernel_setKernel (s : State) (c k : Nat) (x : Kernel) :
    (s.setKernel c k x).kernel c k = x := kget_kset_same ..
@[simp] theorem State.queue_setQueue (s : State) (v q : Nat) (x : CmdQueue) :
    (s.setQueue v q x).queue v q = x := kget_kset_same ..
@[simp] theorem State.save_setSave (s : State) (c k : Nat) (x : SaveArea) :
    (s.setSave c k x).save c k = x := kget_kset_same ..

@[simp] theorem State.me_setCore (s : State) (c : Nat) (x : CoreSt) : (s.setCore c x).me = s.me := rfl
@[simp] theorem State.slot_setCore (s : State) (c : Nat) (x : CoreSt) (i : Nat) :
    (s.setCore c x).slot i = s.slot i := rfl
@[simp] theorem State.me_setClus (s : State) (c : Nat) (x : ClusSt) : (s.setClus c x).me = s.me := rfl
@[simp] theorem State.slot_setClus (s : State) (c : Nat) (x : ClusSt) (i : Nat) :
    (s.setClus c x).slot i = s.slot i := rfl
@[simp] theorem State.me_setFeeder (s : State) (f : Nat) (x : Feeder) : (s.setFeeder f x).me = s.me := rfl
@[simp] theorem State.slot_setFeeder (s : State) (f : Nat) (x : Feeder) (i : Nat) :
    (s.setFeeder f x).slot i = s.slot i := rfl
@[simp] theorem State.me_setCtx (s : State) (c : Nat) (x : Context) : (s.setCtx c x).me = s.me := rfl
@[simp] theorem State.slot_setCtx (s : State) (c : Nat) (x : Context) (i : Nat) :
    (s.setCtx c x).slot i = s.slot i := rfl
@[simp] theorem State.me_setKernel (s : State) (c k : Nat) (x : Kernel) : (s.setKernel c k x).me = s.me := rfl
@[simp] theorem State.slot_setKernel (s : State) (c k : Nat) (x : Kernel) (i : Nat) :
    (s.setKernel c k x).slot i = s.slot i := rfl
@[simp] theorem State.me_setQueue (s : State) (v q : Nat) (x : CmdQueue) : (s.setQueue v q x).me = s.me := rfl
@[simp] theorem State.slot_setQueue (s : State) (v q : Nat) (x : CmdQueue) (i : Nat) :
    (s.setQueue v q x).slot i = s.slot i := rfl
@[simp] theorem State.me_setPart (s : State) (p : Nat) (x : PartSt) : (s.setPart p x).me = s.me := rfl
@[simp] theorem State.slot_setPart (s : State) (p : Nat) (x : PartSt) (i : Nat) :
    (s.setPart p x).slot i = s.slot i := rfl
@[simp] theorem State.me_setDie (s : State) (d : Nat) (x : DieSt) : (s.setDie d x).me = s.me := rfl
@[simp] theorem State.slot_setDie (s : State) (d : Nat) (x : DieSt) (i : Nat) :
    (s.setDie d x).slot i = s.slot i := rfl
@[simp] theorem State.me_setLink (s : State) (p : Nat) (x : Link) : (s.setLink p x).me = s.me := rfl
@[simp] theorem State.slot_setLink (s : State) (p : Nat) (x : Link) (i : Nat) :
    (s.setLink p x).slot i = s.slot i := rfl
@[simp] theorem State.me_setSave (s : State) (c k : Nat) (x : SaveArea) : (s.setSave c k x).me = s.me := rfl
@[simp] theorem State.slot_setSave (s : State) (c k : Nat) (x : SaveArea) (i : Nat) :
    (s.setSave c k x).slot i = s.slot i := rfl
@[simp] theorem State.me_wire (s : State) (w : Wire) : (s.wire w).me = s.me := rfl
@[simp] theorem State.slot_wire (s : State) (w : Wire) (i : Nat) : (s.wire w).slot i = s.slot i := rfl
@[simp] theorem State.me_irq (s : State) (f v : Nat) (ws : List Nat) : (s.irq f v ws).me = s.me := rfl
@[simp] theorem State.slot_irq (s : State) (f v : Nat) (ws : List Nat) (i : Nat) :
    (s.irq f v ws).slot i = s.slot i := rfl
@[simp] theorem State.me_post (s : State) (m : Msg) : (s.post m).me = s.me := rfl
@[simp] theorem State.slot_post (s : State) (m : Msg) (i : Nat) : (s.post m).slot i = s.slot i := rfl
@[simp] theorem State.me_setReg (s : State) (r : CReg) (w : Word) : (s.setReg r w).me = s.me := rfl
@[simp] theorem State.slot_setReg (s : State) (r : CReg) (w : Word) (i : Nat) :
    (s.setReg r w).slot i = s.slot i := rfl
@[simp] theorem State.core_setSlot (s : State) (p : Nat) (x : Slot) (i : Nat) :
    (s.setSlot p x).core i = s.core i := rfl
@[simp] theorem State.core_setMe (s : State) (x : Slot) (i : Nat) : (s.setMe x).core i = s.core i := rfl
@[simp] theorem State.core_setClus (s : State) (c : Nat) (x : ClusSt) (i : Nat) :
    (s.setClus c x).core i = s.core i := rfl
@[simp] theorem State.core_setCtx (s : State) (c : Nat) (x : Context) (i : Nat) :
    (s.setCtx c x).core i = s.core i := rfl
@[simp] theorem State.core_setReg (s : State) (r : CReg) (w : Word) (i : Nat) :
    (s.setReg r w).core i = s.core i := rfl
@[simp] theorem State.core_post (s : State) (m : Msg) (i : Nat) : (s.post m).core i = s.core i := rfl
@[simp] theorem State.core_wire (s : State) (w : Wire) (i : Nat) : (s.wire w).core i = s.core i := rfl
@[simp] theorem State.core_irq (s : State) (f v : Nat) (ws : List Nat) (i : Nat) :
    (s.irq f v ws).core i = s.core i := rfl
@[simp] theorem State.clus_setSlot (s : State) (p : Nat) (x : Slot) (i : Nat) :
    (s.setSlot p x).clus i = s.clus i := rfl
@[simp] theorem State.clus_setMe (s : State) (x : Slot) (i : Nat) : (s.setMe x).clus i = s.clus i := rfl
@[simp] theorem State.clus_setCore (s : State) (c : Nat) (x : CoreSt) (i : Nat) :
    (s.setCore c x).clus i = s.clus i := rfl
@[simp] theorem State.clus_setCtx (s : State) (c : Nat) (x : Context) (i : Nat) :
    (s.setCtx c x).clus i = s.clus i := rfl
@[simp] theorem State.clus_setReg (s : State) (r : CReg) (w : Word) (i : Nat) :
    (s.setReg r w).clus i = s.clus i := rfl
@[simp] theorem State.clus_post (s : State) (m : Msg) (i : Nat) : (s.post m).clus i = s.clus i := rfl
@[simp] theorem State.clus_wire (s : State) (w : Wire) (i : Nat) : (s.wire w).clus i = s.clus i := rfl
@[simp] theorem State.clus_irq (s : State) (f v : Nat) (ws : List Nat) (i : Nat) :
    (s.irq f v ws).clus i = s.clus i := rfl
@[simp] theorem State.ctxOf_setSlot (s : State) (p : Nat) (x : Slot) (i : Nat) :
    (s.setSlot p x).ctxOf i = s.ctxOf i := rfl
@[simp] theorem State.ctxOf_setMe (s : State) (x : Slot) (i : Nat) : (s.setMe x).ctxOf i = s.ctxOf i := rfl
@[simp] theorem State.ctxOf_setCore (s : State) (c : Nat) (x : CoreSt) (i : Nat) :
    (s.setCore c x).ctxOf i = s.ctxOf i := rfl
@[simp] theorem State.ctxOf_setClus (s : State) (c : Nat) (x : ClusSt) (i : Nat) :
    (s.setClus c x).ctxOf i = s.ctxOf i := rfl
@[simp] theorem State.ctxOf_setReg (s : State) (r : CReg) (w : Word) (i : Nat) :
    (s.setReg r w).ctxOf i = s.ctxOf i := rfl
@[simp] theorem State.ctxOf_post (s : State) (m : Msg) (i : Nat) : (s.post m).ctxOf i = s.ctxOf i := rfl
@[simp] theorem State.ctxOf_wire (s : State) (w : Wire) (i : Nat) : (s.wire w).ctxOf i = s.ctxOf i := rfl
@[simp] theorem State.ctxOf_irq (s : State) (f v : Nat) (ws : List Nat) (i : Nat) :
    (s.irq f v ws).ctxOf i = s.ctxOf i := rfl
@[simp] theorem State.reg_setSlot (s : State) (p : Nat) (x : Slot) (i : CReg) : (s.setSlot p x).reg i = s.reg i := rfl
@[simp] theorem State.reg_setMe (s : State) (x : Slot) (i : CReg) : (s.setMe x).reg i = s.reg i := rfl
@[simp] theorem State.reg_setCore (s : State) (c : Nat) (x : CoreSt) (i : CReg) :
    (s.setCore c x).reg i = s.reg i := rfl
@[simp] theorem State.reg_setClus (s : State) (c : Nat) (x : ClusSt) (i : CReg) :
    (s.setClus c x).reg i = s.reg i := rfl
@[simp] theorem State.reg_setCtx (s : State) (c : Nat) (x : Context) (i : CReg) :
    (s.setCtx c x).reg i = s.reg i := rfl
@[simp] theorem State.reg_post (s : State) (m : Msg) (i : CReg) : (s.post m).reg i = s.reg i := rfl
@[simp] theorem State.reg_wire (s : State) (w : Wire) (i : CReg) : (s.wire w).reg i = s.reg i := rfl
@[simp] theorem State.reg_irq (s : State) (f v : Nat) (ws : List Nat) (i : CReg) :
    (s.irq f v ws).reg i = s.reg i := rfl

/-! Registers of a slot after a write -/

theorem vector_get {α : Type} {n : Nat} (v : Vector α n) (i : Fin n) : v.get i = v[i.val] := rfl

theorem Slot.setX_get (sl : Slot) (r : XReg) (w : Word) (q : XReg) :
    (sl.setX r w).x.get q = if q = r then w else sl.x.get q := by
  simp [Slot.setX, vector_get, Vector.getElem_set, Fin.ext_iff, eq_comm]
theorem Slot.setV_get (sl : Slot) (r : VReg) (w : Vec) (q : VReg) :
    (sl.setV r w).v.get q = if q = r then w else sl.v.get q := by
  simp [Slot.setV, vector_get, Vector.getElem_set, Fin.ext_iff, eq_comm]
theorem Slot.setP_get (sl : Slot) (r : PReg) (w : Word) (q : PReg) :
    (sl.setP r w).p.get q = if q = r then w else sl.p.get q := by
  simp [Slot.setP, vector_get, Vector.getElem_set, Fin.ext_iff, eq_comm]
theorem Slot.setH_get (sl : Slot) (r : HReg) (w : Word) (q : HReg) :
    (sl.setH r w).h.get q = if q = r then w else sl.h.get q := by
  simp [Slot.setH, vector_get, Vector.getElem_set, Fin.ext_iff, eq_comm]
theorem Slot.setTok_get (sl : Slot) (t : Tok) (x : TokSt) (q : Tok) :
    (sl.setTok t x).tok.get q = if q = t then x else sl.tok.get q := by
  simp [Slot.setTok, vector_get, Vector.getElem_set, Fin.ext_iff, eq_comm]

/-- Memory and the vaults of the state after reset list nothing. -/
theorem reset_mem_wf : Memory.wf State.reset.mem = true := rfl
theorem reset_vault_wf : Memory.wf State.reset.vault = true := rfl

end Sys2Proof.Machine
end

