-- ==== Sys2Proof/Laws/Ops.lean ====
section
/-!
SUPPORT. What each shared operation can do, said once: retiring a head, delivering a result, ending windows, committing,
taking a trap.
-/

namespace Sys2Proof.Machine

/-! Fields of words -/

theorem fld_lt (w : Word) (lo n : Nat) : fld w lo n < 2 ^ n := Nat.mod_lt _ (Nat.two_pow_pos n)

@[simp] theorem word_toNat (n : Nat) : (word n).toNat = n % 2 ^ 64 := BitVec.toNat_ofNat ..

@[simp] theorem word_toNat_self (w : Word) : word w.toNat = w := by simp [word]

/-! Retiring -/

@[simp] theorem Slot.retire_pc_run (sl : Slot) (wr : List Dest) (h : sl.rex = none) : (sl.retire wr).pc = sl.npc := by
  simp [Slot.retire, Slot.retireTo, h]

theorem Slot.retireTo_pc_run (sl : Slot) (pc : Word) (wr : List Dest) (h : sl.rex = none) :
    (sl.retireTo pc wr).pc = pc := by simp [Slot.retireTo, h]

theorem State.doneX_eq (s : State) (r : XReg) (w : Word) :
    s.doneX r w = s.setMe ((s.me.setX r w).retire [.x r]) := rfl

theorem State.doneX_x (s : State) (r : XReg) (w : Word) (q : XReg) :
    (s.doneX r w).x q = if q = r then w else s.x q := by
  simp [State.doneX, State.x, Slot.setX_get]

theorem State.doneV_v (s : State) (r : VReg) (w : Vec) (q : VReg) :
    (s.doneV r w).v q = if q = r then w else s.v q := by
  simp [State.doneV, State.v, Slot.setV_get]

/-- A slot's head retired changes no other slot and nothing else of the package. -/
theorem State.setMe_slot_other (s : State) (x : Slot) (p : Nat) (h : p ≠ s.cur) : (s.setMe x).slot p = s.slot p := by
  simp [State.slot_setMe, h]

/-! Windows -/

/-- Without an outstanding result a form goes on at once. -/
@[simp] theorem withWindows_empty (s : State) (k : State → State) (h : s.me.outs = []) : withWindows s k = k s := by
  simp [withWindows, h]

/-- What ending the windows can do: nothing yet, the trap of a failed head, or go on with every result written. -/
theorem withWindows_cases (s : State) (k : State → State) :
    withWindows s k = s ∨ (∃ r second, firstFailure s.me.outs = some (r, second) ∧
      withWindows s k = s.lateTrap s.cur r second) ∨ (s.me.outs = [] ∧ withWindows s k = k s) ∨
      withWindows s k = k (s.setMe s.me.drain) := by
  unfold withWindows
  dsimp only
  split
  · rename_i h; exact .inr (.inr (.inl ⟨by simpa using h, rfl⟩))
  · split
    · exact .inl rfl
    · split
      · rename_i r second h; exact .inr (.inl ⟨r, second, h, rfl⟩)
      · exact .inr (.inr (.inr rfl))

/-- With fewer than four results out a long-latency head goes on. -/
theorem withRoom_room (s : State) (k : State → State) (h : s.me.outs.countP (fun r => !r.back) < 4) :
    withRoom s k = k s := by
  simp [withRoom, show ¬ 4 ≤ s.me.outs.countP (fun r => !r.back) by omega]

@[simp] theorem withRoom_empty (s : State) (k : State → State) (h : s.me.outs = []) : withRoom s k = k s := by
  simp [withRoom, h]

theorem withRoom_cases (s : State) (k : State → State) : withRoom s k = s ∨ withRoom s k = k s := by
  unfold withRoom; split
  · exact .inl rfl
  · exact .inr rfl

/-! Committing -/

@[simp] theorem commitAt_committed (s : State) (p : Nat) (h : (s.slot p).irrev = true) (hb : (s.slot p).cbuf = [])
    (hf : (s.slot p).cfail = none) : s.commitAt p = (none, s) := by
  simp [State.commitAt, h, hb, hf]

@[simp] theorem commitStops_committed (s : State) (p : Nat) (h : (s.slot p).irrev = true) :
    s.commitStops p = s.redsOpen p false := by
  simp [State.commitStops, h]

/-- A slot that has committed, with nothing of its commit left to do, goes on at once. -/
@[simp] theorem withCommit_committed (s : State) (k : State → State) (h : s.me.irrev = true) (hb : s.me.cbuf = [])
    (hf : s.me.cfail = none) (hr : s.redsOpen s.cur false = false) : withCommit s k = k s := by
  have h1 : (s.slot s.cur).irrev = true := h
  have h2 : (s.slot s.cur).cbuf = [] := hb
  have h3 : (s.slot s.cur).cfail = none := hf
  simp [withCommit, h1, h2, h3, hr]

theorem commitStops_empty (s : State) (p : Nat) (h : (s.slot p).irrev = false) (hb : (s.slot p).cbuf = []) :
    s.commitStops p = false := by
  simp [State.commitStops, h, hb]

theorem State.setSlot_setSlot (s : State) (p : Nat) (x y : Slot) : (s.setSlot p x).setSlot p y = s.setSlot p y := by
  simp [State.setSlot, kset_kset]

theorem performBuffer_empty (s : State) (p : Nat) (h : (s.slot p).cbuf = []) :
    s.performBuffer p = s.setSlot p { s.slot p with cbuf := [], cfail := none } := by
  simp [State.performBuffer, h, State.performAll]

theorem emptyBuffer_empty (s : State) (p : Nat) (h : (s.slot p).cbuf = []) :
    s.emptyBuffer p = (none, s.setSlot p { s.slot p with cbuf := [], cfail := none }) := by
  simp [State.emptyBuffer, performBuffer_empty s p h, State.releaseBuffer, State.releaseAll, State.setSlot_setSlot]

theorem commitAt_empty (s : State) (p : Nat) (h : (s.slot p).irrev = false) (hb : (s.slot p).cbuf = []) :
    s.commitAt p = (none, s.setSlot p { s.slot p with cbuf := [], cfail := none, irrev := true }) := by
  simp [State.commitAt, h, emptyBuffer_empty s p hb, State.setSlot_setSlot]

/-- A slot whose buffer is empty commits by setting IRREV. -/
theorem withCommit_empty (s : State) (k : State → State) (h : s.me.irrev = false) (hb : s.me.cbuf = []) :
    withCommit s k = k (s.setMe { s.me with cbuf := [], cfail := none, irrev := true }) := by
  have h1 : (s.slot s.cur).irrev = false := h
  have h2 : (s.slot s.cur).cbuf = [] := hb
  simp [withCommit, commitAt_empty s s.cur h1 h2, commitStops_empty s s.cur h1 h2, State.setMe, State.me]

/-- What a commit can do: wait with its reductions made at their ports, go on, or trap so that the activation cannot be
resumed. -/
theorem withCommit_cases (s : State) (k : State → State) :
    withCommit s k = s.commitWait s.cur ∨ (∃ t, s.commitAt s.cur = (none, t) ∧ withCommit s k = k t) ∨
      ∃ c tv t, s.commitAt s.cur = (some (c, tv), t) ∧ withCommit s k = t.trapNR c tv := by
  unfold withCommit
  split
  · exact .inl rfl
  · split
    · rename_i t h; exact .inr (.inl ⟨t, h, rfl⟩)
    · rename_i c tv t h; exact .inr (.inr ⟨c, tv, t, h, rfl⟩)

/-! Traps -/

theorem State.takeTrapAt_slot (s : State) (p cause : Nat) (tval at_ : Word) (nr : Bool) (lah : Nat) (ovw rex : Bool)
    (tres : Word) (q : Nat) : (s.takeTrapAt p cause tval at_ nr lah ovw rex tres).slot q =
      if q = p then (s.slot p).takeTrap (s.ctxOf (s.slot p).ctx).ttab cause tval at_ nr lah ovw rex tres
      else s.slot q := State.slot_setSlot s p _ q

/-- A trap of a head with no result out is precise: at its head, with nothing to repeat. -/
theorem State.trapIn_precise (s : State) (p cause : Nat) (tval : Word) (nr : Bool) (h : (s.slot p).outs = []) :
    s.trapIn p cause tval nr =
      (s.setSlot p (s.slot p).drain).takeTrapAt p cause tval (s.slot p).pc nr 0 false false 0 := by
  simp [State.trapIn, h, firstFailure]

theorem Slot.drain_empty (sl : Slot) (h : sl.outs = []) : sl.drain = sl := by
  cases sl; simp_all [Slot.drain]

/-! Delivering a result -/

/-- Without lookahead a result is written at once, with its flags. -/
theorem State.deliver_now (s : State) (l : Look) (d : List Dest) (vals : List RegVal) (fl : FFlags) (h : l.val = 0) :
    s.deliver l d (.ok vals fl) =
      s.setMe ({ vals.foldl Slot.putVal s.me with
        fflags := (vals.foldl Slot.putVal s.me).fflags.or fl }.retire (vals.map RegVal.dest)) := by
  simp [State.deliver, h]

/-- With lookahead a result is outstanding: its head retires, and the next l heads may issue in its window. -/
theorem State.deliver_later (s : State) (l : Look) (d : List Dest) (v : OutVal) (h : l.val ≠ 0) (hr : s.me.rex = none) :
    s.deliver l d v = s.setMe { s.me.retire d with outs := (s.me.retire d).outs ++
      [{ pc := s.me.pc, dests := d, val := v, left := l.val, lah := 0, ovw := [], back := false }] } := by
  simp [State.deliver, h, hr]

/-! Control transfers -/

/-- A target outside the address space traps with cause 2 and has no other effect. -/
theorem withTarget_out (s : State) (t : Int) (k : State → State) (h : t < 0 ∨ (2 ^ 56 : Nat) ≤ t) :
    withTarget s t k = s.trap 2 (wrap64 t) := by
  simp only [withTarget, State.targetLine, if_pos h]

/-- A target whose line is fetched and that is no head of it traps with cause 2. -/
theorem withTarget_bad (s u : State) (t : Int) (k : State → State) (l : CacheLine) (h : ¬ (t < 0 ∨ (2 ^ 56 : Nat) ≤ t))
    (hf : s.fetchLine (t.toNat / 64 * 64) true = .ok l u) (hh : isHeadOf l.bytes t.toNat = false) :
    withTarget s t k = u.trap 2 (wrap64 t) := by
  simp only [withTarget, State.targetLine, if_neg h, hf, hh]
  simp

/-- A target whose line is fetched and has a head there is taken. -/
theorem withTarget_good (s u : State) (t : Int) (k : State → State) (l : CacheLine) (h : ¬ (t < 0 ∨ (2 ^ 56 : Nat) ≤ t))
    (hf : s.fetchLine (t.toNat / 64 * 64) true = .ok l u) (hh : isHeadOf l.bytes t.toNat = true) :
    withTarget s t k = k u := by
  simp only [withTarget, State.targetLine, if_neg h, hf, hh]
  simp

/-! The shapes of memory forms -/

theorem loadForm_ok (l : Look) (d : List Dest) (vals : List RegVal) (fl : FFlags) (t : State) :
    loadForm l d (.ok (vals, fl) t) = t.deliver l d (.ok vals fl) := rfl

theorem storeForm_ok (t : State) : storeForm (.ok () t) = t.done := rfl

@[simp] theorem Acc.bind_ok {α β : Type} (a : α) (s : State) (f : α → State → Acc β) : (Acc.ok a s).bind f = f a s :=
    rfl

/-- An attempt after another succeeds exactly when both do. -/
theorem Acc.bind_eq_ok {α β : Type} (x : Acc α) (f : α → State → Acc β) (b : β) (t : State) :
    x.bind f = .ok b t ↔ ∃ a s, x = .ok a s ∧ f a s = .ok b t := by
  cases x <;> simp [Acc.bind, and_assoc]

/-! Responses count delay and change no memory -/

@[simp] theorem State.addDelay_mem (s : State) (c : Nat) (i : Fin 64) : (s.addDelay c i).mem = s.mem := rfl
@[simp] theorem State.addDelay_vault (s : State) (c : Nat) (i : Fin 64) : (s.addDelay c i).vault = s.vault := rfl
@[simp] theorem State.addDelay_slots (s : State) (c : Nat) (i : Fin 64) : (s.addDelay c i).slots = s.slots := rfl
@[simp] theorem State.addDelay_cur (s : State) (c : Nat) (i : Fin 64) : (s.addDelay c i).cur = s.cur := rfl
@[simp] theorem State.addDelay_me (s : State) (c : Nat) (i : Fin 64) : (s.addDelay c i).me = s.me := rfl
@[simp] theorem State.answered_mem (s : State) (p : Piece) : (s.answered p).mem = s.mem := rfl
@[simp] theorem State.answered_vault (s : State) (p : Piece) : (s.answered p).vault = s.vault := rfl
@[simp] theorem State.answered_me (s : State) (p : Piece) : (s.answered p).me = s.me := rfl
@[simp] theorem State.answered_cur (s : State) (p : Piece) : (s.answered p).cur = s.cur := rfl
@[simp] theorem State.refused_mem (s : State) (p : Piece) (c : Nat) : (s.refused p c).mem = s.mem := rfl
@[simp] theorem State.refused_vault (s : State) (p : Piece) (c : Nat) : (s.refused p c).vault = s.vault := rfl
@[simp] theorem State.refused_me (s : State) (p : Piece) (c : Nat) : (s.refused p c).me = s.me := rfl
@[simp] theorem State.refused_cur (s : State) (p : Piece) (c : Nat) : (s.refused p c).cur = s.cur := rfl

/-! Every operation on memory keeps its canonical form -/

theorem putWord_wf (s : State) (key : Nat) (w : Word) (h : Memory.wf s.vault = true) :
    Memory.wf (s.putWord key w).vault = true := writeBytes_wf h key _

theorem redApply_wf (op : RedOp) (d8 : Bool) {m : List Host.Cell} (a : Nat) (c : Word) (h : Memory.wf m = true) :
    Memory.wf (redApply op d8 m a c) = true := writeBytes_wf h a _

theorem foldl_redApply_wf (op : RedOp) (d8 : Bool) (l : List (Nat × Word)) {m : List Host.Cell} (h : Memory.wf m = true) :
    Memory.wf (l.foldl (fun m x => redApply op d8 m x.1 x.2) m) = true := by
  induction l generalizing m with
  | nil => exact h
  | cons x l ih => exact ih (redApply_wf op d8 x.1 x.2 h)

theorem WqEntry.apply_wf (e : WqEntry) {m : List Host.Cell} (h : Memory.wf m = true) : Memory.wf (e.apply m) = true :=
    by
  unfold WqEntry.apply
  split
  · exact foldl_redApply_wf _ _ _ h
  · exact writeBytes_wf h _ _

theorem applyLine_wf (line : Nat) (wq : List WqEntry) {m : List Host.Cell} (h : Memory.wf m = true) :
    Memory.wf (applyLine line wq m) = true := by
  unfold applyLine
  generalize wq.filter (fun e => e.line = line) = l
  induction l generalizing m with
  | nil => exact h
  | cons x l ih => exact ih (x.apply_wf h)

theorem applyEntry_wf (s : State) (e : WqEntry) (h : Memory.wf s.mem = true) : Memory.wf (s.applyEntry e).mem = true :=
  e.apply_wf h

theorem foldl_applyEntry_wf (l : List WqEntry) (s : State) (h : Memory.wf s.mem = true) :
    Memory.wf (l.foldl State.applyEntry s).mem = true := by
  induction l generalizing s with
  | nil => exact h
  | cons e l ih => exact ih _ (applyEntry_wf s e h)

theorem settleLine_wf (s : State) (line : Nat) (h : Memory.wf s.mem = true) : Memory.wf (s.settleLine line).mem = true :=
  foldl_applyEntry_wf _ _ h

theorem foldl_settleLine_wf (ls : List Nat) (s : State) (h : Memory.wf s.mem = true) :
    Memory.wf (ls.foldl State.settleLine s).mem = true := by
  induction ls generalizing s with
  | nil => exact h
  | cons l ls ih => exact ih _ (settleLine_wf s l h)

theorem memStore_wf (s : State) (pa : Nat) (bs : List Byte) (asked : List PortReq) (h : Memory.wf s.mem = true) :
    Memory.wf (s.memStore pa bs asked).mem = true := by
  have h' := foldl_settleLine_wf (linesOf pa bs.length)
    { s with xbar := (linesOf pa bs.length).foldl Xbar.withdraw s.xbar } h
  rw [State.memStore]
  split
  · exact h
  · exact writeBytes_wf h' _ _

theorem memReduce_wf (s : State) (op : RedOp) (d8 : Bool) (pa : Nat) (c : Word) (asked : List PortReq)
    (h : Memory.wf s.mem = true) : Memory.wf (s.memReduce op d8 pa c asked).mem = true := by
  unfold State.memReduce
  split
  · exact h
  · exact redApply_wf _ _ _ _ h

theorem portDo_wf (s : State) (q : PortReq) (h : Memory.wf s.mem = true) : Memory.wf (s.portDo q).mem = true := by
  have h' := foldl_settleLine_wf (linesOf q.pa (portBytes q.op))
    { s with xbar := (linesOf q.pa (portBytes q.op)).foldl Xbar.withdraw s.xbar } h
  rw [State.portDo]
  split
  · exact h
  · exact memStore_wf _ _ _ _ h
  · exact memReduce_wf _ _ _ _ _ _ h
  · exact writeBytes_wf h' _ _

theorem memDo_wf (s : State) (q : PortReq) (h : Memory.wf s.mem = true) : Memory.wf (s.memDo q).mem = true := by
  unfold State.memDo
  split
  · exact memStore_wf _ _ _ _ h
  · exact memReduce_wf _ _ _ _ _ _ h
  · exact h

theorem drainOne_wf (s : State) (port : Nat) (h : Memory.wf s.mem = true) : Memory.wf (s.drainOne port).mem = true := by
  unfold State.drainOne
  split
  · exact h
  · exact applyEntry_wf _ _ h

end Sys2Proof.Machine
end

