-- ==== Sys2Proof/Laws/Vector.lean ====
section
/-!
SUPPORT. Lanes: what a lane of a vector made of lanes is, and what the shared lane operation writes.
-/

namespace Sys2Proof.Machine

/-- A lane of the digits it was made of. -/
theorem lanesNat_lane (w : Nat) (ls : List Nat) (i : Nat) (hi : i < ls.length) :
    lanesNat w ls / 2 ^ (8 * w * i) % 2 ^ (8 * w) = ls[i] % 2 ^ (8 * w) := by
  induction ls generalizing i with
  | nil => exact absurd hi (Nat.not_lt_zero i)
  | cons l ls ih =>
    have hp : 0 < 2 ^ (8 * w) := Nat.two_pow_pos _
    cases i with
    | zero => simp [lanesNat, Nat.add_mul_mod_self_left]
    | succ i =>
      have h1 : 2 ^ (8 * w * (i + 1)) = 2 ^ (8 * w) * 2 ^ (8 * w * i) := by
        rw [← Nat.pow_add, Nat.mul_add, Nat.mul_one, Nat.add_comm]
      rw [h1, ← Nat.div_div_eq_div_mul, lanesNat, Nat.add_mul_div_left _ _ hp,
        Nat.div_eq_of_lt (Nat.mod_lt _ hp), Nat.zero_add]
      simpa using ih i (by simpa using hi)

theorem lanesNat_lt (w : Nat) (ls : List Nat) : lanesNat w ls < 2 ^ (8 * w * ls.length) := by
  induction ls with
  | nil => simp [lanesNat]
  | cons l ls ih =>
    have hp : 0 < 2 ^ (8 * w) := Nat.two_pow_pos _
    have h1 : 2 ^ (8 * w * (ls.length + 1)) = 2 ^ (8 * w) * 2 ^ (8 * w * ls.length) := by
      rw [← Nat.pow_add, Nat.mul_add, Nat.mul_one, Nat.add_comm]
    have h2 := Nat.mod_lt l hp
    rw [List.length_cons, h1, lanesNat]
    calc l % 2 ^ (8 * w) + 2 ^ (8 * w) * lanesNat w ls < 2 ^ (8 * w) + 2 ^ (8 * w) * lanesNat w ls :=
          Nat.add_lt_add_right h2 _
      _ = 2 ^ (8 * w) * (lanesNat w ls + 1) := by
          rw [Nat.mul_add, Nat.mul_one, Nat.add_comm]
      _ ≤ 2 ^ (8 * w) * 2 ^ (8 * w * ls.length) := Nat.mul_le_mul_left _ ih

/-- A lane of a vector of at most 64 bytes of lanes is the lane it was made of. -/
theorem lane_vecOfLanes (w : Nat) (ls : List Nat) (i : Nat) (hi : i < ls.length) (hw : w * ls.length ≤ 64) :
    lane w (vecOfLanes w ls) i = ls[i] % 2 ^ (8 * w) := by
  have h1 : lanesNat w ls < 2 ^ 512 :=
    Nat.lt_of_lt_of_le (lanesNat_lt w ls) (Nat.pow_le_pow_right (by decide) (by
      rw [Nat.mul_assoc]; exact Nat.mul_le_mul_left 8 hw))
  rw [lane, vecOfLanes, BitVec.toNat_ofNat, Nat.mod_eq_of_lt h1, lanesNat_lane w ls i hi]

theorem lane_lt (w : Nat) (v : Vec) (i : Nat) : lane w v i < 2 ^ (8 * w) := Nat.mod_lt _ (Nat.two_pow_pos _)

/-- What a lane operation writes to its destination. -/
theorem State.laneOp_lane (s : State) (p : PCtl) (w : Nat) (a : VReg) (f : Nat → FRes) (i : Nat) (hi : i < laneCount w)
    (hw : w * laneCount w ≤ 64) : lane w ((s.laneOp p w a f).v a) i =
      if s.active p w i then (f i).1 % 2 ^ (8 * w) else inactiveLane p (lane w (s.v a) i) := by
  have h : (s.laneOp p w a f).v a = vecOfLanes w (((List.range (laneCount w)).map fun i =>
      if s.active p w i then f i else (inactiveLane p (lane w (s.v a) i), {})).map (·.1)) := by
    simp [State.laneOp, State.v, Slot.raise, Slot.retire, Slot.retireTo, Slot.setV, vector_get]
  rw [h, lane_vecOfLanes _ _ _ (by simpa using hi) (by simpa using hw)]
  simp only [List.getElem_map, List.getElem_range]
  split
  · rfl
  · apply Nat.mod_eq_of_lt
    unfold inactiveLane
    split
    · exact Nat.two_pow_pos _
    · exact lane_lt w _ _

end Sys2Proof.Machine
end

