-- ==== Sys2Proof/Tests/Slice0.lean ====
section
/-!
SUPPORT. Tests: the well-formedness checks refuse ill-formed terms, words of the spec's encodings decode to what they
stand for, one step runs the word placed for it, and a witness for the hypotheses of every statement.
-/

namespace Sys2Proof.Tests

set_option Elab.async false

open Sys2Proof Sys2Proof.Machine

/-! Small states -/

/-- A state with a running slot: place 64, supervisor, physical mode, shard 0 allowed at memory port 0. -/
def sup : State := State.reset.withFetchWord 16 0

/-- The same with its slot changed. -/
def supWith (f : Slot → Slot) : State := sup.setMe (f sup.me)

/-- The same with general registers 0, 1, 2, 3 set. -/
def supX (w0 w1 w2 w3 : Word) : State :=
  supWith fun a => (((a.setX 0 w0).setX 1 w1).setX 2 w2).setX 3 w3

/-! Well-formedness -/

theorem test_wf_ldft_two_registers : (Instr.ldft 3 3 1 0 0).wellFormed = false := by decide
theorem test_wf_evq_two_registers : (Instr.evq 2 2).wellFormed = false := by decide
theorem test_wf_vdot4_type : (Instr.vdot4 0 1 2 .n16 .all).wellFormed = false := by decide
theorem test_wf_vclmul_type : (Instr.vclmul 0 1 2 .n32 .all).wellFormed = false := by decide
theorem test_wf_vclmulh_type : (Instr.vclmulh 0 1 2 .i8 .all).wellFormed = false := by decide
theorem test_wf_vabsi_type : (Instr.vabsi 0 1 .n32 .all).wellFormed = false := by decide
theorem test_wf_vcvt_source : (Instr.vcvt 0 1 14 1 .rne false .all).wellFormed = false := by decide
theorem test_wf_vcvt_destination : (Instr.vcvt 0 1 1 20 .rne false .all).wellFormed = false := by decide
theorem test_wf_vcvtHi_part_zero : (Instr.vcvtHi 0 1 0 1 2 .rne false .all).wellFormed = false := by decide
theorem test_wf_vcvtHi_part_past_ratio : (Instr.vcvtHi 0 1 2 1 2 .rne false .all).wellFormed = false := by decide
theorem test_wf_accepts :
    (Instr.vcvtHi 0 1 1 1 2 .rne false .all).wellFormed = true ∧ (Instr.ldft 3 4 1 0 0).wellFormed = true := by decide

/-! Words of the spec's encodings, a family at a time -/

-- 07_instruction_lines.md R125, R126, R129: O in [15:10], T in [9:8], A in [7:4], B in [3:0]; tails as R125 lays out
theorem test_word_mov : decodeWords 0b000001_00_0011_0101 0 = some (.mov 3 5) := by decide +kernel
theorem test_word_alu3_sar : decodeWords 0b001010_01_0001_0010 0b0011_1000_0000_0000 = some (.sar 1 2 3) := by
  decide +kernel
theorem test_word_alu3m_div : decodeWords 0b001011_01_0001_0010 0b0011_0111_0101_0000 = some (.div 1 2 3 5) := by
  decide +kernel
theorem test_word_alu1_clz : decodeWords 0b001100_01_0001_0010 0 = some (.clz 1 2) := by decide +kernel
-- 23_program_two_tenants.md R414
theorem test_word_shli : decodeWords 0x3651 0x04000004 = some (.shli 5 1 4) := by decide +kernel
theorem test_word_adda : decodeWords 0x3D33 0x6000 = some (.adda 3 3 6 0) := by decide +kernel
theorem test_word_sel : decodeWords 0b010000_01_0001_0010 0b0011_0000_0000_0100 = some (.sel 1 2 3 4) := by
  decide +kernel
theorem test_word_bz : decodeWords 0x4E80 0x00000008 = some (.bz 8 8) := by decide +kernel
-- 27_program_ragged_experts.md R431, 26_program_crc_fold.md R428
theorem test_word_blt : decodeWords 0x4A60 0x0200001F = some (.blt 6 0 31) := by decide +kernel
theorem test_word_loop : decodeWords 0x5AA0 0x000FFFF7 = some (.loop 10 (-9)) := by decide +kernel
theorem test_word_call : decodeWords 0b010100_10_1111_0000 0x00000010 = some (.call 15 16) := by decide +kernel
theorem test_word_jr : decodeWords 0b010101_00_0000_1111 0 = some (.jr 15) := by decide +kernel
-- 24_program_weight_chain.md R420
theorem test_word_rdsr : decodeWords 0x5DC0 0x2003 = some (.rdsr 12 0x23) := by decide +kernel
theorem test_word_rett : decodeWords 0xD900 0x0100 = some .rett := by decide +kernel
theorem test_word_wbor : decodeWords 0xD0D2 0 = some (.wbor 13) := by decide +kernel
-- 22_assembler.md, "One handler, from source to image"
theorem test_word_ldv : decodeWords 0x6A12 0x03100000 = some (.ldv .d false 1 2 1 0) := by decide +kernel
theorem test_word_stv : decodeWords 0x6E13 0x03000000 = some (.stv .d false 1 3 0) := by decide +kernel
-- 07_instruction_lines.md, the line of the LD example; 09_memory_instructions.md R171, R185, R188
theorem test_word_ld : decodeWords 0b011000_10_0001_0010 0b0000_1011_0000_00000000000000001000 =
    some (.ld .d true 1 2 0 8) := by decide +kernel
theorem test_word_ldft : decodeWords 0b011100_10_0001_0010 0b0011_0111_0000_00000000000000000000 =
    some (.ldft 1 3 2 0 0) := by decide +kernel
theorem test_word_fence : decodeWords 0x9052 0 = some (.fenceFull .package) := by decide +kernel
theorem test_word_vldf : decodeWords 0x7D12 0x5420 = some (.vldf 1 2 5 2 false none) := by decide +kernel
theorem test_word_vst : decodeWords 0x7A23 0 = some (.vst false 2 3 0) := by decide +kernel
theorem test_word_vfma : decodeWords 0xA521 0x3680 = some (.vfma 2 1 3 .f32 .all) := by decide +kernel
theorem test_word_vclmul : decodeWords 0xB522 0x7830 = some (.vclmul 2 2 7 .i64 .all) := by decide +kernel
theorem test_word_vins : decodeWords 0xB901 0x9230 = some (.vins 0 1 9 (.int .i64)) := by decide +kernel
theorem test_word_vfromm : decodeWords 0xB900 0x0900 = some (.vfromm 0) := by decide +kernel
theorem test_word_stc : decodeWords 0xA131 0 = some (.stc false 3 1) := by decide +kernel
theorem test_word_wait : decodeWords 0x9900 0x0001 = some (.wait 1) := by decide +kernel
theorem test_word_waitany : decodeWords 0x9960 0x0107 = some (.waitany 6 7) := by decide +kernel
theorem test_word_send : decodeWords 0xCD0A 0xB128 = some (.sendN 0 10 11 8 2) := by decide +kernel
theorem test_word_fjoin : decodeWords 0xD502 0x3100 = some (.fjoin 0 3 2) := by decide +kernel
theorem test_word_reserved : decodeWords 0 0 = none ∧ decodeWords 0b110001_00_0000_0000 0 = none ∧
    decodeWords 0b001010_01_0001_0010 0b0011_0000_0001_0000 = none := by decide +kernel

/-! Witnesses: for each clause of each statement, states and operands that meet its hypotheses together -/

/-- The outcome is a next state that satisfies a test. -/
def nextAnd (o : Out) (f : State → Bool) : Bool :=
  match o with
  | .next t => f t
  | _ => false

/-- The outcome is the next state given. -/
def nextIs (o : Out) (t : State) : Bool := nextAnd o (· == t)

/-- An attempt is answered with a value and a state that satisfy a test. -/
def okAnd {α : Type} (x : Acc α) (f : α → State → Bool) : Bool :=
  match x with
  | .ok a s => f a s
  | _ => false

/-- In user mode. -/
def usr : State := supWith fun a => { a with priv := .user }

/-- Past its commit point. -/
def com : State := supWith fun a => { a with irrev := true }

/-- With four results outstanding but one, which has returned. -/
def busy : State := supWith fun a =>
  { a with outs := List.replicate 3 { pc := 0, dests := [], val := .ok [] {}, left := 1, lah := 0, ovw := [], back := false } ++
      [{ pc := 0, dests := [], val := .ok [] {}, left := 1, lah := 0, ovw := [], back := true }] }

theorem test_hyp_decode_of_encode :
    (Instr.shli 5 1 63).wellFormed = true ∧ (encode (.shli 5 1 63)).isSome = true := by
  and_intros <;> decide +kernel
theorem test_hyp_encode_of_decode :
    0xD540 < 2 ^ 16 ∧ 0x5600 < 2 ^ (16 * tailParcels (headT 0xD540)) ∧
    decodeWords 0xD540 0x5600 = some (.fred 4 0 5 0) := by
  and_intros <;> decide +kernel
theorem test_hyp_lines :
    0xFFFF < 2 ^ 16 ∧ 0xFFFFFFFF < 2 ^ (16 * tailParcels (headT 0xFEFF)) ∧ (2 ^ 56 - 64) % 64 = 0 ∧
    2 ^ 56 - 64 < 2 ^ 56 ∧ 31 ≤ 31 ∧ 29 + 1 < 31 ∧ 30 + 1 = 31 := by
  and_intros <;> decide +kernel
theorem test_hyp_line_of_two_heads :
    ([4096, 0xD540, 0x3651] ++ List.replicate 26 0 ++ [0x0004, 0x0400, 0x5600]).length = 32 ∧
    (∀ x ∈ [4096, 0xD540, 0x3651] ++ List.replicate 26 0 ++ [0x0004, 0x0400, 0x5600], x < 2 ^ 16) ∧
    ([4096, 0xD540, 0x3651] ++ List.replicate 26 0 ++ [0x0004, 0x0400, 0x5600]).getD 0 0 = 2 * 2 ^ 11 ∧
    (([4096, 0xD540, 0x3651] ++ List.replicate 26 0 ++ [0x0004, 0x0400, 0x5600]).getD 1 0, ([4096, 0xD540, 0x3651] ++ List.replicate 26 0 ++ [0x0004, 0x0400, 0x5600]).getD 31 0) = (0xD540, 0x5600) ∧
    tailParcels (headT 0xD540) = 1 ∧ tailParcels (headT 0x3651) = 2 ∧
    ([4096, 0xD540, 0x3651] ++ List.replicate 26 0 ++ [0x0004, 0x0400, 0x5600]).getD 2 0 = 0x3651 ∧
    ((List.range 2).map fun i => ([4096, 0xD540, 0x3651] ++ List.replicate 26 0 ++ [0x0004, 0x0400, 0x5600]).getD (29 + i) 0 * 2 ^ (16 * i)).sum = 0x04000004 ∧
    (∀ j < 29, 2 < j → ([4096, 0xD540, 0x3651] ++ List.replicate 26 0 ++ [0x0004, 0x0400, 0x5600]).getD j 0 = 0) := by
  and_intros <;> decide +kernel
/-- The state in which ADDI x5, x1, 4 stands where the next step fetches. -/
def placed : State := State.reset.withFetchWord 48 0x365104000004
/-- That state with its turn at hand. -/
def placedTurn : State := { placed.tick with agenda := [] }

theorem test_hyp_step_runs :
    placed.tick.agenda = [.issue 64] ∧ placedTurn.runs ∧ placedTurn.nextSlot (coreOf 64) = some 64 ∧
    (placedTurn.slot 64).late = none ∧ placedTurn.atBreakpoint 64 = false ∧
    (match State.closeWindows { placedTurn with cur := 64 } 64 with
      | .go t => t.me.pc == 2 && okAnd (t.fetchLine 0) fun l u => (match decodeLine l.bytes with
          | some lc => lc.heads[0]? == some (0x3651, 0x04000004) && decodeWords 0x3651 0x04000004 == some (.shli 5 1 4) &&
              !(u.setLine l).me.accessWaits (.shli 5 1 4) && nextAnd (exec (.shli 5 1 4) (u.setLine l)) fun _ => true
          | none => false)
      | _ => false) = true := by
  unfold State.runs; and_intros <;> decide +kernel
/-- The step of that state runs the instruction placed for it: x5 becomes x1 × 16 (08_scalar_instructions.md R145). -/
theorem test_step_shli :
    nextAnd (step { placed with slots := kset placed.slots 64 ((placed.slot 64).setX 1 3) })
      (fun t => (t.slot 64).x.get 5 == 48 && (t.slot 64).x.get 1 == 3 && (t.slot 64).heads == 1) = true := by decide +kernel

theorem test_hyp_canonical :
    sup.canonical ∧ nextAnd (step sup) (fun _ => true) = true := by
  unfold State.canonical; and_intros <;> decide +kernel
theorem test_hyp_reset_rows :
    (0 : Nat) ≠ 384 ∧ (386 : Nat) ≠ 384 ∧ (386 : Nat) ≠ 385 := by
  and_intros <;> decide +kernel
theorem test_hyp_result_retires :
    sup.firstTime := by
  unfold State.firstTime; decide +kernel
/-- In a re-execution. -/
def again : State := supWith fun a => { a with rex := some (2, false) }

theorem test_hyp_alu3_reserved :
    (15 : Nat) = ((supX 0 0 0 79).me.x.get 3).toNat % 64 := by
  decide +kernel
theorem test_hyp_division :
    busy.hasRoom ∧ supX 0 0 5 0 = supX 0 0 5 0 ∧ (supX 0 0 5 0).x 3 = 0 ∧ (supX 0 0 5 3).x 3 ≠ 0 := by
  unfold State.hasRoom; and_intros <;> decide +kernel
theorem test_hyp_lookahead :
    sup.firstTime ∧ (0 : Look).val = 0 ∧ (3 : Look).val ≠ 0 ∧ ¬ again.firstTime := by
  unfold State.firstTime; and_intros <;> decide +kernel
theorem test_hyp_select :
    (supX 0 0 1 0).x 2 ≠ 0 ∧ (supX 0 0 0 0).x 2 = 0 := by
  and_intros <;> decide +kernel
theorem test_hyp_register_forms :
    (writesOf (.add 0 1)).isSome = true ∧ nextAnd (exec (.add 0 1) sup) (fun _ => true) = true := by
  and_intros <;> decide +kernel
theorem test_hyp_branches :
    (supX 0 1 0 0).x 0 ≠ (supX 0 1 0 0).x 1 ∧ (supX 1 1 0 0).x 0 = (supX 1 1 0 0).x 1 ∧
    sInt ((supX 0 0xFFFFFFFFFFFFFFFF 0 0).x 1) ≤ sInt ((supX 0 0xFFFFFFFFFFFFFFFF 0 0).x 0) ∧
    sInt ((supX 0xFFFFFFFFFFFFFFFF 0 0 0).x 0) < sInt ((supX 0xFFFFFFFFFFFFFFFF 0 0 0).x 1) ∧
    ((supX 0 1 0 0).x 0).toNat < ((supX 0 1 0 0).x 1).toNat ∧
    ((supX 1 1 0 0).x 1).toNat ≤ ((supX 1 1 0 0).x 0).toNat ∧ (supX 1 1 0 0).x 0 ≠ 0 ∧ (supX 0 1 0 0).x 0 = 0 ∧
    (supX 1 1 0 0).x 0 = 1 := by
  and_intros <;> decide +kernel
theorem test_hyp_branch_target :
    sup.noResults ∧ 2 < 2 ^ 56 ∧ 2 % 2 = 0 ∧ 2 ≤ 2 % 64 ∧
    okAnd (sup.fetchLine (2 / 64 * 64) true) (fun l _ => isHeadOf l.bytes 2) = true ∧
    (2 : Int) = (sup.me.pc.toNat : Int) + 2 * (0 : BitVec 20).toInt ∧ ((supX 0 2 0 0).x 1).toNat = 2 := by
  unfold State.noResults; and_intros <;> decide +kernel
/-- In virtual mode, with no translation. -/
def unmapped : State := supWith fun a => { a with pmode := false }

theorem test_hyp_bad_target :
    okAnd ((supX 0 3 0 0).fetchLine 0 true) (fun _ _ => true) = true ∧ unmapped.noResults ∧
    (match unmapped.fetchLine 0 true with | .bad c _ nr _ => c == 0x15 && !nr | _ => false) = true ∧ sup.noResults ∧
    (-2 : Int) = (sup.me.pc.toNat : Int) + 2 * (-2 : BitVec 20).toInt ∧ (0 : Int) % 64 < 2 ∧
    (0 : Int) = (sup.me.pc.toNat : Int) + 2 * (-1 : BitVec 20).toInt ∧
    (3 : Int) = (((supX 0 3 0 0).x 1).toNat : Int) ∧ (3 : Int) % 2 ≠ 0 ∧
    (2 ^ 56 : Int) = (((supX 0 0x100000000000000 0 0).x 1).toNat : Int) ∧ (supX 0 3 0 0).x 0 ≠ 1 := by
  unfold State.noResults; and_intros <;> decide +kernel
theorem test_hyp_special_forms :
    sup.noResults ∧ srCheck (isService sup.cur) false true false 0x08 none = .pass ∧
    srCheck (isService sup.cur) false true true 0x33 none = .pass ∧
    srCheck (isService sup.cur) false false false 0x10 (some 31) = .pass ∧
    srCheck (isService sup.cur) false true false 0x12 (some 63) = .pass := by
  unfold State.noResults; and_intros <;> decide +kernel
/-- On a worker core: core 0, slot 0. -/
def worker : State := { (sup.setSlot 0 sup.me).setSlot 64 {} with cur := 0 }

theorem test_hyp_special_checks :
    ¬((9 : Nat) ≤ 8 ∨ (9 : Nat) ∈ [0x10, 0x11, 0x12]) ∧ (0x33 : Nat) ∈ [0x30, 0x31, 0x33] ∧ (0x7B : Nat) ≤ 0x7B ∧
    usr.me.priv = .user ∧ sup.me.priv ≠ .user ∧ 32 ≤ ((supX 32 0 0 0).x 0).toNat ∧
    ((supX 1023 0 0 0).x 0).toNat % 4 = 3 ∧ 256 ≤ ((supX 256 0 0 0).x 0).toNat ∧
    2 ^ 63 ≤ (word (2 ^ 63 + 2 ^ 59)).toNat ∧ (word (2 ^ 63 + 2 ^ 59)).toNat / 2 ^ 57 % 8 = 4 ∧
    (word (2 ^ 63 + 2 ^ 59 + 2 ^ 18)).toNat / 2 ^ 18 % 2 ^ 6 ≠ 0 ∧ isService worker.cur = false ∧
    (worker.setMe (worker.me.setX 0 1)).x 0 ≠ 0 := by
  and_intros <;> decide +kernel
theorem test_hyp_special_holds :
    srCheck (isService sup.cur) false false false 0x24 (some 0x3FE) = .pass ∧
    srCheck (isService sup.cur) false false false 0x32 (some 63) = .pass ∧ (0x25 : Nat) ≠ 0x24 := by
  and_intros <;> decide +kernel
theorem test_hyp_trap_entry :
    sup.noResults ∧ 0x1F < 256 ∧ (sup.clus (clusOf sup.cur)).hob.getLsbD (unitOf sup.cur) = false ∧
    ((sup.setClus 0 { sup.clus 0 with hob := 0x1FF }).clus (clusOf sup.cur)).hob.getLsbD (unitOf sup.cur) = true := by
  unfold State.noResults; and_intros <;> decide +kernel
/-- In a trap entry, with TPC and TRES at a line pinned in the core's cache and a TSTATE. -/
def trapped (p : Priv) (ts : BitVec 10) : State :=
  let s := supWith fun a => { a with priv := p, tstate := ts, tpc := 2, tres := 2 }
  s.setCore 8 { s.core 8 with icache := [{ tsid := 4096, va := 0, bytes := oneHeadLine 0 0, pinned := some 0 }] }

theorem test_hyp_return :
    (trapped .supervisor 1).noResults ∧ (trapped .supervisor 1).firstTime ∧
    bitOf (trapped .supervisor 0x201).me.tstate.toNat 9 = true ∧ (trapped .supervisor 1).me.priv ≠ .user ∧
    (trapped .supervisor 2).me.priv.code < (trapped .supervisor 2).me.tstate.toNat % 4 ∧
    (trapped .supervisor 1).me.tstate.toNat % 4 ≤ (trapped .supervisor 1).me.priv.code ∧
    okAnd ((trapped .supervisor 4).fetchLine 0 true) (fun b u => isHeadOf b.bytes 2 && u.me == (trapped .supervisor 4).me && okAnd (u.fetchLine 0 true) fun c w => isHeadOf c.bytes 2 && w.me == (trapped .supervisor 4).me) = true ∧
    bitOf (trapped .supervisor 4).me.tstate.toNat 2 = true := by
  unfold State.noResults State.firstTime; and_intros <;> decide +kernel
/-- With records in the event queue of its cluster. -/
def events : State := sup.setClus 0 { sup.clus 0 with evq := [(7, 9)] }

theorem test_hyp_system_forms :
    usr.me.priv = .user ∧ isService worker.cur = false ∧ worker.me.priv ≠ .user ∧
    entryBad ((supX 1 0x10 0 0).x 0) ((supX 1 0x10 0 0).x 1) = true ∧ descBad ((supX 12 0 0 0).x 0) = true ∧
    sup.me.occ = true ∧ events.eventHolds (coreOf events.cur) = true ∧ sup.eventHolds (coreOf sup.cur) = false ∧
    isService events.cur = true ∧ (sup.clus (clusOf sup.cur)).evq = [] ∧
    (events.clus (clusOf events.cur)).evq = [(7, 9)] := by
  and_intros <;> decide +kernel
theorem test_hyp_translation_forms :
    sup.noResults ∧ entryBad ((supX 0x10001 0x9 0 0).x 0) ((supX 0x10001 0x9 0 0).x 1) = false ∧
    bitOf ((supX 0x10001 0x9 0 0).x 0).toNat 0 = true ∧ (sup.clus 0).reqs = [] ∧
    descBad ((supX 0x10000 0 0 0).x 0) = false ∧ (sup.clus 0).gated = false ∧ fld (sup.x 1) 0 32 = 0 ∧
    fld ((supX 0x40 3 0 0).x 1) 0 32 ≠ 0 := by
  unfold State.noResults; and_intros <;> decide +kernel
/-- With a request of slot 65 for a translation open at its cluster, the answer in general registers 0 to 2. -/
def answering (r : XlatReq → XlatReq) (a b : Word) : State :=
  let s := supX a b 7 0
  (s.setSlot 65 { s.me with park := .xlat }).setClus 0 { s.clus 0 with
    reqs := [r (XlatReq.mk 7 1 0x10000 [XWaiter.mk (.slot 65) 0 false 0x10000 0x10000] false true false)] }

theorem test_hyp_translation_answer :
    (answering id 0x10001 0x9).noResults ∧ fld ((answering id 0x10001 0x9).x 2) 0 16 = 7 ∧
    ((answering id 0x10001 0x9).clus 0).reqs.length = 1 ∧ (65 : Nat) ≠ (answering id 0x10001 0x9).cur ∧
    ((answering id 0x10001 0x9).slot 65).park = .xlat ∧
    entryBad ((answering id 0x10000 2).x 0) ((answering id 0x10000 2).x 1) = false ∧
    entryBad ((answering id 0x10000 1).x 0) ((answering id 0x10000 1).x 1) = false ∧
    fld ((answering id 0x10000 3).x 1) 0 4 = 3 := by
  unfold State.noResults; and_intros <;> decide +kernel
theorem test_hyp_translation_none :
    (∀ r ∈ (sup.clus 0).reqs, r.id ≠ fld (sup.x 2) 0 16) ∧ 1 ≤ fld ((supX 0x10000 2 0 0).x 1) 0 4 ∧
    fld (sup.x 2) 0 16 ≠ 0xFFFF ∧
    (supX 0x10000 0 0 0).redUses ((supX 0x10000 0 0 0).x 0) (supX 0x10000 0 0 0).me = false := by
  and_intros <;> decide +kernel
theorem test_hyp_reserved_fields :
    (({ o := 0x0B, t := 1, f := 6, l := 1, d := 0 } : Fields).o = 0x0A ∨ ({ o := 0x0B, t := 1, f := 6, l := 1, d := 0 } : Fields).o = 0x0B) ∧
    (({ o := 0x0B, t := 1, f := 6, l := 1, d := 0 } : Fields).d ≠ 0 ∨ ({ o := 0x0B, t := 1, f := 6, l := 1, d := 0 } : Fields).l ≠ 0 ∧
    ¬ (({ o := 0x0B, t := 1, f := 6, l := 1, d := 0 } : Fields).o = 0x0B ∧
    7 ≤ ({ o := 0x0B, t := 1, f := 6, l := 1, d := 0 } : Fields).f ∧
    ({ o := 0x0B, t := 1, f := 6, l := 1, d := 0 } : Fields).f ≤ 10)) ∧
    (({ o := 0x0B, t := 1, f := 7, l := 1, d := 1 } : Fields).d ≠ 0 ∨ ({ o := 0x0B, t := 1, f := 7, l := 1, d := 1 } : Fields).l ≠ 0) ∧
    ({ o := 0x0C, t := 1, f := 15, l := 0, d := 0 } : Fields).o = 0x0C ∧
    15 ≤ ({ o := 0x0C, t := 1, f := 15, l := 0, d := 0 } : Fields).f ∧
    ({ o := 0x0C, t := 2, f := 0, l := 0, d := 0 } : Fields).o = 0x0C ∧
    ({ o := 0x0C, t := 2, f := 0, l := 0, d := 0 } : Fields).t ≠ 1 := by
  and_intros <;> decide +kernel
/-- The value of an attempt that is answered. -/
def okVal {α : Type} (d : α) (x : Acc α) : α :=
  match x with
  | .ok a _ => a
  | _ => d

/-- No run of bytes. -/
def noPiece : Piece := ⟨0, false, 0, 0, false⟩

/-- Registers 0 to 3 and a vector of lanes 0 to 63 in vector register 1. -/
def mem0 (w0 w1 w2 w3 : Word) : State :=
  (supX w0 w1 w2 w3).setMe ((supX w0 w1 w2 w3).me.setV 1 (vecOfLanes 1 (List.range 64)))

/-- The run of n bytes at an address that an access of a kind reaches. -/
def pieceAt (s : State) (k : AKind) (vault : Bool) (a n : Nat) : Piece := okVal noPiece (s.locate k vault a n)

/-- The runs of units that an access of a kind reaches. -/
def piecesAt (s : State) (k : AKind) (vault : Bool) (us : List (Nat × Nat)) : List Piece :=
  okVal [] (s.locateAll k vault 0 us)

theorem test_hyp_bad_addresses :
    sup.hasRoom ∧ (7 : Int) = ((7 % 2 ^ 24 : Nat) : Int) + (0 : BitVec 20).toInt ∧ 7 % loadBytes .d ≠ 0 ∧
    7 % storeBytes .d ≠ 0 ∧ ((supX 0 7 0 0).x 1).toNat = 7 ∧ ((supX 0 0x1000000 0 0).x 1).toNat / 2 ^ 24 % 2 ^ 6 ≠ 0 ∧
    (0xC00000 : Int) % 8 = 0 ∧ ((supX 0 0xC00000 0 0).x 1).toNat / 2 ^ 24 % 2 ^ 6 = 0 ∧ (0xC00000 : Int) ≤ 0xC00000 ∧
    ((0 : Nat) : Int) + (-8 : BitVec 20).toInt < 0 := by
  unfold State.hasRoom; and_intros <;> decide +kernel
theorem test_hyp_scalar_load :
    (supX 0 64 0 0).hasRoom ∧ operand false ((supX 0 64 0 0).x 1) (0 : BitVec 20).toInt 8 8 = .ok 64 ∧
    (supX 0 64 0 0).locate .load false 64 8 = .ok (pieceAt (supX 0 64 0 0) .load false 64 8) (supX 0 64 0 0) ∧
    (supX 0 64 0 0).yields .load (pieceAt (supX 0 64 0 0) .load false 64 8) ∧
    operand true ((supX 0 0xBFFFF8 0 0).x 1) (0 : BitVec 20).toInt 8 8 = .ok 0xBFFFF8 ∧
    (supX 0 0xBFFFF8 0 0).locate .load true 0xBFFFF8 8 = .ok (pieceAt (supX 0 0xBFFFF8 0 0) .load true 0xBFFFF8 8) (supX 0 0xBFFFF8 0 0) ∧
    (supX 0 0xBFFFF8 0 0).yields .load (pieceAt (supX 0 0xBFFFF8 0 0) .load true 0xBFFFF8 8) := by
  unfold State.hasRoom State.yields State.noneAsked; and_intros <;> decide +kernel
/-- Memory port 0 gives no answer. -/
def mute : State := { supX 5 64 7 0 with xbar := { (supX 5 64 7 0).xbar with silent := [0] } }
/-- The access of the slot's head at address 64 has been answered with eight bytes. -/
def told (op : PortOp) : State :=
  (supX 5 64 7 0).setMe { (supX 5 64 7 0).me with rans := [⟨64, op, .data [1, 2, 3, 4, 5, 6, 7, 8]⟩] }
/-- A reduction of the slot is on its way to memory port 0. -/
def reducing (s : State) : State :=
  { s with xbar := { s.xbar with outstanding := [({ row := 0, tag := 9, src := 64, pa := 64, op := .red .add true 1, posted := false, replay := false, reissues := 0 }, 0)] } }

theorem test_hyp_load_asks :
    mute.hasRoom ∧ operand false (mute.x 1) (0 : BitVec 20).toInt 8 8 = .ok 64 ∧
    mute.locate .load false 64 8 = .ok (pieceAt mute .load false 64 8) mute ∧ mute.noneAsked ∧
    mute.refusal (pieceAt mute .load false 64 8) AKind.load.need = none ∧
    mute.mustAsk (pieceAt mute .load false 64 8).at_ true = true ∧
    mute.linkDown (pieceAt mute .load false 64 8).at_ = false ∧
    mute.noCredit (shardOf (clusOf mute.cur)) (pieceAt mute .load false 64 8).at_ = false := by
  unfold State.hasRoom State.noneAsked; and_intros <;> decide +kernel
theorem test_hyp_load_told :
    (told (.load 8)).hasRoom ∧
    (told (.load 8)).locate .load false 64 8 = .ok (pieceAt (told (.load 8)) .load false 64 8) (told (.load 8)) ∧
    (told (.load 8)).me.rans = [⟨(pieceAt (told (.load 8)) .load false 64 8).at_, .load 8, .data [1, 2, 3, 4, 5, 6, 7, 8]⟩] := by
  unfold State.hasRoom; and_intros <;> decide +kernel
theorem test_hyp_release_waits :
    (reducing (supX 5 64 0 0)).redsOpen (reducing (supX 5 64 0 0)).cur false = true ∧
    (supX 5 64 0 0).redsOpen (supX 5 64 0 0).cur false = false := by
  and_intros <;> decide +kernel
theorem test_hyp_store_asks :
    storeBytes .d = 8 ∧ operand false (mute.x 1) (0 : BitVec 20).toInt 8 8 = .ok 64 ∧
    mute.locate .store false 64 8 = .ok (pieceAt mute .store false 64 8) mute ∧ mute.noneAsked ∧
    mute.refusal (pieceAt mute .store false 64 8) AKind.store.need = none ∧
    mute.mustAsk (pieceAt mute .store false 64 8).at_ false = true ∧
    mute.linkDown (pieceAt mute .store false 64 8).at_ = false ∧
    mute.noCredit (shardOf (clusOf mute.cur)) (pieceAt mute .store false 64 8).at_ = false := by
  unfold State.noneAsked; and_intros <;> decide +kernel
theorem test_hyp_scalar_store :
    (supX 5 64 0 0).canonical ∧ operand false ((supX 5 64 0 0).x 1) (0 : BitVec 20).toInt 8 8 = .ok 64 ∧
    (supX 5 64 0 0).locate .store false 64 8 = .ok (pieceAt (supX 5 64 0 0) .store false 64 8) (supX 5 64 0 0) ∧
    (supX 5 64 0 0).yields .store (pieceAt (supX 5 64 0 0) .store false 64 8) ∧
    (supX 5 64 0 0).plain (pieceAt (supX 5 64 0 0) .store false 64 8) ∧
    (supX 5 64 0 0).quietLine (pieceAt (supX 5 64 0 0) .store false 64 8) ∧
    operand true ((supX 5 0 0 0).x 1) (0 : BitVec 20).toInt 8 8 = .ok 0 ∧
    (supX 5 0 0 0).locate .store true 0 8 = .ok (pieceAt (supX 5 0 0 0) .store true 0 8) (supX 5 0 0 0) ∧
    (supX 5 0 0 0).yields .store (pieceAt (supX 5 0 0 0) .store true 0 8) ∧
    (supX 5 0 0 0).plain (pieceAt (supX 5 0 0 0) .store true 0 8) := by
  unfold State.canonical State.yields State.plain State.quietLine State.unheld State.noneAsked; and_intros <;> decide +kernel
theorem test_hyp_vector_load :
    (supX 0 64 0 0).hasRoom ∧
    (supX 0 64 0 0).locateAll .load false 0 (unitsFrom false 64 8 8) = .ok (piecesAt (supX 0 64 0 0) .load false (unitsFrom false 64 8 8)) (supX 0 64 0 0) ∧
    (∀ p ∈ piecesAt (supX 0 64 0 0) .load false (unitsFrom false 64 8 8), (supX 0 64 0 0).yields .load p) ∧
    (supX 0 64 0 0).locateAll .load true 0 (unitsFrom true 64 8 8) = .ok (piecesAt (supX 0 64 0 0) .load true (unitsFrom true 64 8 8)) (supX 0 64 0 0) ∧
    (∀ p ∈ piecesAt (supX 0 64 0 0) .load true (unitsFrom true 64 8 8), (supX 0 64 0 0).yields .load p) ∧
    (supX 0 64 0 0).locateAll .load false 0 ([(64, 8)]) = .ok (piecesAt (supX 0 64 0 0) .load false ([(64, 8)])) (supX 0 64 0 0) ∧
    (∀ p ∈ piecesAt (supX 0 64 0 0) .load false ([(64, 8)]), (supX 0 64 0 0).yields .load p) ∧
    (supX 0 64 0 0).locateAll .load false 0 ([(64, 4)]) = .ok (piecesAt (supX 0 64 0 0) .load false ([(64, 4)])) (supX 0 64 0 0) ∧
    (∀ p ∈ piecesAt (supX 0 64 0 0) .load false ([(64, 4)]), (supX 0 64 0 0).yields .load p) ∧
    (supX 0 64 0 0).locateAll .load false 0 (unitsFrom false 64 8 4) = .ok (piecesAt (supX 0 64 0 0) .load false (unitsFrom false 64 8 4)) (supX 0 64 0 0) ∧
    (∀ p ∈ piecesAt (supX 0 64 0 0) .load false (unitsFrom false 64 8 4), (supX 0 64 0 0).yields .load p) ∧
    operand false ((supX 0 64 0 0).x 1) (0 : BitVec 20).toInt 8 64 = .ok 64 ∧
    operand true ((supX 0 64 0 0).x 1) (0 : BitVec 20).toInt 8 64 = .ok 64 ∧
    operand false ((supX 0 64 0 0).x 1) (0 : BitVec 20).toInt 4 4 = .ok 64 := by
  unfold State.hasRoom State.yields State.noneAsked; and_intros <;> decide +kernel
theorem test_hyp_vector_store :
    (supX 0 64 0 0).locateAll .store false 0 (unitsFrom false 64 8 8) = .ok (piecesAt (supX 0 64 0 0) .store false (unitsFrom false 64 8 8)) (supX 0 64 0 0) ∧
    (∀ p ∈ piecesAt (supX 0 64 0 0) .store false (unitsFrom false 64 8 8), (supX 0 64 0 0).yields .store p (piecesAt (supX 0 64 0 0) .store false (unitsFrom false 64 8 8)).length ∧ (supX 0 64 0 0).plain p) ∧
    (supX 0 64 0 0).locateAll .store true 0 (unitsFrom true 64 8 8) = .ok (piecesAt (supX 0 64 0 0) .store true (unitsFrom true 64 8 8)) (supX 0 64 0 0) ∧
    (∀ p ∈ piecesAt (supX 0 64 0 0) .store true (unitsFrom true 64 8 8), (supX 0 64 0 0).yields .store p (piecesAt (supX 0 64 0 0) .store true (unitsFrom true 64 8 8)).length ∧ (supX 0 64 0 0).plain p) ∧
    (supX 0 64 0 0).locateAll .store false 0 (unitsFrom false 64 8 4) = .ok (piecesAt (supX 0 64 0 0) .store false (unitsFrom false 64 8 4)) (supX 0 64 0 0) ∧
    (∀ p ∈ piecesAt (supX 0 64 0 0) .store false (unitsFrom false 64 8 4), (supX 0 64 0 0).yields .store p (piecesAt (supX 0 64 0 0) .store false (unitsFrom false 64 8 4)).length ∧ (supX 0 64 0 0).plain p) ∧
    operand false ((supX 0 64 0 0).x 1) (0 : BitVec 20).toInt 8 64 = .ok 64 ∧
    operand true ((supX 0 64 0 0).x 1) (0 : BitVec 20).toInt 8 64 = .ok 64 ∧
    operand false ((supX 0 64 0 0).x 1) (0 : BitVec 20).toInt 4 4 = .ok 64 := by
  unfold State.yields State.plain State.noneAsked; and_intros <;> decide +kernel
theorem test_hyp_strided :
    (mem0 0 64 8 0).hasRoom ∧ (List.range 8).filter ((mem0 0 64 8 0).activeOpt none 8) = List.range 8 ∧
    (∀ i ∈ List.range 8, operand false ((mem0 0 64 8 0).x 1) ((i : Int) * sInt ((mem0 0 64 8 0).x 2)) 8 8 = .ok (64 + 8 * i)) ∧
    (mem0 0 64 8 0).locateAll .load false 0 ((List.range 8).map fun i => (64 + 8 * i, 8)) = .ok (piecesAt (mem0 0 64 8 0) .load false ((List.range 8).map fun i => (64 + 8 * i, 8))) (mem0 0 64 8 0) ∧
    (∀ p ∈ piecesAt (mem0 0 64 8 0) .load false ((List.range 8).map fun i => (64 + 8 * i, 8)), (mem0 0 64 8 0).yields .load p) := by
  unfold State.hasRoom State.yields State.noneAsked; and_intros <;> decide +kernel
theorem test_hyp_strided_store :
    (mem0 0 64 8 0).hasRoom ∧ (List.range 8).filter ((mem0 0 64 8 0).activeOpt none 8) = List.range 8 ∧
    (∀ i ∈ List.range 8, operand true ((mem0 0 64 8 0).x 1) ((i : Int) * sInt ((mem0 0 64 8 0).x 2)) 8 8 = .ok (64 + 8 * i)) ∧
    (mem0 0 64 8 0).locateAll .store true 0 ((List.range 8).map fun i => (64 + 8 * i, 8)) = .ok (piecesAt (mem0 0 64 8 0) .store true ((List.range 8).map fun i => (64 + 8 * i, 8))) (mem0 0 64 8 0) ∧
    (∀ p ∈ piecesAt (mem0 0 64 8 0) .store true ((List.range 8).map fun i => (64 + 8 * i, 8)), (mem0 0 64 8 0).yields .store p (piecesAt (mem0 0 64 8 0) .store true ((List.range 8).map fun i => (64 + 8 * i, 8))).length) ∧
    (∀ p ∈ piecesAt (mem0 0 64 8 0) .store true ((List.range 8).map fun i => (64 + 8 * i, 8)), (mem0 0 64 8 0).plain p) ∧
    (mem0 0 64 8 0).redsOpen (mem0 0 64 8 0).cur false = false := by
  unfold State.hasRoom State.yields State.plain State.noneAsked; and_intros <;> decide +kernel
theorem test_hyp_indexed :
    (List.range 16).filter ((mem0 0 64 8 0).activeOpt (some 0) 4) = [] ∧
    (mem0 0 64 8 0).locateAll .load false 0 [] = .ok [] (mem0 0 64 8 0) := by
  and_intros <;> decide +kernel
theorem test_hyp_format :
    (mem0 0 0x0800000000000040 0 0).hasRoom ∧ ((mem0 0 0x0800000000000040 0 0).x 1).toNat / 2 ^ 59 = 1 ∧
    ((mem0 0 0x0800000000000040 0 0).x 1).toNat / 2 ^ 56 % 8 = 0 ∧ tagLegal 1 0 = true ∧
    ((mem0 0 0x0800000000000040 0 0).x 1).toNat % 2 ^ 56 % formatAlign 1 0 = 0 ∧
    (mem0 0 0x0800000000000040 0 0).locateSpans .load false ((mem0 0 0x0800000000000040 0 0).x 1) (headerSpans 1 0 (List.range 16)) = .ok [] (mem0 0 0x0800000000000040 0 0) ∧
    anyHeaderBad 1 [] = false ∧
    (mem0 0 0x0800000000000040 0 0).locateSpans .load false ((mem0 0 0x0800000000000040 0 0).x 1) (elementSpans 1 0 (List.range 16)) = .ok (okVal [] ((mem0 0 0x0800000000000040 0 0).locateSpans .load false ((mem0 0 0x0800000000000040 0 0).x 1) (elementSpans 1 0 (List.range 16)))) (mem0 0 0x0800000000000040 0 0) ∧
    (∀ y ∈ okVal [] ((mem0 0 0x0800000000000040 0 0).locateSpans .load false ((mem0 0 0x0800000000000040 0 0).x 1) (elementSpans 1 0 (List.range 16))), ∀ p ∈ y.2, (mem0 0 0x0800000000000040 0 0).yields .load p) ∧
    8 ≤ elementBits 1 ∧ elementBits 1 % 8 = 0 ∧
    (mem0 0 0x0800000000000040 0 0).locateSpans .store false ((mem0 0 0x0800000000000040 0 0).x 1) (elementSpans 1 0 (List.range 16)) = .ok (okVal [] ((mem0 0 0x0800000000000040 0 0).locateSpans .store false ((mem0 0 0x0800000000000040 0 0).x 1) (elementSpans 1 0 (List.range 16)))) (mem0 0 0x0800000000000040 0 0) ∧
    (∀ y ∈ okVal [] ((mem0 0 0x0800000000000040 0 0).locateSpans .store false ((mem0 0 0x0800000000000040 0 0).x 1) (elementSpans 1 0 (List.range 16))), ∀ p ∈ y.2, (mem0 0 0x0800000000000040 0 0).yields .store p ((okVal [] ((mem0 0 0x0800000000000040 0 0).locateSpans .store false ((mem0 0 0x0800000000000040 0 0).x 1) (elementSpans 1 0 (List.range 16)))).flatMap (·.2)).length) ∧
    (∀ y ∈ okVal [] ((mem0 0 0x0800000000000040 0 0).locateSpans .store false ((mem0 0 0x0800000000000040 0 0).x 1) (elementSpans 1 0 (List.range 16))), ∀ p ∈ y.2, (mem0 0 0x0800000000000040 0 0).plain p) ∧
    (mem0 0 0x0800000000000040 0 0).locateSpans .store false ((mem0 0 0x0800000000000040 0 0).x 1) (headerSpans 1 0 (List.range 16)) = .ok [] (mem0 0 0x0800000000000040 0 0) := by
  unfold State.hasRoom State.yields State.plain State.noneAsked; and_intros <;> decide +kernel
theorem test_hyp_format_blocked :
    ((mem0 0 0x7500000000000040 0 0).x 1).toNat / 2 ^ 59 = 14 ∧
    ((mem0 0 0x7500000000000040 0 0).x 1).toNat / 2 ^ 56 % 8 = 5 ∧ tagLegal 14 5 = true ∧
    ((mem0 0 0x7500000000000040 0 0).x 1).toNat % 2 ^ 56 % formatAlign 14 5 = 0 ∧ elementBits 14 = 8 ∧
    (mem0 0 0x7500000000000040 0 0).locateSpans .load false ((mem0 0 0x7500000000000040 0 0).x 1) (headerSpans 14 5 (List.range 16)) = .ok (okVal [] ((mem0 0 0x7500000000000040 0 0).locateSpans .load false ((mem0 0 0x7500000000000040 0 0).x 1) (headerSpans 14 5 (List.range 16)))) (mem0 0 0x7500000000000040 0 0) ∧
    (mem0 0 0x7500000000000040 0 0).locateSpans .load false ((mem0 0 0x7500000000000040 0 0).x 1) (elementSpans 14 5 (List.range 16)) = .ok (okVal [] ((mem0 0 0x7500000000000040 0 0).locateSpans .load false ((mem0 0 0x7500000000000040 0 0).x 1) (elementSpans 14 5 (List.range 16)))) (mem0 0 0x7500000000000040 0 0) ∧
    (∀ y ∈ okVal [] ((mem0 0 0x7500000000000040 0 0).locateSpans .load false ((mem0 0 0x7500000000000040 0 0).x 1) (headerSpans 14 5 (List.range 16))), ∀ p ∈ y.2, (mem0 0 0x7500000000000040 0 0).yields .load p) ∧
    (∀ y ∈ okVal [] ((mem0 0 0x7500000000000040 0 0).locateSpans .load false ((mem0 0 0x7500000000000040 0 0).x 1) (elementSpans 14 5 (List.range 16))), ∀ p ∈ y.2, (mem0 0 0x7500000000000040 0 0).yields .load p) ∧
    (mem0 0 0x7500000000000040 0 0).locateSpans .store false ((mem0 0 0x7500000000000040 0 0).x 1) (headerSpans 14 5 (List.range 16)) = .ok (okVal [] ((mem0 0 0x7500000000000040 0 0).locateSpans .store false ((mem0 0 0x7500000000000040 0 0).x 1) (headerSpans 14 5 (List.range 16)))) (mem0 0 0x7500000000000040 0 0) ∧
    (mem0 0 0x7500000000000040 0 0).locateSpans .store false ((mem0 0 0x7500000000000040 0 0).x 1) (elementSpans 14 5 (List.range 16)) = .ok (okVal [] ((mem0 0 0x7500000000000040 0 0).locateSpans .store false ((mem0 0 0x7500000000000040 0 0).x 1) (elementSpans 14 5 (List.range 16)))) (mem0 0 0x7500000000000040 0 0) ∧
    (∀ y ∈ okVal [] ((mem0 0 0x7500000000000040 0 0).locateSpans .store false ((mem0 0 0x7500000000000040 0 0).x 1) (headerSpans 14 5 (List.range 16))), ∀ p ∈ y.2, (mem0 0 0x7500000000000040 0 0).yields .store p) ∧
    (∀ y ∈ okVal [] ((mem0 0 0x7500000000000040 0 0).locateSpans .store false ((mem0 0 0x7500000000000040 0 0).x 1) (elementSpans 14 5 (List.range 16))), ∀ p ∈ y.2, (mem0 0 0x7500000000000040 0 0).yields .store p) ∧
    anyHeaderBad 14 ((okVal [] ((mem0 0 0x7500000000000040 0 0).locateSpans .store false ((mem0 0 0x7500000000000040 0 0).x 1) (headerSpans 14 5 (List.range 16)))).map fun y => (y.1, (y.2.map (mem0 0 0x7500000000000040 0 0).pieceBytes).flatten)) = false ∧
    (∀ y ∈ okVal [] ((mem0 0 0x7500000000000040 0 0).locateSpans .store false ((mem0 0 0x7500000000000040 0 0).x 1) (elementSpans 14 5 (List.range 16))), ∀ p ∈ y.2, (mem0 0 0x7500000000000040 0 0).plain p) ∧
    (∀ y ∈ okVal [] ((mem0 0 0x7500000000000040 0 0).locateSpans .store false ((mem0 0 0x7500000000000040 0 0).x 1) (elementSpans 14 5 (List.range 16))), ∀ p ∈ y.2, (mem0 0 0x7500000000000040 0 0).yields .store p ((okVal [] ((mem0 0 0x7500000000000040 0 0).locateSpans .store false ((mem0 0 0x7500000000000040 0 0).x 1) (elementSpans 14 5 (List.range 16)))).flatMap (·.2)).length) := by
  unfold State.yields State.plain State.noneAsked; and_intros <;> decide +kernel
theorem test_hyp_format_narrow :
    ((mem0 0 0x4000000000000040 0 0).x 1).toNat / 2 ^ 59 = 8 ∧
    ((mem0 0 0x4000000000000040 0 0).x 1).toNat / 2 ^ 56 % 8 = 0 ∧ tagLegal 8 0 = true ∧
    ((mem0 0 0x4000000000000040 0 0).x 1).toNat % 2 ^ 56 % formatAlign 8 0 = 0 ∧ elementBits 8 < 8 ∧
    (mem0 0 0x4000000000000040 0 0).locateSpans .store false ((mem0 0 0x4000000000000040 0 0).x 1) (headerSpans 8 0 (List.range 16)) = .ok [] (mem0 0 0x4000000000000040 0 0) ∧
    (mem0 0 0x4000000000000040 0 0).locateSpans .store false ((mem0 0 0x4000000000000040 0 0).x 1) (elementSpans 8 0 (List.range 16)) = .ok (okVal [] ((mem0 0 0x4000000000000040 0 0).locateSpans .store false ((mem0 0 0x4000000000000040 0 0).x 1) (elementSpans 8 0 (List.range 16)))) (mem0 0 0x4000000000000040 0 0) ∧
    (∀ y ∈ okVal [] ((mem0 0 0x4000000000000040 0 0).locateSpans .store false ((mem0 0 0x4000000000000040 0 0).x 1) (elementSpans 8 0 (List.range 16))), ∀ p ∈ y.2, (mem0 0 0x4000000000000040 0 0).yields .store p ((okVal [] ((mem0 0 0x4000000000000040 0 0).locateSpans .store false ((mem0 0 0x4000000000000040 0 0).x 1) (elementSpans 8 0 (List.range 16)))).flatMap (·.2)).length) ∧
    (∀ y ∈ okVal [] ((mem0 0 0x4000000000000040 0 0).locateSpans .store false ((mem0 0 0x4000000000000040 0 0).x 1) (elementSpans 8 0 (List.range 16))), ∀ p ∈ y.2, (mem0 0 0x4000000000000040 0 0).plain p) := by
  unfold State.yields State.plain State.noneAsked; and_intros <;> decide +kernel
/-- With the vault word at offset 0 of cluster 0 empty. -/
def hollow : State := { supX 5 0 0 0 with empty := [0] }

theorem test_hyp_tagged_full :
    (supX 5 0 0 0).hasRoom ∧ vaultOperand ((supX 5 0 0 0).x 1) (0 : BitVec 20).toInt 8 8 = .ok 0 ∧
    vaultKey (clusOf (supX 5 0 0 0).cur) 0 = 0 ∧ (0 : XReg) ≠ 2 ∧ (supX 5 0 0 0).poisonArmed 0 = false ∧
    (supX 5 0 0 0).commitAt (supX 5 0 0 0).cur = (none, ((supX 5 0 0 0).commitAt 64).2) ∧
    ((supX 5 0 0 0).commitAt 64).2.canonical ∧ ((supX 5 0 0 0).commitAt 64).2.cur = (supX 5 0 0 0).cur ∧
    ((supX 5 0 0 0).commitAt 64).2.poisonArmed 0 = false ∧ (((supX 5 0 0 0).commitAt 64).2.clus 0).held = [] ∧
    ((supX 5 0 0 0).commitAt 64).2.isFull 0 = true ∧ (supX 5 0 0 0).isFull 0 = true ∧
    ((supX 5 0 0 0).commitAt 64).2.getWord 0 = (supX 5 0 0 0).getWord 0 ∧
    (supX 5 0 0 0).commitStops (supX 5 0 0 0).cur = false ∧
    (∀ k ∈ wordsAt 0 8, kget false (supX 5 0 0 0).flaws k = false ∧
    kget false ((supX 5 0 0 0).commitAt 64).2.flaws k = false) := by
  unfold State.canonical State.hasRoom; and_intros <;> decide +kernel
theorem test_hyp_tagged_empty :
    hollow.hasRoom ∧ vaultOperand (hollow.x 1) (0 : BitVec 20).toInt 8 8 = .ok 0 ∧
    vaultKey (clusOf hollow.cur) 0 = 0 ∧ (0 : XReg) ≠ 2 ∧ hollow.poisonArmed 0 = false ∧
    hollow.commitAt hollow.cur = (none, (hollow.commitAt 64).2) ∧ (hollow.commitAt 64).2.canonical ∧
    (hollow.commitAt 64).2.cur = hollow.cur ∧ (hollow.commitAt 64).2.poisonArmed 0 = false ∧
    ((hollow.commitAt 64).2.clus 0).held = [] ∧ (hollow.commitAt 64).2.isFull 0 = false ∧ hollow.isFull 0 = false ∧
    (hollow.commitAt 64).2.getWord 0 = hollow.getWord 0 ∧ hollow.commitStops hollow.cur = false ∧
    (∀ k ∈ wordsAt 0 8, kget false hollow.flaws k = false ∧ kget false (hollow.commitAt 64).2.flaws k = false) := by
  unfold State.canonical State.hasRoom; and_intros <;> decide +kernel
theorem test_hyp_tagged_owner :
    ∀ n, (supX 5 0 0 0).vaultRefusal (clusOf (supX 5 0 0 0).cur) (supX 5 0 0 0).me.ctx 0 n = none := by
  rintro ⟨a, b, c⟩; cases a <;> cases b <;> cases c <;> decide +kernel
theorem test_hyp_atomic_memory :
    (supX 0 64 7 0).hasRoom ∧ operand false ((supX 0 64 7 0).x 1) 0 8 8 = .ok 64 ∧
    (supX 0 64 7 0).locate .atomic false 64 8 = .ok (pieceAt (supX 0 64 7 0) .atomic false 64 8) (supX 0 64 7 0) ∧
    (supX 0 64 7 0).commitAt (supX 0 64 7 0).cur = (none, ((supX 0 64 7 0).commitAt 64).2) ∧
    ((supX 0 64 7 0).commitAt 64).2.canonical ∧ ((supX 0 64 7 0).commitAt 64).2.cur = (supX 0 64 7 0).cur ∧
    ((supX 0 64 7 0).commitAt 64).2.yields .atomic (pieceAt (supX 0 64 7 0) .atomic false 64 8) ∧
    (supX 0 64 7 0).commitStops (supX 0 64 7 0).cur = false ∧
    ((supX 0 64 7 0).commitAt 64).2.unheld (pieceAt (supX 0 64 7 0) .atomic false 64 8) ∧
    ((supX 0 64 7 0).commitAt 64).2.quietLine (pieceAt (supX 0 64 7 0) .atomic false 64 8) := by
  unfold State.canonical State.hasRoom State.yields State.quietLine State.unheld State.noneAsked; and_intros <;> decide +kernel
theorem test_hyp_atomic_vault :
    (supX 0 64 7 0).hasRoom ∧ operand true ((supX 0 64 7 0).x 1) 0 8 8 = .ok 64 ∧
    (supX 0 64 7 0).locate .atomic true 64 8 = .ok (pieceAt (supX 0 64 7 0) .atomic true 64 8) (supX 0 64 7 0) ∧
    (supX 0 64 7 0).commitAt (supX 0 64 7 0).cur = (none, ((supX 0 64 7 0).commitAt 64).2) ∧
    ((supX 0 64 7 0).commitAt 64).2.canonical ∧ ((supX 0 64 7 0).commitAt 64).2.cur = (supX 0 64 7 0).cur ∧
    ((supX 0 64 7 0).commitAt 64).2.yields .atomic (pieceAt (supX 0 64 7 0) .atomic true 64 8) ∧
    (supX 0 64 7 0).commitStops (supX 0 64 7 0).cur = false := by
  unfold State.canonical State.hasRoom State.yields State.noneAsked; and_intros <;> decide +kernel
/-- With a commit buffer of 32 entries, past the commit point or not. -/
def fullBuffer (irrev : Bool) : State :=
  (supX 0 64 7 0).setMe { (supX 0 64 7 0).me with
    irrev := irrev, cbuf := List.replicate 32 (.red ⟨true, 0, 0, .add, true, 0, 0⟩) }
/-- Past its commit point, with nothing buffered. -/
def past : State := (supX 0 64 7 0).setMe { (supX 0 64 7 0).me with irrev := true }
/-- A copy transfer in its cluster's inbox. -/
def queued3 : Transfer :=
  { id := 3, place := 64, act := 0, regs := Vector.replicate 8 0, tsid := 0, ctx := 0, kslot := 0, status := 0,
    waits := false, xres := none }
def copying : State := (supX 0 64 7 0).setClus 0 { (supX 0 64 7 0).clus 0 with copies := [queued3] }

theorem test_hyp_reduction_early_memory :
    (supX 0 64 7 0).canonical ∧ operand false ((supX 0 64 7 0).x 1) 0 8 8 = .ok 64 ∧
    (supX 0 64 7 0).locate .atomic false 64 8 = .ok (pieceAt (supX 0 64 7 0) .atomic false 64 8) (supX 0 64 7 0) ∧
    (supX 0 64 7 0).yields .atomic (pieceAt (supX 0 64 7 0) .atomic false 64 8) ∧ (supX 0 64 7 0).me.irrev = false ∧
    (supX 0 64 7 0).me.cbuf.length < 32 ∧ (supX 0 64 7 0).quietLine (pieceAt (supX 0 64 7 0) .atomic false 64 8) := by
  unfold State.canonical State.yields State.quietLine State.unheld State.noneAsked; and_intros <;> decide +kernel
theorem test_hyp_reduction_early_vault :
    (supX 0 64 7 0).canonical ∧ operand true ((supX 0 64 7 0).x 1) 0 8 8 = .ok 64 ∧
    (supX 0 64 7 0).locate .atomic true 64 8 = .ok (pieceAt (supX 0 64 7 0) .atomic true 64 8) (supX 0 64 7 0) ∧
    (supX 0 64 7 0).yields .atomic (pieceAt (supX 0 64 7 0) .atomic true 64 8) ∧ (supX 0 64 7 0).me.irrev = false ∧
    (supX 0 64 7 0).me.cbuf.length < 32 := by
  unfold State.canonical State.yields State.noneAsked; and_intros <;> decide +kernel
theorem test_hyp_reduction_late_memory :
    past.canonical ∧ operand false (past.x 1) 0 8 8 = .ok 64 ∧
    past.locate .atomic false 64 8 = .ok (pieceAt past .atomic false 64 8) past ∧
    past.yields .atomic (pieceAt past .atomic false 64 8) ∧ past.me.irrev = true ∧ past.me.late = none ∧
    past.stopped (pieceAt past .atomic false 64 8) = false ∧ past.quietLine (pieceAt past .atomic false 64 8) := by
  unfold State.canonical State.yields State.quietLine State.unheld State.noneAsked; and_intros <;> decide +kernel
theorem test_hyp_reduction_late_vault :
    past.canonical ∧ operand true (past.x 1) 0 8 8 = .ok 64 ∧
    past.locate .atomic true 64 8 = .ok (pieceAt past .atomic true 64 8) past ∧
    past.yields .atomic (pieceAt past .atomic true 64 8) ∧ past.me.irrev = true ∧ past.me.late = none ∧
    past.stopped (pieceAt past .atomic true 64 8) = false := by
  unfold State.canonical State.yields State.noneAsked; and_intros <;> decide +kernel
theorem test_hyp_reduction_full :
    (fullBuffer false).canonical ∧ operand true ((fullBuffer false).x 1) 0 8 8 = .ok 64 ∧
    (fullBuffer false).locate .atomic true 64 8 = .ok (pieceAt (fullBuffer false) .atomic true 64 8) (fullBuffer false) ∧
    (fullBuffer false).yields .atomic (pieceAt (fullBuffer false) .atomic true 64 8) ∧
    (fullBuffer false).me.irrev = false ∧ 32 ≤ (fullBuffer false).me.cbuf.length := by
  unfold State.canonical State.yields State.noneAsked; and_intros <;> decide +kernel
/-- A load of 8 bytes from main memory by a slot of its shard's row. -/
def ofSlot : PortReq := { row := 0, tag := 0, src := 64, pa := 64, op := .load 8, posted := false, replay := false, reissues := 0 }
/-- A request of the slot is held at its memory port. -/
def holding : State := { past with xbar := { past.xbar with ingress := [ofSlot] } }

/-- Past its commit point, at a memory port that gives no answer; or with its access answered. -/
def pastMute : State := mute.setMe { mute.me with irrev := true }
def pastTold : State := (told (.amo .add true 7)).setMe { (told (.amo .add true 7)).me with irrev := true }
/-- The same for CAS, of registers 0 and 2. -/
def casTold : State := (told (.cas true 5 7)).setMe { (told (.cas true 5 7)).me with irrev := true }

theorem test_hyp_atomic_asks_holding :
    holding.hasRoom ∧ operand false (holding.x 1) 0 8 8 = .ok 64 ∧
    holding.locate .atomic false 64 8 = .ok (pieceAt holding .atomic false 64 8) holding ∧
    holding.commitStops holding.cur = false ∧ holding.commitAt holding.cur = (none, holding) ∧ holding.noneAsked ∧
    holding.refusal (pieceAt holding .atomic false 64 8) AKind.atomic.need = none ∧
    holding.mustAsk (pieceAt holding .atomic false 64 8).at_ false = true ∧
    holding.linkDown (pieceAt holding .atomic false 64 8).at_ = false ∧
    holding.noCredit (shardOf (clusOf holding.cur)) (pieceAt holding .atomic false 64 8).at_ = false ∧
    holding.me.irrev = true ∧ holding.me.cbuf = [] ∧ holding.me.cfail = none := by
  unfold State.hasRoom State.noneAsked; and_intros <;> decide +kernel
theorem test_hyp_atomic_asks_pastMute :
    pastMute.hasRoom ∧ operand false (pastMute.x 1) 0 8 8 = .ok 64 ∧
    pastMute.locate .atomic false 64 8 = .ok (pieceAt pastMute .atomic false 64 8) pastMute ∧
    pastMute.commitStops pastMute.cur = false ∧ pastMute.commitAt pastMute.cur = (none, pastMute) ∧
    pastMute.noneAsked ∧ pastMute.refusal (pieceAt pastMute .atomic false 64 8) AKind.atomic.need = none ∧
    pastMute.mustAsk (pieceAt pastMute .atomic false 64 8).at_ false = true ∧
    pastMute.linkDown (pieceAt pastMute .atomic false 64 8).at_ = false ∧
    pastMute.noCredit (shardOf (clusOf pastMute.cur)) (pieceAt pastMute .atomic false 64 8).at_ = false ∧
    pastMute.me.irrev = true ∧ pastMute.me.cbuf = [] ∧ pastMute.me.cfail = none := by
  unfold State.hasRoom State.noneAsked; and_intros <;> decide +kernel
theorem test_hyp_atomic_pastTold :
    pastTold.hasRoom ∧ pastTold.locate .atomic false 64 8 = .ok (pieceAt pastTold .atomic false 64 8) pastTold ∧
    pastTold.commitStops pastTold.cur = false ∧ pastTold.commitAt pastTold.cur = (none, pastTold) ∧
    pastTold.me.rans = [⟨(pieceAt pastTold .atomic false 64 8).at_, .amo .add true 7, .data [1, 2, 3, 4, 5, 6, 7, 8]⟩] := by
  unfold State.hasRoom; and_intros <;> decide +kernel
theorem test_hyp_atomic_casTold :
    casTold.hasRoom ∧ casTold.locate .atomic false 64 8 = .ok (pieceAt casTold .atomic false 64 8) casTold ∧
    casTold.commitStops casTold.cur = false ∧ casTold.commitAt casTold.cur = (none, casTold) ∧
    casTold.me.rans = [⟨(pieceAt casTold .atomic false 64 8).at_, .cas true 5 7, .data [1, 2, 3, 4, 5, 6, 7, 8]⟩] := by
  unfold State.hasRoom; and_intros <;> decide +kernel
theorem test_hyp_reduction_asks :
    pastMute.canonical ∧ operand false (pastMute.x 1) 0 8 8 = .ok 64 ∧
    pastMute.locate .atomic false 64 8 = .ok (pieceAt pastMute .atomic false 64 8) pastMute ∧
    pastMute.me.irrev = true ∧ pastMute.me.late = none ∧ pastMute.redsOpen pastMute.cur false = false ∧
    (reducing past).redsOpen past.cur false = true := by
  unfold State.canonical; and_intros <;> decide +kernel
theorem test_hyp_fences :
    sup.noResults ∧ sup.enginesIdle = true ∧ copying.noResults ∧ copying.enginesIdle = false ∧
    sup.redsOpen sup.cur true = false ∧ sup.redsOpen sup.cur false = false ∧ (reducing past).noResults ∧
    (reducing past).redsOpen past.cur true = true ∧ (reducing past).redsOpen past.cur false = true := by
  unfold State.noResults; and_intros <;> decide +kernel
theorem test_hyp_load_frame :
    (readsOf (.ld .d false 0 1 0 0)).isSome = true ∧ (supX 0 64 7 0).noResults ∧
    nextAnd (exec (.ld .d false 0 1 0 0) (supX 0 64 7 0)) (fun t => t.clk.traps == 0) = true ∧
    nextAnd (exec (.ld .d false 0 1 0 1) (supX 0 64 7 0)) (fun t => t.clk.traps == 1) = true := by
  unfold State.noResults; and_intros <;> decide +kernel
theorem test_hyp_load_injection :
    (supX 0 64 7 0).noInjection := by
  exact ⟨fun c => by unfold State.clus; rw [show (supX 0 64 7 0).clusters = [] by decide +kernel]; simp [kget, bitOf], fun w => by rw [show (supX 0 64 7 0).flaws = [] by decide +kernel]; rfl⟩
/-- With the eight shadow registers of a copy of 64 bytes from a vault to a vault (06_copy_and_galleys.md R103). -/
def shadowed (s : State) : State :=
  s.setMe { s.me with shadow := #v[0, 64, word (2 ^ 40 + 2 ^ 24 + 64), 0, 0, 5, 0, 0] }
/-- With its token 0 in a state. -/
def token (s : State) (t : TokSt) : State := s.setMe { s.me with tok := s.me.tok.set 0 t }

/-- With its cluster's copy inbox full. -/
def brimming : State := (supX 0 64 7 0).setClus 0 { (supX 0 64 7 0).clus 0 with
  copies := List.replicate 64 queued3 }

theorem test_hyp_copy_status :
    (∃ x ∈ (copying.clus (clusOf copying.cur)).transfers, x.id = 3) ∧
    (∀ x ∈ (sup.clus (clusOf sup.cur)).transfers, x.id ≠ 0xFFFF) ∧
    (∀ y ∈ (sup.clus (clusOf sup.cur)).kept, y.1 ≠ 0xFFFF) ∧
    ((sup.setClus 0 { sup.clus 0 with kept := [(9, 4)] }).clus 0).kept = [(9, 4)] := by
  and_intros <;> decide +kernel
theorem test_hyp_copy_launch :
    sup.hasRoom ∧ shadowFault sup.me.shadow ≠ 0 ∧ shadowFault (shadowed sup).me.shadow = 0 ∧
    ((token (shadowed sup) (.pending (.copy 3))).me.tok.get 0).isPending = true ∧
    ((shadowed sup).me.tok.get 0).isPending = false ∧ ((shadowed sup).clus (clusOf sup.cur)).inboxFull = false ∧
    ((shadowed sup).clus 0).transfers.length < 65000 ∧ bitOf ((shadowed sup).me.shadow.get 5).toNat 7 = false ∧
    ((shadowed sup).clus 0).copies = [] ∧ (shadowed sup).redsOpen (shadowed sup).cur false = false ∧
    (shadowed com).hasCommitted ∧ (shadowed brimming).redsOpen brimming.cur false = false ∧
    (shadowed brimming).hasRoom ∧ ((shadowed brimming).clus (clusOf brimming.cur)).inboxFull = true ∧
    (shadowed brimming).firstTime ∧ (3 : Look).val ≠ 0 := by
  unfold State.hasRoom State.hasCommitted State.firstTime; and_intros <;> decide +kernel
/-- Token 0 complete, token 1 in fault with code 5. -/
def tokens : State :=
  sup.setMe { sup.me with tok := (sup.me.tok.set 0 (.complete (.copy 3))).set 1 (.faulted (.copy 4) 5) }

theorem test_hyp_token_forms :
    sup.noResults ∧
    (∀ i : Fin 8, (1 : BitVec 8).getLsbD i.val = true → (tokens.me.tok.get i).code = 0 ∨ (tokens.me.tok.get i).code = 2) ∧
    (1 : BitVec 8).getLsbD 0 = true ∧ (token sup (.pending (.copy 3))).me.tok.get 0 = .pending (.copy 3) ∧
    (∀ i : Fin 8, (3 : BitVec 8).getLsbD i.val = true → (tokens.me.tok.get i).code ≠ 1) ∧
    tokens.me.tok.get 1 = .faulted (.copy 4) 5 ∧
    (∀ i : Fin 8, i < 1 → (3 : BitVec 8).getLsbD i.val = true → (tokens.me.tok.get i).code ≠ 3) ∧
    (∀ i : Fin 8, (0x80 : BitVec 8).getLsbD i.val = true → tokens.me.tok.get i = .unbound) ∧
    (∀ i : Fin 8, (i - tokens.me.wstart).val < ((0 : Fin 8) - tokens.me.wstart).val → (3 : BitVec 8).getLsbD i.val = true → (tokens.me.tok.get i).code < 2) ∧
    tokens.me.tok.get 0 = .complete (.copy 3) ∧
    (∀ i : Fin 8, (i - tokens.me.wstart).val < ((1 : Fin 8) - tokens.me.wstart).val → (2 : BitVec 8).getLsbD i.val = true → (tokens.me.tok.get i).code < 2) ∧
    (∀ i : Fin 8, (1 : BitVec 8).getLsbD i.val = true → ((token sup (.pending (.copy 3))).me.tok.get i).code < 2) := by
  unfold State.noResults; and_intros <;> decide +kernel
/-- With the record of a galley of one slot of 64 bytes at offset 0 of cluster 0, its slot word, and active or not. -/
def galley (s : State) (h w : Nat) (active : Bool) : State :=
  let t := (s.setGWord 0 0 w).setHeader 0 h
  t.setClus 0 { t.clus 0 with galleys := if active then [0] else [] }
/-- The header of an active record: V, base 0x1000. -/
def head0 : Nat := 1 + 64 * 2 ^ 10
/-- A slot word that expects 64 bytes in one arrival. -/
def want1 : Nat := 64 + 2 ^ 19

/-- The same with two bits of the record's header flipped. -/
def flawedGalley : State := { galley com head0 want1 true with flaws := [(0, true)] }

theorem test_hyp_galley_poison :
    flawedGalley.commitStops flawedGalley.cur = false ∧
    flawedGalley.commitAt flawedGalley.cur = (none, flawedGalley) ∧ flawedGalley.canonical ∧
    (flawedGalley.galBank 0 0).1 = true ∧
    flawedGalley.vaultGate (clusOf flawedGalley.cur) flawedGalley.me.ctx 0 = none ∧ 0 = clusOf flawedGalley.cur := by
  unfold State.canonical; and_intros <;> decide +kernel
theorem test_hyp_galley_commit :
    vaultOperand ((galley com (head0) (want1) true).x 1) 0 128 128 = .ok 0 ∧
    vaultKey (clusOf (galley com (head0) (want1) true).cur) 0 / 2 ^ 24 = 0 ∧
    (galley com (head0) (want1) true).commitAt (galley com (head0) (want1) true).cur = (none, (galley com (head0) (want1) true)) ∧
    (galley com (head0) (want1) true).canonical ∧ clusOf (galley com (head0) (want1) true).cur = 0 ∧
    (galley com (head0) (want1) true).commitStops (galley com (head0) (want1) true).cur = false ∧
    (galley com (head0) (want1) true).galBank 0 0 = (false, (galley com (head0) (want1) true)) ∧
    (galley com (head0 - 1) (want1) false).galBank 0 0 = (false, (galley com (head0 - 1) (want1) false)) ∧
    (galley com (head0 - 1) (want1) false).ginitBad 0 0 = false ∧ (galley com (head0 - 1) (want1) false).canonical ∧
    (galley com (head0) (want1) true).gActive 0 0 = true ∧
    gTsid ((galley com (head0) (want1) true).gHeader 0) = (galley com (head0) (want1) true).tsidOf (galley com (head0) (want1) true).me ∧
    vaultKey (clusOf com.cur) 0x80000000 / 2 ^ 24 ≠ clusOf com.cur ∧
    vaultOperand ((supX 0 0x80000000 0 0).x 1) 0 128 128 = .ok 0x80000000 := by
  unfold State.canonical; and_intros <;> decide +kernel
theorem test_hyp_galley_arrive :
    (galley com (head0) (want1) true).vaultGate (clusOf (galley com (head0) (want1) true).cur) (galley com (head0) (want1) true).me.ctx 0 = none ∧
    gFlt ((galley com (head0) (want1) true).gHeader 0) = false ∧
    ((galley com (head0) (want1) true).x 2).toNat % gSlots ((galley com (head0) (want1) true).gHeader 0) = 0 ∧
    nfld ((galley com (head0) (want1) true).gWord 0 0) 51 2 ≤ 1 ∧
    nfld ((galley com (head0) (want1) true).gWord 0 0) 25 19 + 64 ≤ nfld ((galley com (head0) (want1) true).gWord 0 0) 0 19 ∧
    nfld ((galley com (head0) (want1) true).gWord 0 0) 44 6 < nfld ((galley com (head0) (want1) true).gWord 0 0) 19 6 := by
  and_intros <;> decide +kernel
theorem test_hyp_galley_expect :
    64 + 2 ^ 19 < 2 ^ 25 ∧ (64 + 2 ^ 19) / 2 ^ 25 = 0 ∧
    nfld (64 + 2 ^ 19) 0 19 ≤ gSize ((galley com (head0) (want1) true).gHeader 0) ∧
    nfld ((galley com (head0) (want1) true).gWord 0 0) 51 2 = 0 ∧
    nfld ((galley com (head0) (want1) true).gWord 0 0) 25 19 = 0 ∧
    nfld ((galley com (head0) (want1) true).gWord 0 0) 44 6 = 0 ∧
    nfld ((galley com (head0) (want1) true).gWord 0 0) 0 25 ≠ 0 ∧
    nfld ((galley com (head0) (want1 + 2 * 2 ^ 51) true).gWord 0 0) 51 2 ≤ 2 := by
  and_intros <;> decide +kernel
theorem test_hyp_galley_observe :
    (galley com (head0) (want1) false).gActive 0 0 = false ∧
    ((if gFlt ((galley com (head0 + 2) (want1) true).gHeader 0) then 3 else nfld ((galley com (head0 + 2) (want1) true).gWord 0 0) 51 2) = 3) ∧
    ((if gFlt ((galley com (head0) (want1 + 2 * 2 ^ 51) true).gHeader 0) then 3 else nfld ((galley com (head0) (want1 + 2 * 2 ^ 51) true).gWord 0 0) 51 2) = 2) ∧
    bitOf ((galley com (head0) (want1) true).gWord 0 0) 50 = false ∧
    ((token (galley com (head0) (want1) true) (.pending (.copy 3))).me.tok.get 0).isPending = true ∧
    ((galley com (head0) (want1) true).me.tok.get 0).isPending = false := by
  and_intros <;> decide +kernel
/-- A queued command with a first word. -/
def cmdOf (w : Vector Word 8) (seq : Nat) (st : CmdSt) : MCmd := { words := w, seq := seq, st := st, since := 0, at_ := 0 }
/-- With the matrix unit of its core owned by its slot, in a state. -/
def unit (f : Matrix → Matrix) : State :=
  sup.setMx 8 (f { (sup.core 8).mx with owner := some 64, owned := true })
/-- A command of zeros. -/
def zeros (seq : Nat) : MCmd := cmdOf (Vector.replicate 8 0) seq .queued

theorem test_hyp_matrix_queue :
    sup.ownsMatrix sup.cur = false ∧ (unit id).ownsMatrix (unit id).cur = true ∧
    (unit id).redsOpen (unit id).cur false = false ∧ (reducing (unit id)).redsOpen (unit id).cur false = true ∧
    (unit fun m => { m with leaving := some 0 }).ownsMatrix 64 = false ∧
    (unit fun m => { m with stop := true }).myCore.mx.stop = true ∧ (unit id).myCore.mx.stop = false ∧
    16 ≤ (unit fun m => { m with queue := (List.range 16).map zeros }).myCore.mx.queue.length ∧
    (unit fun m => { m with queue := (List.range 15).map zeros }).myCore.mx.queue.length < 16 ∧
    ((unit id).me.tok.get 0).isPending = false ∧
    (∃ r ∈ (unit fun m => { m with queue := [zeros 0] }).myCore.mx.queue, r.seq = 0) ∧
    (∀ r ∈ (unit fun m => { m with outcomes := [(7, 0)] }).myCore.mx.queue, r.seq ≠ 7) ∧
    (unit fun m => { m with outcomes := [(6, 3), (7, 0)] }).myCore.mx.outcomes.find? (·.1 = 7) = some (7, 0) ∧
    (∀ o ∈ (unit id).myCore.mx.outcomes, o.1 ≠ 0) := by
  and_intros <;> decide +kernel
theorem test_hyp_lanes :
    ITy.bytes .i64 = 8 ∧ 4 ≤ ITy.bytes .i32 ∧ FTy.bytes .f16 = 2 ∧ VTy.bytes (.flt .f32) = 4 ∧ 64 / 8 = 8 := by
  and_intros <;> decide +kernel
theorem test_hyp_float_lanes :
    (mem0 0 64 8 0).hasRoom ∧ FTy.bytes .f32 = 4 ∧ FTy.fmt .f32 = fp32 := by
  unfold State.hasRoom; and_intros <;> decide +kernel
theorem test_hyp_predicates :
    (∀ k, k < 64 → ((mem0 0 64 8 0).p 0).getLsbD k = false) ∧
    (((mem0 0 64 8 0).setMe ((mem0 0 64 8 0).me.setP 0 0x8000000000000000)).p 0).getLsbD 63 = true ∧
    (∀ j, j < 63 → (((mem0 0 64 8 0).setMe ((mem0 0 64 8 0).me.setP 0 0x8000000000000000)).p 0).getLsbD j = false) ∧
    2 ^ (0 : Fin 4).val = 1 := by
  and_intros <;> decide +kernel
theorem test_hyp_reductions :
    (List.range 8).filter ((mem0 0 64 8 0).activeOpt (some 0) 8) = [] ∧
    (List.range 8).filter ((mem0 0 64 8 0).activeOpt none 8) = List.range 8 ∧ formatLane 1 = 4 ∧
    64 / Nat.max (formatLane 1) (formatLane 3) = 16 := by
  and_intros <;> decide +kernel
/-- A context of partition 0 that runs on cluster 0, its trap table and its code at the bottom of its space. -/
def ctx0 : Context :=
  { words := #v[0, 0, 0, 0x1000000000000, 0, 0, 0, 0], placement := [0], owners := [(0, 0)], st := .running }

/-- A running slot with weight 5 in that context: x1 a place, x2 an entry, x3 an amount. -/
def tenant : State :=
  let s := supX 1 0 0x82 4
  ({ s with ctxs := [(0, ctx0)] }.setClus 0 { s.clus 0 with ctx := some 0 }).setMe { s.me with wt := 5 }

/-- The same, with its slot changed. -/
def tenantWith (f : Slot → Slot) : State := tenant.setMe (f tenant.me)

/-- A message to place 0 with one unit of weight. -/
def letter : Msg :=
  { wt := 1, eline := 2, cls := 1, kslot := 0, ctx := 0, src := 64, dest := 0, spkg := 0, hpkg := 0, dpkg := 0,
    payload := [1, 2, 3, 4, 5, 6, 7, 8], arrived := 0 }

theorem test_hyp_send :
    tenant.me.spent = false ∧ 2 ≤ tenant.me.wt ∧ 1 ≤ (tenant.x 3).toNat ∧ (tenant.x 3).toNat < tenant.me.wt ∧
    (tenant.ctxOf tenant.me.ctx).entryValid (tenant.x 2) = true ∧ tenant.placeCheck (tenant.x 1) = .pass ∧
    tenant.me.irrev = false ∧ tenant.me.cbuf.length < 32 ∧
    32 ≤ (tenantWith fun a => { a with cbuf := List.replicate 32 (.send letter) }).me.cbuf.length ∧
    (tenantWith fun a => { a with irrev := true }).me.irrev = true ∧
    (tenantWith fun a => { a with irrev := true }).redsOpen 64 false = false ∧
    (reducing (tenantWith fun a => { a with irrev := true })).redsOpen 64 false = true := by
  and_intros <;> decide +kernel
theorem test_hyp_send_injection :
    tenant.noInjection := by
  exact ⟨fun c => by unfold State.clus; rw [show tenant.clusters = [(0, { ctx := some 0 })] by decide +kernel]; unfold kget; split <;> simp_all [kget, bitOf], fun w => by rw [show tenant.flaws = [] by decide +kernel]; rfl⟩
theorem test_hyp_send_refused :
    (tenantWith fun a => { a with spent := true }).me.spent = true ∧
    (tenantWith fun a => { a with wt := 1 }).me.wt < 2 ∧ (tenantWith fun a => { a with wt := 0 }).me.wt = 0 ∧
    tenant.x 4 = 0 ∧ (tenantWith fun a => { a with wt := 4 }).me.wt ≤ (tenant.x 3).toNat ∧
    (tenant.ctxOf tenant.me.ctx).entryValid (tenant.x 0) = false ∧ feederOf ((tenant.x 1).toNat % 2 ^ 16) = none ∧
    tenant.placeCheck 1 = .refused := by
  and_intros <;> decide +kernel
/-- A reduction is buffered, its port holds a request, and its row has no credit left. -/
def stopping : State :=
  { tenantWith fun a => { a with cbuf := [.red ⟨false, 64, 64, .add, true, 1, 0⟩] } with
    xbar := { tenant.xbar with ingress := [ofSlot], outstanding := List.replicate 256 (ofSlot, 0) } }
/-- A store of the kernel of the slot has no answer yet, and a combiner holds returns of its key, or none. -/
def writing (held : Bool) : State :=
  { tenantWith fun a => { a with irrev := true } with
    xbar := { tenant.xbar with outstanding := [({ ofSlot with op := .store [0] }, 0)] }
    home := { tenant.home with combiners := if held then [⟨0, 0, 0, 0, 5, 0⟩] else [] } }

theorem test_hyp_commit :
    tenant.noResults ∧ tenant.commitAt tenant.cur = (none, (tenant.commitAt 64).2) ∧
    (tenant.commitAt 64).2.cur = tenant.cur ∧
    (tenantWith fun a => { a with cbuf := [.send letter] }).me.cbuf = [.send letter] ∧
    tenant.commitStops tenant.cur = false ∧
    (tenantWith fun a => { a with cbuf := [.send letter] }).refusesMsg letter = false ∧
    tenant.refusesMsg { letter with dest := 128 } = true ∧ 0 < ({ letter with dest := 128 } : Msg).wt ∧
    tenant.me.spent = false ∧ (tenantWith fun a => { a with spent := true }).me.spent = true ∧ stopping.noResults ∧
    stopping.commitStops stopping.cur = true := by
  unfold State.noResults; and_intros <;> decide +kernel
theorem test_hyp_end_weight :
    (unit id).ownsMatrix (unit id).cur = true ∧ (unit fun m => { m with stop := true }).myCore.mx.stop = true ∧
    (unit fun m => { m with queue := [zeros 0] }).myCore.mx.queue ≠ [] ∧ tenant.ownsMatrix tenant.cur = false ∧
    tenant.me.cbuf = [] ∧ tenant.me.cfail = none ∧ tenant.me.late = none ∧
    (tenantWith fun a => { a with irrev := true }).redsOpen tenant.cur false = false ∧
    stopping.ownsMatrix stopping.cur = false ∧ 0 < tenant.me.wt ∧
    (tenant.clus (clusOf tenant.cur)).flightsOf tenant.me.act = 0 ∧ 2 ^ 32 - 1 < 5 + (2 ^ 32 - 5) ∧
    tenant.me.wt + (tenant.x 3).toNat ≤ 2 ^ 32 - 1 ∧ (tenant.x 3).toNat ≤ tenant.me.wt ∧
    (tenantWith fun a => { a with wt := 3 }).me.wt < (tenant.x 3).toNat ∧
    ((tenant.commitAt 64).2).holdsKey 0 0 0 0 = false ∧ (writing true).commitStops 64 = false ∧
    (writing true).commitAt 64 = (none, writing true) ∧ (writing true).holdsKey (shardOf (clusOf 64)) 0 0 0 = true ∧
    (writing true).writesOpen 0 0 = true ∧ (writing false).commitStops 64 = false ∧
    (writing false).commitAt 64 = (none, writing false) ∧
    (writing false).holdsKey (shardOf (clusOf 64)) 0 0 0 = false ∧ (writing false).writesOpen 0 0 = true := by
  and_intros <;> decide +kernel
/-- With the areas and quotas of formes, and forme 0 of partition 0 with a member of index 0. -/
def guild (f : Forme) : State :=
  let s := { tenant with regs := [(.frmarea 0, word (2 ^ 16)), (.frmquota 1 0, 100)], formes := [(0, f)] }
  s.setMe ((s.me.setH 1 (mkHandle false 0 f.gen 0 0)).setH 2 (mkHandle true 0 f.gen 0xFFFF 0))
/-- A forme of two members at most, with member 0 present. -/
def club : Forme := { gen := 1, maxm := 2, members := [⟨0, .present, 0, 0, 0, 0, none, false⟩] }

/-- The place of the generation byte of forme 1 of partition 0. -/
def okGen : Nat := ((guild club).genAddr 0 1).getD 0
/-- A store of the line of that byte waits in the write queue. -/
def wgen : State :=
  let s := (guild club).setMe { (guild club).me with irrev := true }
  { s with xbar := { s.xbar with wq := [⟨okGen / 64, .store okGen [7], []⟩] } }

theorem test_hyp_forme :
    (guild club).commitAt (guild club).cur = (none, ((guild club).commitAt 64).2) ∧
    ((guild club).commitAt 64).2.cur = (guild club).cur ∧
    (((guild club).commitAt 64).2.ctxOf ((guild club).commitAt 64).2.me.ctx).part = 0 ∧
    (guild club).commitStops (guild club).cur = false ∧
    (⟨0, .present, 0, 0, 0, 0, none, false⟩ : Member).leaveAfter = none ∧
    khas ((guild club).commitAt 64).2.formes 0 = true ∧ khas ((guild club).commitAt 64).2.formes 1 = false ∧
    (((guild club).commitAt 64).2.genAddr 0 1).isSome = true ∧
    ((guild club).commitAt 64).2.liveAt (homeDie 0 1) none < 4096 ∧
    ((guild club).commitAt 64).2.liveAt (homeDie 0 1) (some 0) < fld (((guild club).commitAt 64).2.reg (.frmquota (homeDie 0 1) 0)) 0 13 ∧
    ((guild club).commitAt 64).2.canonical ∧ (∀ e ∈ ((guild club).commitAt 64).2.xbar.wq, e.line ≠ 0 / 64) ∧
    (∃ e ∈ wgen.xbar.wq, e.line = okGen / 64) ∧ wgen.commitStops wgen.cur = false ∧
    wgen.commitAt wgen.cur = (none, wgen) ∧ wgen.genAddr 0 1 = some okGen ∧
    ((guild club).commitAt 64).2.forme 1 = none ∧ ((guild club).commitAt 64).2.forme 0 = some club ∧
    club.closed = false ∧ sameUnit club.scope club.creator ((guild club).commitAt 64).2.cur = true ∧
    club.freeIndex = some 1 ∧ ((guild club).commitAt 64).2.validHandle 0 (((guild club).commitAt 64).2.h 0) = none ∧
    ((guild club).commitAt 64).2.validHandle 0 (((guild club).commitAt 64).2.h 1) = some club ∧
    handleFo (((guild club).commitAt 64).2.h 1) = false ∧
    club.member (handleMix (((guild club).commitAt 64).2.h 1)) = some ⟨0, .present, 0, 0, 0, 0, none, false⟩ ∧
    handleFo (((guild club).commitAt 64).2.h 2) = true ∧
    ((guild club).commitAt 64).2.validHandle 0 (((guild club).commitAt 64).2.h 2) = some club ∧
    (guild club).validHandle (((guild club).ctxOf (guild club).me.ctx).part) ((guild club).h 1) = some club := by
  unfold State.canonical; and_intros <;> decide +kernel
theorem test_hyp_forme_shape :
    (0 : Nat) % 8 = 0 ∧ 5 < (6 : Nat) % 8 ∧ (1 : Nat) / 2 ^ 16 % 2 ^ 16 = 0 ∧ (0x20005 : Nat) / 8 % 2 ^ 13 = 0 ∧
    5 ≤ (0x20005 : Nat) % 8 ∧ 0 < (0x20005 : Nat) / 2 ^ 16 ∧ homeDie 0 8 = 1 ∧ homeDie 0 0 = 0 := by
  and_intros <;> decide +kernel
theorem test_hyp_arrival :
    (guild club).noResults ∧ club.cur.has 0 = false ∧ club.cur.kind = none ∧ club.held true < 16 ∧
    (guild club).x 0 = ((guild club).commitAt 64).2.x 0 ∧ 1 ≤ ((guild club).x 3).toNat ∧
    ((guild club).x 3).toNat < (guild club).me.wt ∧
    ((guild club).ctxOf (guild club).me.ctx).entryValid ((guild club).x 2) = true ∧ PhKind.plain ≠ .vote 0 ∧
    ((guild club).me.tok.get 0).isPending = false := by
  unfold State.noResults; and_intros <;> decide +kernel
/-- A forme whose sixteen waiters are held, in phase 5. -/
def crowd : Forme := { club with phase := 5, waiters := List.replicate 16 ⟨64, 0, 9, true⟩ }
/-- An activation that has committed, in a partition whose overflow ring is full. -/
def crowded : State := { (guild crowd).setMe { (guild crowd).me with irrev := true } with overflow := [(0, 1)] }

theorem test_hyp_arrival_full :
    crowded.commitStops crowded.cur = false ∧ crowded.commitAt crowded.cur = (none, crowded) ∧ crowd.held true = 16 ∧
    2 ^ fld (crowded.reg (.frmarea 0)) 0 5 ≤ kget 0 crowded.overflow 0 ∧
    crowded.validHandle 0 (crowded.h 1) = some crowd := by
  and_intros <;> decide +kernel
theorem test_hyp_phase_wait :
    1 ≤ (crowd.phase + 2 ^ 32 - 4) % 2 ^ 32 ∧ (crowd.phase + 2 ^ 32 - 4) % 2 ^ 32 ≤ 2 ^ 31 ∧
    (crowd.phase + 2 ^ 32 - 5) % 2 ^ 32 = 0 ∧ 2 ^ 31 < (crowd.phase + 2 ^ 32 - 6) % 2 ^ 32 ∧
    (((guild club).setMe { (guild club).me with irrev := true }).commitAt 64) = (none, (guild club).setMe { (guild club).me with irrev := true }) := by
  and_intros <;> decide +kernel
/-- A request of port 32's sub-port 0, whose row allows memory port 0. -/
def ask : PortReq :=
  { row := 32, tag := 7, src := 0xFFFF, pa := 0x40, op := .load 4, posted := false, replay := false, reissues := 0 }
/-- Row 32 allows memory port 0, and the crossbar holds what is given. -/
def wired (f : Xbar → Xbar) : State := { tenant with xbar := f { tenant.xbar with rows := kset tenant.xbar.rows 32 1 } }
/-- At the hub cycle given. -/
def atHub (n : Nat) (s : State) : State := { s with clk := { s.clk with hub := n } }
/-- With messages under way. -/
def afloat (s : State) (l : List Flight) : State := { s with net := l }

theorem test_hyp_request_allowed :
    (wired id).fw.halted = false ∧ rowAllows ((wired id).row ask.row) (tgtOf ask.pa) = true ∧
    (wired id).spent ask.row ask.pa = false ∧ ask.posted = false ∧ ask.replay = false ∧
    rowAllows ((wired id).row ask.row) (tgtOf { ask with pa := 2 ^ 42 }.pa) = false ∧
    rowAllows ((wired id).row 96) (tgtOf ask.pa) = false ∧ linkPort 96 = some 0 := by
  and_intros <;> decide +kernel
theorem test_hyp_request_refusal :
    (wired fun x => { x with refusals := [ask] }).xbar.refusals[0]? = some ask ∧ 32 ≤ ask.row ∧ ask.row < 96 ∧
    ({ ask with posted := true } : PortReq).posted = true := by
  and_intros <;> decide +kernel
/-- A load of the slot at virtual address 0x123, and a reduction, which its row refused. -/
def refusedLoad : PortReq := { ofSlot with va := some 0x123 }
def refusedRed : PortReq := { refusedLoad with op := .red .add true 1 }

theorem test_hyp_request_refusal_slot :
    (wired fun x => { x with refusals := [refusedLoad] }).xbar.refusals[0]? = some refusedLoad ∧
    refusedLoad.row < 32 ∧ isSlot refusedLoad.src = true ∧
    ((wired fun x => { x with refusals := [refusedLoad] }).slot refusedLoad.src).made refusedLoad = true ∧
    ((wired fun x => { x with refusals := [refusedLoad] }).slot refusedLoad.src).dying = none ∧
    refusedLoad.op = .load 8 ∧ isPortRed refusedRed.op = true ∧ refusedRed.va = some 0x123 ∧
    refusedLoad.va = some 0x123 := by
  and_intros <;> decide +kernel
theorem test_hyp_request_response :
    (wired fun x => { x with resps := [⟨ask, [1, 2, 3, 4], false, false, false⟩], outstanding := [(ask, 0)] }).xbar.resps[0]? = some ⟨ask, [1, 2, 3, 4], false, false, false⟩ ∧
    (∃ x ∈ (wired fun x => { x with resps := [⟨ask, [1, 2, 3, 4], false, false, false⟩], outstanding := [(ask, 0)] }).xbar.outstanding, sameReq x.1 ask = true) := by
  and_intros <;> decide +kernel
theorem test_hyp_request_served :
    (wired fun x => { x with reqs := [ask] }).xbar.reqs[0]? = some ask ∧ tgtOf ask.pa < 24 ∧ ask.op = .load 4 ∧
    (wired fun x => { x with reqs := [ask] }).xbar.ingress = [] ∧
    (wired fun x => { x with reqs := [ask] }).xbar.wq = [] ∧ ask.replay = false ∧ ask.posted = false ∧
    (∀ p ∈ (wired fun x => { x with reqs := [ask] }).xbar.reqs.take 0, sameReq p ask = false) ∧
    tgtOf ask.pa ∉ (wired fun x => { x with reqs := [ask] }).xbar.silent ∧ ofsOf ask.pa < 2 ^ 39 ∧
    2 ^ 39 ≤ ofsOf ({ ask with pa := 2 ^ 39 } : PortReq).pa ∧
    ({ ask with op := .store [1, 2] } : PortReq).op = .store [1, 2] ∧ 0 < ([1, 2] : List Byte).length ∧
    ask.pa % 64 + ([1, 2] : List Byte).length ≤ 64 := by
  and_intros <;> decide +kernel
theorem test_hyp_request_replayed :
    (wired fun x => { x with reqs := [({ ask with replay := true, reissues := 1 } : PortReq)], applied := [⟨0, 32, 7, [9]⟩] }).xbar.reqs[0]? = some ({ ask with replay := true, reissues := 1 } : PortReq) ∧
    ({ ask with replay := true, reissues := 1 } : PortReq).replay = true ∧
    (wired fun x => { x with reqs := [({ ask with replay := true, reissues := 1 } : PortReq)], applied := [⟨0, 32, 7, [9]⟩] }).xbar.applied.find? (fun x => x.port = tgtOf ({ ask with replay := true, reissues := 1 } : PortReq).pa ∧
    x.row = ({ ask with replay := true, reissues := 1 } : PortReq).row ∧
    x.tag = ({ ask with replay := true, reissues := 1 } : PortReq).tag) = some ⟨0, 32, 7, [9]⟩ := by
  and_intros <;> decide +kernel
theorem test_hyp_request_timeout :
    (atHub 4101 (wired fun x => { x with outstanding := [(ask, 5)] })).xbar.outstanding[0]? = some (ask, 5) ∧
    5 + 4096 ≤ (atHub 4101 (wired fun x => { x with outstanding := [(ask, 5)] })).rowClock ask.row ∧
    (atHub 4101 (wired fun x => { x with outstanding := [(ask, 5)] })).fw.halted = false ∧
    ({ ask with reissues := 7 } : PortReq).reissues < 8 ∧ 8 ≤ ({ ask with reissues := 8 } : PortReq).reissues := by
  and_intros <;> decide +kernel
theorem test_hyp_fill_drain :
    (wired fun x => { x with fills := [⟨0, 3, true⟩, ⟨0, 4, false⟩], wq := [⟨1, .red .add true [(64, 3)], []⟩] }).xbar.fills[0]? = some ⟨0, 3, true⟩ ∧
    (wired fun x => { x with fills := [⟨0, 3, true⟩, ⟨0, 4, false⟩], wq := [⟨1, .red .add true [(64, 3)], []⟩] }).xbar.fills[1]? = some ⟨0, 4, false⟩ ∧
    (wired fun x => { x with fills := [⟨0, 3, true⟩, ⟨0, 4, false⟩], wq := [⟨1, .red .add true [(64, 3)], []⟩] }).xbar.wq.find? (fun x => x.line / 2 ^ 36 = 0) = some ⟨1, .red .add true [(64, 3)], []⟩ ∧
    (wired fun x => { x with fills := [⟨0, 3, true⟩, ⟨0, 4, false⟩], wq := [⟨1, .red .add true [(64, 3)], []⟩] }).xbar.ingress = [] := by
  and_intros <;> decide +kernel
theorem test_hyp_remote_vault :
    isSlot 64 = true ∧ (tenant.slot 64).occ = true ∧ vaultOperand 1 0 2 2 = .bad 3 1 ∧
    vaultOperand 0xBFFFFE 0 2 2 = .ok 0xBFFFFE ∧
    vaultOperand 0 0 ([1, 2] : List Byte).length ([1, 2] : List Byte).length = .ok 0 ∧
    vaultOperand 0x80000000 0 2 2 = .ok 0x80000000 ∧
    tenant.vaultRefusal (clusOf 64) (tenant.slot 64).ctx 0 ⟨false, true, false⟩ = none ∧ tenant.inGalley 0 2 = false ∧
    (tenant.vaultRefusal 0 0 (vaultKey 0 0x80000000) ⟨false, true, false⟩).isSome = true ∧ (tenant.slot 64).outs = [] := by
  and_intros <;> decide +kernel
/-- A tagged request that its bank returned. -/
def sent : HeldReq :=
  { place := 64, ofs := 8, form := .ldf, dest := 3, data := 0, pc := 2, inWin := false, returned := true, since := 3 }
/-- With a result that has been computed, and a late failure. -/
def owing : State := (tenantWith fun a => { a with outs :=
  [{ pc := 0, dests := [], val := .ok [] {}, left := 1, lah := 0, ovw := [], back := false }] })
def late7 : State := tenantWith fun a => { a with late := some (7, 0x40) }

theorem test_hyp_returns :
    ((atHub 67 (tenant.setClus 0 { tenant.clus 0 with held := [sent] })).clus 0).held[0]? = some sent ∧
    sent.returned = true ∧
    sent.since + 64 ≤ (atHub 67 (tenant.setClus 0 { tenant.clus 0 with held := [sent] })).dieClock (0 / 64) ∧
    (owing.slot 64).outs[0]? = some { pc := 0, dests := [], val := .ok [] {}, left := 1, lah := 0, ovw := [], back := false } ∧
    OutVal.ok [] {} ≠ .waiting ∧ OutVal.ok [] {} ≠ .deferred ∧
    (atHub 67 (tenant.setClus 0 { tenant.clus 0 with held := [sent] })).heldReady (0 * 2 ^ 24 + sent.ofs) sent.form = true ∧
    (late7.slot 64).late = some (7, 0x40) ∧ (late7.slot 64).occ = true ∧ (late7.slot 64).halted = false ∧
    (late7.slot 64).park = .run ∧ (late7.slot 64).outs = [] := by
  and_intros <;> decide +kernel
/-- A line of cluster 0's memory that a prefetch fetches in physical mode, shoot-downs and translations that wait. -/
def line0 : Prefetch := ⟨0, 5, 64, 1, false, true, false, false⟩
def fetching : State := tenant.setCore 8 { tenant.core 8 with prefetch := [line0] }
def pinnedLine : State :=
  fetching.setCore 8 { fetching.core 8 with icache := [⟨5, 64, List.replicate 64 1, some 0, 64⟩] }
def shooting : State := { tenant with sdowns := [⟨64, 0, 0, []⟩] }
/-- A reduction at the page of a shoot-down stands in the commit buffer of another slot of its context. -/
def redWaits : State := { (tenant.setSlot 0 { tenant.me with cbuf := [.red ⟨false, 64, 64, .add, true, 1, 0⟩] }) with
  sdowns := [⟨64, 0, word (4 * (tenant.ctxOf 0).tsid), []⟩] }
def wanting : State := tenant.setClus 0 { tenant.clus 0 with reqs := [⟨1, 5, 0x10000, [⟨.slot 0, 1, false, 0x10000, 0x10000⟩], false, false, false⟩] }

theorem test_hyp_prefetch :
    (fetching.core 8).prefetch[0]? = some line0 ∧ fetching.fw.halted = false ∧ line0.phys = true ∧
    fetching.portRefusal (shardOf (8 / 16)) (line0.va % 2 ^ 48) = none ∧
    fetching.mustAsk (line0.va % 2 ^ 48) true = false ∧ (fetching.core 8).pans = none ∧
    fetching.askedFor (prefetchReq 8 line0 (line0.va % 2 ^ 48)) = false ∧
    fetching.linkDown (line0.va % 2 ^ 48) = false ∧ line0.pin = false ∧ line0.count ≤ 1 ∧
    (∀ l ∈ fetching.levelCache 8 line0, line0.isLine l = true → l.pinned = none) ∧
    (∃ l ∈ pinnedLine.levelCache 8 line0, line0.isLine l = true ∧ l.pinned ≠ none) := by
  and_intros <;> decide +kernel
theorem test_hyp_shootdown_translation :
    shooting.sdowns.find? (fun x => x.place = 64) = some ⟨64, 0, 0, []⟩ ∧
    shooting.nodeReady ⟨64, 0, 0, []⟩ 553 = true ∧ (553 : Nat) ≠ 0 ∧
    redWaits.sdowns.find? (fun x => x.place = 64) = some ⟨64, 0, word (4 * (tenant.ctxOf 0).tsid), []⟩ ∧
    redWaits.redHeld ⟨64, 0, word (4 * (tenant.ctxOf 0).tsid), []⟩ 0 = true ∧
    (wanting.clus 0).reqs.find? (fun x => !x.bound) = some ⟨1, 5, 0x10000, [⟨.slot 0, 1, false, 0x10000, 0x10000⟩], false, false, false⟩ ∧
    wanting.canBind (coreIn 0 8 * 8 + 7) = true := by
  and_intros <;> decide +kernel
/-- A message to slot 0 of worker core 0, on its way. -/
def flight : Flight := ⟨{ letter with dest := 0, ctx := 0 }, false, 0, false⟩
/-- It, kept by its sender; and one for package 1, whose route is port 2. -/
def kept : Flight := { flight with held := true }
def abroad : Flight := { flight with msg := { letter with dpkg := 1 } }
def routed : State := { afloat tenant [abroad] with regs := [(.sprt 1, 0x12)] }

theorem test_hyp_message_arrival :
    (afloat tenant [flight]).netFirst 0 = some (0, flight) ∧ flight.held = false ∧ flight.ring = false ∧
    flight.msg.dpkg = (afloat tenant [flight]).fw.pkg ∧ feederOf flight.msg.dest = none ∧
    (afloat tenant [flight]).deliverable flight.msg = true ∧ (afloat tenant [flight]).dropsAt flight.msg = false ∧
    (afloat tenant [flight]).runsOn 0 0 = true ∧ ((afloat tenant [flight]).clus 0).switch = none ∧
    ((afloat tenant [flight]).core 0).inbox.length < 64 ∧ ((afloat tenant [flight]).core 0).ring.count = 0 := by
  and_intros <;> decide +kernel
theorem test_hyp_message_forward :
    (atHub 256 (afloat tenant [kept])).net[0]? = some kept ∧ kept.held = true ∧
    kept.since + 256 ≤ (atHub 256 (afloat tenant [kept])).msgClock kept.msg ∧
    routed.writesOpen abroad.msg.ctx abroad.msg.kslot = false ∧ routed.netFirst 0 = some (0, abroad) ∧
    abroad.msg.dpkg ≠ routed.fw.pkg ∧ routed.routeTo 1 = some 2 := by
  and_intros <;> decide +kernel
/-- A message in the inbox of worker core 0, its descriptor line at entry 2, for no quire; and one in its ring. -/
def waiting : State :=
  atHub 4 (tenant.setCore 0 { tenant.core 0 with inbox := [⟨flight.msg, 1, 3⟩], l1 := [⟨0, 0, tenant.tsidOf tenant.me, 0, false, true, true, false, true⟩], icache := [⟨tenant.tsidOf tenant.me, 64, List.replicate 64 0, some 0, 64⟩] })
def ringed : State := tenant.setCore 0 { tenant.core 0 with ring := { ahead := [flight.msg] } }

theorem test_hyp_message_refill :
    (ringed.clus 0).ctx = some 0 ∧ (ringed.clus 0).switch = none ∧ (ringed.core 0).inbox.length ≤ 48 ∧
    (ringed.core 0).ring.ahead = [flight.msg] ∧ (ringed.core 0).ring.stored = 0 := by
  and_intros <;> decide +kernel
/-- The descriptor read for it, and the state after the reading. -/
def desc : List Word := match waiting.readDescriptor 0 0 ((waiting.ctxOf 0).descLine 2) with
  | .words d _ => d
  | _ => [1]
def afterDesc : State := match waiting.readDescriptor 0 0 ((waiting.ctxOf 0).descLine 2) with
  | .words _ u => u
  | _ => waiting

theorem test_hyp_message_bind :
    waiting.canBind 0 = true ∧ (waiting.clus 0).switch = none ∧ (waiting.core 0).inbox = [⟨flight.msg, 1, 3⟩] ∧
    3 < waiting.dieClock (0 / 1024) ∧ (waiting.core 0).gang = none ∧ waiting.front.gangs = [] ∧
    (waiting.clus (0 / 16)).notices = 0 ∧
    waiting.readDescriptor 0 0 ((waiting.ctxOf 0).descLine 2) = .words desc afterDesc ∧
    afterDesc.core 0 = waiting.core 0 ∧ afterDesc.ctxs = waiting.ctxs ∧ descriptorBad desc = false ∧
    bitOf (desc.getD 0 0).toNat 1 = false ∧ (desc.getD 0 0).toNat / 2 ^ 8 % 8 = 0 := by
  and_intros <;> decide +kernel
/-- Kernel 3 of context 0 runs with weight 10, and a wire stands on its way home. -/
def running (h l : Nat) (w : List Wire) : State :=
  { tenant.setKernel 0 3 { st := .running, w := 10, h := h, l := l, wto := 1, quiet := 4096 } with
    home := { (tenant.setKernel 0 3 { st := .running, w := 10, h := h, l := l, wto := 1, quiet := 4096 }).home with wires := w } }

theorem test_hyp_home :
    ((running 7 0 [.ret 0 3 0 3 64]).kernel 0 3).st = .running ∧
    7 + 0 + 3 ≤ ((running 7 0 [.ret 0 3 0 3 64]).kernel 0 3).w ∧
    (running 7 0 [.ret 0 3 0 3 64]).home.wires[0]? = some (.ret 0 3 (running 7 0 [.ret 0 3 0 3 64]).fw.pkg 3 64) ∧
    (running 7 0 [.ret 0 3 0 3 64]).statsAhead 0 0 3 (running 7 0 [.ret 0 3 0 3 64]).fw.pkg = false ∧
    (running 7 0 [.ret 0 3 0 3 64]).writesOpen 0 3 = false ∧
    (running 4 0 [.ret 0 3 0 3 64, .borrow 0 3 0 3 64 0 9]).home.wires[1]? = some (.borrow 0 3 (running 4 0 [.ret 0 3 0 3 64, .borrow 0 3 0 3 64 0 9]).fw.pkg 3 64 0 9) ∧
    (running 4 0 [.ret 0 3 0 3 64, .borrow 0 3 0 3 64 0 9]).wireAhead 1 (fun w => w.isRet 0 3 (running 4 0 [.ret 0 3 0 3 64, .borrow 0 3 0 3 64 0 9]).fw.pkg) = true ∧
    (running 2 0 [.borrow 0 3 0 3 64 0 9]).wireAhead 0 (fun w => w.isRet 0 3 (running 2 0 [.borrow 0 3 0 3 64 0 9]).fw.pkg) = false ∧
    (7 : Nat) + 3 = ((running 7 0 [.ret 0 3 0 3 64]).kernel 0 3).w ∧ (running 7 0 [.ret 0 3 0 3 64]).formes = [] ∧
    4 + 3 + 2 < ((running 4 2 [.ret 0 3 0 3 64]).kernel 0 3).w ∧
    (running 4 2 [.loss 0 3 0 3 4 64]).home.wires[0]? = some (.loss 0 3 (running 4 2 [.loss 0 3 0 3 4 64]).fw.pkg 3 4 64) ∧
    (running 2 0 [.borrow 0 3 0 3 64 0 9]).home.wires[0]? = some (.borrow 0 3 (running 2 0 [.borrow 0 3 0 3 64 0 9]).fw.pkg 3 64 0 9) ∧
    ((running 2 0 [.borrow 0 3 0 3 64 0 9]).kernel 0 3).h < 3 ∧
    3 ≤ ((running 4 0 [.borrow 0 3 0 3 64 0 9]).kernel 0 3).h := by
  and_intros <;> decide +kernel
/-- The state after the return that damages kernel 3 was counted, its statistics step taken; and after its fence. -/
def hurt : State := ((((running 5 2 [.ret 0 3 0 3 64]).dropWire 0).setKernel 0 3 { (running 5 2 [.ret 0 3 0 3 64]).kernel 0 3 with
  last := (running 5 2 [.ret 0 3 0 3 64]).homeCycle, stall := false, quiet := 0, h := 8 }).leaveRunning 0 3 .damaged).toStage 0 3 1
def hurtFence : State := hurt.writeFence (hurt.ctxOf 0).part 0 0 true

theorem test_hyp_home_damaged :
    (running 5 2 [.ret 0 3 0 3 64]).home.wires[0]? = some (.ret 0 3 (running 5 2 [.ret 0 3 0 3 64]).fw.pkg 3 64) ∧
    (running 5 2 [.ret 0 3 0 3 64]).statsAhead 0 0 3 (running 5 2 [.ret 0 3 0 3 64]).fw.pkg = false ∧
    (running 5 2 [.ret 0 3 0 3 64]).writesOpen 0 3 = false ∧
    (5 : Nat) + 3 + 2 = ((running 5 2 [.ret 0 3 0 3 64]).kernel 0 3).w ∧
    0 < ((running 5 2 [.ret 0 3 0 3 64]).kernel 0 3).l ∧ ((running 5 2 [.ret 0 3 0 3 64]).kernel 0 3).stage = 0 ∧
    ((running 5 2 [.ret 0 3 0 3 64]).kernel 0 3).sblk = 0 ∧ hurt.hubOpen (hurt.ctxOf 0).part = false ∧
    hurtFence.hubOpen (hurt.ctxOf 0).part = false := by
  and_intros <;> decide +kernel
/-- The slot waits for a grant, and a wire stands on its way to it. -/
def begging (w : Wire) : State :=
  { (tenantWith fun a => { a with park := .grant 3, kslot := 3 }) with home := { tenant.home with wires := [w] } }
/-- Wires of counts and of combined returns. -/
def wiring (w : List Wire) (c : List Combine) : State := { tenant with home := { tenant.home with wires := w, combiners := c } }

theorem test_hyp_grant :
    ((begging (.grant 0 0 3 0 64 3 0)).slot 64).occ = true ∧
    ((begging (.grant 0 0 3 0 64 3 0)).slot 64).park = .grant 3 ∧
    ((begging (.grant 0 0 3 0 64 3 0)).slot 64).ctx = 0 ∧ ((begging (.grant 0 0 3 0 64 3 0)).slot 64).kslot = 3 ∧
    ((begging (.grant 0 0 3 0 64 3 0)).slot 64).act = 0 ∧
    (begging (.grant 0 0 3 0 64 3 0)).home.wires[0]? = some (.grant (begging (.grant 0 0 3 0 64 3 0)).fw.pkg 0 3 0 64 3 0) ∧
    (begging (.refuse 0 0 3 64 3 0)).home.wires[0]? = some (.refuse (begging (.refuse 0 0 3 64 3 0)).fw.pkg 0 3 64 3 0) := by
  and_intros <;> decide +kernel
theorem test_hyp_grant_lost :
    ({ tenant with home := { tenant.home with wires := [.grant 0 0 3 0 64 3 0] } } : State).home.wires[0]? = some (.grant ({ tenant with home := { tenant.home with wires := [.grant 0 0 3 0 64 3 0] } } : State).fw.pkg 0 3 0 64 3 0) ∧
    (({ tenant with home := { tenant.home with wires := [.grant 0 0 3 0 64 3 0] } } : State).slot 64).waitsGrant 0 3 3 0 = false ∧
    ({ tenant with home := { tenant.home with wires := [.grant 0 0 3 0 64 3 0] } } : State).saved = [] := by
  and_intros <;> decide +kernel
theorem test_hyp_combine :
    (wiring [.stats 0 3 0 [⟨1, 2, 3, 4⟩]] []).home.wires[0]? = some (.stats 0 3 (wiring [.stats 0 3 0 [⟨1, 2, 3, 4⟩]] []).fw.pkg [⟨1, 2, 3, 4⟩]) ∧
    ((wiring [.stats 0 3 0 [⟨1, 2, 3, 4⟩]] []).kernel 0 3).stats = [] ∧
    (wiring [.combine 0 0 3 0 5] []).home.wires[0]? = some (.combine 0 0 3 0 5) ∧
    (wiring [.combine 0 0 3 0 5] []).home.combiners = [] ∧
    (wiring [.combine 0 0 3 0 5] [⟨0, 0, 3, 0, 2 ^ 32 - 6, 9⟩]).home.wires[0]? = some (.combine 0 0 3 0 5) ∧
    (wiring [.combine 0 0 3 0 5] [⟨0, 0, 3, 0, 2 ^ 32 - 6, 9⟩]).home.combiners = [⟨0, 0, 3, 0, 2 ^ 32 - 6, 9⟩] ∧
    2 ^ 32 - 6 + 5 ≤ 2 ^ 32 - 1 ∧ (atHub 265 (wiring [] [⟨0, 0, 3, 0, 5, 9⟩])).home.combiners = [⟨0, 0, 3, 0, 5, 9⟩] ∧
    9 + 256 ≤ (atHub 265 (wiring [] [⟨0, 0, 3, 0, 5, 9⟩])).dieClock (0 / 4) ∧
    (atHub 265 (wiring [] [⟨0, 0, 3, 0, 5, 9⟩])).canFlush ⟨0, 0, 3, 0, 5, 9⟩ = true := by
  and_intros <;> decide +kernel
/-- Kernel 3 of context 0 is completing, with its fence at host address 64. -/
def finishing : State := tenant.setKernel 0 3 { st := .completing, w := 10, h := 10, faddr := hostBase + 64, fval := 7 }
/-- The same with counts on their way, and with its fence on its way. -/
def counting : State := { finishing with home := { finishing.home with wires := [.stats 0 3 0 []] } }
def fencing : State := { finishing.toStage 0 3 2 with xbar := { finishing.xbar with
  outstanding := [({ row := 384, tag := 0, src := 65536, pa := 64, op := .store [0], posted := false, replay := false, reissues := 0 }, 0)] } }
/-- Kernel 3 has had no activity for its time, its slot gone. -/
def stalled : State := { running 3 0 [] with slots := [] }

theorem test_hyp_completion :
    (finishing.kernel 0 3).st = .completing ∧ (finishing.kernel 0 3).stage = 0 ∧ finishing.hubOpen 0 = false ∧
    ((finishing.toStage 0 3 1).writeFence 0 (hostBase + 64) 7 false).hubOpen 0 = false ∧
    ((finishing.toStage 0 3 1).writeFence 0 (hostBase + 64) 7 false).leavesOut 0 3 = false ∧
    (finishing.ctxOf 0).part = 0 ∧ counting.statsOut 0 3 = true ∧ (counting.kernel 0 3).st = .completing ∧
    (counting.kernel 0 3).stage = 0 ∧ (fencing.kernel 0 3).stage = 2 ∧ (fencing.kernel 0 3).st = .completing ∧
    fencing.hubOpen 0 = true ∧ finishing.statsOut 0 3 = false ∧ (finishing.kernel 0 3).cont = 0 ∧
    (finishing.kernel 0 3).sblk = 0 ∧ (stalled.kernel 0 3).st = .running ∧ (stalled.kernel 0 3).stall = false ∧
    (stalled.kernel 0 3).wto ≠ 0 ∧ (stalled.kernel 0 3).wto * 4096 ≤ (stalled.kernel 0 3).quiet ∧
    stalled.stallHolds 0 3 = true := by
  and_intros <;> decide +kernel
theorem test_hyp_answers :
    ((tenantWith fun a => { a with park := .answer (.done [.x 3 9] none) }).slot 64).outs = [] ∧
    ((tenantWith fun a => { a with park := .answer (.done [.x 3 9] none) }).slot 64).rex = none ∧
    ((tenantWith fun a => { a with park := .answer (.done [.x 3 9] none) }).slot 64).park = .answer (.done [.x 3 9] none) ∧
    ((tenantWith fun a => { a with park := .woken 3 9 }).slot 64).park = .woken 3 9 ∧
    ((tenantWith fun a => { a with park := .deleted }).slot 64).park = .deleted := by
  and_intros <;> decide +kernel
/-- Feeder 0 at memory port 0 stands at a record at address 0x1000, with nine units of a list of context 0. -/
def feeding (s : State) (w : List Word) (f : Feeder → Feeder) : State :=
  { s with mem := writeBytes s.mem 0x1000 (w.flatMap fun x : Word => leBytes 8 x.toNat) }.setFeeder 0 (f { st := .running, list := 0x1000, hold := 9, ctx := 0, kslot := 3, tlb := [⟨0, 0, (s.ctxOf 0).tsid, 0, false, true, false, true, true⟩], p := #v[0x2000, 0, 0, 0, 0, 0, 0] })
/-- What a step of a feeder comes to, where it comes to a value. -/
def feedVal {α : Type} (d : α) (x : Feed α) : α :=
  match x with
  | .ok a _ => a
  | _ => d
/-- A message to feeder 0. -/
def toFeeder (list : Word) : Flight :=
  ⟨{ letter with wt := 9, kslot := 3, dest := feederPlace 0, payload := [list, 1, 2, 3, 4, 5, 6, 7] }, false, 0, false⟩

theorem test_hyp_feeder_arrival :
    (afloat tenant [toFeeder 0x1000]).netFirst 0 = some (0, toFeeder 0x1000) ∧
    feederOf (toFeeder 0x1000).msg.dest = some 0 ∧ (toFeeder 0x1000).held = false ∧
    (toFeeder 0x1000).msg.dpkg = (afloat tenant [toFeeder 0x1000]).fw.pkg ∧
    ((afloat tenant [toFeeder 0x1000]).ctxOf (toFeeder 0x1000).msg.ctx).part = (afloat tenant [toFeeder 0x1000]).feederPart 0 ∧
    ((afloat tenant [toFeeder 0x1000]).feeder 0).inbox.length + ((afloat tenant [toFeeder 0x1000]).feeder 0).away.countP (fun m => (afloat tenant [toFeeder 0x1000]).inSlice m.ctx) < 16 := by
  and_intros <;> decide +kernel
theorem test_hyp_feeder_start :
    ((tenant.setFeeder 0 { inbox := [(toFeeder 0x1000).msg] }).feeder 0).st = .idle ∧
    ((tenant.setFeeder 0 { inbox := [(toFeeder 0x1000).msg] }).feeder 0).saved = [] ∧
    ((tenant.setFeeder 0 { inbox := [(toFeeder 0x1000).msg] }).feeder 0).queued = [(toFeeder 0x1000).msg] ∧
    (tenant.setFeeder 0 { inbox := [(toFeeder 0x1000).msg] }).inSlice (toFeeder 0x1000).msg.ctx = true ∧
    ((toFeeder 0x1000).msg.payload.getD 0 0).toNat % 2 ^ 56 % 32 = 0 := by
  and_intros <;> decide +kernel
/-- A PUSH of one row of 64 bytes into slot 0 of the galley at offset 0 of cluster 0, and the galley active there. -/
def pushWords : List Word := [0x1101, 0, word (64 + 2 ^ 24), 0]
def pushing : State := feeding (galley tenant (head0 + (tenant.ctxOf 0).tsid * 2 ^ 28) want1 true) pushWords id
def pushSeen : State := pushing.setFeeder 0 { pushing.feeder 0 with seen := [0] }
def pushedTo : State :=
  match pushSeen.pushRows 0 0x2000 0 64 none (fun t i r => t.putRow 0 0 0 0 [0] i r) 0 1 with
  | .ok _ u => u
  | _ => pushSeen
/-- The bytes of its row, and the state with them in the slot. -/
def pushRow : List Byte := feedVal [] (pushSeen.feedRead 0 (fld 0x2000 0 56) 64 (tagOf 0x2000))
def pushPut : State := { pushing with vault := writeBytes pushing.vault 0x1000 pushRow }

theorem test_hyp_push :
    pushing.feedsRecord 0 1 pushWords ∧ bitOf (pushWords.getD 0 0).toNat 4 = false ∧
    bitOf (pushWords.getD 0 0).toNat 5 = false ∧ bitOf (pushWords.getD 0 0).toNat 6 = false ∧
    0 < fld (pushWords.getD 2 0) 24 16 ∧ 0 < fld (pushWords.getD 2 0) 0 24 ∧ fld (pushWords.getD 0 0) 8 3 ≠ 0 ∧
    fld (pushWords.getD 0 0) 11 3 ≠ 0 ∧ pushing.feedGalleys 0 0 0 false = .ok (0, [0]) pushing ∧
    ((pushing.feeder 0).param 2).toNat % gSlots (pushing.gHeader 0) = 0 ∧ 0 + 1 * 64 ≤ gSize (pushing.gHeader 0) ∧
    (pushing.feeder 0).seen = [] ∧ pushing.gState 0 0 ≠ 3 ∧
    pushSeen.pushRows 0 0x2000 0 64 none (fun t i r => t.putRow 0 0 0 0 [0] i r) 0 1 = .ok () pushedTo ∧
    (pushing.feeder 0).row = 0 ∧ (pushing.feeder 0).loops = [] ∧
    pushSeen.feedRead 0 (fld 0x2000 0 56) 64 (tagOf 0x2000) = .ok pushRow pushSeen ∧
    (pushPut.gCycle 0 0 0 false none [64] 0).2 = .ok ∧ gSlotOfs (pushing.gHeader 0) 0 = 0x1000 ∧
    pushedTo.gCycle 0 0 0 false none [1 * 64] 0 = ((pushedTo.gCycle 0 0 0 false none [1 * 64] 0).1, .ok) := by
  unfold State.feedsRecord; and_intros <;> decide +kernel
/-- A DRAIN of 64 bytes from offset 0 of cluster 0, and the runs it writes. -/
def drainWords : List Word := [0x102, 0, word (64 + 2 ^ 24), 0]
def draining : State := feeding tenant drainWords id
def drained : List FeedRun := feedVal [] (draining.drainLocate 0 0x2000 0 64 0 1)
def drainRead : State := (draining.engineRead 0 (feederPlace 0) 0 3 0 64).2
/-- The state after it stored its bytes; and after it asked for the store at a port that holds another's in ingress. -/
def drainDone : State := drainRead.drainWrite 0 0 drained (List.replicate 64 0)
def drainMute : State :=
  { draining with xbar := { draining.xbar with ingress := [{ unitReq 9 with pa := 0x8000, op := .store [1] }] } }
def drainAsked : State :=
  (drainMute.engineRead 0 (feederPlace 0) 0 3 0 64).2.drainWrite 0 0 drained (List.replicate 64 0)

theorem test_hyp_drain :
    draining.feedsRecord 0 2 drainWords ∧ 0 < fld (drainWords.getD 2 0) 24 16 * fld (drainWords.getD 2 0) 0 24 ∧
    fld (drainWords.getD 0 0) 8 3 ≠ 0 ∧ bitOf (drainWords.getD 0 0).toNat 4 = false ∧
    bitOf (drainWords.getD 1 0).toNat 30 = false ∧ (drainWords.getD 1 0).toNat / 2 ^ 24 % 64 = 0 ∧
    (drainWords.getD 1 0).toNat % 2 ^ 24 + 64 ≤ vaultEnd ∧ draining.feedReaches 0 0 = true ∧
    draining.drainLocate 0 0x2000 0 64 0 1 = .ok drained draining ∧ drained ≠ [] ∧ (draining.feeder 0).bad = none ∧
    (draining.feeder 0).wrote = 0 ∧ drainDone.feedOpen 0 = false ∧ (drainDone.feeder 0).wrote = drained.length ∧
    drainMute.feedsRecord 0 2 drainWords ∧ drainMute.drainLocate 0 0x2000 0 64 0 1 = .ok drained drainMute ∧
    drainMute.feedReaches 0 0 = true ∧ drainAsked.feedOpen 0 = true ∧ (drainAsked.feeder 0).bad = none ∧
    draining.engineRead 0 (feederPlace 0) 0 3 0 64 = (some (List.replicate 64 0), drainRead) := by
  unfold State.feedsRecord; and_intros <;> decide +kernel
theorem test_hyp_feeder_loop_padd :
    (feeding tenant [word (3 + 2 * 2 ^ 8 + 5 * 2 ^ 16), 0, 0, 0] id).feedsRecord 0 3 [word (3 + 2 * 2 ^ 8 + 5 * 2 ^ 16), 0, 0, 0] ∧
    0 < fld (word (3 + 2 * 2 ^ 8 + 5 * 2 ^ 16)) 16 32 ∧ 0 < fld (word (3 + 2 * 2 ^ 8 + 5 * 2 ^ 16)) 8 8 ∧
    ((feeding tenant [word (3 + 2 * 2 ^ 8 + 5 * 2 ^ 16), 0, 0, 0] id).feeder 0).loops = [] ∧
    (feeding tenant [word (4 + 2 ^ 8), 5, 0, 0] id).feedsRecord 0 4 [word (4 + 2 ^ 8), 5, 0, 0] ∧
    fld (word (4 + 2 ^ 8)) 8 3 = (0 : Fin 7).val + 1 ∧
    (feeding tenant [word (4 + 7 * 2 ^ 8 + 16), 0xFF00000000000005, 0, 0] id).feedsRecord 0 4 [word (4 + 7 * 2 ^ 8 + 16), 0xFF00000000000005, 0, 0] ∧
    fld (word (4 + 7 * 2 ^ 8 + 16)) 8 3 = (6 : Fin 7).val + 1 := by
  unfold State.feedsRecord; and_intros <;> decide +kernel
/-- A WAITG for slot 0 of the galley at offset 0 of cluster 0 to be in a state. -/
def waitg (full : Nat) : List Word := [word (5 + 2 ^ 11 + full * 2 ^ 4), 0, 0, 0]
def awaiting (full : Nat) : State :=
  feeding (galley tenant (head0 + (tenant.ctxOf 0).tsid * 2 ^ 28) want1 true) (waitg full) id

theorem test_hyp_feeder_waitg_0 :
    (awaiting 0).feedsRecord 0 5 (waitg 0) ∧ fld ((waitg 0).getD 0 0) 11 3 ≠ 0 ∧
    (awaiting 0).feedGalleys 0 0 0 false = .ok (0, [0]) (awaiting 0) ∧
    (((awaiting 0).feeder 0).param 1).toNat % gSlots ((awaiting 0).gHeader 0) = 0 ∧
    ((awaiting 0).feeder 0).seen = [] ∧ ((awaiting 0).feeder 0).loops = [] ∧ (awaiting 0).gState 0 0 ≠ 3 ∧
    (awaiting 0).gState 0 0 = 0 := by
  unfold State.feedsRecord; and_intros <;> decide +kernel
theorem test_hyp_feeder_waitg_1 :
    (awaiting 1).feedsRecord 0 5 (waitg 1) ∧ fld ((waitg 1).getD 0 0) 11 3 ≠ 0 ∧
    (awaiting 1).feedGalleys 0 0 0 false = .ok (0, [0]) (awaiting 1) ∧
    (((awaiting 1).feeder 0).param 1).toNat % gSlots ((awaiting 1).gHeader 0) = 0 ∧
    ((awaiting 1).feeder 0).seen = [] ∧ ((awaiting 1).feeder 0).loops = [] ∧ (awaiting 1).gState 0 0 ≠ 3 ∧
    (awaiting 1).gState 0 0 ≠ 2 := by
  unfold State.feedsRecord; and_intros <;> decide +kernel
theorem test_hyp_feeder_send :
    (feeding tenant [word (6 + 2 * 2 ^ 16), 66, 7, 0] id).feedsRecord 0 6 [word (6 + 2 * 2 ^ 16), 66, 7, 0] ∧
    (feeding tenant [word (6 + 2 * 2 ^ 16), 66, 7, 0] id).receives ((feeding tenant [word (6 + 2 * 2 ^ 16), 66, 7, 0] id).ctxOf 0).part 0 = true ∧
    ((feeding tenant [word (6 + 2 * 2 ^ 16), 66, 7, 0] id).ctxOf 0).entryValid 66 = true ∧
    bitOf (word (6 + 2 * 2 ^ 16)).toNat 4 = false ∧ bitOf (word (6 + 2 * 2 ^ 16)).toNat 5 = false ∧ 0 < 2 ∧
    2 < ((feeding tenant [word (6 + 2 * 2 ^ 16), 66, 7, 0] id).feeder 0).hold ∧
    ((feeding tenant [word (6 + 2 * 2 ^ 16), 66, 7, 0] id).feeder 0).loops = [] := by
  unfold State.feedsRecord; and_intros <;> decide +kernel
/-- A FARRN at forme 0, whose handle is parameter 1. -/
def arriving : State :=
  feeding (guild club) [word (7 + 2 ^ 8 + 2 * 2 ^ 16), 66, 0, 0] fun d => { d with p := #v[mkHandle false 0 club.gen 0 0, 0, 0, 0, 0, 0, 0] }
/-- The state after the forme took the arrival. -/
def arrivedAt : State :=
  match arriving.arrive 0 0 club (mkHandle false 0 club.gen 0 0) .plain 0 (fun _ => .notify 2 0 1 0 3 0) false with
  | .ok t => t
  | .refuse _ => State.reset

theorem test_hyp_feeder_farrn :
    arriving.feedsRecord 0 7 [word (7 + 2 ^ 8 + 2 * 2 ^ 16), 66, 0, 0] ∧ fld (word (7 + 2 ^ 8 + 2 * 2 ^ 16)) 8 3 ≠ 0 ∧
    (arriving.ctxOf 0).entryValid 66 = true ∧ 0 < 2 ∧ 2 < (arriving.feeder 0).hold ∧
    (arriving.feeder 0).param 1 = mkHandle false 0 club.gen 0 0 ∧
    arriving.validHandle (arriving.ctxOf 0).part (mkHandle false 0 club.gen 0 0) = some club ∧
    handleNum (mkHandle false 0 club.gen 0 0) = 0 ∧ elineOf 66 = 1 ∧
    arriving.arrive 0 0 club (mkHandle false 0 club.gen 0 0) .plain 0 (fun _ => .notify 2 0 1 0 3 0) false = .ok arrivedAt := by
  unfold State.feedsRecord; and_intros <;> decide +kernel
theorem test_hyp_feeder_ends :
    (feeding tenant [8, 0, 0, 0] id).feedsRecord 0 8 [8, 0, 0, 0] ∧
    (feeding tenant [9, 0x1F00000000000040, 0, 0] id).feedsRecord 0 9 [9, 0x1F00000000000040, 0, 0] ∧
    ((feeding tenant [9, 0x1F00000000000040, 0, 0] id).feeder 0).loops = [] ∧
    (0x1F00000000000040 : Word).toNat % 2 ^ 56 % 32 = 0 ∧ ((feeding tenant [10, 0, 0, 0] id).feeder 0).st = .running ∧
    (feeding tenant [10, 0, 0, 0] id).inSlice 0 = true ∧
    (feeding tenant [10, 0, 0, 0] id).feedRecord 0 = .ok [10, 0, 0, 0] (feeding tenant [10, 0, 0, 0] id) ∧
    (feeding tenant [0, 0, 0, 0] id).feedRecord 0 = .ok [0, 0, 0, 0] (feeding tenant [0, 0, 0, 0] id) := by
  unfold State.feedsRecord; and_intros <;> decide +kernel
/-- The feeder waits in the WAITG of a state that the slot is in. -/
def roused : State := (awaiting 0).setFeeder 0 { (awaiting 0).feeder 0 with st := .waiting 5 }
/-- Two galleys of one address, of clusters 0 and 1 of its context: the slot of the first is full, of the second it is not. -/
def watching : State :=
  let s := { tenant with ctxs := [(0, { ctx0 with placement := [0, 1] })] }
  let h := head0 + (tenant.ctxOf 0).tsid * 2 ^ 28
  let t := (galley s h (want1 + 2 * 2 ^ 51) true).setGWord (gKey 1 0) 0 want1 |>.setHeader (gKey 1 0) h
  let u := t.setClus 1 { t.clus 1 with ctx := some 0, galleys := [0] }
  feeding u [word (5 + 2 ^ 11 + 2 ^ 4 + 3 * 2 ^ 24 + 2 ^ 5), 0, 0, 0]
    fun d => { d with st := .waiting 5 }

theorem test_hyp_feeder_roused :
    (roused.feeder 0).st = .waiting 5 ∧ (((awaiting 0).feedAct 0).feeder 0).st ≠ .waiting 5 ∧
    (((watching.setFeeder 0 { watching.feeder 0 with st := .running }).feedAct 0).feeder 0).seen ≠ (watching.feeder 0).seen := by
  and_intros <;> decide +kernel
/-- A transfer of 64 bytes from offset 0 to offset 64 of cluster 0's vault. -/
def moving : Transfer :=
  { id := 3, place := 64, act := 0, regs := #v[0, 64, word (2 ^ 40 + 2 ^ 24 + 64), 0, 0, 5, 0, 0], tsid := (tenant.ctxOf 0).tsid, ctx := 0, kslot := 0,
    status := 0, waits := false, xres := none }
def queuedCopy : State := tenant.setClus 0 { tenant.clus 0 with copies := [moving] }
def startedCopy : State := tenant.setClus 0 { tenant.clus 0 with chans := [moving] }
/-- Every channel is taken, and a transfer waits for room that there is. -/
def entering3 : State := tenant.setClus 0 { tenant.clus 0 with
  chans := (List.range 4).map fun k => { moving with chan := k }, entering := [(moving, 2, 3)] }

theorem test_hyp_transfer :
    (queuedCopy.clus 0).frozen = false ∧ queuedCopy.saves 0 = false ∧ (queuedCopy.clus 0).entering = [] ∧
    freeChan (queuedCopy.clus 0).chans = some 0 ∧ (entering3.clus 0).frozen = false ∧ entering3.saves 0 = false ∧
    (entering3.clus 0).entering = [(moving, 2, 3)] ∧ freeChan (entering3.clus 0).chans = none ∧
    (entering3.clus 0).copies.length < 64 ∧ moving.sent = false ∧ moving.todo = [] ∧
    startedCopy.copyOpen 0 moving = false ∧ (queuedCopy.clus 0).copies = [moving] ∧ moving.ser = false ∧
    (startedCopy.clus 0).chans = [moving] ∧ (startedCopy.clus 0).frozen = false ∧ startedCopy.fw.halted = false ∧
    moving.waits = false ∧ moving.moved = false ∧ moving.status = 0 ∧
    moving.regs.get 2 = word (2 ^ 40 + 2 ^ 24 + 64) ∧ moving.regs.get 5 = 5 ∧
    startedCopy.copyVault 0 moving (((moving.regs.get 0).toNat % 2 ^ 40 : Nat) : Int) 64 = .ok [.vault 0 64] startedCopy ∧
    startedCopy.copyVault 0 moving (((moving.regs.get 1).toNat % 2 ^ 40 : Nat) : Int) 64 = .ok [.vault 64 64] startedCopy ∧
    (0 : Nat) + 64 ≤ 64 ∧
    startedCopy.engineRead 0 (moving.chanPlace 0) 0 0 0 64 = (some (List.replicate 64 0), (startedCopy.engineRead 0 (moving.chanPlace 0) 0 0 0 64).2) ∧
    (startedCopy.session (startedCopy.ctxOf moving.ctx).vf).isOpen = false := by
  and_intros <;> decide +kernel
theorem test_hyp_galley_update :
    (galley com head0 want1 true).canonical ∧ (galley com head0 want1 true).gActive 0 0 = true ∧
    0 < gSlots ((galley com head0 want1 true).gHeader 0) ∧ gFlt ((galley com head0 want1 true).gHeader 0) = false ∧
    nfld ((galley com head0 want1 true).gWord 0 0) 51 2 ≤ 1 ∧
    nfld ((galley com head0 want1 true).gWord 0 0) 25 19 + 64 ≤ nfld ((galley com head0 want1 true).gWord 0 0) 0 19 ∧
    nfld ((galley com head0 want1 true).gWord 0 0) 25 19 + 63 ≤ nfld ((galley com head0 want1 true).gWord 0 0) 0 19 ∧
    nfld ((galley com head0 want1 true).gWord 0 0) 44 6 < nfld ((galley com head0 want1 true).gWord 0 0) 19 6 := by
  unfold State.canonical; and_intros <;> decide +kernel
/-- Core 8's matrix unit, owned by slot 64, with one command at the head of its queue. -/
def mq (w : Vector Word 8) (st : CmdSt) (f : Matrix → Matrix) : State :=
  supWith id |>.setMx 8 (f { (sup.core 8).mx with owner := some 64, owned := true, queue := [{ words := w, seq := 5, st := st, since := 0 }] })
def cmd (w : Vector Word 8) (st : CmdSt) : MCmd := { words := w, seq := 5, st := st, since := 0 }

/-- An MMA of two lines of four 8-bit integers each; an MMAG of no groups; MLD, MST, MZERO, MMARK, MPASS, MBLD. -/
def mmaW : Vector Word 8 := #v[word (1 + 9 * 2 ^ 10 + 9 * 2 ^ 15 + 2 ^ 20 + 2 ^ 24), 0, word (2 + 4 * 2 ^ 8 + 4 * 2 ^ 40), 64, word (2 + 4 * 2 ^ 8 + 4 * 2 ^ 40), 0, 0, 0]
def mmagW : Vector Word 8 :=
  #v[word (2 + 9 * 2 ^ 10 + 9 * 2 ^ 15 + 2 ^ 20 + 9 * 2 ^ 32), 0, word (4 * 2 ^ 8 + 4 * 2 ^ 40), 0, word (2 + 4 * 2 ^ 8 + 4 * 2 ^ 40), word (0x100 + 21 * 2 ^ 40), word (2 * 2 ^ 5 + 8 * 2 ^ 40), 0x200]
def mldW : Vector Word 8 := #v[word (3 + 2 ^ 20), 0, 0, 0, 0, word (13 * 2 ^ 40), word (16 + 16 * 2 ^ 5 + 16 * 2 ^ 40), 0]
def mstW : Vector Word 8 := #v[word (4 + 2 ^ 20), 0, 0, 0, 0, word (0xBFFFFC + 21 * 2 ^ 40), word (1 + 2 ^ 5), 0]
def mbldW : Vector Word 8 := #v[8, word (2 ^ 42 + 3 * 2 ^ 40 + 16), 0, 0, 0, 32, 2032, 0]
def tile : Tile := ⟨[1, 2], 9, 0, 1, 2⟩

/-- What an attempt comes to where it does not fail. -/
def orElse {α β : Type} (d : α) (x : Except β α) : α :=
  match x with
  | .ok a => a
  | .error _ => d

theorem test_hyp_mma :
    (mq mmaW .queued (id)).runsCommand 8 1 (cmd mmaW .queued) ∧ (cmd mmaW .queued).bit 25 = false ∧
    (cmd mmaW .queued).bit 26 = false ∧ ((mq mmaW .queued (id)).opndValues 8 (cmd mmaW .queued).opA).isOk = true ∧
    ((mq mmaW .queued (id)).opndValues 8 (cmd mmaW .queued).opB).isOk = true := by
  unfold State.runsCommand; and_intros <;> decide +kernel
theorem test_hyp_mmag :
    (mq mmagW .queued (id)).runsCommand 8 2 (cmd mmagW .queued) ∧
    ((mq mmagW .queued (id)).mtouch 8 .vault [(0x200, min (8 + 8 * ((mq mmagW .queued (id)).mread 8 .vault 0x200 8 % 128)) (vaultEnd - 0x200))]).groupTable 8 (fld ((cmd mmagW .queued).w 7) 0 24) = some [] ∧
    ((mq mmagW .queued (id)).mtouch 8 .vault [(0x200, min (8 + 8 * ((mq mmagW .queued (id)).mread 8 .vault 0x200 8 % 128)) (vaultEnd - 0x200))]).runGroups 8 (cmd mmagW .queued) 0 [] = .ok ((mq mmagW .queued (id)).mtouch 8 .vault [(0x200, min (8 + 8 * ((mq mmagW .queued (id)).mread 8 .vault 0x200 8 % 128)) (vaultEnd - 0x200))]) := by
  unfold State.runsCommand; and_intros <;> decide +kernel
theorem test_hyp_matrix_injection :
    (mq mmagW .queued (id)).noInjection := by
  exact ⟨fun c => by unfold State.clus; rw [show (mq mmagW .queued id).clusters = [] by decide +kernel]; simp [kget, bitOf], fun w => by rw [show (mq mmagW .queued id).flaws = [] by decide +kernel]; rfl⟩
theorem test_hyp_matrix_moves :
    (mq mldW .queued (id)).runsCommand 8 3 (cmd mldW .queued) ∧
    (mq mstW .queued (id)).runsCommand 8 4 (cmd mstW .queued) ∧ (cmd mstW .queued).region.lines = 1 ∧
    (cmd mstW .queued).region.k = 1 ∧ 8 ≤ elementBits (cmd mstW .queued).region.f ∧
    (mq #v[word (5 + 3 * 2 ^ 8), 0, 0, 0, 0, 0, 0, 0] .queued (id)).runsCommand 8 5 (cmd #v[word (5 + 3 * 2 ^ 8), 0, 0, 0, 0, 0, 0, 0] .queued) ∧
    (mq #v[6, 0, 0, 0, 0, 0, 0, 0] .queued (id)).runsCommand 8 6 (cmd #v[6, 0, 0, 0, 0, 0, 0, 0] .queued) ∧
    (mq mbldW .queued (id)).runsCommand 8 8 (cmd mbldW .queued) ∧ (cmd mbldW .queued).w 1 ≠ 0 := by
  unfold State.runsCommand; and_intros <;> decide +kernel
/-- A pass from the latch of worker core 0. -/
def passing : State :=
  sup.setMx 0 { (sup.core 0).mx with owner := some 0, owned := true, latch := some tile, queue := [cmd #v[word (7 + 3 * 2 ^ 25), 0, 0, 0, 0, 0, 0, 0] .queued] }

theorem test_hyp_matrix_pass :
    passing.runsCommand 0 7 (cmd #v[word (7 + 3 * 2 ^ 25), 0, 0, 0, 0, 0, 0, 0] .queued) ∧ 0 % 16 < 8 ∧
    (passing.core 0).mx.latch.isSome = true ∧ (passing.core (nextCore 0)).mx.latch = none := by
  unfold State.runsCommand; and_intros <;> decide +kernel
theorem test_hyp_matrix_retire :
    ((mq #v[9, 0, 0, 0, 0, 0, 0, 0] .queued (id)).core 8).mx.queue = [cmd #v[9, 0, 0, 0, 0, 0, 0, 0] .queued] ∧
    ((mq #v[9, 0, 0, 0, 0, 0, 0, 0] .queued (id)).core 8).mx.stop = false ∧
    8 < (cmd #v[9, 0, 0, 0, 0, 0, 0, 0] .queued).code ∧
    (mq #v[9, 0, 0, 0, 0, 0, 0, 0] .queued (id)).saves (8 / 16) = false ∧
    (mq #v[9, 0, 0, 0, 0, 0, 0, 0] .queued (id)).givenUp 8 = false ∧
    ((mq #v[9, 0, 0, 0, 0, 0, 0, 0] .done (id)).core 8).mx.queue = [cmd #v[9, 0, 0, 0, 0, 0, 0, 0] .done] ∧
    ((mq #v[9, 0, 0, 0, 0, 0, 0, 0] (.faulted 3) (id)).core 8).mx.queue = [cmd #v[9, 0, 0, 0, 0, 0, 0, 0] (.faulted 3)] ∧
    ((mq #v[9, 0, 0, 0, 0, 0, 0, 0] (.faulted 3) (id)).core 8).mx.stop = false ∧
    ((atHub (2 ^ 20 + 1) (mq #v[word (7 + 3 * 2 ^ 25), 0, 0, 0, 0, 0, 0, 0] .started (id))).core 8).mx.stop = false ∧
    ((atHub (2 ^ 20 + 1) (mq #v[word (7 + 3 * 2 ^ 25), 0, 0, 0, 0, 0, 0, 0] .started (id))).core 8).mx.queue = [cmd #v[word (7 + 3 * 2 ^ 25), 0, 0, 0, 0, 0, 0, 0] .started] ∧
    0 + 2 ^ 20 < (atHub (2 ^ 20 + 1) (mq #v[word (7 + 3 * 2 ^ 25), 0, 0, 0, 0, 0, 0, 0] .started (id))).dieClock (8 / 1024) ∧
    (atHub (2 ^ 20 + 1) (mq #v[word (7 + 3 * 2 ^ 25), 0, 0, 0, 0, 0, 0, 0] .started (id))).givenUp 8 = false := by
  and_intros <;> decide +kernel
/-- Queue 2 of function 0 with a command read at its head; context 0 belongs to function 0, whose partition is 0. -/
def queueing (w : Vector Word 8) (f : CmdQueue → CmdQueue) : State :=
  { tenant with regs := [(.vfcfg 0, 1)], xbar := { tenant.xbar with rows := kset tenant.xbar.rows 0 0x1000001 } }.setQueue 0 2
    (f { head := some w, headSt := .read, szlg := 4, en := true, base := 64, cbase := 512, cons := 15 })

theorem test_hyp_complete :
    ((queueing #v[2, word hostBase, 5, 0, 0, 0, 0, 0] (id)).queue 0 2).head = some #v[2, word hostBase, 5, 0, 0, 0, 0, 0] := by
  decide +kernel
theorem test_hyp_qctl :
    (63 : Nat) < 64 ∧ (7 : Nat) < 8 ∧ (0xFD00 : Word).toNat / 2 ^ 16 = 0 ∧ (0xFD00 : Word).toNat % 2 ^ 8 = 0 ∧
    bitOf (0xFD00 : Word).toNat 8 = true ∧ (0x10000 : Word).toNat / 2 ^ 16 ≠ 0 ∧ (0x80 : Word).toNat % 2 ^ 8 ≠ 0 := by
  and_intros <;> decide +kernel
/-- A FENCES in the ring of queue 2, not read yet. -/
def unread : State :=
  let s := { tenant with regs := [(.vfcfg 0, 1)], mem := writeBytes tenant.mem (hostBase + 64 * 64 + 64 * 15) (leBytes 8 3) }
  s.setQueue 0 2 { szlg := 4, en := true, base := 64, cons := 15, prod := 16 }
def unreadWords : Vector Word 8 :=
  Vector.ofFn (fun i : Fin 8 => (wordsOfBytes 8 (unread.hostRead ((unread.queue 0 2).base * 64 + 64 * ((unread.queue 0 2).cons.toNat % 2 ^ (unread.queue 0 2).szlg)) 64)).getD i.val 0)

theorem test_hyp_queue_read :
    (unread.queue 0 2).head = none ∧ unread.fnEnabled 0 = true ∧ (unread.queue 0 2).en = true ∧
    (unread.queue 0 2).err = false ∧ 4 ≤ (unread.queue 0 2).szlg ∧ (unread.queue 0 2).prod ≠ (unread.queue 0 2).cons ∧
    unread.front.paused = false ∧ unread.fw.halted = false ∧ (unreadWords.get 0).toNat % 256 = 3 ∧
    (∀ r ∈ unread.xbar.reqs, r.row = 32 + 0 → isPortLoad r.op = true) := by
  and_intros <;> decide +kernel
/-- With a fence word of eight bytes at host address 0. -/
def withWord (v : Nat) (s : State) : State := { s with mem := writeBytes s.mem hostBase (leBytes 8 v) }

theorem test_hyp_fence_commands :
    (withWord 5 (queueing #v[2, word hostBase, 5, 0, 0, 0, 0, 0] (id))).headIs 0 2 2 #v[2, word hostBase, 5, 0, 0, 0, 0, 0] ∧
    commandBad #v[2, word hostBase, 5, 0, 0, 0, 0, 0] = false ∧
    cmdAddr #v[2, word hostBase, 5, 0, 0, 0, 0, 0] % 8 = 0 ∧
    (withWord 5 (queueing #v[2, word hostBase, 5, 0, 0, 0, 0, 0] (id))).partAllows ((withWord 5 (queueing #v[2, word hostBase, 5, 0, 0, 0, 0, 0] (id))).fnPart 0) (tgtOf (cmdAddr #v[2, word hostBase, 5, 0, 0, 0, 0, 0])) = true ∧
    tgtOf (cmdAddr #v[2, word hostBase, 5, 0, 0, 0, 0, 0]) ≤ 24 ∧
    tgtOf (cmdAddr #v[2, word hostBase, 5, 0, 0, 0, 0, 0]) ∉ (withWord 5 (queueing #v[2, word hostBase, 5, 0, 0, 0, 0, 0] (id))).xbar.silent ∧
    ofsOf (cmdAddr #v[2, word hostBase, 5, 0, 0, 0, 0, 0]) < 2 ^ 39 ∧
    leNat ((withWord 5 (queueing #v[2, word hostBase, 5, 0, 0, 0, 0, 0] (id))).readRuns (hubRuns (cmdAddr #v[2, word hostBase, 5, 0, 0, 0, 0, 0]) 8)) = 5 ∧
    5 % 2 ^ 63 ≤ 5 % 2 ^ 63 ∧
    leNat ((withWord (2 ^ 63 + 5) (queueing #v[2, word hostBase, 5, 0, 0, 0, 0, 0] (id))).readRuns (hubRuns (cmdAddr #v[2, word hostBase, 5, 0, 0, 0, 0, 0]) 8)) = 2 ^ 63 + 5 ∧
    leNat ((withWord 4 (queueing #v[2, word hostBase, 5, 0, 0, 0, 0, 0] (id))).readRuns (hubRuns (cmdAddr #v[2, word hostBase, 5, 0, 0, 0, 0, 0]) 8)) = 4 ∧
    (withWord (2 ^ 63 + 5) (queueing #v[2, word hostBase, 5, 0, 0, 0, 0, 0] (id))).headIs 0 2 2 #v[2, word hostBase, 5, 0, 0, 0, 0, 0] ∧
    (withWord 4 (queueing #v[2, word hostBase, 5, 0, 0, 0, 0, 0] (id))).headIs 0 2 2 #v[2, word hostBase, 5, 0, 0, 0, 0, 0] := by
  unfold State.headIs; and_intros <;> decide +kernel
/-- The same with the port of main memory's host window silent. -/
def hostMute (s : State) : State := { s with xbar := { s.xbar with silent := [24] } }

theorem test_hyp_fence_poll :
    ((withWord 5 (queueing #v[2, word hostBase, 5, 0, 0, 0, 0, 0] (fun c => { c with headSt := .fenceWait }))).queue 0 2).head = some #v[2, word hostBase, 5, 0, 0, 0, 0, 0] ∧
    ((withWord 5 (queueing #v[2, word hostBase, 5, 0, 0, 0, 0, 0] (fun c => { c with headSt := .fenceWait }))).queue 0 2).headSt = .fenceWait ∧
    leNat ((withWord 5 (queueing #v[2, word hostBase, 5, 0, 0, 0, 0, 0] (fun c => { c with headSt := .fenceWait }))).readRuns (hubRuns (cmdAddr #v[2, word hostBase, 5, 0, 0, 0, 0, 0]) 8)) = 5 ∧
    (queueing #v[3, word (hostBase + 8), 9, 0, 0, 0, 0, 0] (id)).headIs 0 2 3 #v[3, word (hostBase + 8), 9, 0, 0, 0, 0, 0] ∧
    commandBad #v[3, word (hostBase + 8), 9, 0, 0, 0, 0, 0] = false ∧
    (queueing #v[3, word (hostBase + 8), 9, 0, 0, 0, 0, 0] (id)).partAllows ((queueing #v[3, word (hostBase + 8), 9, 0, 0, 0, 0, 0] (id)).fnPart 0) (tgtOf (cmdAddr #v[3, word (hostBase + 8), 9, 0, 0, 0, 0, 0])) = true ∧
    (queueing #v[7 + 3 * 2 ^ 8, word (hostBase + 64), 0, 0, 0, 0, 0, 0] (id)).headIs 0 2 7 #v[7 + 3 * 2 ^ 8, word (hostBase + 64), 0, 0, 0, 0, 0, 0] ∧
    (queueing #v[7 + 3 * 2 ^ 8, word (hostBase + 64), 0, 0, 0, 0, 0, 0] (id)).ownCtx 0 (cmdCtx #v[7 + 3 * 2 ^ 8, word (hostBase + 64), 0, 0, 0, 0, 0, 0]) = true ∧
    commandBad #v[7 + 3 * 2 ^ 8, word (hostBase + 64), 0, 0, 0, 0, 0, 0] = false ∧
    cmdAddr #v[7 + 3 * 2 ^ 8, word (hostBase + 64), 0, 0, 0, 0, 0, 0] % 64 = 0 ∧
    ((((queueing #v[3, word (hostBase + 8), 9, 0, 0, 0, 0, 0] (id)).hubWrite 0 (hostBase+8) (leBytes 8 9)).kickFences (hostBase + 8)).hubOpen 0) = false ∧
    (((queueing #v[7 + 3 * 2 ^ 8, word (hostBase + 64), 0, 0, 0, 0, 0, 0] (id)).hubWrite 0 (hostBase+64) (((queueing #v[7 + 3 * 2 ^ 8, word (hostBase + 64), 0, 0, 0, 0, 0, 0] (id)).kernel 0 3).words.flatMap (leBytes 8))).hubOpen 0) = false ∧
    ((((hostMute (queueing #v[3, word (hostBase + 8), 9, 0, 0, 0, 0, 0] (id))).hubWrite 0 (hostBase+8) (leBytes 8 9)).kickFences (hostBase + 8)).hubOpen 0) = true ∧
    (((hostMute (queueing #v[7 + 3 * 2 ^ 8, word (hostBase + 64), 0, 0, 0, 0, 0, 0] (id))).hubWrite 0 (hostBase+64) (((hostMute (queueing #v[7 + 3 * 2 ^ 8, word (hostBase + 64), 0, 0, 0, 0, 0, 0] (id))).kernel 0 3).words.flatMap (leBytes 8))).hubOpen 0) = true ∧
    (hostMute (queueing #v[3, word (hostBase + 8), 9, 0, 0, 0, 0, 0] (id))).headIs 0 2 3 #v[3, word (hostBase + 8), 9, 0, 0, 0, 0, 0] ∧
    (hostMute (queueing #v[7 + 3 * 2 ^ 8, word (hostBase + 64), 0, 0, 0, 0, 0, 0] (id))).headIs 0 2 7 #v[7 + 3 * 2 ^ 8, word (hostBase + 64), 0, 0, 0, 0, 0, 0] ∧
    (hostMute (queueing #v[3, word (hostBase + 8), 9, 0, 0, 0, 0, 0] (id))).partAllows ((hostMute (queueing #v[3, word (hostBase + 8), 9, 0, 0, 0, 0, 0] (id))).fnPart 0) (tgtOf (cmdAddr #v[3, word (hostBase + 8), 9, 0, 0, 0, 0, 0])) = true ∧
    ((queueing #v[3, word (hostBase + 8), 9, 0, 0, 0, 0, 0] (fun c => { c with headSt := .wrote })).queue 0 2).head = some #v[3, word (hostBase + 8), 9, 0, 0, 0, 0, 0] ∧
    ((queueing #v[3, word (hostBase + 8), 9, 0, 0, 0, 0, 0] (fun c => { c with headSt := .wrote })).queue 0 2).headSt = .wrote ∧
    (queueing #v[3, word (hostBase + 8), 9, 0, 0, 0, 0, 0] (fun c => { c with headSt := .wrote })).hubOpen ((queueing #v[3, word (hostBase + 8), 9, 0, 0, 0, 0, 0] (fun c => { c with headSt := .wrote })).fnPart 0) = false ∧
    ((#v[3, word (hostBase + 8), 9, 0, 0, 0, 0, 0] : Vector Word 8).get 0).toNat % 256 = 3 := by
  unfold State.headIs; and_intros <;> decide +kernel
/-- With context 0 on no cluster, and a migration to package 1 through port 2. -/
def outside0 (s : State) : State :=
  { s with clusters := [], slots := [], regs := s.regs ++ [(.sprt 1, 0x12)], fw := { s.fw with pending := [⟨0, 1, [0], false⟩] } }

/-- With a started transfer at cluster 0, which runs context 0. -/
def chanOpen (s : State) : State := { s with clusters := kset s.clusters 0 { s.clus 0 with ctx := some 0, chans := [moving] } }

/-- With a MOVE of context 0 under way, its state sent or not. -/
def movingCtx (sent : Bool) (s : State) : State := { s with front := { s.front with moving := [(0, sent)] } }

theorem test_hyp_context_commands :
    (outside0 (queueing #v[4, 0, 0, 0, 0, 0, 0, 0] (id))).ownCtx 0 0 = true ∧
    commandBad #v[4, 0, 0, 0, 0, 0, 0, 0] = false ∧
    ((outside0 (queueing #v[4, 0, 0, 0, 0, 0, 0, 0] (id))).queue 0 2).headSt = .read ∧
    (outside0 (queueing #v[4, 0, 0, 0, 0, 0, 0, 0] (id))).notQuiet 0 = none ∧
    ((#v[4, 0, 0, 0, 0, 0, 0, 0] : Vector Word 8).get 0).toNat % 256 = 4 ∧
    ((outside0 (queueing #v[4, 0, 0, 0, 0, 0, 0, 0] (id))).queue 0 2).head = some #v[4, 0, 0, 0, 0, 0, 0, 0] ∧
    ((outside0 (queueing #v[4, 0, 0, 0, 0, 0, 0, 0] (id))).saveContext 0).vacated 0 = true ∧
    ((outside0 (queueing #v[4, 0, 0, 0, 0, 0, 0, 0] (fun c => { c with headSt := .saving }))).queue 0 2).headSt = .saving ∧
    ((outside0 (queueing #v[4, 0, 0, 0, 0, 0, 0, 0] (fun c => { c with headSt := .saving }))).saveContext 0).vacated 0 = true ∧
    ((chanOpen (queueing #v[4, 0, 0, 0, 0, 0, 0, 0] (id))).saveContext 0).vacated 0 = false ∧
    ((chanOpen (queueing #v[4, 0, 0, 0, 0, 0, 0, 0] (id))).queue 0 2).headSt = .read ∧
    (chanOpen (queueing #v[4, 0, 0, 0, 0, 0, 0, 0] (id))).notQuiet 0 = none ∧
    (outside0 ((queueing #v[4, 0, 0, 0, 0, 0, 0, 0] (id)).setKernel 0 3 { st := .running })).headIs 0 2 4 #v[4, 0, 0, 0, 0, 0, 0, 0] ∧
    (outside0 ((queueing #v[4, 0, 0, 0, 0, 0, 0, 0] (id)).setKernel 0 3 { st := .running })).notQuiet 0 = some 3 ∧
    commandBad #v[5, 0, 0, 0, 0, 0, 0, 0] = false ∧
    (outside0 (queueing #v[5, 0, 0, 0, 0, 0, 0, 0] (id))).headIs 0 2 5 #v[5, 0, 0, 0, 0, 0, 0, 0] ∧
    (outside0 (queueing #v[5, 0, 0, 0, 0, 0, 0, 0] (id))).fw.pending.find? (·.ctx = 0) = some ⟨0, 1, [0], false⟩ ∧
    (outside0 (queueing #v[5, 0, 0, 0, 0, 0, 0, 0] (id))).notQuiet 0 = none ∧
    khas (outside0 (queueing #v[5, 0, 0, 0, 0, 0, 0, 0] (id))).front.moving 0 = false ∧
    khas (movingCtx false (outside0 (queueing #v[5, 0, 0, 0, 0, 0, 0, 0] (id)))).front.moving 0 = true ∧
    kget false (movingCtx false (outside0 (queueing #v[5, 0, 0, 0, 0, 0, 0, 0] (id)))).front.moving 0 = false ∧
    (movingCtx false (outside0 (queueing #v[5, 0, 0, 0, 0, 0, 0, 0] (id)))).vacated 0 = true ∧
    (movingCtx false (outside0 (queueing #v[5, 0, 0, 0, 0, 0, 0, 0] (id)))).headIs 0 2 5 #v[5, 0, 0, 0, 0, 0, 0, 0] ∧
    (movingCtx false (outside0 (queueing #v[5, 0, 0, 0, 0, 0, 0, 0] (id)))).fw.pending.find? (·.ctx = 0) = some ⟨0, 1, [0], false⟩ ∧
    bitOf ((movingCtx false (outside0 (queueing #v[5, 0, 0, 0, 0, 0, 0, 0] (id)))).reg (.sprt 1)).toNat 4 = true ∧
    ((movingCtx false (outside0 (queueing #v[5, 0, 0, 0, 0, 0, 0, 0] (id)))).link (fld ((movingCtx false (outside0 (queueing #v[5, 0, 0, 0, 0, 0, 0, 0] (id)))).reg (.sprt 1)) 0 4)).up = true ∧
    (movingCtx true (outside0 (queueing #v[5, 0, 0, 0, 0, 0, 0, 0] (id)))).headIs 0 2 5 #v[5, 0, 0, 0, 0, 0, 0, 0] ∧
    khas (movingCtx true (outside0 (queueing #v[5, 0, 0, 0, 0, 0, 0, 0] (id)))).front.moving 0 = true ∧
    (movingCtx true (outside0 (queueing #v[5, 0, 0, 0, 0, 0, 0, 0] (id)))).moveAccepted 0 = true ∧
    ((queueing #v[6 + 3 * 2 ^ 8, 0, 0, 0, 0, 0, 0, 0] (id)).setKernel 0 3 { st := .damaged }).headIs 0 2 6 #v[6 + 3 * 2 ^ 8, 0, 0, 0, 0, 0, 0, 0] ∧
    commandBad #v[6 + 3 * 2 ^ 8, 0, 0, 0, 0, 0, 0, 0] = false ∧
    (((queueing #v[6 + 3 * 2 ^ 8, 0, 0, 0, 0, 0, 0, 0] (id)).setKernel 0 3 { st := .damaged }).kernel 0 (cmdSlot #v[6 + 3 * 2 ^ 8, 0, 0, 0, 0, 0, 0, 0])).st = .damaged ∧
    (((queueing #v[6 + 3 * 2 ^ 8, 0, 0, 0, 0, 0, 0, 0] (id)).setKernel 0 3 { st := .completing }).kernel 0 (cmdSlot #v[6 + 3 * 2 ^ 8, 0, 0, 0, 0, 0, 0, 0])).st = .completing ∧
    ((queueing #v[6 + 3 * 2 ^ 8, 0, 0, 0, 0, 0, 0, 0] (id)).setKernel 0 3 { st := .completing }).headIs 0 2 6 #v[6 + 3 * 2 ^ 8, 0, 0, 0, 0, 0, 0, 0] := by
  unfold State.headIs; and_intros <;> decide +kernel
/-- A LAUNCH of weight 5 with its descriptor's translation answered; the same without weight; its admission. -/
def launchW : Vector Word 8 := #v[word (1 + 3 * 2 ^ 8 + 5 * 2 ^ 32), 2, 0, 64, 0, 0, 0, 0]
def launchBadW : Vector Word 8 := #v[word (1 + 3 * 2 ^ 8), 2, 0, 64, 0, 0, 0, 0]
def launching : State :=
  let s := queueing launchW id
  { s with
    regs := s.regs ++ [(.pxlate 0, word (64 + 2 ^ 16))]
    front := { s.front with answers := [(0, some ⟨0, 0, (s.ctxOf 0).tsid, 0, false, true, true, false, true⟩)] } }
def launchDesc : List Word := match launching.frontDesc 2 launchW with
  | .words d _ => d
  | _ => []
def launchAfter : State := match launching.frontDesc 2 launchW with
  | .words _ u => u
  | _ => launching
def ready : State := queueing launchW fun c => { c with headSt := .launchReady, since := 3 }
def readyRun : State := { ready with front := { ready.front with lastRun := kset ready.front.lastRun 0 ready.clk.hub } }
def readyCand : Cand := ⟨some (0, 2), none, launchW, 3, 0, []⟩

theorem test_hyp_launch :
    launching.headIs 0 2 1 launchW ∧ launching.launchCheck 0 launchW none = none ∧
    launching.frontDesc (queueKey 0 2) launchW = .words launchDesc launchAfter ∧ gangBad launchW launchDesc = false ∧
    (queueing launchBadW (id)).headIs 0 2 1 launchBadW ∧
    (queueing launchBadW (id)).launchCheck 0 launchBadW none = some (2, 0) ∧
    (queueing #v[9, 0, 0, 0, 0, 0, 0, 0] (id)).headIs 0 2 9 #v[9, 0, 0, 0, 0, 0, 0, 0] ∧ (7 : Nat) < 9 := by
  unfold State.headIs; and_intros <;> decide +kernel
theorem test_hyp_admission :
    ready.fw.halted = false ∧ khas ready.front.lastRun 0 = false ∧ ready.front.conts = [] ∧
    readyRun.candidates 0 = [readyCand] ∧ readyRun.energyOk 0 readyCand.image = true ∧
    readyRun.placeLaunch readyCand.image = some (.one 0) ∧ cmdCtx readyCand.image = 0 ∧ cmdSlot readyCand.image = 3 ∧
    (ready.kernel 0 3).st = .free ∧
    readyRun.hubRead (launchPaddr readyCand.image) 64 = ((readyRun.hubRead 64 64).1, readyRun) := by
  and_intros <;> decide +kernel
/-- Die 0 at step 8 with its limits: step 4, 90 degrees, 500 watts. -/
def hotDie : State :=
  { tenant with regs := [(.dpctl 0, word (90 * 2 ^ 32 + 4 * 2 ^ 40)), (.plim, 500), (.dpgate 0, word (3 * 2 ^ 32))] }.setDie 0 { step := 8 }

theorem test_hyp_die_step :
    (hotDie.die 0).pending = none ∧ (hotDie.reg (.dpctl 0)).toNat / 2 ^ 40 % 32 = 4 ∧
    (hotDie.reg (.dpctl 0)).toNat / 2 ^ 32 % 256 = 90 ∧ (hotDie.reg .plim).toNat = 500 ∧ 4 < (hotDie.die 0).step ∧
    (90 : Nat) ≤ 90 ∧ 85 + 5 ≤ 90 ∧ 20 * 475 ≤ 19 * 500 ∧ (hotDie.die 0).step < 16 ∧ 90 < 86 + 5 ∧ (86 : Nat) < 90 ∧
    ((hotDie.setDie 0 { step := 8, pending := some 7 }).die 0).pending = some 7 := by
  and_intros <;> decide +kernel
theorem test_hyp_gate :
    bitOf (hotDie.reg (.dpgate (1 / 1024))).toNat 32 = true ∧ (hotDie.core 1).gated = false ∧
    hotDie.coreIdle 1 = true ∧
    (hotDie.core 1).idleSince + (hotDie.reg (.dpgate (1 / 1024))).toNat % 2 ^ 16 * 64 ≤ hotDie.dieClock (1 / 1024) ∧
    ((hotDie.setCore 1 { hotDie.core 1 with gated := true, inbox := [⟨flight.msg, 1, 0⟩] }).core 1).gated = true ∧
    ((hotDie.setCore 1 { hotDie.core 1 with gated := true, inbox := [⟨flight.msg, 1, 0⟩] }).core 1).inbox ≠ [] ∧
    bitOf ((atHub 1 (((List.range 8).foldl (fun t u => t.setCore u { t.core u with gated := true }) { hotDie with slots := [] }))).reg (.dpgate (0 / 64))).toNat 33 = true ∧
    ((atHub 1 (((List.range 8).foldl (fun t u => t.setCore u { t.core u with gated := true }) { hotDie with slots := [] }))).clus 0).gated = false ∧
    (atHub 1 (((List.range 8).foldl (fun t u => t.setCore u { t.core u with gated := true }) { hotDie with slots := [] }))).clusterIdle 0 = true ∧
    ((atHub 1 (((List.range 8).foldl (fun t u => t.setCore u { t.core u with gated := true }) { hotDie with slots := [] }))).clus 0).idleSince + ((atHub 1 (((List.range 8).foldl (fun t u => t.setCore u { t.core u with gated := true }) { hotDie with slots := [] }))).reg (.dpgate (0 / 64))).toNat / 2 ^ 16 % 2 ^ 16 * 1024 ≤ (atHub 1 (((List.range 8).foldl (fun t u => t.setCore u { t.core u with gated := true }) { hotDie with slots := [] }))).dieClock (0 / 64) ∧
    ((hotDie.setClus 0 { hotDie.clus 0 with gated := true, copies := [moving] }).clus 0).gated = true ∧
    ((hotDie.setClus 0 { hotDie.clus 0 with gated := true, copies := [moving] }).clus 0).copies ≠ [] := by
  and_intros <;> decide +kernel
theorem test_hyp_rows :
    (386 : Nat) < 387 ∧ (386 : Nat) ≠ 384 ∧ (386 : Nat) ≠ 385 ∧ tenant.rowBad 386 (2 ^ 37) = false ∧
    tenant.rowBad 33 (2 ^ 37) = true ∧ tenant.rowBad 31 3 = false := by
  and_intros <;> decide +kernel
/-- Function 63 in partition 0. -/
def withFn : State := { tenant with regs := [(.vfcfg 63, 1)] }

theorem test_hyp_minima :
    (63 : Nat) < 64 ∧ fld (withFn.reg (.vfcfg 63)) 8 5 = 0 ∧
    ((withFn.setMinimum true 63 1024).setMinimum false 63 448).minBad 0 = false ∧
    ((withFn.setMinimum true 63 65535).setMinimum false 63 65535).minBad 0 = true ∧
    (∀ part, part < 24 → withFn.minSum true part = 0) := by
  and_intros <;> decide +kernel
/-- Function 63's minimum is all of partition 0's clusters; a cluster of it is retired, or none. -/
def fullMin (gone : List Nat) : State :=
  let s := withFn.setMinimum true 63 16384
  { s with xbar := { s.xbar with retired := gone } }

theorem test_hyp_retirement :
    (3 : Nat) < 512 ∧ (fullMin []).partOfClus 3 = 0 ∧ (0 : Nat) < 24 ∧
    (fullMin [3]).capacity true 0 < (fullMin [3]).minSum true 0 ∧ 63 ∈ (fullMin [3]).fnsOf 0 ∧
    (withFn.partOfClus 3) = 0 ∧
    ({ withFn with xbar := { withFn.xbar with retired := [3] } } : State).minSum true 0 ≤ ({ withFn with xbar := { withFn.xbar with retired := [3] } } : State).capacity true 0 := by
  and_intros <;> decide +kernel
theorem test_hyp_kill_reset :
    (tenant.slot 64).occ = true ∧ tenant.ownsMatrix 64 = false ∧
    0 < (tenant.slot 64).wt + bufferedWeight (tenant.slot 64).cbuf ∧ (511 : Nat) < 512 ∧
    ({ tenant with slots := [], empty := [5, 2 ^ 21] } : State).occupied 0 = [] ∧
    (({ tenant with slots := [], empty := [5, 2 ^ 21] } : State).clus 0).held = [] := by
  and_intros <;> decide +kernel
/-- The slot owns its core's matrix unit, whose command waits for a latch. -/
def latched : State :=
  tenant.setMx 8 { (tenant.core 8).mx with owner := some 64, owned := true, queue := [cmdOf (Vector.replicate 8 0) 0 .started] }

theorem test_hyp_kill_wait :
    (latched.slot 64).occ = true ∧ latched.mustWait 64 = true ∧ tenant.occupied 0 = [(64, tenant.slot 64)] ∧
    (tenant.clus 0).held = [] := by
  and_intros <;> decide +kernel
/-- A cluster at a slice's end with a started transfer: PRECFG gives a deadline, and the slot a budget. -/
def ending (deadline budget : Nat) (irrev : Bool) : State :=
  let s := tenantWith fun a => { a with budget := budget, irrev := irrev, regsUsed := 0xFFFFFFFF, cbuf := List.replicate 31 (.send letter) }
  { s with regs := [(.precfg 0, word (deadline + 2 ^ 32))] }.setClus 0 { s.clus 0 with chans := [moving] }

theorem test_hyp_slice_end :
    ((ending 4 1 false).clus 0).ctx = some 0 ∧ ((ending 4 1 false).clus 0).switch = none ∧
    ((ending 4 1 false).ctxOf 0).touched = false ∧ ((ending 4 1 false).clus 0).chans = [moving] ∧
    ((ending 4 1 false).clus 0).halted = false := by
  and_intros <;> decide +kernel
/-- A drain at its deadline with a slot still occupied. -/
def drainSw : Switch := { ctx := 0, incoming := none, mode := .drain, at_ := 0, est := 0, miss := false }
def overdue : State :=
  atHub 10 ({ tenant with regs := [(.precfg 0, word (10 + 2 ^ 32))] }.setClus 0 { tenant.clus 0 with switch := some drainSw })
/-- Context 0 saved, with its owner map of one entry at address 0x4000, or with none. -/
def resting (n : Nat) : State :=
  { tenant with slots := [], clusters := [], mem := writeBytes tenant.mem 0x4000 (leBytes 2 0), ctxs := [(0, { ctx0 with st := .saved, words := #v[0, 0, 0, word (0x4000 + n * 2 ^ 48), 0, 0, 0, 0] })] }

theorem test_hyp_drain_deadline :
    (overdue.clus 0).switch = some drainSw ∧ overdue.switchWaits 0 drainSw = false ∧ drainSw.mode = .drain ∧
    drainSw.at_ + overdue.deadline drainSw.ctx ≤ overdue.dieClock (0 / 64) ∧ overdue.occupied 0 ≠ [] := by
  and_intros <;> decide +kernel
theorem test_hyp_restore :
    khas (resting 1).ctxs 0 = true ∧ ((resting 1).ctxOf 0).slicing = true ∧ ((resting 1).ctxOf 0).st = .saved ∧
    ((resting 1).ctxOf 0).placement = [0] ∧ ((resting 1).clus 0).ctx = none ∧ ((resting 1).clus 0).switch = none ∧
    (resting 1).restorable ((resting 1).ctxOf 0) ((resting 1).readOwners ((resting 1).ctxOf 0)) = true ∧
    ((resting 1).save 0 0).slots = [] ∧ ((resting 1).save 0 0).held = [] ∧
    (resting 0).restorable ((resting 0).ctxOf 0) ((resting 0).readOwners ((resting 0).ctxOf 0)) = false := by
  and_intros <;> decide +kernel
/-- Context 0 stopped. -/
def stoppedCtx : State :=
  { tenant with slots := [], clusters := [], ctxs := [(0, { ctx0 with st := .stopped, pages := [65536], slicing := false, touched := true })], net := [flight] }

theorem test_hyp_broken_contexts :
    (tenant.ctxOf 0).st = .running ∧ (stoppedCtx.ctxOf 0).st = .stopped ∧ ((resting 1).ctxOf 0).st = .saved ∧
    khas (resting 1).ctxs 0 = true ∧ (∀ ks, ks < 64 → (stoppedCtx.kernel 0 ks).st ≠ .running) := by
  and_intros <;> decide +kernel
theorem test_hyp_resets :
    (23 : Nat) < 24 ∧ sup.periodOver 23 = true ∧ (sup.enabledFns 23).filter sup.hasWork = [] ∧ sup.ctxs = [] ∧
    (1 : Nat) ≤ 4 := by
  and_intros <;> decide +kernel
/-- Function 0 of partition 0 has a command in a queue, and no minimum. -/
def working : State := unread
/-- With a period of its partition at its end. -/
def second : State := atHub (2 ^ 32) (tenant.setPart 0 { tenant.part 0 with since := some 0 })

theorem test_hyp_slice_grant :
    working.periodOver 0 = true ∧ (working.enabledFns 0).filter working.hasWork = [0] ∧
    working.minimum true 0 ≤ working.capacity true 0 ∧ khas working.fw.policy 0 = false ∧
    (second.part 0).since ≠ none ∧ second.periodOver 0 = true ∧ (second.clus 0).ctx = some 0 ∧
    (second.clus 0).switch = none ∧ (second.ctxOf 0).part = 0 := by
  and_intros <;> decide +kernel
/-- With two queues and a session of functions 0 and 1. -/
def opened : State :=
  { sup with
    front := { sup.front with queues := [(7, {}), (8, {})] }
    regs := [(.pscmd 0, 1)]
    host := { sup.host with sessions := [(0, { isOpen := true }), (1, { isOpen := true })] } }

theorem test_hyp_sessions :
    opened.ctxs = [] ∧ opened.host.sessions.Pairwise (fun a b => a.1 < b.1) := by
  and_intros <;> decide +kernel
theorem test_hyp_metering :
    (24 : Nat) < 25 ∧ (23 : Nat) < 24 ∧ (tenant.box 64).busy = false ∧
    (({ tenant with host := { tenant.host with boxes := [(64, { busy := true })] } } : State).box 64).busy = true := by
  and_intros <;> decide +kernel
/-- Energies of a millisecond: clusters 0 and 511, a cache, a port, the crossbar and static power. -/
def millis : EnergyUse :=
  { clusters := [(0, 70000), (511, 9)], shards := [(0, 10)], ports := [(0, 11)],
    blocks := [{ block := 0, measured := 13, counts := [] }], static := 17 }
def budgeted : State := { tenant with regs := [(.pebud 0, 2 ^ 32 * 100)] }

theorem test_hyp_metering_share :
    ((List.range 24).map budgeted.share).sum ≤ 65536 := by
  decide +kernel
theorem test_hyp_counter_read :
    tenant.counterAt 63 0x3078 = some 0 ∧ tenant.counterAt 0 0x3040 = some 0 := by
  and_intros <;> decide +kernel
theorem test_hyp_profile :
    (tenant.session 63).isOpen = false ∧ (tenant.setSession 63 { isOpen := true }).session 63 = { isOpen := true } ∧
    ((tenant.setSession 63 { isOpen := true }).session 63).lacks (kget {} ((tenant.setSession 63 { isOpen := true }).session 63).cnts 7) = false ∧
    (0x800 : Word).toNat / 2 ^ 11 % 2 ^ 5 ≠ 0 ∧ (6 : Word).toNat % 2 ^ 8 = 6 ∧ (0 : Word).toNat % 2 ^ 8 = 0 ∧ 8 < 9 ∧
    9 < 0x8000 ∧ (2 ^ 32 - 1 : Nat) < 2 ^ 32 := by
  and_intros <;> decide +kernel
/-- The slot halted; stepping, with its head retired; at a breakpoint. -/
def haltedSlot : State := tenantWith fun a => { a with halted := true }
def stepped : State := (tenantWith fun a => { a with heads := 8 }).setClus 0 { tenant.clus 0 with stepping := some (64, 0, 7), stepst := 1 }
def broken : State := tenant.setClus 0 { tenant.clus 0 with dbp := #v[0, 0, 0, word (2 ^ 63 + 2)] }

theorem test_hyp_debug :
    clusOf 64 = 0 ∧ coreIn 0 8 * 8 + 0 = 64 ∧ (haltedSlot.clus 0).stepping = none ∧ (stepped.clus 0).stepping ≠ none ∧
    (haltedSlot.slot 64).halted = true ∧ (haltedSlot.slot 64).occ = true ∧
    (stepped.clus (clusOf 64)).stepping = some (64, 0, 7) ∧ (stepped.slot 64).stepTrap = false ∧
    (stepped.slot 64).occ = true ∧ (stepped.slot 64).heads.toNat ≠ 7 ∧ broken.atBreakpoint 64 = true ∧
    (broken.clus 0).xt = false ∧ (0x110 : Word).toNat &&& injReserved ≠ 0 ∧ (0x30 : Word).toNat &&& injReserved = 0 ∧
    (0x30 : Word).toNat / 2 ^ 4 % 16 = 3 := by
  and_intros <;> decide +kernel
/-- Port 11 of a span of two packages, with what is given; a flit in its order. -/
def spanned (l : Link) : State :=
  { tenant.setLink 11 l with fw := { tenant.fw with span := [0, 1] } }
def flit : Flit := ⟨4095, 1, true, .msg letter⟩
/-- An image that verifies. -/
def good (kind : Nat) : Image :=
  { kind := kind, version := 2, level := 5, lowTable := if kind = 2 then 1 else 0,
    highTable := if kind = 2 then 7 else 0, signatureGood := true }
/-- A live update in a state. -/
def updating (u : UpdSt) : State := { tenant with fw := { tenant.fw with upd := u, tableVer := 7, standby := some (good 2), mirrored := true, key := true } }

theorem test_hyp_link :
    ((spanned { expect := 4095 }).link 11).up = true ∧ flit.crcGood = true ∧
    (spanned { expect := 4095 }).fw.span.contains flit.src = true ∧ flit.body = .msg letter ∧
    flit.seq = ((spanned { expect := 4095 }).link 11).expect ∧ flit.seq ≠ ((spanned {}).link 11).expect ∧
    ({ flit with crcGood := false } : Flit).crcGood = false ∧
    ((spanned { unacked := [flit], sentAt := 1, resends := 31 }).link 11).unacked ≠ [] ∧
    ((atHub 2049 (spanned { unacked := [flit], sentAt := 1, resends := 31 })).link 11).sentAt + 2048 ≤ (atHub 2049 (spanned {})).clk.hub ∧
    ((spanned { unacked := [flit], sentAt := 1, resends := 31 }).link 11).resends < 32 ∧
    32 ≤ ((spanned { unacked := [flit], sentAt := 1, resends := 32 }).link 11).resends ∧
    ((spanned { up := false }).link 11).up = false ∧ ((spanned { up := false }).link 11).retired = false ∧
    ((spanned { up := false, retired := true }).link 11).retired = true ∧ letter.wt ≠ 0 ∧
    ((spanned { unacked := [flit], sentAt := 1, resends := 32 }).link 11).asked = [] := by
  and_intros <;> decide +kernel
/-- Of a flit acknowledged, whether its sender has retired it; the acknowledgement of a flit. -/
def entered : State := spanned { expect := 0, entering := [{ flit with seq := 0 }] }
def retiredFlit : Flit := ⟨0, 1, true, .retired 0⟩
def acked : State := spanned { unacked := [flit], sentAt := 1, resends := 3 }
def ackFlit : Flit := ⟨0, 1, true, .ack 4095⟩

theorem test_hyp_link_handshake :
    (entered.link 11).up = true ∧ retiredFlit.crcGood = true ∧ retiredFlit.body = .retired (entered.link 11).expect ∧
    (entered.link 11).entering = [{ flit with seq := 0 }] ∧ (acked.link 11).up = true ∧ ackFlit.body = .ack flit.seq ∧
    (acked.link 11).unacked = [flit] := by
  and_intros <;> decide +kernel
theorem test_hyp_boot :
    tenant.fw.verifies 1 (good 1) = true ∧ tenant.fw.verifies 2 (good 2) = true ∧
    tenant.fw.verifies 1 (good 2) = false ∧ ([0, 15] : List Nat).eraseDups = [0, 15] ∧
    (∀ p ∈ ([0, 15] : List Nat), p < 16) := by
  and_intros <;> decide +kernel
theorem test_hyp_firmware :
    (updating .idle).fw.upd = .idle ∧ (updating (.loading (good 2))).fw.upd = .loading (good 2) ∧
    (updating .idle).fw.verifies 2 (good 2) = true ∧ (good 2).lowTable ≤ (updating .idle).fw.tableVer ∧
    (updating .idle).fw.tableVer ≤ (good 2).highTable ∧ (updating .idle).fw.verifies 2 (good 1) = false ∧
    (updating (.pausing (good 2))).fw.upd = .pausing (good 2) ∧
    (updating (.switching (good 2))).fw.upd = .switching (good 2) ∧ (updating .idle).fw.standby = some (good 2) ∧
    (updating .idle).fw.mirrored = true ∧ tenant.fw.standby = none ∧ tenant.fw.upd = .idle ∧ tenant.fw.key = false ∧
    (updating .idle).fw.key = true := by
  and_intros <;> decide +kernel
theorem test_hyp_alarm :
    sensedLevel (.supply 60) = 1 ∧ sensedLevel (.supply 101) = 2 ∧ sensedLevel (.meshBreak true) = 3 ∧
    sensedLevel (.supply 0) = 0 := by
  and_intros <;> decide +kernel
theorem test_hyp_buffer_error :
    (afloat tenant [flight]).net[0]? = some flight ∧ flight.msg.wt ≠ 0 ∧
    (0x10000 : Word).toNat / 2 ^ 16 % 2 ^ 16 ≠ 0 ∧ (0xFFFF : Word).toNat / 2 ^ 16 % 2 ^ 16 = 0 := by
  and_intros <;> decide +kernel
/-- A package that has lost its power, with an issue turn at hand. -/
def downState : State := { tenant with meter := { tenant.meter with powerLost := true }, agenda := [.issue 64] }

theorem test_hyp_down :
    ¬ downState.runs ∧ nextAnd (step downState) (fun _ => true) = true := by
  unfold State.runs; and_intros <;> decide +kernel
theorem test_hyp_down_agenda :
    ∀ i ts, downState.agenda = .event i :: ts → wakesDevice i = false := by
  intro i ts h; simp [downState] at h

end Sys2Proof.Tests
end

section
/-!
SUPPORT. The bits and bytes of the scalar helpers: counts, reversal, the carry-less product, gather and scatter
(08_scalar_instructions.md R143, R144).
-/

namespace Sys2Proof.Machine

/-! Numbers by their lowest bit: every scalar helper of R143 and R144 takes its operand apart one bit at a time -/

/-- A number of a lowest bit and the bits above it, read above the lowest bit. -/
theorem testBit_lowBit_add (d n k : Nat) : (d % 2 + 2 * n).testBit (k + 1) = n.testBit k := by
  rw [Nat.testBit_add_one, show (d % 2 + 2 * n) / 2 = n by omega]

/-- The lowest bit of such a number. -/
theorem testBit_lowBit_add_zero (d n : Nat) : (d % 2 + 2 * n).testBit 0 = d.testBit 0 := by
  simp

/-- The set bits of m below i + 1 are its lowest bit and the set bits of m / 2 below i. -/
theorem countP_testBit_succ (m i : Nat) :
    (List.range (i + 1)).countP m.testBit = m % 2 + (List.range i).countP (m / 2).testBit := by
  have above : m.testBit ∘ Nat.succ = (m / 2).testBit := funext fun k => Nat.testBit_succ m k
  rw [List.range_succ_eq_map, List.countP_cons, List.countP_map, above, Nat.testBit_zero, Nat.add_comm]
  obtain h | h := Nat.mod_two_eq_zero_or_one m <;> simp [h]

theorem countP_testBit_le (m i : Nat) : (List.range i).countP m.testBit ≤ i :=
  Nat.le_trans List.countP_le_length (Nat.le_of_eq List.length_range)

/-! Counting bits (08_scalar_instructions.md R144) -/

theorem setBits_eq_countP (w n : Nat) : setBits w n = (List.range w).countP n.testBit := by
  induction w generalizing n with
  | zero => rfl
  | succ w ih => rw [setBits, ih, countP_testBit_succ]

theorem trailingZeros_le (w n : Nat) : trailingZeros w n ≤ w := by
  induction w generalizing n with
  | zero => simp [trailingZeros]
  | succ w ih =>
    have := ih (n / 2)
    unfold trailingZeros
    split <;> omega

/-- Every bit below the count is zero. -/
theorem testBit_below_trailingZeros (w n i : Nat) (h : i < trailingZeros w n) : n.testBit i = false := by
  induction w generalizing n i with
  | zero => simp [trailingZeros] at h
  | succ w ih =>
    unfold trailingZeros at h
    split at h
    case isTrue => omega
    case isFalse even =>
      cases i with
      | zero => simpa using even
      | succ i => rw [Nat.testBit_succ]; exact ih (n / 2) i (by omega)

/-- The bit at the count is set, unless every bit is zero. -/
theorem testBit_at_trailingZeros (w n : Nat) (h : trailingZeros w n < w) : n.testBit (trailingZeros w n) = true := by
  induction w generalizing n with
  | zero => omega
  | succ w ih =>
    unfold trailingZeros at h ⊢
    split at h
    case isTrue odd => simp [odd]
    case isFalse even =>
      rw [if_neg even, Nat.add_comm, Nat.testBit_add_one]
      exact ih (n / 2) (by omega)

theorem leadingZeros_le (w n : Nat) : leadingZeros w n ≤ w := by
  unfold leadingZeros; split <;> omega

/-- Every bit of a number of w bits above its highest set bit is zero. -/
theorem testBit_above_leadingZeros (w n i : Nat) (h : i < leadingZeros w n) :
    n.testBit (w - 1 - i) = false := by
  unfold leadingZeros at h
  split at h
  case isTrue zero => simp [zero]
  case isFalse =>
    have above : n.log2 + 1 ≤ w - 1 - i := by omega
    exact Nat.testBit_lt_two_pow (Nat.lt_of_lt_of_le Nat.lt_log2_self (Nat.pow_le_pow_right Nat.two_pos above))

/-- The bit that ends the leading zeros is set, unless every bit is zero. -/
theorem testBit_at_leadingZeros (w n : Nat) (hn : n < 2 ^ w) (h : leadingZeros w n < w) :
    n.testBit (w - 1 - leadingZeros w n) = true := by
  unfold leadingZeros at h ⊢
  split at h
  case isTrue => omega
  case isFalse pos =>
    have highest : n.log2 < w := (Nat.log2_lt pos).mpr hn
    rw [if_neg pos, show w - 1 - (w - 1 - n.log2) = n.log2 by omega]
    exact Nat.testBit_log2 pos

/-! Reversal (R144) -/

/-- Of w bits reversed behind r, the lowest w are those of n in the other order, and r stands above them. -/
theorem testBit_reverseBits (w r n k : Nat) :
    (reverseBits w r n).testBit k = if k < w then n.testBit (w - 1 - k) else r.testBit (k - w) := by
  induction w generalizing r n with
  | zero => simp [reverseBits]
  | succ w ih =>
    rw [reverseBits, ih, Nat.add_comm (2 * r)]
    obtain below | rfl | above := Nat.lt_trichotomy k w
    · rw [if_pos below, if_pos (by omega), Nat.testBit_div_two]
      congr 1; omega
    · simp
    · rw [if_neg (by omega), if_neg (by omega), show k - w = (k - (w + 1)) + 1 by omega, testBit_lowBit_add]

/-! The carry-less product (R143) -/

/-- One more changes the parity. -/
theorem parity_succ (k : Nat) : ((k + 1) % 2 == 1) = !(k % 2 == 1) := by
  obtain h | h := Nat.mod_two_eq_zero_or_one k <;> simp [Nat.add_mod, h]

/-- Doubling b moves its bit j - (i + 1) to place j - i, where there is such a place. -/
theorem testBit_double (b i j : Nat) :
    (decide (i ≤ j) && (2 * b).testBit (j - i)) = (decide (i + 1 ≤ j) && b.testBit (j - (i + 1))) := by
  obtain below | above := Nat.lt_or_ge i j
  · rw [decide_eq_true (Nat.le_of_lt below), decide_eq_true (show i + 1 ≤ j from below),
      show j - i = j - (i + 1) + 1 by omega, Nat.testBit_succ, Nat.mul_div_cancel_left _ Nat.two_pos]
  · rw [decide_eq_false (show ¬ i + 1 ≤ j by omega), Nat.sub_eq_zero_of_le above, Nat.testBit_zero,
      decide_eq_false (show ¬ 2 * b % 2 = 1 by omega), Bool.and_false, Bool.false_and]

/-- Bit j of the carry-less product is the parity of the set bits i of c that meet a set bit j - i of b. -/
theorem testBit_clMul (n b c j : Nat) : (clMul n b c).testBit j =
    (((List.range n).filter fun i => c.testBit i && decide (i ≤ j) && b.testBit (j - i)).length % 2 == 1) := by
  induction n generalizing b c with
  | zero => simp [clMul]
  | succ n ih =>
    have shifted : (fun i => c.testBit i && decide (i ≤ j) && b.testBit (j - i)) ∘ Nat.succ =
        fun i => (c / 2).testBit i && decide (i ≤ j) && (2 * b).testBit (j - i) := by
      funext i
      simp only [Function.comp_apply, Nat.succ_eq_add_one, Bool.and_assoc, Nat.testBit_succ c, testBit_double]
    rw [List.range_succ_eq_map, List.filter_cons, List.filter_map, shifted]
    unfold clMul
    split
    case isTrue odd =>
      rw [Nat.xor_eq, Nat.testBit_xor, ih]
      by_cases hb : b.testBit j
      · simp [odd, hb, parity_succ]
      · simp [odd, hb]
    case isFalse even => simp [even, ih]

/-! Gathering and scattering bits under a mask (R143) -/

theorem bExt_shift (n j b m : Nat) : bExt n j b m = 2 ^ j * bExt n 0 b m := by
  induction n generalizing j b m with
  | zero => rfl
  | succ n ih =>
    unfold bExt
    split
    · rw [ih (j + 1), ih (0 + 1), Nat.pow_succ, Nat.mul_add, Nat.mul_comm (b % 2), Nat.mul_assoc,
        Nat.pow_zero, Nat.mul_one, Nat.zero_add, Nat.pow_one]
    · exact ih ..

/-- Gathering from result bit 0 takes the lowest bit where the mask has it, and goes on above. -/
theorem bExt_succ (n b m : Nat) : bExt (n + 1) 0 b m =
    if m % 2 = 1 then b % 2 + 2 * bExt n 0 (b / 2) (m / 2) else bExt n 0 (b / 2) (m / 2) := by
  rw [bExt, bExt_shift n (0 + 1)]; simp

/-- A bit under the mask goes to the place that the mask's bits below it count. -/
theorem testBit_bExt (n b m i : Nat) (hi : i < n) (h : m.testBit i = true) :
    (bExt n 0 b m).testBit ((List.range i).countP m.testBit) = b.testBit i := by
  induction n generalizing b m i with
  | zero => omega
  | succ n ih =>
    rw [bExt_succ]
    cases i with
    | zero => rw [if_pos (by simpa using h)]; exact testBit_lowBit_add_zero ..
    | succ i =>
      have step := ih (b / 2) (m / 2) i (by omega) (by rwa [← Nat.testBit_succ])
      rw [countP_testBit_succ, Nat.testBit_succ, ← step]
      split
      case isTrue odd => rw [odd, Nat.add_comm 1, testBit_lowBit_add]
      case isFalse even => rw [Nat.mod_two_ne_one.mp even, Nat.zero_add]

/-- The gathered bits are as many as the mask has. -/
theorem bExt_lt (n b m : Nat) : bExt n 0 b m < 2 ^ (List.range n).countP m.testBit := by
  induction n generalizing b m with
  | zero => simp [bExt]
  | succ n ih =>
    have step := ih (b / 2) (m / 2)
    rw [bExt_succ, countP_testBit_succ]
    split
    case isTrue odd => rw [odd, Nat.pow_add]; omega
    case isFalse even => rwa [Nat.mod_two_ne_one.mp even, Nat.zero_add]

theorem bDep_shift (n i b m : Nat) : bDep n i b m = 2 ^ i * bDep n 0 b m := by
  induction n generalizing i b m with
  | zero => rfl
  | succ n ih =>
    unfold bDep
    split
    · rw [ih (i + 1), ih (0 + 1), Nat.pow_succ, Nat.mul_add, Nat.mul_comm (b % 2), Nat.mul_assoc,
        Nat.pow_zero, Nat.mul_one, Nat.zero_add, Nat.pow_one]
    · rw [ih (i + 1), ih (0 + 1), Nat.pow_succ, Nat.mul_assoc, Nat.zero_add, Nat.pow_one]

/-- Scattering from bit 0 places the lowest bit where the mask has it, and goes on above. -/
theorem bDep_succ (n b m : Nat) : bDep (n + 1) 0 b m =
    if m % 2 = 1 then b % 2 + 2 * bDep n 0 (b / 2) (m / 2) else 2 * bDep n 0 b (m / 2) := by
  rw [bDep, bDep_shift n (0 + 1), bDep_shift n (0 + 1)]; simp

/-- A place under the mask takes the bit that the mask's bits below it count. -/
theorem testBit_bDep (n b m i : Nat) (hi : i < n) : (bDep n 0 b m).testBit i =
    (m.testBit i && b.testBit ((List.range i).countP m.testBit)) := by
  induction n generalizing b m i with
  | zero => omega
  | succ n ih =>
    rw [bDep_succ]
    cases i with
    | zero => split <;> simp_all
    | succ i =>
      rw [countP_testBit_succ, Nat.testBit_succ m]
      split
      case isTrue odd => rw [testBit_lowBit_add, ih _ _ _ (by omega), odd, Nat.add_comm, Nat.testBit_succ b]
      case isFalse even =>
        rw [Nat.mod_two_ne_one.mp even, Nat.zero_add, Nat.testBit_succ, Nat.mul_div_cancel_left _ Nat.two_pos,
          ih _ _ _ (by omega)]

/-! The order of bytes (R144; 00_scope.md R6) -/

theorem leBytes_length (n v : Nat) : (leBytes n v).length = n := by
  induction n generalizing v with
  | zero => rfl
  | succ n ih => simp [leBytes, ih]

theorem leBytes_getElem (n v i : Nat) (h : i < (leBytes n v).length) :
    (leBytes n v)[i] = BitVec.ofNat 8 (v / 256 ^ i) := by
  induction n generalizing v i with
  | zero => simp [leBytes] at h
  | succ n ih =>
    cases i with
    | zero => simp [leBytes]
    | succ i => simp [leBytes, ih, Nat.div_div_eq_div_mul, Nat.pow_succ']

theorem leNat_lt (bs : List Byte) : leNat bs < 256 ^ bs.length := by
  induction bs with
  | nil => simp [leNat]
  | cons b bs ih => have := b.isLt; simp only [leNat, List.length_cons, Nat.pow_succ']; omega

/-- Digit i of a little-endian number is its byte i. -/
theorem leNat_digit (bs : List Byte) (i : Nat) (h : i < bs.length) : leNat bs / 256 ^ i % 256 = bs[i].toNat := by
  induction bs generalizing i with
  | nil => simp at h
  | cons b bs ih =>
    have hb := b.isLt
    cases i with
    | zero => simp only [leNat, List.getElem_cons_zero]; omega
    | succ i =>
      have low : (b.toNat + 256 * leNat bs) / 256 = leNat bs := by omega
      rw [leNat, Nat.pow_succ', ← Nat.div_div_eq_div_mul, low]
      exact ih i (by simpa using h)

end Sys2Proof.Machine
end

section
/-!
SUPPORT. The values of the scalar forms: operations of words as wrap64 of the integers' own (00_scope.md R8), division
(08_scalar_instructions.md R142), and the words of R143 and R144; and the words of ALU3, ALU3M and ALU1 that are no
instruction.
-/

namespace Sys2Proof.Machine

/-! Words of integers (00_scope.md R8): each operation of the model's words is wrap64 of the integers' own -/

theorem wrap64_natCast (n : Nat) : wrap64 n = word n := BitVec.ofInt_natCast ..

theorem wrap64_toNat (x : Word) : wrap64 x.toNat = x := by rw [wrap64_natCast, word_toNat_self]

theorem wrap64_sInt (x : Word) : wrap64 (sInt x) = x := BitVec.ofInt_toInt

theorem wrap64_add (m n : Int) : wrap64 (m + n) = wrap64 m + wrap64 n := BitVec.ofInt_add ..

theorem wrap64_mul (m n : Int) : wrap64 (m * n) = wrap64 m * wrap64 n := BitVec.ofInt_mul ..

theorem wrap64_neg (n : Int) : wrap64 (-n) = -wrap64 n := BitVec.ofInt_neg

theorem wrap64_sub (m n : Int) : wrap64 (m - n) = wrap64 m - wrap64 n := by
  rw [Int.sub_eq_add_neg, wrap64_add, wrap64_neg, BitVec.sub_eq_add_neg]

theorem add_eq_wrap64 (x y : Word) : x + y = wrap64 (x.toNat + y.toNat) := by
  rw [wrap64_add, wrap64_toNat, wrap64_toNat]

theorem sub_eq_wrap64 (x y : Word) : x - y = wrap64 (x.toNat - y.toNat) := by
  rw [wrap64_sub, wrap64_toNat, wrap64_toNat]

theorem mul_eq_wrap64 (x y : Word) : x * y = wrap64 (x.toNat * y.toNat) := by
  rw [wrap64_mul, wrap64_toNat, wrap64_toNat]

/-- Division by a power of two is the same among the naturals and the integers. -/
theorem word_div_pow (m k : Nat) : word (m / 2 ^ k) = wrap64 (m / 2 ^ k) := by
  rw [← wrap64_natCast]; push_cast; rfl

theorem shiftLeft_eq_wrap64 (x : Word) (n : Nat) : x <<< n = wrap64 (x.toNat * 2 ^ n) := by
  apply BitVec.eq_of_toNat_eq
  rw [show (x.toNat : Int) * 2 ^ n = ((x.toNat * 2 ^ n : Nat) : Int) by push_cast; rfl, wrap64_natCast, word_toNat,
    BitVec.toNat_shiftLeft, Nat.shiftLeft_eq]

theorem ushiftRight_eq_wrap64 (x : Word) (n : Nat) : x >>> n = wrap64 (x.toNat / 2 ^ n) := by
  apply BitVec.eq_of_toNat_eq
  rw [← word_div_pow, word_toNat, BitVec.toNat_ushiftRight, Nat.shiftRight_eq_div_pow]
  exact (Nat.mod_eq_of_lt (Nat.lt_of_le_of_lt (Nat.div_le_self ..) x.isLt)).symm

theorem sshiftRight_eq_wrap64 (x : Word) (n : Nat) : x.sshiftRight n = wrap64 (sInt x / 2 ^ n) := by
  simp [BitVec.sshiftRight, wrap64, sInt, Int.shiftRight_eq_div_pow]

theorem rotr_eq_wrap64 (x : Word) (n : Nat) (h : n < 64) :
    rotr x n = wrap64 (x.toNat / 2 ^ n) ||| wrap64 (x.toNat * 2 ^ (64 - n)) := by
  rw [rotr, BitVec.rotateRight_def, Nat.mod_eq_of_lt h, shiftLeft_eq_wrap64, ushiftRight_eq_wrap64]

theorem minS_eq_wrap64 (x y : Word) : minS x y = wrap64 (min (sInt x) (sInt y)) := by
  unfold minS
  split
  case isTrue less => rw [Int.min_eq_right (Int.le_of_lt less), wrap64_sInt]
  case isFalse ge => rw [Int.min_eq_left (Int.not_lt.mp ge), wrap64_sInt]

theorem maxS_eq_wrap64 (x y : Word) : maxS x y = wrap64 (max (sInt x) (sInt y)) := by
  unfold maxS
  split
  case isTrue less => rw [Int.max_eq_right (Int.le_of_lt less), wrap64_sInt]
  case isFalse ge => rw [Int.max_eq_left (Int.not_lt.mp ge), wrap64_sInt]

theorem minU_eq_wrap64 (x y : Word) : minU x y = wrap64 (min x.toNat y.toNat : Nat) := by
  unfold minU
  split
  case isTrue less => rw [Nat.min_eq_right (Nat.le_of_lt less), wrap64_toNat]
  case isFalse ge => rw [Nat.min_eq_left (Nat.not_lt.mp ge), wrap64_toNat]

theorem maxU_eq_wrap64 (x y : Word) : maxU x y = wrap64 (max x.toNat y.toNat : Nat) := by
  unfold maxU
  split
  case isTrue less => rw [Nat.max_eq_right (Nat.le_of_lt less), wrap64_toNat]
  case isFalse ge => rw [Nat.max_eq_left (Nat.not_lt.mp ge), wrap64_toNat]

/-- Low bits of a word taken as a field are the narrower word's number. -/
theorem word_fld_low (x : Word) (n : Nat) : word (fld x 0 n) = wrap64 (x.setWidth n).toNat := by
  rw [wrap64_natCast]; simp [fld]

theorem word_getLsbD (n i : Nat) : (word n).getLsbD i = (decide (i < 64) && n.testBit i) := BitVec.getLsbD_ofNat ..

/-! Division (08_scalar_instructions.md R142) -/

theorem divS_eq (x y : Word) :
    divS x y = if y = 0 then 0xFFFFFFFFFFFFFFFF else wrap64 ((sInt x).tdiv (sInt y)) := rfl

theorem divU_eq (x y : Word) :
    divU x y = if y = 0 then 0xFFFFFFFFFFFFFFFF else wrap64 (x.toNat / y.toNat) := by
  rw [divU, ← wrap64_natCast]; rfl

/-- A remainder is what truncated division leaves, so it has the dividend's sign. -/
theorem remS_eq (x y : Word) : remS x y = if y = 0 then x else wrap64 ((sInt x).tmod (sInt y)) := by
  rw [remS, Int.tmod_def]

theorem remU_eq (x y : Word) : remU x y = if y = 0 then x else wrap64 (x.toNat % y.toNat) := by
  have rest : x.toNat - y.toNat * (x.toNat / y.toNat) = x.toNat % y.toNat := by
    have := Nat.div_add_mod x.toNat y.toNat; omega
  rw [remU, rest, ← wrap64_natCast]; rfl

/-! Gathered and scattered words (R143) -/

theorem getLsbD_gathered (b m : Word) (i : Nat) (hi : i < 64) (masked : m.getLsbD i = true) :
    (word (bExt 64 0 b.toNat m.toNat)).getLsbD ((List.range i).countP m.getLsbD) = b.getLsbD i := by
  have place : (List.range i).countP m.getLsbD < 64 := Nat.lt_of_le_of_lt (countP_testBit_le m.toNat i) hi
  rw [word_getLsbD, decide_eq_true place]
  exact testBit_bExt 64 b.toNat m.toNat i hi masked

theorem getLsbD_past_gathered (b m : Word) (j : Nat) (past : (List.range 64).countP m.getLsbD ≤ j) :
    (word (bExt 64 0 b.toNat m.toNat)).getLsbD j = false := by
  have above : bExt 64 0 b.toNat m.toNat < 2 ^ j :=
    Nat.lt_of_lt_of_le (bExt_lt 64 b.toNat m.toNat) (Nat.pow_le_pow_right Nat.two_pos past)
  rw [word_getLsbD, Nat.testBit_lt_two_pow above, Bool.and_false]

theorem getLsbD_scattered (b m : Word) (i : Nat) (hi : i < 64) : (word (bDep 64 0 b.toNat m.toNat)).getLsbD i =
    (m.getLsbD i && b.getLsbD ((List.range i).countP m.getLsbD)) := by
  rw [word_getLsbD, decide_eq_true hi]
  exact testBit_bDep 64 b.toNat m.toNat i hi

/-! Completing a form -/

/-- A form that retires with a register result answers by that result's value alone. -/
theorem next_doneX_congr {s : State} {a : XReg} {v w : Word} (h : v = w) :
    (.next (s.doneX a v) : Out) = .next (s.doneX a w) := by rw [h]

/-! The divisions with room for their result (07_instruction_lines.md R131) -/

theorem exec_div (s : State) (a b c : XReg) (l : Look) (room : s.hasRoom) :
    exec (.div a b c l) s = .next (s.deliver l [.x a] (.ok [.x a (divS (s.x b) (s.x c))] {})) :=
  congrArg Host.Outcome.next (withRoom_room s _ room)

theorem exec_divN (s : State) (a b c : XReg) (l : Look) (room : s.hasRoom) :
    exec (.divN a b c l) s = .next (s.deliver l [.x a] (.ok [.x a (divU (s.x b) (s.x c))] {})) :=
  congrArg Host.Outcome.next (withRoom_room s _ room)

theorem exec_rem (s : State) (a b c : XReg) (l : Look) (room : s.hasRoom) :
    exec (.rem a b c l) s = .next (s.deliver l [.x a] (.ok [.x a (remS (s.x b) (s.x c))] {})) :=
  congrArg Host.Outcome.next (withRoom_room s _ room)

theorem exec_remN (s : State) (a b c : XReg) (l : Look) (room : s.hasRoom) :
    exec (.remN a b c l) s = .next (s.deliver l [.x a] (.ok [.x a (remU (s.x b) (s.x c))] {})) :=
  congrArg Host.Outcome.next (withRoom_room s _ room)

/-! One-operand values (08_scalar_instructions.md R144) -/

theorem word_tag (x : Word) : word (fld x 56 8) = wrap64 (x.toNat / 2 ^ 56) := by
  have tag : fld x 56 8 = x.toNat / 2 ^ 56 := Nat.mod_eq_of_lt (by have := x.isLt; omega)
  rw [tag, word_div_pow]

/-- The word reversed holds bit i at place 63 - i. -/
theorem getLsbD_reversed (x : Word) (i : Nat) (hi : i < 64) :
    (word (reverseBits 64 0 x.toNat)).getLsbD (63 - i) = x.getLsbD i := by
  rw [word_getLsbD, decide_eq_true (by omega : 63 - i < 64), Bool.true_and, testBit_reverseBits, if_pos (by omega),
    show 64 - 1 - (63 - i) = i by omega]
  rfl

/-- The word of the bytes in the other order holds byte i at place 7 - i. -/
theorem byte_swapped (x : Word) (i : Nat) (hi : i < 8) :
    (word (leNat (leBytes 8 x.toNat).reverse)).toNat / 256 ^ (7 - i) % 256 = x.toNat / 256 ^ i % 256 := by
  have len : (leBytes 8 x.toNat).reverse.length = 8 := by rw [List.length_reverse, leBytes_length]
  have fits : leNat (leBytes 8 x.toNat).reverse < 2 ^ 64 := by
    have := leNat_lt (leBytes 8 x.toNat).reverse
    rwa [len] at this
  rw [word_toNat, Nat.mod_eq_of_lt fits, leNat_digit _ _ (by omega), List.getElem_reverse, leBytes_getElem]
  simp only [leBytes_length, show 8 - 1 - (7 - i) = i by omega, BitVec.toNat_ofNat]

/-! Reserved words of the register forms (07_instruction_lines.md R128) -/

theorem need_neg {p : Prop} [Decidable p] (h : ¬ p) : need p = none := if_neg h

theorem decodeAlu1_reserved (y : Fields) (h : y.t ≠ 1 ∨ y.c ≠ 0 ∨ y.l ≠ 0 ∨ y.d ≠ 0 ∨ 15 ≤ y.f) :
    decodeAlu1 y = none := by
  unfold decodeAlu1
  by_cases zero : y.c = 0 ∧ y.l = 0 ∧ y.d = 0
  · split
    any_goals omega
    rfl
  · rw [need_neg zero]
    split <;> rfl

theorem decodeAlu3_reserved (y : Fields) (h : y.d ≠ 0 ∨ y.l ≠ 0) : decodeAlu3 y = none := by
  have bad : ¬ (y.l = 0 ∧ y.d = 0) := by omega
  unfold decodeAlu3
  rw [need_neg bad]
  split <;> rfl

theorem decodeAlu3m_reserved (y : Fields) (h : y.d ≠ 0 ∨ y.l ≠ 0 ∧ ¬ (7 ≤ y.f ∧ y.f ≤ 10)) :
    decodeAlu3m y = none := by
  have bad : ¬ (y.l = 0 ∧ y.d = 0) := by omega
  unfold decodeAlu3m
  rw [need_neg bad]
  by_cases d : y.d = 0
  · split
    any_goals omega
    all_goals rfl
  · rw [need_neg d]
    split <;> rfl

end Sys2Proof.Machine
end

section
/-!
SUPPORT. A trap taken with no result outstanding is TakeTrap of the current slot (08_scalar_instructions.md R157;
07_instruction_lines.md R133).
-/

namespace Sys2Proof.Machine

/-- The fields of TSTATE as an early trap sets them: the window fields of R133 are zero. -/
theorem tstateOf_precise (nr irr : Bool) (p : Priv) :
    (tstateOf nr irr 0 false false p.code).toNat = boolCode nr * 512 + boolCode irr * 256 + p.code := by
  cases nr <;> cases irr <;> cases p <;> rfl

theorem Priv.code_lt (p : Priv) : p.code < 4 := by cases p <;> decide

theorem bitOf_boolCode {n k : Nat} {b : Bool} (h : n / 2 ^ k % 2 = boolCode b) : bitOf n k = b := by
  rw [bitOf, h]; cases b <;> rfl

/-- TakeTrap of the current slot, with nothing to repeat, saves and enters what R157 says. -/
theorem trapTaken_takeTrapAt (s : State) (cause : Nat) (tval at_ : Word) (nr : Bool) (hc : cause < 256) :
    TrapTaken s (s.takeTrapAt s.cur cause tval at_ nr 0 false false 0) cause tval at_ nr := by
  have me : (s.takeTrapAt s.cur cause tval at_ nr 0 false false 0).me =
      s.me.takeTrap (s.ctxOf s.me.ctx).ttab cause tval at_ nr 0 false false 0 :=
    (State.takeTrapAt_slot ..).trans (if_pos rfl)
  have state := tstateOf_precise nr s.me.irrev s.me.priv
  have code := Priv.code_lt s.me.priv
  have irr : boolCode s.me.irrev ≤ 1 := by cases s.me.irrev <;> decide
  exact {
    rest := rfl
    others := fun p other => (State.takeTrapAt_slot ..).trans (if_neg other)
    tpc := by rw [me]; rfl
    tcause := by rw [me]; exact Nat.mod_eq_of_lt hc
    tval := by rw [me]; rfl
    twt := by rw [me]; rfl
    tres := by rw [me]; rfl
    nr := by rw [me]; exact bitOf_boolCode (by simp only [Slot.takeTrap]; omega)
    irr := by rw [me]; exact bitOf_boolCode (by simp only [Slot.takeTrap]; omega)
    window := by rw [me]; simp only [Slot.takeTrap]; omega
    pprv := by rw [me]; simp only [Slot.takeTrap]; omega
    priv := by rw [me]; rfl
    pc := by rw [me]; rfl
    slot := by rw [me]; rfl }

/-- A trap of the current head with no result outstanding is TakeTrap at that head. -/
theorem trapIn_noResults (s : State) (cause : Nat) (tval : Word) (nr : Bool) (h : s.noResults) :
    s.trapIn s.cur cause tval nr = s.takeTrapAt s.cur cause tval s.me.pc nr 0 false false 0 := by
  have quiet : (s.slot s.cur).outs = [] := h
  rw [State.trapIn_precise s s.cur cause tval nr quiet, Slot.drain_empty _ quiet]
  simp [State.takeTrapAt, State.setSlot_setSlot, State.me]

/-- A trap at the head that follows, with no result outstanding, is TakeTrap there. -/
theorem trapAfter_noResults (s : State) (cause : Nat) (tval : Word) (h : s.noResults) :
    s.trapAfter cause tval = s.takeTrapAt s.cur cause tval s.me.npc false 0 false false 0 :=
  withWindows_empty s _ h

theorem trapTaken_trapIn (s : State) (cause : Nat) (tval : Word) (nr : Bool) (h : s.noResults) (hc : cause < 256) :
    TrapTaken s (s.trapIn s.cur cause tval nr) cause tval s.me.pc nr :=
  trapIn_noResults s cause tval nr h ▸ trapTaken_takeTrapAt s cause tval s.me.pc nr hc

theorem trapTaken_trapAfter (s : State) (cause : Nat) (tval : Word) (h : s.noResults) (hc : cause < 256) :
    TrapTaken s (s.trapAfter cause tval) cause tval s.me.npc false :=
  trapAfter_noResults s cause tval h ▸ trapTaken_takeTrapAt s cause tval s.me.npc false hc

end Sys2Proof.Machine
end

section
/-!
PROOFS. The statements of the scalar forms and of the traps of the current head.
-/

namespace Sys2Proof.Machine

/-- Settles O11: the products are the integers' own, and the carry-less product, the gather and the scatter are given by
their bits. -/
theorem wideProductsAndBitFieldsCompute : Obligations.WideProductsAndBitFieldsCompute := by
  unfold Obligations.WideProductsAndBitFieldsCompute
  intro s a b c
  refine ⟨rfl, rfl, rfl, rfl, ?mul, ?mulh, ?mulhN, ?clmul, ?bext, ?bdep⟩
  case mul => exact next_doneX_congr (mul_eq_wrap64 ..)
  case mulh => rfl
  case mulhN => exact next_doneX_congr (by rw [word_div_pow, Int.natCast_mul])
  case clmul =>
    refine ⟨clMul 64 (s.x b).toNat (s.x c).toNat, testBit_clMul 64 _ _, ?_, ?_⟩
    · exact next_doneX_congr (wrap64_natCast _).symm
    · exact next_doneX_congr (word_div_pow ..)
  case bext => exact ⟨_, rfl, getLsbD_gathered (s.x b) (s.x c), getLsbD_past_gathered (s.x b) (s.x c)⟩
  case bdep => exact ⟨_, rfl, getLsbD_scattered (s.x b) (s.x c)⟩

/-- Settles O14: each form by the bits of its result, and a word whose fields break the table meets a check of the
decoder. -/
theorem oneOperandFormsCompute : Obligations.OneOperandFormsCompute := by
  unfold Obligations.OneOperandFormsCompute
  rintro s a b _ rfl
  refine ⟨?clz, ?ctz, ?popc, ?brev, rfl, rfl, rfl, ?zextB, ?zextH, ?zextW, rfl, ?neg, rfl, ?tagget, ?bswap, ?codes,
    ?reserved⟩
  case clz =>
    exact ⟨leadingZeros 64 (s.x b).toNat, next_doneX_congr (wrap64_natCast _).symm, leadingZeros_le ..,
      testBit_above_leadingZeros 64 (s.x b).toNat, testBit_at_leadingZeros 64 _ (s.x b).isLt⟩
  case ctz =>
    exact ⟨trailingZeros 64 (s.x b).toNat, next_doneX_congr (wrap64_natCast _).symm, trailingZeros_le ..,
      testBit_below_trailingZeros 64 (s.x b).toNat, testBit_at_trailingZeros 64 _⟩
  case popc => exact next_doneX_congr (by rw [setBits_eq_countP, ← wrap64_natCast]; rfl)
  case brev => exact ⟨_, rfl, getLsbD_reversed (s.x b)⟩
  case zextB => exact next_doneX_congr (word_fld_low ..)
  case zextH => exact next_doneX_congr (word_fld_low ..)
  case zextW => exact next_doneX_congr (word_fld_low ..)
  case neg => exact next_doneX_congr (by rw [wrap64_neg, wrap64_sInt])
  case tagget => exact next_doneX_congr (word_tag _)
  case bswap => exact ⟨_, rfl, byte_swapped (s.x b)⟩
  case codes => simp [List.range_succ, decodeFields, decodeAlu1, need]
  case reserved =>
    intro y major bad
    simp only [decodeFields, major]
    exact decodeAlu1_reserved y bad

/-- Settles O10: each form's word is wrap64 of the integers' own operation, and the decoder answers by the two
tables. -/
theorem registerArithmeticComputes : Obligations.RegisterArithmeticComputes := by
  unfold Obligations.RegisterArithmeticComputes
  refine ⟨fun s a b imm k => ?two, fun s a b c n hn => ?three, fun a b c l => ?codes, fun x major bad => ?reserved⟩
  case two =>
    refine ⟨rfl, ?add, ?sub, rfl, rfl, rfl, ?addq, ?shlq, ?shrq⟩
    case add => exact next_doneX_congr (add_eq_wrap64 ..)
    case sub => exact next_doneX_congr (sub_eq_wrap64 ..)
    case addq => exact next_doneX_congr (by rw [wrap64_add, wrap64_toNat]; rfl)
    case shlq => exact next_doneX_congr (shiftLeft_eq_wrap64 ..)
    case shrq => exact next_doneX_congr (ushiftRight_eq_wrap64 ..)
  case three =>
    have count : fld (s.x c) 0 6 = n := by rw [hn, fld]; simp
    have small : n < 64 := by omega
    refine ⟨?add, ?sub, rfl, rfl, rfl, rfl, ?shl, ?shr, ?sar, ?rot, ?min, ?max, ?minN, ?maxN, rfl, rfl⟩
    case add => exact next_doneX_congr (add_eq_wrap64 ..)
    case sub => exact next_doneX_congr (sub_eq_wrap64 ..)
    case shl => exact next_doneX_congr (by rw [count, shiftLeft_eq_wrap64])
    case shr => exact next_doneX_congr (by rw [count, ushiftRight_eq_wrap64])
    case sar => exact next_doneX_congr (by rw [count, sshiftRight_eq_wrap64])
    case rot => exact next_doneX_congr (by rw [count, rotr_eq_wrap64 _ n small])
    case min => exact next_doneX_congr (minS_eq_wrap64 ..)
    case max => exact next_doneX_congr (maxS_eq_wrap64 ..)
    case minN => exact next_doneX_congr (minU_eq_wrap64 ..)
    case maxN => exact next_doneX_congr (maxU_eq_wrap64 ..)
  case codes =>
    refine ⟨?_, ?_, ?_⟩
    · simp [decodeFields, decodeMov, decodeAdd, decodeSub, decodeAnd, decodeOr, decodeXor, decodeAddq, decodeShlq,
        decodeShrq, bvOf]
    · simp [List.range_succ, decodeFields, decodeAlu3, need]
    · simp [decodeFields, decodeAlu3m, need]
  case reserved =>
    obtain alu3 | alu3m := major
    · simp only [decodeFields, alu3]
      exact decodeAlu3_reserved x (by omega)
    · simp only [decodeFields, alu3m]
      exact decodeAlu3m_reserved x (by omega)

/-- Settles O12: each form has room, and its value is the truncated quotient or what that leaves. -/
theorem divisionTruncatesTowardZero : Obligations.DivisionTruncatesTowardZero := by
  unfold Obligations.DivisionTruncatesTowardZero
  rintro s a b c l _ _ room rfl rfl
  rw [exec_div s a b c l room, exec_divN s a b c l room, exec_rem s a b c l room, exec_remN s a b c l room,
    divS_eq, divU_eq, remS_eq, remU_eq]
  exact ⟨rfl, rfl, rfl, rfl⟩

/-- Settles O22: with no result outstanding every one of these traps is TakeTrap of the current slot, at its own head or
the next. -/
theorem trapsSaveAndEnter : Obligations.TrapsSaveAndEnter := by
  unfold Obligations.TrapsSaveAndEnter
  refine ⟨fun s cause tval quiet small => ⟨?head, ?headNR⟩,
    fun s code quiet => ⟨?trap, ?svc, fun off => ?dbrk, fun on => ?halt⟩⟩
  case head => exact trapTaken_trapIn s cause tval false quiet small
  case headNR => exact trapTaken_trapIn s cause tval true quiet small
  case trap => exact ⟨_, rfl, trapTaken_trapAfter s _ _ quiet (by decide)⟩
  case svc => exact ⟨_, rfl, trapTaken_trapAfter s _ _ quiet (by decide)⟩
  case dbrk =>
    exact ⟨_, congrArg Host.Outcome.next (if_neg (by simp [off])), trapTaken_trapAfter s _ _ quiet (by decide)⟩
  case halt => exact congrArg Host.Outcome.next ((if_pos on).trans (withWindows_empty s _ quiet))

end Sys2Proof.Machine
end

section
/-!
SUPPORT. Lanes written without converting them: what a lane map and a lane comparison leave in their destination, in the
flags and in the program counter, and a lane read as a number (10_vector_instructions.md R195, R196, R209, R212).
-/

namespace Sys2Proof.Machine

/-! A lane as the number its type reads -/

/-- The integer of w bits is the bit vector's own. -/
theorem intVal_signed (w n : Nat) : intVal w true n = (BitVec.ofNat w n).toInt := by
  cases w with
  | zero => simp [intVal, Nat.mod_one, BitVec.of_length_zero]
  | succ w =>
    have half : 2 ^ (w + 1) = 2 * 2 ^ w := Nat.pow_succ'
    simp only [intVal, Bool.true_and, decide_eq_true_eq, BitVec.toInt_eq_toNat_cond, BitVec.toNat_ofNat,
      Nat.add_sub_cancel]
    split <;> split <;> omega

theorem intLane_eq_laneInt (ty : ITy) (v : Vec) (i : Nat) : intLane ty v i = laneInt ty v i := by
  unfold intLane laneInt
  cases ty.signed with
  | true => rw [intVal_signed, if_pos rfl]
  | false => simp [intVal, Nat.mod_eq_of_lt (lane_lt ty.bytes v i)]

theorem extendLane_int (ty : ITy) (n : Nat) : extendLane (.int ty) n =
    if ITy.signed ty then wrap64 (BitVec.ofNat (8 * ITy.bytes ty) n).toInt else word n := by
  rw [← intVal_signed]; rfl

/-! Flags -/

theorem foldl_or_nv (l : List Nat) (g : Nat → Bool) (fl : FFlags) :
    (l.map fun k => ({ nv := g k } : FFlags)).foldl FFlags.or fl = { fl with nv := fl.nv || l.any g } := by
  induction l generalizing fl with
  | nil => simp
  | cons k l ih => simp [ih, FFlags.or, Bool.or_assoc]

/-- Operations that raise NV alone raise it together when one of them does. -/
theorem flagsOf_nv (l : List Nat) (g : Nat → Bool) :
    flagsOf (l.map fun k => { nv := g k }) = { nv := l.any g } := by
  rw [flagsOf, foldl_or_nv, Bool.false_or]

theorem flagsOf_quiet (l : List Nat) : flagsOf (l.map fun _ => {}) = {} :=
  (flagsOf_nv l fun _ => false).trans (by simp)

theorem FFlags.or_nv (fl : FFlags) (b : Bool) : fl.or { nv := b } = { fl with nv := fl.nv || b } := by
  simp [FFlags.or]

theorem FFlags.or_quiet (fl : FFlags) : fl.or {} = fl := by simp [FFlags.or]

/-! Lanes written to a vector register (R195, R196) -/

/-- A lane operation raises the flags of its active lanes (R200). -/
theorem laneOp_fflags (s : State) (p : PCtl) (w : Nat) (a : VReg) (f : Nat → FRes) :
    (s.laneOp p w a f).me.fflags = s.me.fflags.or
      (flagsOf ((List.range (laneCount w)).map fun k => if s.active p w k then (f k).2 else {})) := by
  simp [State.laneOp, Slot.raise, Function.comp_def, apply_ite Prod.snd]

theorem laneOp_pc (s : State) (p : PCtl) (w : Nat) (a : VReg) (f : Nat → FRes) :
    (s.laneOp p w a f).me.pc = s.done.me.pc := by
  simp [State.laneOp, State.done, Slot.raise, Slot.retire, Slot.retireTo]

theorem laneMap_lanesAre (s : State) (p : PCtl) (w : Nat) (a : VReg) (f : Nat → Nat) :
    LanesAre s (s.laneMap p w a f) p w a f :=
  fun i hi => State.laneOp_lane s p w a (fun k => (f k, {})) i hi (Nat.mul_div_le 64 w)

theorem laneMap_fflags (s : State) (p : PCtl) (w : Nat) (a : VReg) (f : Nat → Nat) :
    (s.laneMap p w a f).me.fflags = s.me.fflags := by
  rw [State.laneMap, laneOp_fflags]
  simp only [ite_self, flagsOf_quiet, FFlags.or_quiet]

/-- A form that maps lanes answers with those lanes, and raises no flag. -/
theorem laneMap_answers (s : State) (p : PCtl) (w : Nat) (a : VReg) (f : Nat → Nat) :
    ∃ t : State, (.next (s.laneMap p w a f) : Out) = .next t ∧ LanesAre s t p w a f ∧ t.me.fflags = s.me.fflags ∧
      t.me.pc = s.done.me.pc :=
  ⟨_, rfl, laneMap_lanesAre s p w a f, laneMap_fflags s p w a f, laneOp_pc ..⟩

/-- A vector register written from eight words holds them as its lanes (R212: VFROMM). -/
theorem doneV_words_lanesAre (s : State) (a : VReg) (ws : List Word) (h : ws.length = 8) :
    LanesAre s (s.doneV a (vecOfLanes 8 (ws.map BitVec.toNat))) .all 8 a fun j => (ws.getD j 0).toNat := by
  intro j hj
  have inside : j < (ws.map BitVec.toNat).length := by rw [List.length_map]; omega
  rw [State.doneV_v, if_pos rfl, lane_vecOfLanes 8 _ j inside (by rw [List.length_map]; omega), List.getElem_map,
    List.getElem_eq_getD 0]
  rfl

theorem doneV_fflags (s : State) (a : VReg) (v : Vec) : (s.doneV a v).me.fflags = s.me.fflags := by
  simp [State.doneV]

theorem doneV_pc (s : State) (a : VReg) (v : Vec) : (s.doneV a v).me.pc = s.done.me.pc := by
  simp [State.doneV, State.done, Slot.retire, Slot.retireTo]

/-! Bits of the lanes of a predicate (R209) -/

/-- A number whose bits all lie in lane i of w bits. -/
def InLane (w i n : Nat) : Prop := ∃ d, d < 2 ^ w ∧ n = d * 2 ^ (w * i)

theorem inLane_zero (w i : Nat) : InLane w i 0 := ⟨0, Nat.two_pow_pos w, (Nat.zero_mul _).symm⟩

theorem inLane_laneBits (w i : Nat) (x : Bool) : InLane w i (laneBits w i x) := by
  cases x with
  | true => exact ⟨2 ^ w - 1, Nat.sub_lt (Nat.two_pow_pos w) Nat.one_pos, rfl⟩
  | false => exact inLane_zero w i

theorem inLane_oldBits (q : Word) (w i : Nat) : InLane w i (oldBits q w i) := ⟨_, fld_lt q (w * i) w, rfl⟩

theorem sum_lanes_lt (w n : Nat) (g : Nat → Nat) (h : ∀ i, InLane w i (g i)) :
    ((List.range n).map g).sum < 2 ^ (w * n) := by
  induction n with
  | zero => simp
  | succ n ih =>
    obtain ⟨d, small, digit⟩ := h n
    rw [List.range_succ, List.map_append, List.sum_append, List.map_singleton, List.sum_singleton, digit, Nat.mul_succ,
      Nat.pow_add]
    calc ((List.range n).map g).sum + d * 2 ^ (w * n) < 2 ^ (w * n) + d * 2 ^ (w * n) := Nat.add_lt_add_right ih _
      _ = 2 ^ (w * n) * (d + 1) := by rw [Nat.mul_succ, Nat.mul_comm d, Nat.add_comm]
      _ ≤ 2 ^ (w * n) * 2 ^ w := Nat.mul_le_mul_left _ small

/-- Lanes added up keep their bits: bit j of the sum is that of its own lane. -/
theorem testBit_sum_lanes (w n : Nat) (g : Nat → Nat) (h : ∀ i, InLane w i (g i)) (j : Nat) (hj : j < w * n) :
    ((List.range n).map g).sum.testBit j = (g (j / w)).testBit j := by
  induction n with
  | zero => omega
  | succ n ih =>
    obtain ⟨d, -, digit⟩ := h n
    rw [List.range_succ, List.map_append, List.sum_append, List.map_singleton, List.sum_singleton, digit,
      Nat.add_comm, Nat.mul_comm d, Nat.testBit_two_pow_mul_add _ (sum_lanes_lt w n g h)]
    split
    case isTrue below => exact ih below
    case isFalse top =>
      have own : j / w = n := Nat.div_eq_of_lt_le (by rw [Nat.mul_comm]; omega) (by rw [Nat.mul_comm]; exact hj)
      rw [own, digit, Nat.testBit_mul_two_pow, decide_eq_true (Nat.le_of_not_lt top), Bool.true_and]

theorem testBit_laneBits (w j : Nat) (pos : 0 < w) (x : Bool) : (laneBits w (j / w) x).testBit j = x := by
  cases x with
  | true =>
    have parts := Nat.div_add_mod j w
    have rest := Nat.mod_lt j pos
    rw [laneBits, if_pos rfl, Nat.testBit_mul_two_pow, Nat.testBit_two_pow_sub_one,
      decide_eq_true (by omega), decide_eq_true (by omega)]
    rfl
  | false => exact Nat.zero_testBit j

theorem testBit_oldBits (q : Word) (w j : Nat) (pos : 0 < w) : (oldBits q w (j / w)).testBit j = q.getLsbD j := by
  have parts := Nat.div_add_mod j w
  have rest := Nat.mod_lt j pos
  rw [oldBits, fld, Nat.testBit_mul_two_pow, Nat.testBit_mod_two_pow, Nat.testBit_div_two_pow,
    decide_eq_true (by omega), decide_eq_true (by omega), Nat.sub_add_cancel (by omega)]
  rfl

/-! A comparison of lanes into a predicate (R209) -/

/-- The bits of lane i in a predicate that held q, after a comparison with result x there. -/
def cmpBits (s : State) (p : PCtl) (w : Nat) (q : Word) (x : Bool) (i : Nat) : Nat :=
  if s.active p w i then laneBits w i x else match p with | .zero _ => 0 | _ => oldBits q w i

theorem inLane_cmpBits (s : State) (p : PCtl) (w : Nat) (q : Word) (x : Bool) (i : Nat) :
    InLane w i (cmpBits s p w q x i) := by
  unfold cmpBits
  split
  · exact inLane_laneBits w i x
  · split
    · exact inLane_zero w i
    · exact inLane_oldBits q w i

theorem testBit_cmpBits (s : State) (p : PCtl) (w : Nat) (q : Word) (x : Bool) (j : Nat) (pos : 0 < w) :
    (cmpBits s p w q x (j / w)).testBit j =
      if s.active p w (j / w) then x else match p with | .zero _ => false | _ => q.getLsbD j := by
  unfold cmpBits
  split
  · exact testBit_laneBits w j pos x
  · cases p with
    | zero => exact Nat.zero_testBit j
    | all => exact testBit_oldBits q w j pos
    | merge => exact testBit_oldBits q w j pos

theorem cmpOp_p (s : State) (p : PCtl) (w : Nat) (a : PReg) (f : Nat → Bool × FFlags) : (s.cmpOp p w a f).p a =
    word ((List.range (laneCount w)).map fun i => cmpBits s p w (s.p a) (f i).1 i).sum := by
  have reads (q : Word) (fl : FFlags) : (s.setMe (((s.me.setP a q).raise fl).retire [])).p a = q := by
    simp [State.p, Slot.raise, Slot.setP_get]
  rw [State.cmpOp, reads, List.map_map]
  congr 3
  funext i
  simp only [Function.comp_apply, cmpBits]
  split <;> rfl

/-- Bit j of the predicate is the result of its lane where that is active. -/
theorem cmpOp_getLsbD (s : State) (p : PCtl) (w : Nat) (a : PReg) (f : Nat → Bool × FFlags) (whole : w ∣ 64) (j : Nat)
    (hj : j < 64) : ((s.cmpOp p w a f).p a).getLsbD j = if s.active p w (j / w) then (f (j / w)).1
      else match p with | .zero _ => false | _ => (s.p a).getLsbD j := by
  have inside : j < w * laneCount w := (Nat.mul_div_cancel' whole).symm ▸ hj
  rw [cmpOp_p, word_getLsbD, decide_eq_true hj, Bool.true_and,
    testBit_sum_lanes w _ _ (fun i => inLane_cmpBits s p w (s.p a) (f i).1 i) j inside]
  exact testBit_cmpBits s p w (s.p a) _ j (Nat.pos_of_dvd_of_pos whole (by decide))

theorem cmpOp_fflags (s : State) (p : PCtl) (w : Nat) (a : PReg) (f : Nat → Bool × FFlags) :
    (s.cmpOp p w a f).me.fflags = s.me.fflags.or
      (flagsOf ((List.range (laneCount w)).map fun k => if s.active p w k then (f k).2 else {})) := by
  simp [State.cmpOp, Slot.raise, Function.comp_def, apply_ite Prod.snd]

theorem cmpOp_pc (s : State) (p : PCtl) (w : Nat) (a : PReg) (f : Nat → Bool × FFlags) :
    (s.cmpOp p w a f).me.pc = s.done.me.pc := by
  simp [State.cmpOp, State.done, Slot.raise, Slot.retire, Slot.retireTo]

/-- A form that compares lanes, each raising NV or nothing, sets the predicate, NV and the program counter by them. -/
theorem cmpOp_answers {s : State} {i : Instr} {p : PCtl} {w : Nat} {a : PReg} {r nv : Nat → Bool} (whole : w ∣ 64) :
    exec i s = .next (s.cmpOp p w a fun k => (r k, { nv := nv k })) →
    ∃ t : State, exec i s = .next t ∧ t.me.pc = s.done.me.pc ∧
      (∀ j, j < 64 → (t.p a).getLsbD j = if s.active p w (j / w) then r (j / w)
        else match p with | .zero _ => false | _ => (s.p a).getLsbD j) ∧
      t.me.fflags = { s.me.fflags with
        nv := s.me.fflags.nv || (List.range (64 / w)).any fun k => s.active p w k && nv k } := by
  intro h
  refine ⟨_, h, cmpOp_pc .., cmpOp_getLsbD s p w a _ whole, ?flags⟩
  have raised (k : Nat) : (if s.active p w k then { nv := nv k } else ({} : FFlags)) =
      { nv := s.active p w k && nv k } := by
    cases s.active p w k <;> rfl
  simp only [cmpOp_fflags, raised, flagsOf_nv, FFlags.or_nv]
  rfl

theorem compare_int (s : State) (a : PReg) (b c : VReg) (t : ITy) (p : PCtl) (fi : Int → Int → Bool)
    (ff : FVal → FVal → Bool) (anyNaN : Bool) : s.compare a b c (.int t) p fi ff anyNaN =
      s.cmpOp p t.bytes a fun k => (fi (laneInt t (s.v b) k) (laneInt t (s.v c) k), { nv := false }) := by
  simp only [State.compare, intLane_eq_laneInt]

/-- VCMP.NE compares by the numbers' own inequality. -/
theorem compare_int_ne (s : State) (a : PReg) (b c : VReg) (t : ITy) (p : PCtl) (ff : FVal → FVal → Bool)
    (anyNaN : Bool) : s.compare a b c (.int t) p (fun x y => x != y) ff anyNaN =
      s.cmpOp p t.bytes a fun k => (decide (laneInt t (s.v b) k ≠ laneInt t (s.v c) k), { nv := false }) := by
  simp only [compare_int, bne, Bool.beq_eq_decide_eq, decide_not]

theorem int_bytes_dvd (t : ITy) : t.bytes ∣ 64 := by cases t <;> decide

theorem flt_bytes_dvd (t : FTy) : t.bytes ∣ 64 := by cases t <;> decide

end Sys2Proof.Machine
end

section
/-!
SUPPORT. A predicate read by lanes of a width, and the first lanes of it (10_vector_instructions.md R219).
-/

namespace Sys2Proof.Machine

theorem bitOf_toNat (q : Word) (k : Nat) : bitOf q.toNat k = q.getLsbD k := by
  rw [BitVec.getLsbD, Nat.testBit_eq_decide_div_mod_eq, bitOf, Bool.beq_eq_decide_eq]

theorem predLane_eq (q : Word) (w : Nat) : predLane q w = fun k => q.getLsbD (w * k) :=
  funext fun k => by rw [predLane, bitOf_toNat, Nat.mul_comm]

theorem exec_pfirst_none (s : State) (r : XReg) (b : PReg) (wc : Fin 4)
    (clear : ∀ k, k < laneCount (widthOf wc) → predLane (s.p b) (widthOf wc) k = false) :
    exec (.pfirst r b wc) s = .next (s.doneX r 0xFFFFFFFFFFFFFFFF) := by
  have found : (List.range (laneCount (widthOf wc))).find? (predLane (s.p b) (widthOf wc)) = none := by
    simpa using clear
  exact next_doneX_congr (by rw [found]; rfl)

theorem exec_pfirst_some (s : State) (r : XReg) (b : PReg) (wc : Fin 4) (k : Nat) (inside : k < laneCount (widthOf wc))
    (isSet : predLane (s.p b) (widthOf wc) k = true) (first : ∀ j, j < k → predLane (s.p b) (widthOf wc) j = false) :
    exec (.pfirst r b wc) s = .next (s.doneX r (word k)) := by
  have found : (List.range (laneCount (widthOf wc))).find? (predLane (s.p b) (widthOf wc)) = some k :=
    List.find?_range_eq_some.mpr ⟨isSet, List.mem_range.mpr inside, fun j below => by rw [first j below]; rfl⟩
  exact next_doneX_congr (by rw [found])

theorem getLsbD_firstBits (n j : Nat) (hj : j < 64) : (word (2 ^ n - 1)).getLsbD j = decide (j < n) := by
  rw [word_getLsbD, decide_eq_true hj, Nat.testBit_two_pow_sub_one, Bool.true_and]

end Sys2Proof.Machine
end

section
/-!
PROOFS. The statements of the vector moves, the comparisons and the predicate forms.
-/

namespace Sys2Proof.Machine

/-- Settles O44: every move and permutation is a lane map but VFROMM, which writes the whole register. -/
theorem movesPlaceLanes : Obligations.MovesPlaceLanes := by
  unfold Obligations.MovesPlaceLanes
  rintro s a b c r k ty ity p i w n e f x y rfl rfl rfl rfl form
  refine ⟨?placed, ?extracted⟩
  case placed =>
    obtain ⟨rfl, ⟨rfl, rfl⟩ | ⟨rfl, rfl, rfl⟩ | ⟨rfl, rfl⟩ | ⟨rfl, rfl⟩ | ⟨rfl, rfl⟩ | ⟨rfl, rfl⟩ | ⟨rfl, rfl⟩⟩ |
      ⟨rfl, rfl, rfl⟩ | ⟨rfl, rfl, rfl, rfl⟩ := form
    -- VFROMM
    case inr.inr =>
      have words : s.me.m.toList.length = 8 := Vector.length_toList
      exact ⟨_, rfl, doneV_words_lanesAre s a _ words, doneV_fflags .., doneV_pc ..⟩
    all_goals exact laneMap_answers ..
  case extracted =>
    rintro rfl
    cases ty with
    | int t => exact next_doneX_congr (extendLane_int t _)
    | flt t => rfl

/-- Settles O46: every comparison is one lane comparison, each lane with its result and its NV, and the predicate forms
read and write the lanes of their width. -/
theorem comparisonsAndPredicates : Obligations.ComparisonsAndPredicates := by
  unfold Obligations.ComparisonsAndPredicates
  refine ⟨?comparisons, ?predicates⟩
  case comparisons =>
    rintro s a b c ty fty p i w r nv x y m n g h rfl rfl rfl rfl rfl rfl form
    obtain ⟨rfl, rfl, form⟩ | ⟨rfl, rfl, form⟩ | ⟨rfl, rfl, form⟩ := form
    case inl =>
      apply cmpOp_answers (int_bytes_dvd ty)
      obtain ⟨rfl, rfl⟩ | ⟨rfl, rfl⟩ | ⟨rfl, rfl⟩ | ⟨rfl, rfl⟩ | ⟨rfl, rfl⟩ | ⟨rfl, rfl⟩ | unsigned := form
      -- VCMP.NE, then the forms that compare the bits as they are
      case inr.inl => exact congrArg Host.Outcome.next (compare_int_ne ..)
      case inr.inr.inr.inr.inr.inr => obtain ⟨rfl, rfl⟩ | ⟨rfl, rfl⟩ := unsigned <;> rfl
      all_goals exact congrArg Host.Outcome.next (compare_int ..)
    case inr.inl =>
      apply cmpOp_answers (flt_bytes_dvd fty)
      obtain ⟨rfl, rfl⟩ | ⟨rfl, rfl⟩ | ⟨rfl, rfl⟩ := form
      all_goals rfl
    case inr.inr =>
      apply cmpOp_answers (flt_bytes_dvd fty)
      obtain ⟨rfl, rfl⟩ | ⟨rfl, rfl⟩ | ⟨rfl, rfl⟩ | ⟨rfl, rfl⟩ := form
      all_goals rfl
  case predicates =>
    rintro s a b c r wc w n rfl rfl
    refine ⟨rfl, rfl, rfl, rfl, rfl, rfl, ?count, fun clear => ?first_none, fun k inside isSet first => ?first_some,
      ?len⟩
    case count => exact next_doneX_congr (by rw [predLane_eq]; rfl)
    case first_none => exact exec_pfirst_none s r b wc (by rw [predLane_eq]; exact clear)
    case first_some =>
      exact exec_pfirst_some s r b wc k inside (by rw [predLane_eq]; exact isSet) (by rw [predLane_eq]; exact first)
    case len => exact ⟨_, rfl, getLsbD_firstBits _⟩

end Sys2Proof.Machine
end
